-- ==== Sys2Proof/Word.lean ====
section
/-! DEFINITION. The block's word types: 8-bit bytes (R70) and sequences of stream bits (R9). -/

namespace Sys2Proof

/-- A byte: "Bytes are 8 bits everywhere" (R70). -/
abbrev Byte := BitVec 8

/-- A sequence of stream bits, the first stream bit at the head (R9). -/
abbrev Bits := List Bool

end Sys2Proof
end

