-- ==== Sys2Proof/Config.lean ====
section
/-! DEFINITION. The implementation parameters of R7: what one build of the block fixes. The fixed
wire-format constants of R7 are in Machine/Tables.lean; the free values (R54 to R57) are declared
beside the registers they stand for, in Machine/State.lean. -/

namespace Sys2Proof

/-- WALK_ORDER (R7, R218): the direction in which a hash bucket is walked. -/
inductive WalkOrder where
  | newestFirst
  | oldestFirst
  deriving DecidableEq, Repr, Inhabited

/-- FDICT_POLICY (R7, R305): what the INFLATE engine does with a header whose FDICT bit is set. -/
inductive FdictPolicy where
  | error
  | skip
  deriving DecidableEq, Repr, Inhabited

/-- The rows of R7 marked `param`. `deflateMinOut` is a host-side figure that no rule reads. -/
structure Config where
  histCap : Nat
  winCap : Nat
  tokenCap : Nat
  deflateMinOut : Nat
  xlen : Nat
  cntW : Nat
  nbuckets : Nat
  walkOrder : WalkOrder
  fdictPolicy : FdictPolicy
  deriving DecidableEq, Repr, Inhabited

/-- The defaults of R7. -/
def Config.default : Config where
  histCap := 16384
  winCap := 65536
  tokenCap := 4096
  deflateMinOut := 1
  xlen := 32
  cntW := 64
  nbuckets := 4096
  walkOrder := .newestFirst
  fdictPolicy := .error

/-- The constraints R7 puts on the parameters: WIN_CAP ≥ MAX_DIST + MAX_MATCH = 33026, TOKEN_CAP ≥ 1,
and capacities that hold at least one entry. -/
def Config.legal (c : Config) : Bool :=
  decide (33026 ≤ c.winCap) && decide (1 ≤ c.tokenCap) && decide (1 ≤ c.histCap) && decide (1 ≤ c.nbuckets)

end Sys2Proof
end

