-- ==== Sys2Proof/Syntax.lean ====
section
/-! DEFINITION. The instructions of the block: the wire elements of the compressed stream and the host
commands, one constructor per row of spec/opcode_table.json. Operands are the fields the element
carries: the extra bits of a symbol (R110, R115, R116, R118), the fields of a header (R101 to R108), the
operands of a command (R431 to R435). -/

namespace Sys2Proof

/-- The causes of ERROR_FORMAT (R451), with NONE. -/
inductive Cause where
  | none
  | hdrTruncated
  | hdrMethod
  | hdrCinfo
  | hdrFcheck
  | hdrFdict
  | blockType
  | storedNlen
  | alphabetSize
  | repeatNoPrev
  | codeOversubscribed
  | codeWalkoff
  | symbolInvalid
  | distTooFar
  | inputExhausted
  deriving DecidableEq, Repr, Inhabited

/-- The buffer a STEP names (R72, R435): the opaque name of the OUTPUT space, and the bytes the host's buffer
holds from offset 0 on. -/
structure Buffer where
  name : Nat := 0
  bytes : List Byte := []
  deriving DecidableEq, Repr, Inhabited

/-- The operands a host transaction carries beside its command code (R109, R431, R433, R434, R435): the
allocator's answer, the opaque name of a space, the bytes of its buffer (the input of a RESET, or what the
output buffer of a STEP holds), the level and the capacity. -/
structure HostOps where
  allocOk : Bool := false
  space : Nat := 0
  data : List Byte := []
  level : BitVec 2 := 0
  cap : Nat := 0
  deriving DecidableEq, Repr, Inhabited

/-- The wire elements and the host commands. -/
inductive Instr where
  /-- ZHDR (R301, R101): CM, CINFO, FCHECK, FDICT, FLEVEL. -/
  | zhdr (cm cinfo : BitVec 4) (fcheck : BitVec 5) (fdict : Bool) (flevel : BitVec 2)
  /-- DICTID (R305, R102): the dictionary id, most significant byte first on the wire. -/
  | dictid (id : BitVec 32)
  /-- BHDR with BTYPE = 0 (R322, R103); the operand is BFINAL. -/
  | bhdrStored (final : Bool)
  /-- BHDR with BTYPE = 1 (R322). -/
  | bhdrFixed (final : Bool)
  /-- BHDR with BTYPE = 2 (R322). -/
  | bhdrDynamic (final : Bool)
  /-- BHDR with the reserved BTYPE = 3 (R322). -/
  | bhdrReserved (final : Bool)
  /-- PAD (R330): the bits up to the next byte boundary. -/
  | pad
  /-- SHDR (R331, R104): LEN and NLEN. -/
  | shdr (len nlen : BitVec 16)
  /-- RAW (R332): one byte of stored data. -/
  | raw (b : Byte)
  /-- DYNHDR (R334, R105): HLIT, HDIST, HCLEN. -/
  | dynhdr (hlit hdist : BitVec 5) (hclen : BitVec 4)
  /-- CLLENS (R335, R106): one 3-bit code-length-code length. -/
  | cllens (len : BitVec 3)
  /-- TRAILER (R309, R108): the Adler-32. -/
  | trailer (adler : BitVec 32)
  /-- LIT (R520). -/
  | lit (b : Byte)
  /-- EOB (R521). -/
  | eob
  /-- LEN257 (R522): match length 3. -/
  | len257
  /-- LEN258 (R523): match length 4. -/
  | len258
  /-- LEN259 (R524): match length 5. -/
  | len259
  /-- LEN260 (R525): match length 6. -/
  | len260
  /-- LEN261 (R526): match length 7. -/
  | len261
  /-- LEN262 (R527): match length 8. -/
  | len262
  /-- LEN263 (R528): match length 9. -/
  | len263
  /-- LEN264 (R529): match length 10. -/
  | len264
  /-- LEN265 (R530): match length 11 + x. -/
  | len265 (x : BitVec 1)
  /-- LEN266 (R531): match length 13 + x. -/
  | len266 (x : BitVec 1)
  /-- LEN267 (R532): match length 15 + x. -/
  | len267 (x : BitVec 1)
  /-- LEN268 (R533): match length 17 + x. -/
  | len268 (x : BitVec 1)
  /-- LEN269 (R534): match length 19 + x. -/
  | len269 (x : BitVec 2)
  /-- LEN270 (R535): match length 23 + x. -/
  | len270 (x : BitVec 2)
  /-- LEN271 (R536): match length 27 + x. -/
  | len271 (x : BitVec 2)
  /-- LEN272 (R537): match length 31 + x. -/
  | len272 (x : BitVec 2)
  /-- LEN273 (R538): match length 35 + x. -/
  | len273 (x : BitVec 3)
  /-- LEN274 (R539): match length 43 + x. -/
  | len274 (x : BitVec 3)
  /-- LEN275 (R540): match length 51 + x. -/
  | len275 (x : BitVec 3)
  /-- LEN276 (R541): match length 59 + x. -/
  | len276 (x : BitVec 3)
  /-- LEN277 (R542): match length 67 + x. -/
  | len277 (x : BitVec 4)
  /-- LEN278 (R543): match length 83 + x. -/
  | len278 (x : BitVec 4)
  /-- LEN279 (R544): match length 99 + x. -/
  | len279 (x : BitVec 4)
  /-- LEN280 (R545): match length 115 + x. -/
  | len280 (x : BitVec 4)
  /-- LEN281 (R546): match length 131 + x. -/
  | len281 (x : BitVec 5)
  /-- LEN282 (R547): match length 163 + x. -/
  | len282 (x : BitVec 5)
  /-- LEN283 (R548): match length 195 + x. -/
  | len283 (x : BitVec 5)
  /-- LEN284 (R549): match length 227 + x. -/
  | len284 (x : BitVec 5)
  /-- LEN285 (R550): match length 258. -/
  | len285
  /-- LL286, reserved (R551). -/
  | ll286
  /-- LL287, reserved (R551). -/
  | ll287
  /-- DIST0 (R553): distance 1. -/
  | dist0
  /-- DIST1 (R554): distance 2. -/
  | dist1
  /-- DIST2 (R555): distance 3. -/
  | dist2
  /-- DIST3 (R556): distance 4. -/
  | dist3
  /-- DIST4 (R557): distance 5 + y. -/
  | dist4 (y : BitVec 1)
  /-- DIST5 (R558): distance 7 + y. -/
  | dist5 (y : BitVec 1)
  /-- DIST6 (R559): distance 9 + y. -/
  | dist6 (y : BitVec 2)
  /-- DIST7 (R560): distance 13 + y. -/
  | dist7 (y : BitVec 2)
  /-- DIST8 (R561): distance 17 + y. -/
  | dist8 (y : BitVec 3)
  /-- DIST9 (R562): distance 25 + y. -/
  | dist9 (y : BitVec 3)
  /-- DIST10 (R563): distance 33 + y. -/
  | dist10 (y : BitVec 4)
  /-- DIST11 (R564): distance 49 + y. -/
  | dist11 (y : BitVec 4)
  /-- DIST12 (R565): distance 65 + y. -/
  | dist12 (y : BitVec 5)
  /-- DIST13 (R566): distance 97 + y. -/
  | dist13 (y : BitVec 5)
  /-- DIST14 (R567): distance 129 + y. -/
  | dist14 (y : BitVec 6)
  /-- DIST15 (R568): distance 193 + y. -/
  | dist15 (y : BitVec 6)
  /-- DIST16 (R569): distance 257 + y. -/
  | dist16 (y : BitVec 7)
  /-- DIST17 (R570): distance 385 + y. -/
  | dist17 (y : BitVec 7)
  /-- DIST18 (R571): distance 513 + y. -/
  | dist18 (y : BitVec 8)
  /-- DIST19 (R572): distance 769 + y. -/
  | dist19 (y : BitVec 8)
  /-- DIST20 (R573): distance 1025 + y. -/
  | dist20 (y : BitVec 9)
  /-- DIST21 (R574): distance 1537 + y. -/
  | dist21 (y : BitVec 9)
  /-- DIST22 (R575): distance 2049 + y. -/
  | dist22 (y : BitVec 10)
  /-- DIST23 (R576): distance 3073 + y. -/
  | dist23 (y : BitVec 10)
  /-- DIST24 (R577): distance 4097 + y. -/
  | dist24 (y : BitVec 11)
  /-- DIST25 (R578): distance 6145 + y. -/
  | dist25 (y : BitVec 11)
  /-- DIST26 (R579): distance 8193 + y. -/
  | dist26 (y : BitVec 12)
  /-- DIST27 (R580): distance 12289 + y. -/
  | dist27 (y : BitVec 12)
  /-- DIST28 (R581): distance 16385 + y. -/
  | dist28 (y : BitVec 13)
  /-- DIST29 (R582): distance 24577 + y. -/
  | dist29 (y : BitVec 13)
  /-- DIST30, reserved (R583). -/
  | dist30
  /-- DIST31, reserved (R583). -/
  | dist31
  /-- CL (R584): the next code length is `v`. -/
  | cl (v : BitVec 4)
  /-- CL16 (R585): repeat the previous length 3 + x times. -/
  | cl16 (x : BitVec 2)
  /-- CL17 (R586): repeat the length zero 3 + x times. -/
  | cl17 (x : BitVec 3)
  /-- CL18 (R587): repeat the length zero 11 + x times. -/
  | cl18 (x : BitVec 7)
  /-- INF.CREATE (R431). -/
  | infCreate (allocOk : Bool)
  /-- INF.RESET (R433): the name of the INPUT space and its bytes (their number is `length`). -/
  | infReset (input : Nat) (data : List Byte)
  /-- INF.STEP (R435): the OUTPUT space, and its capacity. -/
  | infStep (out : Buffer) (cap : Nat)
  /-- INF.DESTROY (R438). -/
  | infDestroy
  /-- DEF.CREATE (R431). -/
  | defCreate (allocOk : Bool)
  /-- DEF.RESET (R434): as INF.RESET, and the level. -/
  | defReset (input : Nat) (data : List Byte) (level : BitVec 2)
  /-- DEF.STEP (R435), as INF.STEP. -/
  | defStep (out : Buffer) (cap : Nat)
  /-- DEF.DESTROY (R438). -/
  | defDestroy
  deriving DecidableEq, Repr, Inhabited

end Sys2Proof
end

