-- ==== Sys2Proof/Machine/Bits.lean ====
section
/-! DEFINITION. Packing values into stream bits and taking them out again (R8 to R11, R73 to R75). -/

namespace Sys2Proof

/-- `LE(n, v)` of R10: `v[0], v[1], …, v[n-1]`. -/
def bitsLE : Nat → Nat → Bits
  | 0, _ => []
  | n + 1, v => (v % 2 == 1) :: bitsLE n (v / 2)

/-- `BE(n, v)` of R10: `v[n-1], …, v[1], v[0]`. -/
def bitsBE (n v : Nat) : Bits := (bitsLE n v).reverse

/-- The integer whose bit `i` is the `i`-th bit of the sequence (R141: "assembled into an integer"). -/
def ofBitsLE : Bits → Nat
  | [] => 0
  | b :: bs => b.toNat + 2 * ofBitsLE bs

/-- The integer whose most significant bit is the first bit of the sequence (R142). -/
def ofBitsBE (bs : Bits) : Nat := ofBitsLE bs.reverse

/-- `rev(n, v)` of R11: the `n`-bit value whose bit `i` is `v[n-1-i]`. -/
def revBits (n v : Nat) : Nat := ofBitsLE (bitsBE n v)

/-- The first `n` bits and the rest, if there are `n`. -/
def takeBits : Nat → Bits → Option (Bits × Bits)
  | 0, bs => some ([], bs)
  | _ + 1, [] => none
  | n + 1, b :: bs => (takeBits n bs).map fun p => (b :: p.1, p.2)

/-- The stream bits of a byte sequence (R9): each byte's bits from its least significant end. -/
def bitsOfBytes : List Byte → Bits
  | [] => []
  | b :: bs => bitsLE 8 b.toNat ++ bitsOfBytes bs

/-- Cut a bit sequence into bytes (R9), the last one filled up with zero bits; `k` bits of the byte
being filled are in `acc` already. -/
def packBits : Nat → Nat → Bits → List Byte
  | 0, _, [] => []
  | _ + 1, acc, [] => [BitVec.ofNat 8 acc]
  | k, acc, b :: bs =>
    if k = 7 then BitVec.ofNat 8 (acc + b.toNat * 128) :: packBits 0 0 bs
    else packBits (k + 1) (acc + b.toNat * 2 ^ k) bs

/-- The bytes a bit sequence occupies in a buffer, from stream bit 0 (R9). -/
def bytesOfBits (bs : Bits) : List Byte := packBits 0 0 bs

end Sys2Proof
end

