-- ==== Sys2Proof/Machine/Tables.lean ====
section
/-! DEFINITION. The constants of the wire format: the fixed rows of R7 and the tables of R113 to R118. -/

namespace Sys2Proof

/-- MIN_MATCH (R7). -/
def minMatch : Nat := 3
/-- MAX_MATCH (R7). -/
def maxMatch : Nat := 258
/-- MAX_DIST (R7). -/
def maxDist : Nat := 32768
/-- STORED_MAX (R7). -/
def storedMax : Nat := 65535
/-- LL_SYMS (R7). -/
def llSyms : Nat := 286
/-- D_SYMS (R7). -/
def dSyms : Nat := 30
/-- CL_SYMS (R7). -/
def clSyms : Nat := 19
/-- LL_MAXBITS (R7). -/
def llMaxBits : Nat := 15
/-- D_MAXBITS (R7). -/
def dMaxBits : Nat := 15
/-- CL_MAXBITS (R7). -/
def clMaxBits : Nat := 7
/-- PEND_MAX (R7, R36): the bits one write adds at most (R78). -/
def pendMax : Nat := 16
/-- INFLATE_MIN_OUT_DOC (R7, R441): advice to the host, which no rule of the block reads. -/
def inflateMinOutDoc : Nat := 258
/-- ADLER_MOD (R7). -/
def adlerMod : Nat := 65521

/-- LEN_BASE (R115). -/
def lenBaseTable : List Nat :=
  [3, 4, 5, 6, 7, 8, 9, 10, 11, 13]
  ++ [15, 17, 19, 23, 27, 31, 35, 43, 51, 59]
  ++ [67, 83, 99, 115, 131, 163, 195, 227, 258]

/-- LEN_EXTRA (R115). -/
def lenExtraTable : List Nat :=
  [0, 0, 0, 0, 0, 0, 0, 0, 1, 1]
  ++ [1, 1, 2, 2, 2, 2, 3, 3, 3, 3]
  ++ [4, 4, 4, 4, 5, 5, 5, 5, 0]

/-- DIST_BASE (R116). -/
def distBaseTable : List Nat :=
  [1, 2, 3, 4, 5, 7, 9, 13, 17, 25]
  ++ [33, 49, 65, 97, 129, 193, 257, 385, 513, 769]
  ++ [1025, 1537, 2049, 3073, 4097, 6145, 8193, 12289, 16385, 24577]

/-- DIST_EXTRA (R116). -/
def distExtraTable : List Nat :=
  [0, 0, 0, 0, 1, 1, 2, 2, 3, 3]
  ++ [4, 4, 5, 5, 6, 6, 7, 7, 8, 8]
  ++ [9, 9, 10, 10, 11, 11, 12, 12, 13, 13]

/-- `LEN_BASE[i]`. -/
def lenBase (i : Nat) : Nat := lenBaseTable.getD i 0

/-- `LEN_EXTRA[i]`. -/
def lenExtra (i : Nat) : Nat := lenExtraTable.getD i 0

/-- `DIST_BASE[j]`. -/
def distBase (j : Nat) : Nat := distBaseTable.getD j 0

/-- `DIST_EXTRA[j]`. -/
def distExtra (j : Nat) : Nat := distExtraTable.getD j 0

/-- HCLENS_ORDER (R117). -/
def hclensOrder : List Nat := [16, 17, 18, 0, 8, 7, 9, 6, 10] ++ [5, 11, 4, 12, 3, 13, 2, 14, 1, 15]

/-- `HCLENS_ORDER[k]`. -/
def clOrder (k : Nat) : Nat := hclensOrder.getD k 0

/-- FIX_LL_LEN[0..287] (R113). -/
def fixLlLen : List Nat :=
  List.replicate 144 8 ++ List.replicate 112 9 ++ List.replicate 24 7 ++ List.replicate 8 8

/-- FIX_D_LEN[0..31] (R114). -/
def fixDLen : List Nat := List.replicate 32 5

/-- The number of extra bits of a code-length symbol (R118; `xb` of R396). -/
def clExtra (s : Nat) : Nat := if s = 16 then 2 else if s = 17 then 3 else if s = 18 then 7 else 0

/-- The number of extra bits after a lit/len symbol (R115). -/
def llExtra (s : Nat) : Nat := if 257 ≤ s ∧ s ≤ 285 then lenExtra (s - 257) else 0

/-- The number of extra bits after a distance symbol (R116); none after the reserved 30 and 31 (R583). -/
def dExtra (s : Nat) : Nat := if s < dSyms then distExtra s else 0

end Sys2Proof
end

