-- ==== Sys2Proof/Machine/Huffman.lean ====
section
/-! DEFINITION. The canonical Huffman codec (R170 to R181): code assignment, decode tries, symbol
decoding, and the encoder's length assignment. -/

namespace Sys2Proof

/-! ### assignCodes (R174) -/

/-- `count[b]` of R174, with `count[0]` forced to 0. -/
def countLen (len : List Nat) (b : Nat) : Nat := if b = 0 then 0 else len.count b

/-- `next_code[b], next_code[b+1], …` (`fuel` of them) from `code = next_code[b-1]` (R174). -/
def nextCodesFrom (len : List Nat) : Nat → Nat → Nat → List Nat
  | 0, _, _ => []
  | fuel + 1, b, code =>
    let c := (code + countLen len (b - 1)) * 2
    c :: nextCodesFrom len fuel (b + 1) c

/-- The table `next_code[0 .. maxBits]` before any symbol is assigned (R174). -/
def nextCodes (len : List Nat) (maxBits : Nat) : List Nat := 0 :: nextCodesFrom len maxBits 1 0

/-- The last loop of R174: each used symbol takes the next code of its length. R174 assigns an unused symbol no
code, and R40 calls what the tables hold there meaningless; that it is 0 is the model's choice: DESIGN CHOICE
(log 29). -/
def assignFrom : List Nat → List Nat → List Nat
  | _, [] => []
  | tbl, l :: ls =>
    if l = 0 then 0 :: assignFrom tbl ls
    else tbl.getD l 0 :: assignFrom (tbl.set l (tbl.getD l 0 + 1)) ls

/-- `assignCodes(len)` (R174), with 0 for an unused symbol by the model's choice (log 29). -/
def assignCodes (len : List Nat) : List Nat := assignFrom (nextCodes len 15) len

/-- The wire bits of symbol `s` under a length table: `BE(len[s], code[s])` (R107, R174). -/
def symbolBits (len : List Nat) (s : Nat) : Bits := bitsBE (len.getD s 0) ((assignCodes len).getD s 0)

/-! ### decode tries (R31, R176 to R179) -/

/-- A decode trie (R31): a node entry is absent (`nil`), a leaf holding its symbol, or has the children
its MASK marks (a child that is `nil` is not marked). -/
inductive Trie where
  | nil
  | leaf (sym : Nat)
  | node (zero one : Trie)
  deriving DecidableEq, Repr, Inhabited

/-- The child of a node by a bit (R31); `nil` where it does not exist. -/
def Trie.child : Trie → Bool → Trie
  | .node z o, b => if b then o else z
  | .nil, _ => .nil
  | .leaf _, _ => .nil

/-- MASK of a node entry (R31): bit 0 tells of the 0-child, bit 1 of the 1-child. -/
def Trie.mask : Trie → BitVec 2
  | .node z o => BitVec.ofBool (decide (o ≠ .nil)) ++ BitVec.ofBool (decide (z ≠ .nil))
  | .nil => 0
  | .leaf _ => 0

/-- Mark the path of one code and put its symbol at the end (the inner loop of R176); none when the path
passes through or ends at a leaf or ends at a node with children. -/
def Trie.insert : Trie → Bits → Nat → Option Trie
  | .nil, [], s => some (.leaf s)
  | .leaf _, [], _ => none
  | .node _ _, [], _ => none
  | .leaf _, _ :: _, _ => none
  | .nil, b :: p, s =>
    (Trie.insert .nil p s).map fun t => if b then .node .nil t else .node t .nil
  | .node z o, b :: p, s =>
    if b then (Trie.insert o p s).map fun t => .node z t else (Trie.insert z p s).map fun t => .node t o

/-- The outer loop of R176 from symbol `s` on, over the pairs (length, code); none is OVERSUBSCRIBED. -/
def buildFrom : Nat → List (Nat × Nat) → Trie → Option Trie
  | _, [], t => some t
  | s, (l, c) :: rest, t =>
    if l = 0 then buildFrom (s + 1) rest t
    else if 2 ^ l ≤ c then none
    else match t.insert (bitsBE l c) s with
      | none => none
      | some t' => buildFrom (s + 1) rest t'

/-- `buildDecodeTree(len)` (R176); none is OVERSUBSCRIBED. -/
def buildDecodeTree (len : List Nat) : Option Trie := buildFrom 0 (len.zip (assignCodes len)) .nil

/-- The result of `decodeSymbol` (R178): the symbol, or the cause raised; with the number of bits
consumed and, after a symbol, the bits that follow. -/
inductive Walk where
  | found (sym used : Nat) (rest : Bits)
  | exhausted (used : Nat)
  | walkOff (used : Nat)
  deriving DecidableEq, Repr

/-- The loop of R178 at a node, `used` bits after the root. -/
def Trie.walkFrom : Trie → Bits → Nat → Walk
  | _, [], used => .exhausted used
  | t, b :: bs, used =>
    match t.child b with
    | .leaf s => .found s (used + 1) bs
    | .nil => .walkOff (used + 1)
    | .node z o => (Trie.node z o).walkFrom bs (used + 1)

/-- `decodeSymbol(tree)` (R178). -/
def Trie.walk (t : Trie) (bs : Bits) : Walk := t.walkFrom bs 0

/-- The map `T(len)` a trie stands for (R177): the symbol at the end of a bit path, if a leaf is there. -/
def Trie.lookup : Trie → Bits → Option Nat
  | .leaf s, [] => some s
  | .nil, [] => none
  | .node _ _, [] => none
  | .leaf _, _ :: _ => none
  | .nil, _ :: _ => none
  | .node z o, b :: p => if b then o.lookup p else z.lookup p

/-- The complete subtree of depth `d` whose leaves hold the symbols from `s` on. -/
def fullTrie : Nat → Nat → Trie
  | 0, s => .leaf s
  | d + 1, s => .node (fullTrie d s) (fullTrie d (s + 2 ^ d))

/-- FTREE_LL = T(FIX_LL_LEN) (R179), written out by the code ranges of R113; that it is the trie R176
builds is `ftreeLl_eq` in Laws/Huffman.lean. -/
def ftreeLl : Trie :=
  .node
    (.node
      (.node (fullTrie 4 256) (.node (fullTrie 3 272) (fullTrie 4 0)))
      (fullTrie 6 16))
    (.node
      (fullTrie 6 80)
      (.node
        (.node (.node (fullTrie 3 280) (fullTrie 4 144)) (fullTrie 5 160))
        (fullTrie 6 192)))

/-- FTREE_D = T(FIX_D_LEN) (R179): the 5-bit number of the symbol (R114). -/
def ftreeD : Trie := fullTrie 5 0

/-- Fixed-tree prefix decoding with `readBitsBE` (R122): the symbol and the number of bits read, if there
are enough. -/
def fixedPrefixDecode (bs : Bits) : Option (Nat × Nat) :=
  match takeBits 7 bs with
  | none => none
  | some (h7, r7) =>
    let v7 := ofBitsBE h7
    if v7 ≤ 23 then some (256 + v7, 7)
    else match r7 with
      | [] => none
      | b8 :: r8 =>
        let v8 := 2 * v7 + b8.toNat
        if 48 ≤ v8 ∧ v8 ≤ 191 then some (v8 - 48, 8)
        else if 192 ≤ v8 ∧ v8 ≤ 199 then some (280 + (v8 - 192), 8)
        else match r8 with
          | [] => none
          | b9 :: _ => some (144 + (2 * v8 + b9.toNat - 400), 9)

/-! ### buildLengths (R170 to R173) -/

/-- An item of the package-merge procedure (R172). -/
structure PmItem where
  weight : Nat
  members : List Nat
  deriving DecidableEq, Repr

/-- Put an item into an ascending list, after every item of the same or a smaller weight. -/
def pmInsert (x : PmItem) : List PmItem → List PmItem
  | [] => [x]
  | y :: ys => if x.weight < y.weight then x :: y :: ys else y :: pmInsert x ys

/-- `merge(leaves, pk)` of R172: ascending weight, stable, the leaf first on equal weight. -/
def pmMerge (leaves pk : List PmItem) : List PmItem := pk.foldl (fun acc x => pmInsert x acc) leaves

/-- `package(cur[2i], cur[2i+1])` for each `i`; an odd last item is dropped (R172). -/
def pmPackage : List PmItem → List PmItem
  | a :: b :: rest => ⟨a.weight + b.weight, a.members ++ b.members⟩ :: pmPackage rest
  | [_] => []
  | [] => []

/-- The used symbols as items, from symbol `s` on, in symbol order. -/
def pmItems : Nat → List Nat → List PmItem
  | _, [] => []
  | s, f :: fs => if f = 0 then pmItems (s + 1) fs else ⟨f, [s]⟩ :: pmItems (s + 1) fs

/-- The leaves of R172: by ascending weight, ties by ascending symbol number. -/
def pmLeaves (freq : List Nat) : List PmItem := pmMerge [] (pmItems 0 freq)

/-- The merge rounds of R172. -/
def pmRounds (leaves : List PmItem) : Nat → List PmItem → List PmItem
  | 0, cur => cur
  | n + 1, cur => pmRounds leaves n (pmMerge leaves (pmPackage cur))

/-- `buildLengths(freq, maxBits)` (R170, R172, R173). -/
def buildLengths (freq : List Nat) (maxBits : Nat) : List Nat :=
  let leaves := pmLeaves freq
  let k := leaves.length
  if k = 0 then freq.map fun _ => 0
  else if k = 1 then freq.map fun f => if f = 0 then 0 else 1
  else
    let take := (pmRounds leaves (maxBits - 1) leaves).take (2 * k - 2)
    let syms := take.flatMap PmItem.members
    (List.range freq.length).map fun s => syms.count s

end Sys2Proof
end

