-- ==== Sys2Proof/WellFormed.lean ====
section
/-! DEFINITION. Which instructions are legal elements (R100, R120) and legal transactions (R433 to R435).
An element that is not well-formed is still decoded and run: it raises the cause R120 names. -/

namespace Sys2Proof

/-- CMF as the header's fields give it (R101): CINFO in the high nibble, CM in the low. -/
def zhdrCmf (cm cinfo : BitVec 4) : Byte := cinfo ++ cm

/-- FLG as the header's fields give it (R101): FLEVEL, FDICT, FCHECK from the top. -/
def zhdrFlg (fcheck : BitVec 5) (fdict : Bool) (flevel : BitVec 2) : Byte := flevel ++ (BitVec.ofBool fdict ++ fcheck)

/-- The legal elements and transactions, by the rows of R120 and by R433 to R435. -/
def wellFormed (c : Config) : Instr → Bool
  | .zhdr cm cinfo fcheck fdict flevel =>
    decide (cm = 8) && decide (cinfo.toNat ≤ 7)
      && decide (((zhdrCmf cm cinfo).toNat * 256 + (zhdrFlg fcheck fdict flevel).toNat) % 31 = 0)
      && (!fdict || decide (c.fdictPolicy = .skip))
  | .bhdrReserved _ => false
  | .shdr len nlen => decide (nlen.toNat = 65535 - len.toNat)
  | .dynhdr hlit _ _ => decide (hlit.toNat ≤ 29)
  | .ll286 => false
  | .ll287 => false
  | .dist30 => false
  | .dist31 => false
  | .infReset _ data => decide (data.length < 2 ^ c.xlen)
  | .infStep out cap => decide (cap < 2 ^ c.xlen) && decide (out.bytes.length ≤ cap)
  | .defReset _ data level => decide (data.length < 2 ^ c.xlen) && decide (level ≠ 3)
  | .defStep out cap => decide (cap < 2 ^ c.xlen) && decide (out.bytes.length ≤ cap)
  | .dictid _ => true
  | .bhdrStored _ => true
  | .bhdrFixed _ => true
  | .bhdrDynamic _ => true
  | .pad => true
  | .raw _ => true
  | .cllens _ => true
  | .trailer _ => true
  | .lit _ => true
  | .eob => true
  | .len257 => true
  | .len258 => true
  | .len259 => true
  | .len260 => true
  | .len261 => true
  | .len262 => true
  | .len263 => true
  | .len264 => true
  | .len265 _ => true
  | .len266 _ => true
  | .len267 _ => true
  | .len268 _ => true
  | .len269 _ => true
  | .len270 _ => true
  | .len271 _ => true
  | .len272 _ => true
  | .len273 _ => true
  | .len274 _ => true
  | .len275 _ => true
  | .len276 _ => true
  | .len277 _ => true
  | .len278 _ => true
  | .len279 _ => true
  | .len280 _ => true
  | .len281 _ => true
  | .len282 _ => true
  | .len283 _ => true
  | .len284 _ => true
  | .len285 => true
  | .dist0 => true
  | .dist1 => true
  | .dist2 => true
  | .dist3 => true
  | .dist4 _ => true
  | .dist5 _ => true
  | .dist6 _ => true
  | .dist7 _ => true
  | .dist8 _ => true
  | .dist9 _ => true
  | .dist10 _ => true
  | .dist11 _ => true
  | .dist12 _ => true
  | .dist13 _ => true
  | .dist14 _ => true
  | .dist15 _ => true
  | .dist16 _ => true
  | .dist17 _ => true
  | .dist18 _ => true
  | .dist19 _ => true
  | .dist20 _ => true
  | .dist21 _ => true
  | .dist22 _ => true
  | .dist23 _ => true
  | .dist24 _ => true
  | .dist25 _ => true
  | .dist26 _ => true
  | .dist27 _ => true
  | .dist28 _ => true
  | .dist29 _ => true
  | .cl _ => true
  | .cl16 _ => true
  | .cl17 _ => true
  | .cl18 _ => true
  | .infCreate _ => true
  | .infDestroy => true
  | .defCreate _ => true
  | .defDestroy => true

end Sys2Proof
end

