-- ==== Sys2Proof/Decode.lean ====
section
/-! DEFINITION. The decoder (R100, R111, R125) and, after it, the encoder. Which format comes next is
decided by position and by fields already decoded, never by a global opcode field (R100): the decoder
takes the grammar position, with the tree in force where the element is Huffman-coded. -/

namespace Sys2Proof

/-- A grammar position (R100): the format the next element has, and what its decoding depends on. -/
inductive Pos where
  | zhdr
  | dictid
  | bhdr
  /-- before a stored header, `width` bits before the byte boundary -/
  | pad (width : Nat)
  | shdr
  | raw
  | dynhdr
  | cllens
  /-- in the code-length sequence; `first` when no length is defined yet -/
  | clsym (tree : Trie) (first : Bool)
  | llsym (tree : Trie)
  | dsym (tree : Trie)
  | trailer
  /-- a host transaction with its operands (R109) -/
  | hcmd (ops : HostOps)
  deriving DecidableEq, Repr

/-- What the decoder answers: an instruction and the number of bits it takes, or the cause that the
element raises (R120) and the number of bits consumed before the raise (R453). -/
inductive Decoded where
  | ok (i : Instr) (used : Nat)
  | reject (cause : Cause) (used : Nat)
  deriving DecidableEq, Repr

/-- Read a fixed-width element of `n` bits; a short read consumes what is left (R141, R143). -/
def decodeFixed (n : Nat) (short : Cause) (bs : Bits) (mk : Bits → Instr) : Decoded :=
  match takeBits n bs with
  | some (x, _) => .ok (mk x) n
  | none => .reject short bs.length

/-- Bits `lo .. lo+n-1` of an element as an `n`-bit field, the first stream bit least significant
(`LE(n, v)`, R74). -/
def field (x : Bits) (lo n : Nat) : Nat := ofBitsLE ((x.drop lo).take n)

/-- ZHDR from its sixteen stream bits (R101). -/
def mkZhdr (x : Bits) : Instr :=
  .zhdr (BitVec.ofNat 4 (field x 0 4)) (BitVec.ofNat 4 (field x 4 4)) (BitVec.ofNat 5 (field x 8 5))
    (decide (field x 13 1 = 1)) (BitVec.ofNat 2 (field x 14 2))

/-- A 32-bit big-endian quantity from its 32 stream bits: four bytes, the most significant first (R74, R75). -/
def field32BE (x : Bits) : BitVec 32 :=
  BitVec.ofNat 32 (field x 0 8 * 2 ^ 24 + field x 8 8 * 2 ^ 16 + field x 16 8 * 2 ^ 8 + field x 24 8)

/-- DICTID (R102, R305). -/
def mkDictid (x : Bits) : Instr := .dictid (field32BE x)

/-- TRAILER (R108, R309). -/
def mkTrailer (x : Bits) : Instr := .trailer (field32BE x)

/-- BHDR (R103, R322): `v[0]` = BFINAL, `v[2:1]` = BTYPE. -/
def mkBhdr (x : Bits) : Instr :=
  let final := decide (field x 0 1 = 1)
  match field x 1 2 with
  | 0 => .bhdrStored final
  | 1 => .bhdrFixed final
  | 2 => .bhdrDynamic final
  | _ => .bhdrReserved final

/-- SHDR (R104, R331). -/
def mkShdr (x : Bits) : Instr := .shdr (BitVec.ofNat 16 (field x 0 16)) (BitVec.ofNat 16 (field x 16 16))

/-- RAW (R332). -/
def mkRaw (x : Bits) : Instr := .raw (BitVec.ofNat 8 (field x 0 8))

/-- DYNHDR (R105, R334). -/
def mkDynhdr (x : Bits) : Instr :=
  .dynhdr (BitVec.ofNat 5 (field x 0 5)) (BitVec.ofNat 5 (field x 5 5)) (BitVec.ofNat 4 (field x 10 4))

/-- CLLENS (R106, R335). -/
def mkCllens (x : Bits) : Instr := .cllens (BitVec.ofNat 3 (field x 0 3))

/-- The lit/len element of a symbol number and the value of its extra bits (R520 to R551). -/
def llOf (sym x : Nat) : Option Instr :=
  match sym with
  | 256 => some .eob
  | 257 => some .len257
  | 258 => some .len258
  | 259 => some .len259
  | 260 => some .len260
  | 261 => some .len261
  | 262 => some .len262
  | 263 => some .len263
  | 264 => some .len264
  | 265 => some (.len265 (BitVec.ofNat 1 x))
  | 266 => some (.len266 (BitVec.ofNat 1 x))
  | 267 => some (.len267 (BitVec.ofNat 1 x))
  | 268 => some (.len268 (BitVec.ofNat 1 x))
  | 269 => some (.len269 (BitVec.ofNat 2 x))
  | 270 => some (.len270 (BitVec.ofNat 2 x))
  | 271 => some (.len271 (BitVec.ofNat 2 x))
  | 272 => some (.len272 (BitVec.ofNat 2 x))
  | 273 => some (.len273 (BitVec.ofNat 3 x))
  | 274 => some (.len274 (BitVec.ofNat 3 x))
  | 275 => some (.len275 (BitVec.ofNat 3 x))
  | 276 => some (.len276 (BitVec.ofNat 3 x))
  | 277 => some (.len277 (BitVec.ofNat 4 x))
  | 278 => some (.len278 (BitVec.ofNat 4 x))
  | 279 => some (.len279 (BitVec.ofNat 4 x))
  | 280 => some (.len280 (BitVec.ofNat 4 x))
  | 281 => some (.len281 (BitVec.ofNat 5 x))
  | 282 => some (.len282 (BitVec.ofNat 5 x))
  | 283 => some (.len283 (BitVec.ofNat 5 x))
  | 284 => some (.len284 (BitVec.ofNat 5 x))
  | 285 => some .len285
  | 286 => some .ll286
  | 287 => some .ll287
  | s => if s < 256 then some (.lit (BitVec.ofNat 8 s)) else none

/-- The distance element of a symbol number and the value of its extra bits (R553 to R583). -/
def dOf (sym y : Nat) : Option Instr :=
  match sym with
  | 0 => some .dist0
  | 1 => some .dist1
  | 2 => some .dist2
  | 3 => some .dist3
  | 4 => some (.dist4 (BitVec.ofNat 1 y))
  | 5 => some (.dist5 (BitVec.ofNat 1 y))
  | 6 => some (.dist6 (BitVec.ofNat 2 y))
  | 7 => some (.dist7 (BitVec.ofNat 2 y))
  | 8 => some (.dist8 (BitVec.ofNat 3 y))
  | 9 => some (.dist9 (BitVec.ofNat 3 y))
  | 10 => some (.dist10 (BitVec.ofNat 4 y))
  | 11 => some (.dist11 (BitVec.ofNat 4 y))
  | 12 => some (.dist12 (BitVec.ofNat 5 y))
  | 13 => some (.dist13 (BitVec.ofNat 5 y))
  | 14 => some (.dist14 (BitVec.ofNat 6 y))
  | 15 => some (.dist15 (BitVec.ofNat 6 y))
  | 16 => some (.dist16 (BitVec.ofNat 7 y))
  | 17 => some (.dist17 (BitVec.ofNat 7 y))
  | 18 => some (.dist18 (BitVec.ofNat 8 y))
  | 19 => some (.dist19 (BitVec.ofNat 8 y))
  | 20 => some (.dist20 (BitVec.ofNat 9 y))
  | 21 => some (.dist21 (BitVec.ofNat 9 y))
  | 22 => some (.dist22 (BitVec.ofNat 10 y))
  | 23 => some (.dist23 (BitVec.ofNat 10 y))
  | 24 => some (.dist24 (BitVec.ofNat 11 y))
  | 25 => some (.dist25 (BitVec.ofNat 11 y))
  | 26 => some (.dist26 (BitVec.ofNat 12 y))
  | 27 => some (.dist27 (BitVec.ofNat 12 y))
  | 28 => some (.dist28 (BitVec.ofNat 13 y))
  | 29 => some (.dist29 (BitVec.ofNat 13 y))
  | 30 => some .dist30
  | 31 => some .dist31
  | _ => none

/-- The code-length element of a symbol number and the value of its extra bits (R584 to R587). -/
def clOf (sym x : Nat) : Option Instr :=
  match sym with
  | 16 => some (.cl16 (BitVec.ofNat 2 x))
  | 17 => some (.cl17 (BitVec.ofNat 3 x))
  | 18 => some (.cl18 (BitVec.ofNat 7 x))
  | s => if s < 16 then some (.cl (BitVec.ofNat 4 s)) else none

/-- Decode a Huffman-coded element (R107): the code, then the extra bits of the symbol; `stop` is a cause
raised between the two. No trie of the alphabet holds a symbol outside it; SYMBOL_INVALID for one is the model's
choice (log 30). -/
def decodeSym (t : Trie) (extra : Nat → Nat) (mk : Nat → Nat → Option Instr) (stop : Nat → Option Cause)
    (bs : Bits) : Decoded :=
  match t.walk bs with
  | .exhausted used => .reject .inputExhausted used
  | .walkOff used => .reject .codeWalkoff used
  | .found s used rest =>
    match stop s with
    | some c => .reject c used
    | none =>
      match takeBits (extra s) rest with
      | none => .reject .inputExhausted bs.length
      | some (x, _) =>
        match mk s (ofBitsLE x) with
        | some i => .ok i (used + extra s)
        | none => .reject .symbolInvalid used

/-- Code-length symbol 16 as the first item raises before its extra bits are read (R336, R585). -/
def clStop (first : Bool) (s : Nat) : Option Cause := if s = 16 ∧ first = true then some .repeatNoPrev else none

/-- The host command of a command code (R109: bit 2 the engine, bits 1:0 the operation) and the
operands of its transaction. -/
def commandOf (code : Nat) (ops : HostOps) : Instr :=
  match code with
  | 0 => .infCreate ops.allocOk
  | 1 => .infReset ops.space ops.data
  | 2 => .infStep ⟨ops.space, ops.data⟩ ops.cap
  | 3 => .infDestroy
  | 4 => .defCreate ops.allocOk
  | 5 => .defReset ops.space ops.data ops.level
  | 6 => .defStep ⟨ops.space, ops.data⟩ ops.cap
  | _ => .defDestroy

/-- The decoder, total on any bits at any position. DESIGN CHOICE (log 33): a host command is no stream format
(R109); that its 3-bit code is read least significant bit first, and that fewer bits are INPUT_EXHAUSTED, is the
model's choice, and so is that cause for a TRAILER cut short, which no engine decodes (R310). -/
def decodeAt : Pos → Bits → Decoded
  | .zhdr, bs => decodeFixed 16 .hdrTruncated bs mkZhdr
  | .dictid, bs => decodeFixed 32 .hdrTruncated bs mkDictid
  | .bhdr, bs => decodeFixed 3 .inputExhausted bs mkBhdr
  | .pad w, bs => decodeFixed w .inputExhausted bs fun _ => .pad
  | .shdr, bs => decodeFixed 32 .inputExhausted bs mkShdr
  | .raw, bs =>
    match takeBits 8 bs with
    | some (x, _) => .ok (mkRaw x) 8
    | none => .reject .inputExhausted 0
  | .dynhdr, bs => decodeFixed 14 .inputExhausted bs mkDynhdr
  | .cllens, bs => decodeFixed 3 .inputExhausted bs mkCllens
  | .clsym t first, bs => decodeSym t clExtra clOf (clStop first) bs
  | .llsym t, bs => decodeSym t llExtra llOf (fun _ => none) bs
  | .dsym t, bs => decodeSym t dExtra dOf (fun _ => none) bs
  | .trailer, bs => decodeFixed 32 .inputExhausted bs mkTrailer
  | .hcmd ops, bs => decodeFixed 3 .inputExhausted bs fun x => commandOf (field x 0 3) ops

/-! ### the encoder -/

/-- What an encoding depends on beside the instruction: the length tables in force and the distance to
the byte boundary. -/
structure EncCtx where
  llLen : List Nat
  dLen : List Nat
  clLen : List Nat
  padWidth : Nat
  deriving DecidableEq, Repr

/-- The context of a fixed block at a byte boundary (R113, R114); the code-length alphabet has no fixed
code, so a table of nineteen 5-bit codes stands there. -/
def EncCtx.fixed : EncCtx := ⟨fixLlLen, fixDLen, List.replicate 19 5, 0⟩

/-- The symbol number, the width and the value of the extra bits of a lit/len element. -/
def llParts : Instr → Option (Nat × Nat × Nat)
  | .lit b => some (b.toNat, 0, 0)
  | .eob => some (256, 0, 0)
  | .len257 => some (257, 0, 0)
  | .len258 => some (258, 0, 0)
  | .len259 => some (259, 0, 0)
  | .len260 => some (260, 0, 0)
  | .len261 => some (261, 0, 0)
  | .len262 => some (262, 0, 0)
  | .len263 => some (263, 0, 0)
  | .len264 => some (264, 0, 0)
  | .len265 x => some (265, 1, x.toNat)
  | .len266 x => some (266, 1, x.toNat)
  | .len267 x => some (267, 1, x.toNat)
  | .len268 x => some (268, 1, x.toNat)
  | .len269 x => some (269, 2, x.toNat)
  | .len270 x => some (270, 2, x.toNat)
  | .len271 x => some (271, 2, x.toNat)
  | .len272 x => some (272, 2, x.toNat)
  | .len273 x => some (273, 3, x.toNat)
  | .len274 x => some (274, 3, x.toNat)
  | .len275 x => some (275, 3, x.toNat)
  | .len276 x => some (276, 3, x.toNat)
  | .len277 x => some (277, 4, x.toNat)
  | .len278 x => some (278, 4, x.toNat)
  | .len279 x => some (279, 4, x.toNat)
  | .len280 x => some (280, 4, x.toNat)
  | .len281 x => some (281, 5, x.toNat)
  | .len282 x => some (282, 5, x.toNat)
  | .len283 x => some (283, 5, x.toNat)
  | .len284 x => some (284, 5, x.toNat)
  | .len285 => some (285, 0, 0)
  | .ll286 => some (286, 0, 0)
  | .ll287 => some (287, 0, 0)
  | _ => none

/-- The symbol number, the width and the value of the extra bits of a distance element. -/
def dParts : Instr → Option (Nat × Nat × Nat)
  | .dist0 => some (0, 0, 0)
  | .dist1 => some (1, 0, 0)
  | .dist2 => some (2, 0, 0)
  | .dist3 => some (3, 0, 0)
  | .dist4 y => some (4, 1, y.toNat)
  | .dist5 y => some (5, 1, y.toNat)
  | .dist6 y => some (6, 2, y.toNat)
  | .dist7 y => some (7, 2, y.toNat)
  | .dist8 y => some (8, 3, y.toNat)
  | .dist9 y => some (9, 3, y.toNat)
  | .dist10 y => some (10, 4, y.toNat)
  | .dist11 y => some (11, 4, y.toNat)
  | .dist12 y => some (12, 5, y.toNat)
  | .dist13 y => some (13, 5, y.toNat)
  | .dist14 y => some (14, 6, y.toNat)
  | .dist15 y => some (15, 6, y.toNat)
  | .dist16 y => some (16, 7, y.toNat)
  | .dist17 y => some (17, 7, y.toNat)
  | .dist18 y => some (18, 8, y.toNat)
  | .dist19 y => some (19, 8, y.toNat)
  | .dist20 y => some (20, 9, y.toNat)
  | .dist21 y => some (21, 9, y.toNat)
  | .dist22 y => some (22, 10, y.toNat)
  | .dist23 y => some (23, 10, y.toNat)
  | .dist24 y => some (24, 11, y.toNat)
  | .dist25 y => some (25, 11, y.toNat)
  | .dist26 y => some (26, 12, y.toNat)
  | .dist27 y => some (27, 12, y.toNat)
  | .dist28 y => some (28, 13, y.toNat)
  | .dist29 y => some (29, 13, y.toNat)
  | .dist30 => some (30, 0, 0)
  | .dist31 => some (31, 0, 0)
  | _ => none

/-- The symbol number, the width and the value of the extra bits of a code-length element. -/
def clParts : Instr → Option (Nat × Nat × Nat)
  | .cl v => some (v.toNat, 0, 0)
  | .cl16 x => some (16, 2, x.toNat)
  | .cl17 x => some (17, 3, x.toNat)
  | .cl18 x => some (18, 7, x.toNat)
  | _ => none

/-- The command code of a host command (R109). -/
def commandCode : Instr → Option Nat
  | .infCreate _ => some 0
  | .infReset _ _ => some 1
  | .infStep _ _ => some 2
  | .infDestroy => some 3
  | .defCreate _ => some 4
  | .defReset _ _ _ => some 5
  | .defStep _ _ => some 6
  | .defDestroy => some 7
  | _ => none

/-- A 32-bit big-endian quantity on the wire (R74): four bytes, the most significant first, each from
its least significant bit. -/
def bits32BE (v : BitVec 32) : Bits :=
  bitsLE 8 (v.toNat / 2 ^ 24) ++ bitsLE 8 (v.toNat / 2 ^ 16) ++ bitsLE 8 (v.toNat / 2 ^ 8) ++ bitsLE 8 v.toNat

/-- A block header on the wire (R103). -/
def bitsBhdr (final : Bool) (btype : Nat) : Bits := bitsLE 1 final.toNat ++ bitsLE 2 btype

/-- A Huffman-coded element on the wire (R107): `BE(len, code)` then `LE(n, x)`. -/
def bitsSym (len : List Nat) (p : Nat × Nat × Nat) : Bits := symbolBits len p.1 ++ bitsLE p.2.1 p.2.2

/-- The stream bits of an instruction: R101 to R108 for the containers and headers, R107 for the symbols,
R109 for the command code of a host transaction, whose bits are written least significant first by the model's
choice: DESIGN CHOICE (log 33). -/
def encode (ctx : EncCtx) (i : Instr) : Bits :=
  match i with
  | .zhdr cm cinfo fcheck fdict flevel =>
    bitsLE 4 cm.toNat ++ bitsLE 4 cinfo.toNat ++ bitsLE 5 fcheck.toNat ++ bitsLE 1 fdict.toNat ++ bitsLE 2 flevel.toNat
  | .dictid id => bits32BE id
  | .bhdrStored f => bitsBhdr f 0
  | .bhdrFixed f => bitsBhdr f 1
  | .bhdrDynamic f => bitsBhdr f 2
  | .bhdrReserved f => bitsBhdr f 3
  | .pad => bitsLE ctx.padWidth 0
  | .shdr len nlen => bitsLE 16 len.toNat ++ bitsLE 16 nlen.toNat
  | .raw b => bitsLE 8 b.toNat
  | .dynhdr hlit hdist hclen => bitsLE 5 hlit.toNat ++ bitsLE 5 hdist.toNat ++ bitsLE 4 hclen.toNat
  | .cllens len => bitsLE 3 len.toNat
  | .trailer a => bits32BE a
  | j =>
    match llParts j with
    | some p => bitsSym ctx.llLen p
    | none =>
      match dParts j with
      | some p => bitsSym ctx.dLen p
      | none =>
        match clParts j with
        | some p => bitsSym ctx.clLen p
        | none =>
          match commandCode j with
          | some c => bitsLE 3 c
          | none => []

/-! ### the table's words -/

/-- The `n` bits of a word from its most significant end: the leftmost character of a row's pattern is
the first stream bit, and the table numbers the pattern as one number (98_reader.md). -/
def patternBits (n w : Nat) : Bits := bitsBE n w

/-- The instruction a decoding gives, if it gives one. -/
def Decoded.instr : Decoded → Option Instr
  | .ok i _ => some i
  | .reject _ _ => none

/-- The stream bits of symbol `s` under a length table, followed by zero extra bits. -/
def symbolWord (len : List Nat) (s : Nat) : Bits := symbolBits len s ++ List.replicate 13 false

/-- The row of a 16-bit word: a lit/len symbol number (R125), or a ZHDR (numbered by its pattern, or by
stream bits where the pattern does not give one), or else a DYNHDR. -/
def decodeWord16 (w : Nat) : Option Instr :=
  if w < 288 then (decodeAt (.llsym ftreeLl) (symbolWord fixLlLen w)).instr
  else if w / 4096 = 1 then (decodeAt .zhdr (patternBits 16 w)).instr
  else if w % 16 = 8 then (decodeAt .zhdr (bitsLE 16 w)).instr
  else (decodeAt .dynhdr (bitsLE 14 w)).instr

/-- The row of an 8-bit word: a distance symbol number (R125), else a byte of stored data. The rows of
CLSYM, HCMD, BHDR, PAD and CLLENS give words of the same width and values: the grammar position, which
a bare word does not carry, tells them apart (R100). -/
def decodeWord8 (w : Nat) : Option Instr :=
  if w < 32 then (decodeAt (.dsym ftreeD) (symbolWord fixDLen w)).instr
  else (decodeAt .raw (bitsLE 8 w)).instr

/-- The instruction the decoder reads from a word of the opcode table, `nbits` wide. -/
def decodeTableWord (nbits w : Nat) : Option Instr :=
  if nbits = 16 then decodeWord16 w
  else if nbits = 8 then decodeWord8 w
  else if nbits = 32 then
    if w / 65536 + w % 65536 = 65535 then (decodeAt .shdr (bitsLE 32 w)).instr
    else (decodeAt .dictid (bitsLE 32 w)).instr
  else if nbits = 3 then (decodeAt (.hcmd (default : HostOps)) (bitsLE 3 w)).instr
  else none

end Sys2Proof
end

