-- ==== Sys2Proof/Machine/State.lean ====
section
/-! DEFINITION. The state of the block: the contexts of the two engines (10_state.md), their memory
spaces (R70), the host's transactions, and the reasons a step can stop. Plain data. -/

namespace Sys2Proof.Machine

/-- A memory space as its listed cells: addresses strictly rising, no cell that holds what an unlisted
address reads as (`Memory.wf`, Machine/Ops.lean). -/
abbrev Memory := List Host.Cell

/-- LIFE (R21). -/
inductive Life where
  | absent
  | created
  | active
  deriving DecidableEq, Repr, Inhabited

/-- The statuses (R432). `ended` is END. -/
inductive Status where
  | ok
  | ended
  | pending
  | errorMemory
  | errorFormat
  deriving DecidableEq, Repr, Inhabited

/-- I_STATE (R22): I_INIT, I_BLOCK, I_NOCOMP, I_FIXED, I_DYNAMIC, I_END, I_ERROR. -/
inductive IState where
  | iInit
  | iBlock
  | iNocomp
  | iFixed
  | iDynamic
  | iEnd
  | iError
  deriving DecidableEq, Repr, Inhabited

/-- Where inside the current transition the INFLATE engine is, with the transition's scratch: the
model's own (log 17). -/
inductive Sub where
  /-- at the first element of the transition -/
  | start
  /-- I_INIT: DICTID is next (R305) -/
  | dictid
  /-- I_NOCOMP: the padding is skipped, SHDR is next (R331) -/
  | stored
  /-- I_DYNAMIC: the `k`-th CLLENS field is next (R335) -/
  | codeLens (k : Nat)
  /-- I_DYNAMIC: a CLSYM item is next; `seq` holds the lengths so far (R336) -/
  | lengths (seq : List (BitVec 4))
  /-- body: a length symbol and its extra bits are read, the distance is next (R338, R340) -/
  | distance (sym : BitVec 9) (len : Nat)
  deriving DecidableEq, Repr, Inhabited

/-- D_STATE (R33): D_INIT, D_BLOCK, D_NOCOMP, D_LZSS, D_FIXED, D_DYNAMIC, D_END, D_DONE. -/
inductive DState where
  | dInit
  | dBlock
  | dNocomp
  | dLzss
  | dFixed
  | dDynamic
  | dEnd
  | dDone
  deriving DecidableEq, Repr, Inhabited

/-- LEVEL (R34). -/
inductive Level where
  | noCompression
  | fixed
  | dynamic
  deriving DecidableEq, Repr, Inhabited

/-- A Code of the token buffer (R38): SYM, LEN, DIST. -/
structure Token where
  sym : Nat
  len : Nat
  dist : Nat
  deriving DecidableEq, Repr, Inhabited

/-- An entry of RLE (R41): SYM and XV. -/
structure RleItem where
  sym : Nat
  xv : Nat
  deriving DecidableEq, Repr, Inhabited

/-- A used slot of the history arena (R43): its slot number, HASH and POS. -/
structure HistEntry where
  slot : Nat
  hash : BitVec 32
  pos : Nat
  deriving DecidableEq, Repr, Inhabited

/-- The registers of the INFLATE engine's context (R22 to R32, R50), LIFE apart. -/
structure InfRegs where
  iState : IState
  iPhase : Bool
  sub : Sub
  cmf : Byte
  flg : Byte
  dictid : BitVec 32
  bfinal : Bool
  btype : BitVec 2
  inBase : Nat
  brLen : Nat
  brByte : Nat
  brBit : Fin 8
  pendSym : BitVec 9
  pendLen : Nat
  pendDist : Nat
  storedRem : Nat
  winPos : Nat
  hlit : BitVec 5
  hdist : BitVec 5
  hclen : BitVec 4
  clLen : Vector (BitVec 3) 19
  llLen : Vector (BitVec 4) 288
  dLen : Vector (BitVec 4) 32
  treeCl : Trie
  treeLl : Trie
  treeD : Trie
  errCause : Cause
  lastStatus : Status
  outBase : Nat
  outLim : Nat
  thisOut : Nat
  totalOut : Nat
  deriving DecidableEq, Repr, Inhabited

/-- The registers of the DEFLATE engine's context (R33 to R44, R50), LIFE apart. TOK and RLE are held in two parts
(log 28): `tok` and `rle` are the valid entries, so that TOK_CNT and RLE_CNT are their lengths; `tokRest` and
`rleRest` are the entries from the counts up, those past the end of the list being all zero (`DefRegs.tokAt`,
`DefRegs.rleAt`). -/
structure DefRegs where
  dState : DState
  level : Level
  inBase : Nat
  inCur : Nat
  inEnd : Nat
  bitq : BitVec 23
  bitqCnt : Nat
  adlerS1 : Nat
  adlerS2 : Nat
  tok : List Token
  tokRest : List Token
  freqLl : Vector Nat 286
  freqD : Vector Nat 30
  freqCl : Vector Nat 19
  llcLen : Vector Nat 286
  llcCode : Vector Nat 286
  dcLen : Vector Nat 30
  dcCode : Vector Nat 30
  clcLen : Vector Nat 19
  clcCode : Vector Nat 19
  nlit : Nat
  ndist : Nat
  ncl : Nat
  rle : List RleItem
  rleRest : List RleItem
  blkFinal : Bool
  blkStart : Nat
  blkLen : Nat
  hist : List HistEntry
  freed : List Nat
  fresh : Nat
  evictCur : Nat
  emitIdx : Nat
  lastStatus : Status
  outBase : Nat
  outLim : Nat
  thisOut : Nat
  totalOut : Nat
  deriving DecidableEq, Repr, Inhabited

/-- Whose move is next: the host's, or that of the engine a STEP is running on (R20, R435; log 1). -/
inductive Turn where
  | host
  | inf
  | dfl
  deriving DecidableEq, Repr, Inhabited

/-- A host transaction (R109): a command code and its operands. -/
structure Xact where
  code : BitVec 3
  ops : HostOps
  deriving DecidableEq, Repr, Inhabited

/-- The response of a command: a status (R431, R433, R434), or the triple of STEP (R435). -/
inductive Resp where
  | status (s : Status)
  | step (s : Status) (produced total : Nat)
  deriving DecidableEq, Repr, Inhabited

/-- The whole block, its memory spaces (R70) and the host's side of the interface. -/
structure State where
  /-- the parameters of R7; no step writes them -/
  cfg : Config
  turn : Turn
  /-- the transactions the host has yet to issue, the next one first -/
  cmds : List Xact
  /-- the response of the last command; none after DESTROY (R438) -/
  resp : Option Resp
  /-- how many free values have been taken (log 4) -/
  freeCnt : Nat
  infLife : Life
  inf : InfRegs
  /-- INPUT of the INFLATE engine's session -/
  infIn : Memory
  /-- OUTPUT of the INFLATE engine's current (or last) STEP -/
  infOut : Memory
  /-- WIN -/
  win : Memory
  dflLife : Life
  dfl : DefRegs
  /-- INPUT of the DEFLATE engine's session -/
  dflIn : Memory
  /-- OUTPUT of the DEFLATE engine's current (or last) STEP -/
  dflOut : Memory
  deriving DecidableEq, Repr, Inhabited

/-- Why the machine stops with a fault. -/
inductive Fault where
  /-- Raised by the DEFLATE engine in D_NOCOMP (R384) when the block it is to copy, BLK_START to
  BLK_START + BLK_LEN, reaches past the end of INPUT, where no byte exists (R70). No run reaches it
  (R383). Safe: the model stops. -/
  | inputOutside
  deriving DecidableEq, Repr, Inhabited

/-- Why an instruction gets no transition. -/
inductive Refusal where
  /-- Raised by the dispatcher for an instruction that has no meaning yet. Safe. -/
  | notModelled (mnemonic : String)
  /-- Raised by a host command that R430 marks refused in the engine's LIFE: "it is not a move of the
  host". Safe. -/
  | commandRefused (life : Life)
  /-- Raised by DEF.RESET with level 3: "`level = 3` is refused" (R434). Safe. -/
  | levelRefused
  /-- Raised by a distance, a code-length or a CLLENS element run where no length, no length sequence or
  no code-length table is being read: R552, R336 and R335 put the element only there (R100). No step
  reaches it (log 15). Safe. -/
  | outOfPlace
  /-- Raised by RESET and STEP when a length or a capacity is not below 2^XLEN and so is no value of the
  operand (R433, R435). Safe. -/
  | operandTooWide
  deriving DecidableEq, Repr, Inhabited

/-- What a meaning answers. -/
abbrev Result := Host.Outcome State Fault Refusal

end Sys2Proof.Machine

namespace Sys2Proof

/-- The free value of the INFLATE engine's unspecified registers (R54, R55, R57; log 4). -/
opaque Config.freeInf : Nat → Machine.InfRegs

/-- The free value of the DEFLATE engine's unspecified registers (R54, R56, R57; log 4). -/
opaque Config.freeDfl : Nat → Machine.DefRegs

end Sys2Proof

namespace Sys2Proof.Machine

/-- The INFLATE engine's registers at power-on: unspecified by R490; the model's choice (log 3). -/
def InfRegs.powerOn : InfRegs where
  iState := .iInit
  iPhase := false
  sub := .start
  cmf := 0
  flg := 0
  dictid := 0
  bfinal := false
  btype := 0
  inBase := 0
  brLen := 0
  brByte := 0
  brBit := 0
  pendSym := 0
  pendLen := 0
  pendDist := 0
  storedRem := 0
  winPos := 0
  hlit := 0
  hdist := 0
  hclen := 0
  clLen := Vector.replicate 19 0
  llLen := Vector.replicate 288 0
  dLen := Vector.replicate 32 0
  treeCl := .nil
  treeLl := .nil
  treeD := .nil
  errCause := .none
  lastStatus := .ok
  outBase := 0
  outLim := 0
  thisOut := 0
  totalOut := 0

/-- The DEFLATE engine's registers at power-on: unspecified by R490; the model's choice (log 3). -/
def DefRegs.powerOn : DefRegs where
  dState := .dInit
  level := .noCompression
  inBase := 0
  inCur := 0
  inEnd := 0
  bitq := 0
  bitqCnt := 0
  adlerS1 := 0
  adlerS2 := 0
  tok := []
  tokRest := []
  freqLl := Vector.replicate 286 0
  freqD := Vector.replicate 30 0
  freqCl := Vector.replicate 19 0
  llcLen := Vector.replicate 286 0
  llcCode := Vector.replicate 286 0
  dcLen := Vector.replicate 30 0
  dcCode := Vector.replicate 30 0
  clcLen := Vector.replicate 19 0
  clcCode := Vector.replicate 19 0
  nlit := 0
  ndist := 0
  ncl := 0
  rle := []
  rleRest := []
  blkFinal := false
  blkStart := 0
  blkLen := 0
  hist := []
  freed := []
  fresh := 0
  evictCur := 0
  emitIdx := 0
  lastStatus := .ok
  outBase := 0
  outLim := 0
  thisOut := 0
  totalOut := 0

/-- The block at power-on (R490): LIFE is ABSENT in both engines, every other register unspecified
(log 3), nothing listed in any memory (log 5), no transaction waiting (log 11). -/
def State.reset : State where
  cfg := Config.default
  turn := .host
  cmds := []
  resp := none
  freeCnt := 0
  infLife := .absent
  inf := InfRegs.powerOn
  infIn := []
  infOut := []
  win := []
  dflLife := .absent
  dfl := DefRegs.powerOn
  dflIn := []
  dflOut := []

end Sys2Proof.Machine
end

