-- ==== Sys2Proof/Machine/Ops.lean ====
section
/-! DEFINITION. The named operations over memory and registers: the memory spaces (20_memory.md), the bit
reader and the bit writer (40_bitio.md), emitting a byte (R343), draining the in-flight code (R342),
ending a STEP (R435, R437) and raising a FormatError (R455). -/

namespace Sys2Proof.Machine

/-! ### memory -/

/-- What an address that is not listed reads as (log 5). -/
def unlistedByte : Byte := 0

/-- `MemRead(space, a, 1)`. -/
def Memory.read : Memory → Nat → Byte
  | [], _ => unlistedByte
  | c :: m, a => if c.1 = a then c.2 else Memory.read m a

/-- Put a cell in front of a memory, unless it holds what an unlisted address reads as. -/
def Memory.push (a : Nat) (b : Byte) (m : Memory) : Memory := if b = unlistedByte then m else (a, b) :: m

/-- `MemWrite(space, a, 1, b)`, keeping the canonical form. -/
def Memory.write : Memory → Nat → Byte → Memory
  | [], a, b => Memory.push a b []
  | c :: m, a, b =>
    if a < c.1 then Memory.push a b (c :: m)
    else if a = c.1 then Memory.push a b m
    else c :: Memory.write m a b

/-- Addresses strictly above `lo`, strictly rising, and no cell that holds what an unlisted address reads
as; `lo` is one above the last address seen. -/
def Memory.wfFrom (lo : Nat) : Memory → Bool
  | [] => true
  | c :: m => decide (lo ≤ c.1) && decide (c.2 ≠ unlistedByte) && Memory.wfFrom (c.1 + 1) m

/-- The canonical form. -/
def Memory.wf (m : Memory) : Bool := Memory.wfFrom 0 m

/-- The memory that holds a byte sequence from address `a` on. -/
def Memory.ofBytesFrom (a : Nat) : List Byte → Memory
  | [] => []
  | b :: bs => Memory.push a b (Memory.ofBytesFrom (a + 1) bs)

/-- The memory that holds a byte sequence from address 0 on. -/
def Memory.ofBytes (bs : List Byte) : Memory := Memory.ofBytesFrom 0 bs

/-- The `n` bytes from address `a` on. -/
def Memory.bytes (m : Memory) : Nat → Nat → List Byte
  | _, 0 => []
  | a, n + 1 => m.read a :: Memory.bytes m (a + 1) n

/-- The `n`-entry table that holds a list's values, and `d` past the list's end. -/
def tableOf {α : Type} (n : Nat) (d : α) (l : List α) : Vector α n :=
  ⟨⟨(List.range n).map fun i => l.getD i d⟩, by simp⟩

/-! ### the bit reader (R140 to R145) -/

/-- BITPOS, the program counter (R26). -/
def InfRegs.bitpos (r : InfRegs) : Nat := 8 * r.brByte + r.brBit.val

/-- The cursor at a stream-bit address. -/
def InfRegs.atBit (r : InfRegs) (p : Nat) : InfRegs :=
  { r with brByte := p / 8, brBit := ⟨p % 8, Nat.mod_lt p (by decide)⟩ }

/-- Move the cursor past `n` bits (R26). -/
def InfRegs.advance (r : InfRegs) (n : Nat) : InfRegs := r.atBit (r.bitpos + n)

/-- `avail`, the number of unread stream bits (40_bitio.md section 1). -/
def InfRegs.avail (r : InfRegs) : Nat := 8 * (r.brLen - r.brByte) - r.brBit.val

/-- The stream bits of a memory's bytes `a` to `a + n - 1`, in stream order (R9). -/
def Memory.streamBits (m : Memory) (a n : Nat) : Bits := bitsOfBytes (m.bytes a n)

/-- The unread stream bits, the next one first. -/
def InfRegs.restBits (r : InfRegs) (m : Memory) : Bits :=
  (m.streamBits r.brByte (r.brLen - r.brByte)).drop r.brBit.val

/-- `nextBit()` (R140). -/
def nextBit (m : Memory) (r : InfRegs) : Bool × InfRegs :=
  let b := (m.read r.brByte).getLsbD r.brBit.val
  if r.brBit = 7 then (b, { r with brBit := 0, brByte := r.brByte + 1 })
  else (b, { r with brBit := r.brBit + 1 })

/-- `c` times `nextBit()`: the bits in the order read. -/
def nextBits (m : Memory) : Nat → InfRegs → Bits × InfRegs
  | 0, r => ([], r)
  | c + 1, r =>
    let p := nextBit m r
    let q := nextBits m c p.2
    (p.1 :: q.1, q.2)

/-- `readBits(n)` (R141): the value, the number of bits read, the registers after. -/
def readBits (m : Memory) (n : Nat) (r : InfRegs) : (Nat × Nat) × InfRegs :=
  let c := min n r.avail
  let p := nextBits m c r
  ((ofBitsLE p.1, c), p.2)

/-- `readBitsBE(n)` (R142). -/
def readBitsBE (m : Memory) (n : Nat) (r : InfRegs) : (Nat × Nat) × InfRegs :=
  let c := min n r.avail
  let p := nextBits m c r
  ((ofBitsBE p.1, c), p.2)

/-- `alignToByte()` (R144). -/
def InfRegs.alignToByte (r : InfRegs) : InfRegs :=
  if r.brBit = 0 then r else { r with brBit := 0, brByte := r.brByte + 1 }

/-- The loop of `readBytesAligned` (R145): the bytes given to the sink, in order. -/
def readBytesLoop (m : Memory) : Nat → InfRegs → List Byte × InfRegs
  | 0, r => ([], r)
  | k + 1, r =>
    let p :=
      if r.brBit = 0 then (m.read r.brByte, { r with brByte := r.brByte + 1 })
      else (BitVec.ofNat 8 (readBits m 8 r).1.1, (readBits m 8 r).2)
    let q := readBytesLoop m k p.2
    (p.1 :: q.1, q.2)

/-- `readBytesAligned(n, sink)` (R145): the bytes delivered and the registers after. -/
def readBytesAligned (m : Memory) (n : Nat) (r : InfRegs) : List Byte × InfRegs :=
  readBytesLoop m (min n (r.avail / 8)) r

/-! ### ending a STEP of the INFLATE engine -/

/-- `total` of a response: TOTAL_OUT, a counter of CNT_W bits (R50, R435; log 8). -/
def reportedTotal (c : Config) (total : Nat) : Nat := total % 2 ^ c.cntW

/-- The STEP ends: LAST_STATUS and the response triple (R435), and the host's move again. -/
def State.answerInf (st : Status) (s : State) : State :=
  { s with
    turn := .host
    resp := some (.step st s.inf.thisOut (reportedTotal s.cfg s.inf.totalOut))
    inf := { s.inf with lastStatus := st } }

/-- `suspend` (R437): every register but LAST_STATUS stays. -/
def State.suspendInf (s : State) : State := s.answerInf .pending

/-- `raise FormatError(cause)` (R455): the cause is recorded, the engine enters I_ERROR and the STEP ends
with ERROR_FORMAT. There is no vector, no saved pc and no return from it (R459): the engine leaves
I_ERROR by RESET or DESTROY only. -/
def State.raiseFormat (c : Cause) (s : State) : State :=
  { s with inf := { s.inf with errCause := c, iState := .iError, sub := .start } }.answerInf .errorFormat

/-! ### emitting bytes (R342, R343) -/

/-- `emitByte(b)` (R343). -/
def State.emitByte (b : Byte) (s : State) : State :=
  { s with
    infOut := s.infOut.write s.inf.thisOut b
    win := s.win.write s.inf.winPos b
    inf := { s.inf with
      winPos := (s.inf.winPos + 1) % s.cfg.winCap
      thisOut := s.inf.thisOut + 1
      totalOut := s.inf.totalOut + 1 } }

/-- The window index a back-reference of distance `d` reads (R76, R342). -/
def State.winIndex (s : State) (d : Nat) : Nat := (s.inf.winPos + s.cfg.winCap - d) % s.cfg.winCap

/-- The next byte of the in-flight code (R342). -/
def State.pendByte (s : State) : Byte :=
  if s.inf.pendDist = 0 then s.inf.pendSym.truncate 8 else s.win.read (s.winIndex s.inf.pendDist)

/-- One pass of R342's loop after its test: the byte goes out, `n` bytes remain. -/
def State.emitPend (n : Nat) (s : State) : State :=
  let t := s.emitByte s.pendByte
  { t with inf := { t.inf with pendLen := n } }

/-- R342's loop with PEND_LEN = its first argument. -/
def drainLoop : Nat → State → State
  | 0, s => s
  | n + 1, s => if s.inf.thisOut = s.inf.outLim then s.suspendInf else drainLoop n (s.emitPend n)

/-- `drainCode()` (R342); when it suspends, the STEP has ended. -/
def State.drainCode (s : State) : State := drainLoop s.inf.pendLen s

/-! ### the bit writer (R150 to R154) and the emission sequencer (R390) -/

/-- An item of an emission list (R390). -/
inductive Item where
  | le (n v : Nat)
  | be (n v : Nat)
  | flush
  deriving DecidableEq, Repr

/-- The STEP of the DEFLATE engine ends (R435). -/
def State.answerDfl (st : Status) (s : State) : State :=
  { s with
    turn := .host
    resp := some (.step st s.dfl.thisOut (reportedTotal s.cfg s.dfl.totalOut))
    dfl := { s.dfl with lastStatus := st } }

/-- `suspend` of the DEFLATE engine (R437). -/
def State.suspendDfl (s : State) : State := s.answerDfl .pending

/-- One pass of `drain()`'s loop (R150): the oldest byte of BITQ is stored at THIS_OUT. -/
def State.drainByte (s : State) : State :=
  { s with
    dflOut := s.dflOut.write s.dfl.thisOut (s.dfl.bitq.truncate 8)
    dfl := { s.dfl with
      bitq := s.dfl.bitq >>> 8
      bitqCnt := s.dfl.bitqCnt - 8
      thisOut := s.dfl.thisOut + 1
      totalOut := s.dfl.totalOut + 1 } }

/-- `drain()`'s loop (R150); its first argument bounds the bytes in the queue. -/
def drainBytes : Nat → State → State
  | 0, s => s
  | k + 1, s =>
    if 8 ≤ s.dfl.bitqCnt ∧ s.dfl.thisOut < s.dfl.outLim then drainBytes k s.drainByte else s

/-- `drain()` (R150); whether it answers true is `writerReady` of the state after. -/
def State.drain (s : State) : State := drainBytes (s.dfl.bitqCnt / 8) s

/-- The writer can accept a write (R150: `BITQ_CNT < 8`). -/
def DefRegs.writerReady (r : DefRegs) : Bool := decide (r.bitqCnt < 8)

/-- `writeBitsLE(n, bits)` (R151). -/
def DefRegs.writeBitsLE (n v : Nat) (r : DefRegs) : DefRegs :=
  { r with bitq := r.bitq ||| (BitVec.ofNat 23 (v % 2 ^ n) <<< r.bitqCnt), bitqCnt := r.bitqCnt + n }

/-- `writeBitsBE(n, bits)` (R152). -/
def DefRegs.writeBitsBE (n v : Nat) (r : DefRegs) : DefRegs := r.writeBitsLE n (revBits n v)

/-- `writeBytesAligned(byte)` (R153). -/
def DefRegs.writeBytesAligned (b : Byte) (r : DefRegs) : DefRegs := r.writeBitsLE 8 b.toNat

/-- `flush()` (R154). -/
def DefRegs.flush (r : DefRegs) : DefRegs := if r.bitqCnt % 8 = 0 then r else { r with bitqCnt := 8 }

/-- Perform one item (R390). -/
def DefRegs.perform (i : Item) (r : DefRegs) : DefRegs :=
  match i with
  | .le n v => r.writeBitsLE n v
  | .be n v => r.writeBitsBE n v
  | .flush => r.flush

/-- Perform one item and step EMIT_IDX past it (R390). -/
def State.performItem (i : Item) (s : State) : State :=
  { s with dfl := { s.dfl.perform i with emitIdx := s.dfl.emitIdx + 1 } }

/-- R390's loop over the items that are left; `fin` is what follows the list. -/
def emitItems (fin : DefRegs → DefRegs) : List Item → State → State
  | [], s => { s with dfl := fin { s.dfl with emitIdx := 0 } }
  | i :: l, s =>
    let t := s.drain
    if t.dfl.writerReady then emitItems fin l (t.performItem i) else t.suspendDfl

/-- `emitList(list)` followed by the statement `fin`, which a suspension leaves out (R380, R390). -/
def State.emitList (l : List Item) (fin : DefRegs → DefRegs) (s : State) : State :=
  emitItems fin (l.drop s.dfl.emitIdx) s

/-! ### views of the DEFLATE context -/

/-- TOK_CNT (R38). -/
def DefRegs.tokCnt (r : DefRegs) : Nat := r.tok.length

/-- The entry of zeros. -/
def Token.zero : Token := ⟨0, 0, 0⟩

/-- TOK[k] (R38), valid or not. -/
def DefRegs.tokAt (r : DefRegs) (k : Nat) : Token := (r.tok ++ r.tokRest).getD k Token.zero

/-- RLE_CNT (R41). -/
def DefRegs.rleCnt (r : DefRegs) : Nat := r.rle.length

/-- The entry of zeros. -/
def RleItem.zero : RleItem := ⟨0, 0⟩

/-- RLE[k] (R41), valid or not. -/
def DefRegs.rleAt (r : DefRegs) (k : Nat) : RleItem := (r.rle ++ r.rleRest).getD k RleItem.zero

/-- A list without the entries `d` at its end: the one form of an array that reads `d` past the list. -/
def trimEnd {α : Type} [DecidableEq α] (d : α) : List α → List α
  | [] => []
  | x :: l =>
    match trimEnd d l with
    | [] => if x = d then [] else [x]
    | y :: l' => x :: y :: l'

/-- `TOK_CNT <- 0` (R385): every entry of TOK stays (log 28). -/
def DefRegs.clearTok (r : DefRegs) : DefRegs :=
  { r with tok := [], tokRest := trimEnd Token.zero (r.tok ++ r.tokRest) }

/-- `TOK[TOK_CNT] <- t; TOK_CNT <- TOK_CNT + 1` (R386). -/
def DefRegs.pushTok (t : Token) (r : DefRegs) : DefRegs := { r with tok := r.tok ++ [t], tokRest := r.tokRest.drop 1 }

/-- `RLE[0 .. RLE_CNT - 1]` is written (R393); the entries above stay. -/
def DefRegs.writeRle (items : List RleItem) (r : DefRegs) : DefRegs :=
  { r with rle := items, rleRest := trimEnd RleItem.zero ((r.rle ++ r.rleRest).drop items.length) }

/-- HIST_CNT (R43). -/
def DefRegs.histCnt (r : DefRegs) : Nat := r.hist.length

/-- LIVE (R210): the positions of the live entries, oldest first. -/
def DefRegs.live (r : DefRegs) : List Nat := r.hist.map HistEntry.pos

end Sys2Proof.Machine
end

