-- ==== Sys2Proof/Machine/Operands.lean ====
section
/-! DEFINITION. How each operand is assembled (R110) and how a value is split for encoding (R220, R221). -/

namespace Sys2Proof.Machine

/-- Match length of lit/len symbol `sym` with extra bits `x` (R110, R115). -/
def matchLength (sym x : Nat) : Nat := lenBase (sym - 257) + x

/-- Match distance of distance symbol `d` with extra bits `y` (R110, R116, R340). -/
def matchDistance (d y : Nat) : Nat := distBase d + y

/-- Repeat count of code-length symbol 16 (R110). -/
def repeat16 (x : Nat) : Nat := 3 + x

/-- Repeat count of code-length symbol 17 (R110). -/
def repeat17 (x : Nat) : Nat := 3 + x

/-- Repeat count of code-length symbol 18 (R110). -/
def repeat18 (x : Nat) : Nat := 11 + x

/-- The number of lit/len code lengths, `HLIT + 257` (R105, R110). -/
def InfRegs.nLit (r : InfRegs) : Nat := r.hlit.toNat + 257

/-- The number of distance code lengths, `HDIST + 1` (R105, R110). -/
def InfRegs.nDist (r : InfRegs) : Nat := r.hdist.toNat + 1

/-- The number of code-length-code lengths, `HCLEN + 4` (R105, R110). -/
def InfRegs.nCl (r : InfRegs) : Nat := r.hclen.toNat + 4

/-- `n` of R336. -/
def InfRegs.nSeq (r : InfRegs) : Nat := r.nLit + r.nDist

/-- The window size the header implies, `2^(CINFO + 8)`, otherwise unused (R110). -/
def headerWindow (cmf : Byte) : Nat := 2 ^ (cmf.toNat / 16 + 8)

/-- `lc(L)` (R220). -/
def lc (l : Nat) : Nat :=
  if l = 258 then 28
  else ((List.range 28).find? fun i => decide (lenBase i ≤ l ∧ l ≤ lenBase i + 2 ^ lenExtra i - 1)).getD 0

/-- `dc(D)` (R221). -/
def dc (d : Nat) : Nat :=
  ((List.range 30).find? fun j => decide (distBase j ≤ d ∧ d ≤ distBase j + 2 ^ distExtra j - 1)).getD 0

end Sys2Proof.Machine
end

