-- ==== Sys2Proof/Machine/Flags.lean ====
section
/-! DEFINITION. The one-bit state and the predicates that steer control (R51), and the header's checks
(R302 to R305). The block has no arithmetic condition codes (R51). -/

namespace Sys2Proof.Machine

/-- `exhausted` (R51). -/
def InfRegs.exhausted (r : InfRegs) : Bool := decide (r.brByte = r.brLen)

/-- `out_full` of the INFLATE engine (R51). -/
def InfRegs.outFull (r : InfRegs) : Bool := decide (r.thisOut = r.outLim)

/-- `code_in_flight` (R51). -/
def InfRegs.codeInFlight (r : InfRegs) : Bool := decide (r.pendLen ≠ 0)

/-- `out_full` of the DEFLATE engine (R51). -/
def DefRegs.outFull (r : DefRegs) : Bool := decide (r.thisOut = r.outLim)

/-- `writer_blocked` (R51). -/
def DefRegs.writerBlocked (r : DefRegs) : Bool := decide (8 ≤ r.bitqCnt)

/-- CM = `CMF[3:0]` (R23). -/
def InfRegs.cm (r : InfRegs) : Nat := r.cmf.toNat % 16

/-- CINFO = `CMF[7:4]` (R23). -/
def InfRegs.cinfo (r : InfRegs) : Nat := r.cmf.toNat / 16

/-- FDICT = `FLG[5]` (R23, R51). -/
def InfRegs.fdict (r : InfRegs) : Bool := r.flg.getLsbD 5

/-- The check-bits test of R303. -/
def InfRegs.fcheckOk (r : InfRegs) : Bool := decide ((r.cmf.toNat * 256 + r.flg.toNat) % 31 = 0)

/-- The checks of R302, R303 and, under FDICT_POLICY = error, R305, in the order of R304: the cause of the
first that fails. -/
def InfRegs.headerCause (p : FdictPolicy) (r : InfRegs) : Option Cause :=
  if r.cm ≠ 8 then some .hdrMethod
  else if 7 < r.cinfo then some .hdrCinfo
  else if r.fcheckOk = false then some .hdrFcheck
  else if r.fdict = true ∧ p = .error then some .hdrFdict
  else none

/-- NLEN is the one's complement of LEN (R104, R331). -/
def nlenOk (len nlen : BitVec 16) : Bool := decide (nlen.toNat = 65535 - len.toNat)

end Sys2Proof.Machine
end

