-- ==== Sys2Proof/Machine/Lz77.lean ====
section
/-! DEFINITION. The LZ77 history and the match finder (42_lz77.md), over INPUT and the history registers. -/

namespace Sys2Proof.Machine

/-- `hash3(p)` (R211): the 24-bit concatenation of the three bytes at `p`, zero-extended. -/
def hash3 (m : Memory) (p : Nat) : BitVec 32 :=
  (m.read p ++ m.read (p + 1) ++ m.read (p + 2)).zeroExtend 32

/-- `bucket_of(h)` (R211). -/
def bucketOf (c : Config) (h : BitVec 32) : Nat := h.toNat % c.nbuckets

/-- The slot is occupied (USED, R43). -/
def DefRegs.slotUsed (r : DefRegs) (slot : Nat) : Bool := r.hist.any fun e => e.slot == slot

/-- The scan of R213: the first occupied slot from `cur` on, going round; its first argument bounds it. -/
def DefRegs.scanFrom (c : Config) (r : DefRegs) : Nat → Nat → Nat
  | 0, cur => cur
  | k + 1, cur => if r.slotUsed cur then cur else r.scanFrom c k ((cur + 1) % c.histCap)

/-- `evict()` (R213). -/
def DefRegs.evict (c : Config) (r : DefRegs) : DefRegs :=
  let slot := r.scanFrom c c.histCap r.evictCur
  { r with
    evictCur := (slot + 1) % c.histCap
    hist := r.hist.eraseP fun e => e.slot == slot
    freed := slot :: r.freed }

/-- Take a slot from the free list (R212): the head of the returned slots, else the lowest slot never used
(R213). The order among several returned slots, which no run has, is the model's choice (log 32). -/
def DefRegs.takeSlot (r : DefRegs) : Nat × DefRegs :=
  match r.freed with
  | s :: rest => (s, { r with freed := rest })
  | [] => (r.fresh, { r with fresh := r.fresh + 1 })

/-- `insert(p)` (R212). -/
def DefRegs.insert (c : Config) (m : Memory) (p : Nat) (r : DefRegs) : DefRegs :=
  let r₁ := if r.histCnt = c.histCap then r.evict c else r
  let q := r₁.takeSlot
  { q.2 with hist := q.2.hist ++ [⟨q.1, hash3 m p, p⟩] }

/-- The entries of a bucket's chain, oldest first (R43, R212). -/
def DefRegs.bucketEntries (c : Config) (r : DefRegs) (b : Nat) : List HistEntry :=
  r.hist.filter fun e => bucketOf c e.hash == b

/-- HEAD[b] (R43): the newest entry of the bucket, under either WALK_ORDER; none is the null index. R43 says
"bucket heads" and not which end of the chain that is: DESIGN CHOICE (log 32). -/
def DefRegs.headOf (c : Config) (r : DefRegs) (b : Nat) : Option Nat :=
  (r.bucketEntries c b).getLast?.map HistEntry.slot

/-- FREE_HEAD (R43): the slot `takeSlot` would take; none is the null index. -/
def DefRegs.freeHead (c : Config) (r : DefRegs) : Option Nat :=
  match r.freed with
  | s :: _ => some s
  | [] => if r.fresh < c.histCap then some r.fresh else none

/-- The entries of a list in walk order (R218). -/
def walked {α : Type} (o : WalkOrder) (l : List α) : List α :=
  match o with
  | .newestFirst => l.reverse
  | .oldestFirst => l

/-- The largest `l ≤ lim` with `IN[p+i] = IN[q+i]` for all `i < l` (R214). -/
def matchLen (m : Memory) : Nat → Nat → Nat → Nat
  | 0, _, _ => 0
  | lim + 1, p, q => if m.read p = m.read q then matchLen m lim (p + 1) (q + 1) + 1 else 0

/-- The search's best match so far (R214): `best_len` and `best_dist`. -/
structure Match where
  len : Nat
  dist : Nat
  deriving DecidableEq, Repr

/-- One candidate of R214's loop, at position `p`; `n` is IN_END. -/
def tryCandidate (m : Memory) (n cur : Nat) (best : Match) (p : Nat) : Match :=
  let d := cur - p
  if maxDist < d then best
  else
    let l := matchLen m (min (min d (n - cur)) maxMatch) p cur
    if minMatch ≤ l ∧ best.len < l then ⟨l, d⟩ else best

/-- R214's loop over a list of candidate positions. -/
def bestMatch (m : Memory) (n cur : Nat) (ps : List Nat) : Match := ps.foldl (tryCandidate m n cur) ⟨0, 0⟩

/-- `findLongestMatch(cur)` (R214): over the entries of the bucket of `cur`'s hash, in walk order. -/
def DefRegs.findLongestMatch (c : Config) (m : Memory) (cur : Nat) (r : DefRegs) : Match :=
  bestMatch m r.inEnd cur
    (walked c.walkOrder ((r.bucketEntries c (bucketOf c (hash3 m cur))).map HistEntry.pos))

end Sys2Proof.Machine
end

