-- ==== Sys2Proof/Machine/Deflate.lean ====
section
/-! DEFINITION. The DEFLATE engine: the passes of its state machine (R380) and the emission lists. The
element TRAILER, which it emits in D_END, is in Machine/Container.lean. -/

namespace Sys2Proof.Machine

/-! ### Adler-32 (R307, R308) -/

/-- `adlerUpdate(b)` (R308). -/
def DefRegs.adlerUpdate (b : Byte) (r : DefRegs) : DefRegs :=
  let s1 := (r.adlerS1 + b.toNat) % adlerMod
  { r with adlerS1 := s1, adlerS2 := (r.adlerS2 + s1) % adlerMod }

/-- `ADLER` (R309). -/
def DefRegs.adler (r : DefRegs) : BitVec 32 := BitVec.ofNat 32 (r.adlerS2 * 65536 + r.adlerS1)

/-! ### the header (R306) -/

/-- FLG of the header the engine writes (R306). -/
def levelFlg : Level → Nat
  | .noCompression => 0x01
  | .fixed => 0x5e
  | .dynamic => 0x9c

/-- The emission list of D_INIT (R306). -/
def headerItems (l : Level) : List Item := [.le 8 0x78, .le 8 (levelFlg l)]

/-! ### stored blocks (R383, R384) -/

/-- `adlerUpdate` over the bytes of INPUT from `p` on. -/
def adlerRange (m : Memory) : Nat → Nat → DefRegs → DefRegs
  | 0, _, r => r
  | n + 1, p, r => adlerRange m n (p + 1) (r.adlerUpdate (m.read p))

/-- Forming a stored block (R383). -/
def DefRegs.formStored (m : Memory) (r : DefRegs) : DefRegs :=
  let len := min storedMax (r.inEnd - r.inCur)
  let r₁ := adlerRange m len r.inCur { r with blkStart := r.inCur, blkLen := len }
  { r₁ with inCur := r.inCur + len, blkFinal := decide (r.inCur + len = r.inEnd), emitIdx := 0 }

/-- The emission list of a stored block (R384). -/
def storedItems (m : Memory) (r : DefRegs) : List Item :=
  [.le 1 r.blkFinal.toNat, .le 2 0, .flush, .le 16 r.blkLen, .le 16 (65535 - r.blkLen)]
    ++ (m.bytes r.blkStart r.blkLen).map fun b => .le 8 b.toNat

/-! ### the LZSS pass (R385, R386) -/

/-- Add one to an entry of a frequency table (R386, R393). -/
def bump {n : Nat} (t : Vector Nat n) (i : Nat) : Vector Nat n := t.setIfInBounds i ((t[i]?).getD 0 + 1)

/-- Start of a pass (R385). -/
def DefRegs.startPass (r : DefRegs) : DefRegs :=
  { r.clearTok with freqLl := Vector.replicate 286 0, freqD := Vector.replicate 30 0 }

/-- Append a match token and count it (R386). -/
def DefRegs.addMatch (l d : Nat) (r : DefRegs) : DefRegs :=
  { r.pushTok ⟨257 + lc l, l, d⟩ with
    freqLl := bump r.freqLl (257 + lc l)
    freqD := bump r.freqD (dc d) }

/-- Append a literal token and count it (R386). -/
def DefRegs.addLiteral (b : Byte) (r : DefRegs) : DefRegs :=
  { r.pushTok ⟨b.toNat, 1, 0⟩ with freqLl := bump r.freqLl b.toNat }

/-- `for p in cur .. cur + step - 1` of R386: insert where three bytes remain, and update the checksum. -/
def consume (c : Config) (m : Memory) : Nat → Nat → DefRegs → DefRegs
  | 0, _, r => r
  | k + 1, p, r =>
    let r₁ := if 3 ≤ r.inEnd - p then r.insert c m p else r
    consume c m k (p + 1) (r₁.adlerUpdate (m.read p))

/-- The match R386 takes at IN_CUR. -/
def DefRegs.searchAt (c : Config) (m : Memory) (r : DefRegs) : Match :=
  if 3 ≤ r.inEnd - r.inCur then r.findLongestMatch c m r.inCur else ⟨0, 0⟩

/-- One token of R386's loop. -/
def DefRegs.passToken (c : Config) (m : Memory) (r : DefRegs) : DefRegs :=
  let f := r.searchAt c m
  if 3 ≤ f.len then { consume c m f.len r.inCur (r.addMatch f.len f.dist) with inCur := r.inCur + f.len }
  else { consume c m 1 r.inCur (r.addLiteral (m.read r.inCur)) with inCur := r.inCur + 1 }

/-- R386's loop; its first argument is TOKEN_CAP - TOK_CNT. -/
def passLoop (c : Config) (m : Memory) : Nat → DefRegs → DefRegs
  | 0, r => r
  | k + 1, r => if r.inCur < r.inEnd then passLoop c m k (r.passToken c m) else r

/-- The pass with its two last lines (R385, R386). -/
def DefRegs.runPass (c : Config) (m : Memory) (r : DefRegs) : DefRegs :=
  let r₁ := passLoop c m c.tokenCap r.startPass
  { r₁ with
    freqLl := r₁.freqLl.setIfInBounds 256 1
    blkFinal := decide (r₁.inCur = r₁.inEnd) }

/-! ### the tables of a Dynamic block (R391 to R394) -/

/-- The code tables (R391). -/
def DefRegs.buildCodes (r : DefRegs) : DefRegs :=
  let ll := buildLengths r.freqLl.toList llMaxBits
  let d := buildLengths r.freqD.toList dMaxBits
  { r with
    llcLen := tableOf 286 0 ll
    llcCode := tableOf 286 0 (assignCodes ll)
    dcLen := tableOf 30 0 d
    dcCode := tableOf 30 0 (assignCodes d) }

/-- `max({lo} ∪ {k in lo+1 .. hi : l[k] ≠ 0})` (R392, R394). -/
def lastUsed (lo hi : Nat) (l : List Nat) : Nat :=
  (List.range (hi + 1)).foldl (fun best k => if lo < k ∧ l.getD k 0 ≠ 0 then k else best) lo

/-- The counts NLIT and NDIST (R392). -/
def DefRegs.setCounts (r : DefRegs) : DefRegs :=
  { r with nlit := 1 + lastUsed 256 285 r.llcLen.toList, ndist := 1 + lastUsed 0 29 r.dcLen.toList }

/-- A list cut into its maximal runs of equal values: value and length (R393). -/
def runsOf : List Nat → List (Nat × Nat)
  | [] => []
  | v :: vs =>
    match runsOf vs with
    | [] => [(v, 1)]
    | (w, r) :: rest => if v = w then (w, r + 1) :: rest else (v, 1) :: (w, r) :: rest

/-- The coding of a zero run of length `r` (R393); its first argument bounds the loop. -/
def zeroRun : Nat → Nat → List RleItem
  | 0, _ => []
  | k + 1, r =>
    if 11 ≤ r then ⟨18, min r 138 - 11⟩ :: zeroRun k (r - min r 138)
    else if 3 ≤ r then [⟨17, r - 3⟩]
    else List.replicate r ⟨0, 0⟩

/-- The coding of `r` repeats of `v` after its first occurrence (R393); its first argument bounds the loop. -/
def repeatRun (v : Nat) : Nat → Nat → List RleItem
  | 0, _ => []
  | k + 1, r =>
    if 3 ≤ r then ⟨16, min r 6 - 3⟩ :: repeatRun v k (r - min r 6)
    else List.replicate r ⟨v, 0⟩

/-- The coding of one run (R393). -/
def codeRun (p : Nat × Nat) : List RleItem :=
  if p.1 = 0 then zeroRun (p.2 + 1) p.2 else ⟨p.1, 0⟩ :: repeatRun p.1 (p.2 + 1) (p.2 - 1)

/-- The run-length coding of a length sequence (R393). -/
def rleOf (seq : List Nat) : List RleItem := (runsOf seq).flatMap codeRun

/-- `seq` of R393. -/
def DefRegs.lengthSeq (r : DefRegs) : List Nat := r.llcLen.toList.take r.nlit ++ r.dcLen.toList.take r.ndist

/-- RLE and FREQ_CL (R393). -/
def DefRegs.setRle (r : DefRegs) : DefRegs :=
  let items := rleOf r.lengthSeq
  { r.writeRle items with freqCl := items.foldl (fun t e => bump t e.sym) (Vector.replicate 19 0) }

/-- The code-length code (R394). -/
def DefRegs.setClc (r : DefRegs) : DefRegs :=
  let cl := buildLengths r.freqCl.toList clMaxBits
  { r with
    clcLen := tableOf 19 0 cl
    clcCode := tableOf 19 0 (assignCodes cl)
    ncl := 1 + lastUsed 3 18 (hclensOrder.map fun s => cl.getD s 0) }

/-- Rules R391 to R394, in that order (R387). -/
def DefRegs.buildTables (r : DefRegs) : DefRegs := r.buildCodes.setCounts.setRle.setClc

/-! ### the emission lists of Huffman-coded blocks (R388, R389, R396) -/

/-- The length and code tables of one alphabet. -/
structure CodeTable where
  len : List Nat
  code : List Nat
  deriving DecidableEq, Repr

/-- The item that writes symbol `s` (R180): its code, most significant bit first. -/
def CodeTable.item (t : CodeTable) (s : Nat) : Item := .be (t.len.getD s 0) (t.code.getD s 0)

/-- The canonical tables of a length table (R174). -/
def CodeTable.ofLengths (len : List Nat) : CodeTable := ⟨len, assignCodes len⟩

/-- The four items of a token (R389). -/
def tokenItem (ll d : CodeTable) (t : Token) : List Item :=
  if t.dist = 0 then [ll.item t.sym, .le 0 0, .be 0 0, .le 0 0]
  else
    [ll.item t.sym, .le (lenExtra (t.sym - 257)) (t.len - lenBase (t.sym - 257)),
      d.item (dc t.dist), .le (distExtra (dc t.dist)) (t.dist - distBase (dc t.dist))]

/-- `tokenItems` (R389): every token, then EOB. -/
def tokenItems (ll d : CodeTable) (toks : List Token) : List Item :=
  toks.flatMap (tokenItem ll d) ++ [ll.item 256]

/-- FIX_LL_LEN and FIX_LL_CODE (R113). -/
def fixLlTable : CodeTable := CodeTable.ofLengths fixLlLen

/-- FIX_D_LEN and FIX_D_CODE (R114). -/
def fixDTable : CodeTable := CodeTable.ofLengths fixDLen

/-- The emission list of a Fixed block (R388). -/
def fixedItems (r : DefRegs) : List Item :=
  [.le 1 r.blkFinal.toNat, .le 2 1] ++ tokenItems fixLlTable fixDTable r.tok

/-- LLC_LEN and LLC_CODE (R40). -/
def DefRegs.llTable (r : DefRegs) : CodeTable := ⟨r.llcLen.toList, r.llcCode.toList⟩

/-- DC_LEN and DC_CODE (R40). -/
def DefRegs.dTable (r : DefRegs) : CodeTable := ⟨r.dcLen.toList, r.dcCode.toList⟩

/-- CLC_LEN and CLC_CODE (R40). -/
def DefRegs.clTable (r : DefRegs) : CodeTable := ⟨r.clcLen.toList, r.clcCode.toList⟩

/-- The emission list of a Dynamic block (R396). -/
def dynamicItems (r : DefRegs) : List Item :=
  [.le 1 r.blkFinal.toNat, .le 2 2, .le 5 (r.nlit - 257), .le 5 (r.ndist - 1), .le 4 (r.ncl - 4)]
    ++ ((List.range r.ncl).map fun k => .le 3 (r.clTable.len.getD (clOrder k) 0))
    ++ (r.rle.flatMap fun e => [r.clTable.item e.sym, .le (clExtra e.sym) e.xv])
    ++ tokenItems r.llTable r.dTable r.tok

/-- The emission list of D_END (R309). -/
def trailerItems (a : BitVec 32) : List Item :=
  [.flush, .le 8 (a.toNat / 2 ^ 24 % 256), .le 8 (a.toNat / 2 ^ 16 % 256), .le 8 (a.toNat / 2 ^ 8 % 256),
    .le 8 (a.toNat % 256), .flush]

/-! ### the passes of R380's loop -/

/-- After a block (R397). -/
def DefRegs.endBlock (r : DefRegs) : DefRegs := { r with dState := if r.blkFinal then .dEnd else .dBlock }

/-- D_INIT (R306, R380). -/
def State.passInit (s : State) : State :=
  s.emitList (headerItems s.dfl.level) fun r => { r with dState := .dBlock }

/-- D_BLOCK (R382). -/
def State.passBlock (s : State) : State :=
  match s.dfl.level with
  | .noCompression => { s with dfl := { s.dfl.formStored s.dflIn with dState := .dNocomp } }
  | .fixed => { s with dfl := { s.dfl with dState := .dLzss } }
  | .dynamic => { s with dfl := { s.dfl with dState := .dLzss } }

/-- D_NOCOMP (R384). The block it copies lies inside INPUT (R383); the fault stands for the bytes that do
not exist (log 24). -/
def State.passNocomp (s : State) : Result :=
  if s.dfl.inEnd < s.dfl.blkStart + s.dfl.blkLen then .fault .inputOutside
  else .next (s.emitList (storedItems s.dflIn s.dfl) DefRegs.endBlock)

/-- What follows the pass (R387). R387 names levels 1 and 2 only, and R382 sends no run here at level 0: that it is
then as at level 1 is the model's choice: DESIGN CHOICE (log 30). -/
def DefRegs.afterPass (r : DefRegs) : DefRegs :=
  match r.level with
  | .dynamic => { r.buildTables with emitIdx := 0, dState := .dDynamic }
  | .fixed => { r with emitIdx := 0, dState := .dFixed }
  | .noCompression => { r with emitIdx := 0, dState := .dFixed }

/-- D_LZSS (R385 to R387). -/
def State.passLzss (s : State) : State := { s with dfl := (s.dfl.runPass s.cfg s.dflIn).afterPass }

/-- D_FIXED (R388). -/
def State.passFixed (s : State) : State := s.emitList (fixedItems s.dfl) DefRegs.endBlock

/-- D_DYNAMIC (R396). -/
def State.passDynamic (s : State) : State := s.emitList (dynamicItems s.dfl) DefRegs.endBlock

/-- D_DONE (R399). -/
def State.passDone (s : State) : State := s.answerDfl .ended

end Sys2Proof.Machine
end

