-- ==== Sys2Proof/Machine/Container.lean ====
section
/-! DEFINITION. The container elements (43_container.md): ZHDR and DICTID, which the INFLATE engine
decodes in I_INIT, and TRAILER, which the DEFLATE engine writes in D_END (log 13). -/

namespace Sys2Proof.Machine

/-- Apply a function to the INFLATE engine's registers. -/
def State.withInf (f : InfRegs → InfRegs) (s : State) : State := { s with inf := f s.inf }

/-- ZHDR (R301 to R305): CMF and FLG are loaded, then the checks are made in order; the next element is
DICTID where FDICT is set and the policy is skip, else the first block header. -/
def execZhdr (cm cinfo : BitVec 4) (fcheck : BitVec 5) (fdict : Bool) (flevel : BitVec 2) (s : State) : Result :=
  let t := s.withInf fun r => { r with cmf := zhdrCmf cm cinfo, flg := zhdrFlg fcheck fdict flevel }
  match t.inf.headerCause t.cfg.fdictPolicy with
  | some c => .next (t.raiseFormat c)
  | none =>
    if t.inf.fdict then .next (t.withInf fun r => { r with sub := .dictid })
    else .next (t.withInf fun r => { r with iState := .iBlock, sub := .start })

/-- DICTID (R305): loaded and never used. -/
def execDictid (id : BitVec 32) (s : State) : Result :=
  .next (s.withInf fun r => { r with dictid := id, iState := .iBlock, sub := .start })

/-- TRAILER (R309, R398): the emission list of D_END; the INFLATE engine never decodes it (R310). -/
def execTrailer (adler : BitVec 32) (s : State) : Result :=
  .next (s.emitList (trailerItems adler) fun r => { r with dState := .dDone })

end Sys2Proof.Machine
end

