-- ==== Sys2Proof/Machine/Block.lean ====
section
/-! DEFINITION. The block elements of the INFLATE engine (44_inflate.md): the block headers, the stored
block, the dynamic block's header, and the transitions that have no element of their own. -/

namespace Sys2Proof.Machine

/-! ### block headers (R322) -/

/-- The registers a block header writes (R322). -/
def InfRegs.enterBlock (final : Bool) (btype : BitVec 2) (r : InfRegs) : InfRegs :=
  { r with bfinal := final, btype := btype, iPhase := false, sub := .start }

/-- BHDR with BTYPE = 0 (R322). -/
def execBhdrStored (final : Bool) (s : State) : Result :=
  .next (s.withInf fun r => { r.enterBlock final 0 with iState := .iNocomp })

/-- BHDR with BTYPE = 1 (R322). -/
def execBhdrFixed (final : Bool) (s : State) : Result :=
  .next (s.withInf fun r => { r.enterBlock final 1 with iState := .iFixed })

/-- BHDR with BTYPE = 2 (R322). -/
def execBhdrDynamic (final : Bool) (s : State) : Result :=
  .next (s.withInf fun r => { r.enterBlock final 2 with iState := .iDynamic })

/-- BHDR with BTYPE = 3 (R322): raises BLOCK_TYPE with BFINAL and BTYPE holding the offending values. -/
def execBhdrReserved (final : Bool) (s : State) : Result :=
  .next ((s.withInf (InfRegs.enterBlock final 3)).raiseFormat .blockType)

/-- The end of a block's body (R333, R339): BFINAL chooses between I_END and I_BLOCK. -/
def InfRegs.endBody (r : InfRegs) : InfRegs :=
  { r with iPhase := false, iState := if r.bfinal then .iEnd else .iBlock, sub := .start }

/-! ### stored blocks (R330 to R333) -/

/-- PAD (R330): the cursor moves to the byte boundary; the skipped bits are not examined. -/
def execPad (s : State) : Result := .next (s.withInf fun r => { r.alignToByte with sub := .stored })

/-- SHDR (R331). -/
def execShdr (len nlen : BitVec 16) (s : State) : Result :=
  if nlenOk len nlen then
    .next (s.withInf fun r => { r with storedRem := len.toNat, iPhase := true, sub := .start })
  else .next (s.raiseFormat .storedNlen)

/-- RAW (R332): one pass of the stored copy. The input is tested before the output; the cursor moves past
the byte only when it is emitted. -/
def execRaw (b : Byte) (s : State) : Result :=
  if s.inf.avail < 8 then .next (s.raiseFormat .inputExhausted)
  else if s.inf.outFull then .next s.suspendInf
  else
    let t := (s.withInf fun r => { r with brByte := r.brByte + 1 }).emitByte b
    .next (t.withInf fun r => { r with storedRem := r.storedRem - 1 })

/-! ### the dynamic block's prologue (R334 to R337) -/

/-- DYNHDR (R334), and the clearing of CL_LEN that opens R335. -/
def execDynhdr (hlit hdist : BitVec 5) (hclen : BitVec 4) (s : State) : Result :=
  let t := s.withInf fun r => { r with hlit := hlit, hdist := hdist, hclen := hclen }
  if 29 < hlit.toNat then .next (t.raiseFormat .alphabetSize)
  else .next (t.withInf fun r => { r with clLen := Vector.replicate 19 0, sub := .codeLens 0 })

/-- The lengths of CL_LEN as naturals. -/
def InfRegs.clLens (r : InfRegs) : List Nat := r.clLen.toList.map BitVec.toNat

/-- The last two lines of R335: TREE_CL is built and the length sequence begins. -/
def State.buildCl (s : State) : State :=
  match buildDecodeTree s.inf.clLens with
  | none => s.raiseFormat .codeOversubscribed
  | some t => s.withInf fun r => { r with treeCl := t, sub := .lengths [] }

/-- CLLENS (R335): the `k`-th field gives the length of HCLENS_ORDER[k]. -/
def execCllens (len : BitVec 3) (s : State) : Result :=
  match s.inf.sub with
  | .codeLens k =>
    let t := s.withInf fun r => { r with clLen := r.clLen.setIfInBounds (clOrder k) len }
    if k + 1 < s.inf.nCl then .next (t.withInf fun r => { r with sub := .codeLens (k + 1) })
    else .next t.buildCl
  | _ => .refused .outOfPlace

/-- The last two lines of R336: LL_LEN and D_LEN from the sequence, 0 where it does not reach. -/
def InfRegs.splitLengths (seq : List (BitVec 4)) (r : InfRegs) : InfRegs :=
  { r with
    llLen := tableOf 288 0 (seq.take r.nLit)
    dLen := tableOf 32 0 ((seq.drop r.nLit).take r.nDist) }

/-- `LL_LEN[0 .. HLIT+256]` (R337). -/
def InfRegs.llLens (r : InfRegs) : List Nat := (r.llLen.toList.take r.nLit).map BitVec.toNat

/-- `D_LEN[0 .. HDIST]` (R337). -/
def InfRegs.dLens (r : InfRegs) : List Nat := (r.dLen.toList.take r.nDist).map BitVec.toNat

/-- The end of the length sequence (R336, R337): the tables are written, then the lit/len tree is built,
then the distance tree; the body begins. -/
def State.finishLengths (seq : List (BitVec 4)) (s : State) : State :=
  let t := s.withInf (InfRegs.splitLengths seq)
  match buildDecodeTree t.inf.llLens with
  | none => t.raiseFormat .codeOversubscribed
  | some ll =>
    let u := t.withInf fun r => { r with treeLl := ll }
    match buildDecodeTree u.inf.dLens with
    | none => u.raiseFormat .codeOversubscribed
    | some d => u.withInf fun r => { r with treeD := d, iPhase := true, sub := .start }

/-! ### the trees in force (R112, R344) -/

/-- LLT of R344. -/
def InfRegs.llTree (r : InfRegs) : Trie := if r.iState = .iDynamic then r.treeLl else ftreeLl

/-- DT of R344. -/
def InfRegs.dTree (r : InfRegs) : Trie := if r.iState = .iDynamic then r.treeD else ftreeD

end Sys2Proof.Machine
end

