-- ==== Sys2Proof/Machine/LitLen.lean ====
section
/-! DEFINITION. The elements of the lit/len alphabet (47_symbols.md section 1). Each length element is one
row of R338's length case; what the rows share is `State.takeLength`. -/

namespace Sys2Proof.Machine

/-- LIT (R520, R338): the code is in flight, then `drainCode` emits it or suspends (log 18). -/
def execLit (b : Byte) (s : State) : Result :=
  .next (s.withInf fun r => { r with pendSym := b.zeroExtend 9, pendLen := 1, pendDist := 0 }).drainCode

/-- EOB (R521, R339). -/
def execEob (s : State) : Result := .next (s.withInf InfRegs.endBody)

/-- A length symbol with its extra bits is read: `L` is known and the distance is next (R338, R552). -/
def State.takeLength (sym x : Nat) (s : State) : State :=
  s.withInf fun r => { r with sub := .distance (BitVec.ofNat 9 sym) (matchLength sym x) }

/-- LEN257 (R522). -/
def execLen257 (s : State) : Result := .next (s.takeLength 257 0)

/-- LEN258 (R523). -/
def execLen258 (s : State) : Result := .next (s.takeLength 258 0)

/-- LEN259 (R524). -/
def execLen259 (s : State) : Result := .next (s.takeLength 259 0)

/-- LEN260 (R525). -/
def execLen260 (s : State) : Result := .next (s.takeLength 260 0)

/-- LEN261 (R526). -/
def execLen261 (s : State) : Result := .next (s.takeLength 261 0)

/-- LEN262 (R527). -/
def execLen262 (s : State) : Result := .next (s.takeLength 262 0)

/-- LEN263 (R528). -/
def execLen263 (s : State) : Result := .next (s.takeLength 263 0)

/-- LEN264 (R529). -/
def execLen264 (s : State) : Result := .next (s.takeLength 264 0)

/-- LEN265 (R530). -/
def execLen265 (x : BitVec 1) (s : State) : Result := .next (s.takeLength 265 x.toNat)

/-- LEN266 (R531). -/
def execLen266 (x : BitVec 1) (s : State) : Result := .next (s.takeLength 266 x.toNat)

/-- LEN267 (R532). -/
def execLen267 (x : BitVec 1) (s : State) : Result := .next (s.takeLength 267 x.toNat)

/-- LEN268 (R533). -/
def execLen268 (x : BitVec 1) (s : State) : Result := .next (s.takeLength 268 x.toNat)

/-- LEN269 (R534). -/
def execLen269 (x : BitVec 2) (s : State) : Result := .next (s.takeLength 269 x.toNat)

/-- LEN270 (R535). -/
def execLen270 (x : BitVec 2) (s : State) : Result := .next (s.takeLength 270 x.toNat)

/-- LEN271 (R536). -/
def execLen271 (x : BitVec 2) (s : State) : Result := .next (s.takeLength 271 x.toNat)

/-- LEN272 (R537). -/
def execLen272 (x : BitVec 2) (s : State) : Result := .next (s.takeLength 272 x.toNat)

/-- LEN273 (R538). -/
def execLen273 (x : BitVec 3) (s : State) : Result := .next (s.takeLength 273 x.toNat)

/-- LEN274 (R539). -/
def execLen274 (x : BitVec 3) (s : State) : Result := .next (s.takeLength 274 x.toNat)

/-- LEN275 (R540). -/
def execLen275 (x : BitVec 3) (s : State) : Result := .next (s.takeLength 275 x.toNat)

/-- LEN276 (R541). -/
def execLen276 (x : BitVec 3) (s : State) : Result := .next (s.takeLength 276 x.toNat)

/-- LEN277 (R542). -/
def execLen277 (x : BitVec 4) (s : State) : Result := .next (s.takeLength 277 x.toNat)

/-- LEN278 (R543). -/
def execLen278 (x : BitVec 4) (s : State) : Result := .next (s.takeLength 278 x.toNat)

/-- LEN279 (R544). -/
def execLen279 (x : BitVec 4) (s : State) : Result := .next (s.takeLength 279 x.toNat)

/-- LEN280 (R545). -/
def execLen280 (x : BitVec 4) (s : State) : Result := .next (s.takeLength 280 x.toNat)

/-- LEN281 (R546). -/
def execLen281 (x : BitVec 5) (s : State) : Result := .next (s.takeLength 281 x.toNat)

/-- LEN282 (R547). -/
def execLen282 (x : BitVec 5) (s : State) : Result := .next (s.takeLength 282 x.toNat)

/-- LEN283 (R548). -/
def execLen283 (x : BitVec 5) (s : State) : Result := .next (s.takeLength 283 x.toNat)

/-- LEN284 (R549). -/
def execLen284 (x : BitVec 5) (s : State) : Result := .next (s.takeLength 284 x.toNat)

/-- LEN285 (R550). -/
def execLen285 (s : State) : Result := .next (s.takeLength 285 0)

/-- LL286, reserved (R551). -/
def execLl286 (s : State) : Result := .next (s.raiseFormat .symbolInvalid)

/-- LL287, reserved (R551). -/
def execLl287 (s : State) : Result := .next (s.raiseFormat .symbolInvalid)

end Sys2Proof.Machine
end

