-- ==== Sys2Proof/Machine/Dist.lean ====
section
/-! DEFINITION. The elements of the distance alphabet (47_symbols.md section 2). Each is one row of R340;
what the rows share is `State.takeDistance`. -/

namespace Sys2Proof.Machine

/-- A distance `d` is read after the length of R338: the check of R341, then the code is in flight and
`drainCode` emits it as far as the output has room (R338, R342; log 18). -/
def State.takeDistance (d : Nat) (s : State) : Result :=
  match s.inf.sub with
  | .distance sym len =>
    if s.inf.totalOut < d then .next (s.raiseFormat .distTooFar)
    else
      .next (s.withInf fun r =>
        { r with pendSym := sym, pendLen := len, pendDist := d, sub := .start }).drainCode
  | _ => .refused .outOfPlace

/-- A reserved distance symbol is read after the length of R338 (R340, R583). -/
def State.takeReservedDistance (s : State) : Result :=
  match s.inf.sub with
  | .distance _ _ => .next (s.raiseFormat .symbolInvalid)
  | _ => .refused .outOfPlace

/-- DIST0 (R553). -/
def execDist0 (s : State) : Result := s.takeDistance (matchDistance 0 0)

/-- DIST1 (R554). -/
def execDist1 (s : State) : Result := s.takeDistance (matchDistance 1 0)

/-- DIST2 (R555). -/
def execDist2 (s : State) : Result := s.takeDistance (matchDistance 2 0)

/-- DIST3 (R556). -/
def execDist3 (s : State) : Result := s.takeDistance (matchDistance 3 0)

/-- DIST4 (R557). -/
def execDist4 (y : BitVec 1) (s : State) : Result := s.takeDistance (matchDistance 4 y.toNat)

/-- DIST5 (R558). -/
def execDist5 (y : BitVec 1) (s : State) : Result := s.takeDistance (matchDistance 5 y.toNat)

/-- DIST6 (R559). -/
def execDist6 (y : BitVec 2) (s : State) : Result := s.takeDistance (matchDistance 6 y.toNat)

/-- DIST7 (R560). -/
def execDist7 (y : BitVec 2) (s : State) : Result := s.takeDistance (matchDistance 7 y.toNat)

/-- DIST8 (R561). -/
def execDist8 (y : BitVec 3) (s : State) : Result := s.takeDistance (matchDistance 8 y.toNat)

/-- DIST9 (R562). -/
def execDist9 (y : BitVec 3) (s : State) : Result := s.takeDistance (matchDistance 9 y.toNat)

/-- DIST10 (R563). -/
def execDist10 (y : BitVec 4) (s : State) : Result := s.takeDistance (matchDistance 10 y.toNat)

/-- DIST11 (R564). -/
def execDist11 (y : BitVec 4) (s : State) : Result := s.takeDistance (matchDistance 11 y.toNat)

/-- DIST12 (R565). -/
def execDist12 (y : BitVec 5) (s : State) : Result := s.takeDistance (matchDistance 12 y.toNat)

/-- DIST13 (R566). -/
def execDist13 (y : BitVec 5) (s : State) : Result := s.takeDistance (matchDistance 13 y.toNat)

/-- DIST14 (R567). -/
def execDist14 (y : BitVec 6) (s : State) : Result := s.takeDistance (matchDistance 14 y.toNat)

/-- DIST15 (R568). -/
def execDist15 (y : BitVec 6) (s : State) : Result := s.takeDistance (matchDistance 15 y.toNat)

/-- DIST16 (R569). -/
def execDist16 (y : BitVec 7) (s : State) : Result := s.takeDistance (matchDistance 16 y.toNat)

/-- DIST17 (R570). -/
def execDist17 (y : BitVec 7) (s : State) : Result := s.takeDistance (matchDistance 17 y.toNat)

/-- DIST18 (R571). -/
def execDist18 (y : BitVec 8) (s : State) : Result := s.takeDistance (matchDistance 18 y.toNat)

/-- DIST19 (R572). -/
def execDist19 (y : BitVec 8) (s : State) : Result := s.takeDistance (matchDistance 19 y.toNat)

/-- DIST20 (R573). -/
def execDist20 (y : BitVec 9) (s : State) : Result := s.takeDistance (matchDistance 20 y.toNat)

/-- DIST21 (R574). -/
def execDist21 (y : BitVec 9) (s : State) : Result := s.takeDistance (matchDistance 21 y.toNat)

/-- DIST22 (R575). -/
def execDist22 (y : BitVec 10) (s : State) : Result := s.takeDistance (matchDistance 22 y.toNat)

/-- DIST23 (R576). -/
def execDist23 (y : BitVec 10) (s : State) : Result := s.takeDistance (matchDistance 23 y.toNat)

/-- DIST24 (R577). -/
def execDist24 (y : BitVec 11) (s : State) : Result := s.takeDistance (matchDistance 24 y.toNat)

/-- DIST25 (R578). -/
def execDist25 (y : BitVec 11) (s : State) : Result := s.takeDistance (matchDistance 25 y.toNat)

/-- DIST26 (R579). -/
def execDist26 (y : BitVec 12) (s : State) : Result := s.takeDistance (matchDistance 26 y.toNat)

/-- DIST27 (R580). -/
def execDist27 (y : BitVec 12) (s : State) : Result := s.takeDistance (matchDistance 27 y.toNat)

/-- DIST28 (R581). -/
def execDist28 (y : BitVec 13) (s : State) : Result := s.takeDistance (matchDistance 28 y.toNat)

/-- DIST29 (R582). -/
def execDist29 (y : BitVec 13) (s : State) : Result := s.takeDistance (matchDistance 29 y.toNat)

/-- DIST30, reserved (R583). -/
def execDist30 (s : State) : Result := s.takeReservedDistance

/-- DIST31, reserved (R583). -/
def execDist31 (s : State) : Result := s.takeReservedDistance

end Sys2Proof.Machine
end

