-- ==== Sys2Proof/Machine/CodeLen.lean ====
section
/-! DEFINITION. The elements of the code-length alphabet (47_symbols.md section 3, R336): each appends
lengths to the sequence of the dynamic block's prologue. -/

namespace Sys2Proof.Machine

/-- The lengths so far, where a length sequence is being read (R336). -/
def InfRegs.seq? (r : InfRegs) : Option (List (BitVec 4)) :=
  match r.sub with
  | .lengths seq => some seq
  | _ => none

/-- `seq[i .. i+r-1] <- v;  i <- i + r`, with the overrun test before it (R336). -/
def State.appendRun (seq : List (BitVec 4)) (n : Nat) (v : BitVec 4) (s : State) : State :=
  if s.inf.nSeq < seq.length + n then s.raiseFormat .alphabetSize
  else s.withInf fun r => { r with sub := .lengths (seq ++ List.replicate n v) }

/-- CL v (R584): the next length is `v`. -/
def execCl (v : BitVec 4) (s : State) : Result :=
  match s.inf.seq? with
  | some seq => .next (s.withInf fun r => { r with sub := .lengths (seq ++ [v]) })
  | none => .refused .outOfPlace

/-- CL16 (R585): the previous length again. -/
def execCl16 (x : BitVec 2) (s : State) : Result :=
  match s.inf.seq? with
  | some seq =>
    match seq.getLast? with
    | none => .next (s.raiseFormat .repeatNoPrev)
    | some v => .next (s.appendRun seq (repeat16 x.toNat) v)
  | none => .refused .outOfPlace

/-- CL17 (R586): zero lengths. -/
def execCl17 (x : BitVec 3) (s : State) : Result :=
  match s.inf.seq? with
  | some seq => .next (s.appendRun seq (repeat17 x.toNat) 0)
  | none => .refused .outOfPlace

/-- CL18 (R587): zero lengths. -/
def execCl18 (x : BitVec 7) (s : State) : Result :=
  match s.inf.seq? with
  | some seq => .next (s.appendRun seq (repeat18 x.toNat) 0)
  | none => .refused .outOfPlace

end Sys2Proof.Machine
end

