-- ==== Sys2Proof/Machine/Widths.lean ====
section
/-! DEFINITION. The widths of the registers that are naturals in State (R12, 10_state.md), and fitting an
unspecified value (R54 to R57) to them. The other registers have their width in their type. -/

namespace Sys2Proof.Machine

/-- `ceil(log2 n)`, the width that holds 0 to `n - 1`. -/
def ceilLog2 (n : Nat) : Nat := if n ≤ 1 then 0 else Nat.log2 (n - 1) + 1

/-! ### the widths -/

/-- A trie of an alphabet of lengths up to `d` (R31: "the tree bound"): no path is longer, and SYM has 9
bits. -/
def Trie.Fits : Nat → Trie → Prop
  | _, .nil => True
  | _, .leaf s => s < 2 ^ 9
  | 0, .node _ _ => False
  | d + 1, .node z o => Trie.Fits d z ∧ Trie.Fits d o

/-- The widths of the INFLATE engine's registers (R25 to R31, R50). TOTAL_OUT is the count itself (log 8). -/
structure InfRegs.WidthsOk (c : Config) (r : InfRegs) : Prop where
  /-- R25: XLEN bits each -/
  brLen : r.brLen < 2 ^ c.xlen
  brByte : r.brByte < 2 ^ c.xlen
  /-- R27: 9 bits -/
  pendLen : r.pendLen < 2 ^ 9
  /-- R27: 16 bits -/
  pendDist : r.pendDist < 2 ^ 16
  /-- R28: 16 bits -/
  storedRem : r.storedRem < 2 ^ 16
  /-- R29: ceil(log2 WIN_CAP) bits -/
  winPos : r.winPos < 2 ^ ceilLog2 c.winCap
  /-- R31 -/
  trees : Trie.Fits 7 r.treeCl ∧ Trie.Fits 15 r.treeLl ∧ Trie.Fits 15 r.treeD
  /-- R50: XLEN bits each -/
  outLim : r.outLim < 2 ^ c.xlen
  thisOut : r.thisOut < 2 ^ c.xlen

/-- An entry of TOK (R38): SYM and LEN 9 bits, DIST 16 bits. -/
abbrev Token.Fits (t : Token) : Prop := t.sym < 2 ^ 9 ∧ t.len < 2 ^ 9 ∧ t.dist < 2 ^ 16

/-- An entry of RLE (R41): SYM 5 bits, XV 7 bits. -/
abbrev RleItem.Fits (e : RleItem) : Prop := e.sym < 2 ^ 5 ∧ e.xv < 2 ^ 7

/-- An entry of HIST (R43): a slot of the arena, POS XLEN bits. -/
abbrev HistEntry.Fits (c : Config) (e : HistEntry) : Prop := e.slot < c.histCap ∧ e.pos < 2 ^ c.xlen

/-- The widths of the DEFLATE engine's registers (R35 to R44, R50), the code values apart
(`DefRegs.CodesOk`). TOTAL_OUT is the count itself (log 8). -/
structure DefRegs.WidthsOk (c : Config) (r : DefRegs) : Prop where
  /-- R35: XLEN bits each -/
  inCur : r.inCur < 2 ^ c.xlen
  inEnd : r.inEnd < 2 ^ c.xlen
  /-- R36: 5 bits -/
  bitqCnt : r.bitqCnt < 2 ^ 5
  /-- R37: 16 bits each -/
  adler : r.adlerS1 < 2 ^ 16 ∧ r.adlerS2 < 2 ^ 16
  /-- R38: TOKEN_CAP entries, those past the lists being zero -/
  tok : r.tok.length + r.tokRest.length ≤ c.tokenCap ∧ (∀ t ∈ r.tok ++ r.tokRest, t.Fits) ∧
    trimEnd Token.zero r.tokRest = r.tokRest
  /-- R39: ceil(log2(TOKEN_CAP + 2)) bits each -/
  freqLl : ∀ f ∈ r.freqLl.toList, f < 2 ^ ceilLog2 (c.tokenCap + 2)
  freqD : ∀ f ∈ r.freqD.toList, f < 2 ^ ceilLog2 (c.tokenCap + 2)
  /-- R39: 9 bits each -/
  freqCl : ∀ f ∈ r.freqCl.toList, f < 2 ^ 9
  /-- R40: 4, 4 and 3 bits each -/
  llcLen : ∀ l ∈ r.llcLen.toList, l < 2 ^ 4
  dcLen : ∀ l ∈ r.dcLen.toList, l < 2 ^ 4
  clcLen : ∀ l ∈ r.clcLen.toList, l < 2 ^ 3
  /-- R41: 9 bits, "5 bits+1" read as six (log 31), 5 bits -/
  counts : r.nlit < 2 ^ 9 ∧ r.ndist < 2 ^ 6 ∧ r.ncl < 2 ^ 5
  /-- R41: 316 entries, those past the lists being zero -/
  rle : r.rle.length + r.rleRest.length ≤ 316 ∧ (∀ e ∈ r.rle ++ r.rleRest, e.Fits) ∧
    trimEnd RleItem.zero r.rleRest = r.rleRest
  /-- R42: XLEN and 16 bits -/
  blk : r.blkStart < 2 ^ c.xlen ∧ r.blkLen < 2 ^ 16
  /-- R43: an arena of HIST_CAP slots -/
  hist : r.hist.length ≤ c.histCap ∧ ∀ e ∈ r.hist, e.Fits c
  free : r.freed.length ≤ c.histCap ∧ (∀ s ∈ r.freed, s < c.histCap) ∧ r.fresh ≤ c.histCap
  /-- R43 gives EVICT_CUR no width; ceil(log2 HIST_CAP) bits: DESIGN CHOICE (log 31) -/
  evictCur : r.evictCur < 2 ^ ceilLog2 c.histCap
  /-- R44: XLEN bits -/
  emitIdx : r.emitIdx < 2 ^ c.xlen
  /-- R50: XLEN bits each -/
  outLim : r.outLim < 2 ^ c.xlen
  thisOut : r.thisOut < 2 ^ c.xlen

/-- The widths of the code values (R40): 15 bits, 15 bits and 7 bits each. -/
def DefRegs.CodesOk (r : DefRegs) : Prop :=
  (∀ v ∈ r.llcCode.toList, v < 2 ^ 15) ∧ (∀ v ∈ r.dcCode.toList, v < 2 ^ 15) ∧ (∀ v ∈ r.clcCode.toList, v < 2 ^ 7)

/-! ### fitting an unspecified value to its register

Each function is the identity on a value that has the width (Laws/Widths.lean), so that an unspecified
register may hold every value of its width and no other (log 4, log 8). -/

/-- The low `n` bits of a value. -/
def fitBits (n v : Nat) : Nat := v % 2 ^ n

/-- A trie cut off at depth `d`, each SYM cut to 9 bits. -/
def Trie.fit : Nat → Trie → Trie
  | _, .nil => .nil
  | _, .leaf s => .leaf (fitBits 9 s)
  | 0, .node _ _ => .nil
  | d + 1, .node z o => .node (Trie.fit d z) (Trie.fit d o)

/-- The registers cut to their widths. -/
def InfRegs.fit (c : Config) (r : InfRegs) : InfRegs :=
  { r with
    brLen := fitBits c.xlen r.brLen
    brByte := fitBits c.xlen r.brByte
    pendLen := fitBits 9 r.pendLen
    pendDist := fitBits 16 r.pendDist
    storedRem := fitBits 16 r.storedRem
    winPos := fitBits (ceilLog2 c.winCap) r.winPos
    treeCl := Trie.fit 7 r.treeCl
    treeLl := Trie.fit 15 r.treeLl
    treeD := Trie.fit 15 r.treeD
    outLim := fitBits c.xlen r.outLim
    thisOut := fitBits c.xlen r.thisOut }

/-- An entry of TOK cut to its widths. -/
def Token.fit (t : Token) : Token := ⟨fitBits 9 t.sym, fitBits 9 t.len, fitBits 16 t.dist⟩

/-- An entry of RLE cut to its widths. -/
def RleItem.fit (e : RleItem) : RleItem := ⟨fitBits 5 e.sym, fitBits 7 e.xv⟩

/-- The entries of an arena of HIST_CAP slots, each POS cut to XLEN bits. -/
def fitHist (c : Config) (l : List HistEntry) : List HistEntry :=
  ((l.filter fun e => decide (e.slot < c.histCap)).take c.histCap).map fun e => { e with pos := fitBits c.xlen e.pos }

/-- The registers cut to their widths, EVICT_CUR to the width the model gives it (log 31). -/
def DefRegs.fit (c : Config) (r : DefRegs) : DefRegs :=
  { r with
    inCur := fitBits c.xlen r.inCur
    inEnd := fitBits c.xlen r.inEnd
    bitqCnt := fitBits 5 r.bitqCnt
    adlerS1 := fitBits 16 r.adlerS1
    adlerS2 := fitBits 16 r.adlerS2
    tok := (r.tok.take c.tokenCap).map Token.fit
    tokRest := trimEnd Token.zero ((r.tokRest.take (c.tokenCap - r.tok.length)).map Token.fit)
    freqLl := r.freqLl.map (fitBits (ceilLog2 (c.tokenCap + 2)))
    freqD := r.freqD.map (fitBits (ceilLog2 (c.tokenCap + 2)))
    freqCl := r.freqCl.map (fitBits 9)
    llcLen := r.llcLen.map (fitBits 4)
    llcCode := r.llcCode.map (fitBits 15)
    dcLen := r.dcLen.map (fitBits 4)
    dcCode := r.dcCode.map (fitBits 15)
    clcLen := r.clcLen.map (fitBits 3)
    clcCode := r.clcCode.map (fitBits 7)
    nlit := fitBits 9 r.nlit
    ndist := fitBits 6 r.ndist
    ncl := fitBits 5 r.ncl
    rle := (r.rle.take 316).map RleItem.fit
    rleRest := trimEnd RleItem.zero ((r.rleRest.take (316 - r.rle.length)).map RleItem.fit)
    blkStart := fitBits c.xlen r.blkStart
    blkLen := fitBits 16 r.blkLen
    hist := fitHist c r.hist
    freed := (r.freed.filter fun s => decide (s < c.histCap)).take c.histCap
    fresh := min r.fresh c.histCap
    evictCur := fitBits (ceilLog2 c.histCap) r.evictCur
    emitIdx := fitBits c.xlen r.emitIdx
    outLim := fitBits c.xlen r.outLim
    thisOut := fitBits c.xlen r.thisOut }

/-! ### unspecified registers -/

/-- The INFLATE engine's registers where the spec leaves all of them unspecified (R54, R57): the next free
value, in the registers' widths. -/
def State.freeInfRegs (s : State) : InfRegs := (Config.freeInf s.freeCnt).fit s.cfg

/-- The same of the DEFLATE engine. -/
def State.freeDflRegs (s : State) : DefRegs := (Config.freeDfl s.freeCnt).fit s.cfg

end Sys2Proof.Machine
end

