-- ==== Sys2Proof/Machine/HostCmd.lean ====
section
/-! DEFINITION. The host commands (46_host_commands.md). Legality is by LIFE alone (R430); a refused
command is no transition. -/

namespace Sys2Proof.Machine

/-- LEVEL from the operand of DEF.RESET (R34); none is the refused value 3 (R434). -/
def levelOf (v : BitVec 2) : Option Level :=
  match v.toNat with
  | 0 => some .noCompression
  | 1 => some .fixed
  | 2 => some .dynamic
  | _ => none

/-- A length or a capacity is a value of its operand (R433, R435). -/
def capFits (c : Config) (n : Nat) : Bool := decide (n < 2 ^ c.xlen)

/-- The OUTPUT space of a STEP at its start (R72, R435): the `cap` bytes of the host's buffer, those past the
end of `buf` being 0 (log 5). -/
def outputOf (cap : Nat) (buf : List Byte) : Memory := Memory.ofBytes (buf.take cap)

/-! ### INFLATE -/

/-- INF.CREATE (R431, R54; log 4, log 14). That INPUT, OUTPUT and WIN are empty after it is the model's choice:
DESIGN CHOICE (log 5). -/
def execInfCreate (allocOk : Bool) (s : State) : Result :=
  match s.infLife with
  | .absent =>
    if allocOk then
      .next { s with
        resp := some (.status .ok)
        infLife := .created
        inf := { s.freeInfRegs with lastStatus := .ok }
        infIn := []
        infOut := []
        win := []
        freeCnt := s.freeCnt + 1 }
    else .next { s with resp := some (.status .errorMemory), inf := { s.inf with lastStatus := .errorMemory } }
  | .created => .refused (.commandRefused .created)
  | .active => .refused (.commandRefused .active)

/-- The registers after INF.RESET (R55) over the free value `r`, which keeps the registers R55 leaves
unspecified. -/
def InfRegs.afterReset (r : InfRegs) (input len : Nat) : InfRegs :=
  { r with
    iState := .iInit
    iPhase := false
    sub := .start
    inBase := input
    brLen := len
    brByte := 0
    brBit := 0
    cmf := 0
    flg := 0
    dictid := 0
    bfinal := false
    btype := 0
    pendSym := 0
    pendLen := 0
    pendDist := 0
    storedRem := 0
    winPos := 0
    totalOut := 0
    thisOut := 0
    outLim := 0
    errCause := .none
    lastStatus := .ok }

/-- The effect of INF.RESET (R433, R55). That WIN and OUTPUT are empty after it is the model's choice: DESIGN
CHOICE (log 5). -/
def State.resetInf (input : Nat) (data : List Byte) (s : State) : State :=
  { s with
    resp := some (.status .ok)
    infLife := .active
    inf := s.freeInfRegs.afterReset input data.length
    infIn := Memory.ofBytes data
    infOut := []
    win := []
    freeCnt := s.freeCnt + 1 }

/-- INF.RESET (R433). -/
def execInfReset (input : Nat) (data : List Byte) (s : State) : Result :=
  match s.infLife with
  | .absent => .refused (.commandRefused .absent)
  | .created => if capFits s.cfg data.length then .next (s.resetInf input data) else .refused .operandTooWide
  | .active => if capFits s.cfg data.length then .next (s.resetInf input data) else .refused .operandTooWide

/-- INF.STEP (R435, R320): OUTPUT is the host's buffer with what it holds, the STEP's registers are set and
the engine's steps begin (log 1). -/
def execInfStep (out : Buffer) (cap : Nat) (s : State) : Result :=
  match s.infLife with
  | .absent => .refused (.commandRefused .absent)
  | .created => .refused (.commandRefused .created)
  | .active =>
    if capFits s.cfg cap then
      .next { s with
        turn := .inf
        resp := none
        inf := { s.inf with outBase := out.name, outLim := cap, thisOut := 0 }
        infOut := outputOf cap out.bytes }
    else .refused .operandTooWide

/-- The effect of INF.DESTROY (R438, R57; log 4). That INPUT, OUTPUT and WIN are empty after it is the model's
choice: DESIGN CHOICE (log 5). -/
def State.destroyInf (s : State) : State :=
  { s with
    resp := none
    infLife := .absent
    inf := s.freeInfRegs
    infIn := []
    infOut := []
    win := []
    freeCnt := s.freeCnt + 1 }

/-- INF.DESTROY (R438). -/
def execInfDestroy (s : State) : Result :=
  match s.infLife with
  | .absent => .refused (.commandRefused .absent)
  | .created => .next s.destroyInf
  | .active => .next s.destroyInf

/-! ### DEFLATE -/

/-- DEF.CREATE (R431, R54; log 4, log 14). That INPUT and OUTPUT are empty after it is the model's choice: DESIGN
CHOICE (log 5). -/
def execDefCreate (allocOk : Bool) (s : State) : Result :=
  match s.dflLife with
  | .absent =>
    if allocOk then
      .next { s with
        resp := some (.status .ok)
        dflLife := .created
        dfl := { s.freeDflRegs with lastStatus := .ok }
        dflIn := []
        dflOut := []
        freeCnt := s.freeCnt + 1 }
    else .next { s with resp := some (.status .errorMemory), dfl := { s.dfl with lastStatus := .errorMemory } }
  | .created => .refused (.commandRefused .created)
  | .active => .refused (.commandRefused .active)

/-- The registers after DEF.RESET (R56) over the free value `r`, which keeps the registers R56 leaves
unspecified. -/
def DefRegs.afterReset (r : DefRegs) (input len : Nat) (level : Level) : DefRegs :=
  { r.clearTok with
    dState := .dInit
    level := level
    inBase := input
    inCur := 0
    inEnd := len
    bitq := 0
    bitqCnt := 0
    adlerS1 := 1
    adlerS2 := 0
    blkFinal := false
    blkStart := 0
    blkLen := 0
    emitIdx := 0
    hist := []
    freed := []
    fresh := 0
    evictCur := 0
    totalOut := 0
    thisOut := 0
    outLim := 0
    lastStatus := .ok }

/-- The effect of DEF.RESET (R434, R56). That OUTPUT is empty after it is the model's choice: DESIGN CHOICE (log 5). -/
def State.resetDfl (input : Nat) (data : List Byte) (level : Level) (s : State) : State :=
  { s with
    resp := some (.status .ok)
    dflLife := .active
    dfl := s.freeDflRegs.afterReset input data.length level
    dflIn := Memory.ofBytes data
    dflOut := []
    freeCnt := s.freeCnt + 1 }

/-- DEF.RESET with LIFE not ABSENT (R434). -/
def State.resetDflWith (input : Nat) (data : List Byte) (level : BitVec 2) (s : State) : Result :=
  match levelOf level with
  | none => .refused .levelRefused
  | some l => if capFits s.cfg data.length then .next (s.resetDfl input data l) else .refused .operandTooWide

/-- DEF.RESET (R434). -/
def execDefReset (input : Nat) (data : List Byte) (level : BitVec 2) (s : State) : Result :=
  match s.dflLife with
  | .absent => .refused (.commandRefused .absent)
  | .created => s.resetDflWith input data level
  | .active => s.resetDflWith input data level

/-- DEF.STEP (R435, R380): as INF.STEP. -/
def execDefStep (out : Buffer) (cap : Nat) (s : State) : Result :=
  match s.dflLife with
  | .absent => .refused (.commandRefused .absent)
  | .created => .refused (.commandRefused .created)
  | .active =>
    if capFits s.cfg cap then
      .next { s with
        turn := .dfl
        resp := none
        dfl := { s.dfl with outBase := out.name, outLim := cap, thisOut := 0 }
        dflOut := outputOf cap out.bytes }
    else .refused .operandTooWide

/-- The effect of DEF.DESTROY (R438, R57; log 4). That INPUT and OUTPUT are empty after it is the model's choice:
DESIGN CHOICE (log 5). -/
def State.destroyDfl (s : State) : State :=
  { s with
    resp := none
    dflLife := .absent
    dfl := s.freeDflRegs
    dflIn := []
    dflOut := []
    freeCnt := s.freeCnt + 1 }

/-- DEF.DESTROY (R438). -/
def execDefDestroy (s : State) : Result :=
  match s.dflLife with
  | .absent => .refused (.commandRefused .absent)
  | .created => .next s.destroyDfl
  | .active => .next s.destroyDfl

/-- A hardware reset input, if a build has one (R490): DESTROY on both engines. No step takes it (log 26). R490 does
not say what becomes of a STEP that is running: that it ends without a response, and that the transactions still
waiting stay, is the model's choice: DESIGN CHOICE (log 26). -/
def State.hardwareReset (s : State) : State := { s.destroyInf.destroyDfl with turn := .host }

end Sys2Proof.Machine
end

