-- ==== Sys2Proof/Machine/Dispatch.lean ====
section
/-! DEFINITION. The meaning of each instruction: one arm per constructor, one definition per arm. -/

namespace Sys2Proof.Machine

/-- Execute one instruction. -/
def exec (i : Instr) (s : State) : Host.Outcome State Fault Refusal :=
  match i with
  | .zhdr cm cinfo fcheck fdict flevel => Sys2Proof.Machine.execZhdr cm cinfo fcheck fdict flevel s
  | .dictid id => Sys2Proof.Machine.execDictid id s
  | .bhdrStored final => Sys2Proof.Machine.execBhdrStored final s
  | .bhdrFixed final => Sys2Proof.Machine.execBhdrFixed final s
  | .bhdrDynamic final => Sys2Proof.Machine.execBhdrDynamic final s
  | .bhdrReserved final => Sys2Proof.Machine.execBhdrReserved final s
  | .pad => Sys2Proof.Machine.execPad s
  | .shdr len nlen => Sys2Proof.Machine.execShdr len nlen s
  | .raw b => Sys2Proof.Machine.execRaw b s
  | .dynhdr hlit hdist hclen => Sys2Proof.Machine.execDynhdr hlit hdist hclen s
  | .cllens len => Sys2Proof.Machine.execCllens len s
  | .trailer adler => Sys2Proof.Machine.execTrailer adler s
  | .lit b => Sys2Proof.Machine.execLit b s
  | .eob => Sys2Proof.Machine.execEob s
  | .len257 => Sys2Proof.Machine.execLen257 s
  | .len258 => Sys2Proof.Machine.execLen258 s
  | .len259 => Sys2Proof.Machine.execLen259 s
  | .len260 => Sys2Proof.Machine.execLen260 s
  | .len261 => Sys2Proof.Machine.execLen261 s
  | .len262 => Sys2Proof.Machine.execLen262 s
  | .len263 => Sys2Proof.Machine.execLen263 s
  | .len264 => Sys2Proof.Machine.execLen264 s
  | .len265 x => Sys2Proof.Machine.execLen265 x s
  | .len266 x => Sys2Proof.Machine.execLen266 x s
  | .len267 x => Sys2Proof.Machine.execLen267 x s
  | .len268 x => Sys2Proof.Machine.execLen268 x s
  | .len269 x => Sys2Proof.Machine.execLen269 x s
  | .len270 x => Sys2Proof.Machine.execLen270 x s
  | .len271 x => Sys2Proof.Machine.execLen271 x s
  | .len272 x => Sys2Proof.Machine.execLen272 x s
  | .len273 x => Sys2Proof.Machine.execLen273 x s
  | .len274 x => Sys2Proof.Machine.execLen274 x s
  | .len275 x => Sys2Proof.Machine.execLen275 x s
  | .len276 x => Sys2Proof.Machine.execLen276 x s
  | .len277 x => Sys2Proof.Machine.execLen277 x s
  | .len278 x => Sys2Proof.Machine.execLen278 x s
  | .len279 x => Sys2Proof.Machine.execLen279 x s
  | .len280 x => Sys2Proof.Machine.execLen280 x s
  | .len281 x => Sys2Proof.Machine.execLen281 x s
  | .len282 x => Sys2Proof.Machine.execLen282 x s
  | .len283 x => Sys2Proof.Machine.execLen283 x s
  | .len284 x => Sys2Proof.Machine.execLen284 x s
  | .len285 => Sys2Proof.Machine.execLen285 s
  | .ll286 => Sys2Proof.Machine.execLl286 s
  | .ll287 => Sys2Proof.Machine.execLl287 s
  | .dist0 => Sys2Proof.Machine.execDist0 s
  | .dist1 => Sys2Proof.Machine.execDist1 s
  | .dist2 => Sys2Proof.Machine.execDist2 s
  | .dist3 => Sys2Proof.Machine.execDist3 s
  | .dist4 y => Sys2Proof.Machine.execDist4 y s
  | .dist5 y => Sys2Proof.Machine.execDist5 y s
  | .dist6 y => Sys2Proof.Machine.execDist6 y s
  | .dist7 y => Sys2Proof.Machine.execDist7 y s
  | .dist8 y => Sys2Proof.Machine.execDist8 y s
  | .dist9 y => Sys2Proof.Machine.execDist9 y s
  | .dist10 y => Sys2Proof.Machine.execDist10 y s
  | .dist11 y => Sys2Proof.Machine.execDist11 y s
  | .dist12 y => Sys2Proof.Machine.execDist12 y s
  | .dist13 y => Sys2Proof.Machine.execDist13 y s
  | .dist14 y => Sys2Proof.Machine.execDist14 y s
  | .dist15 y => Sys2Proof.Machine.execDist15 y s
  | .dist16 y => Sys2Proof.Machine.execDist16 y s
  | .dist17 y => Sys2Proof.Machine.execDist17 y s
  | .dist18 y => Sys2Proof.Machine.execDist18 y s
  | .dist19 y => Sys2Proof.Machine.execDist19 y s
  | .dist20 y => Sys2Proof.Machine.execDist20 y s
  | .dist21 y => Sys2Proof.Machine.execDist21 y s
  | .dist22 y => Sys2Proof.Machine.execDist22 y s
  | .dist23 y => Sys2Proof.Machine.execDist23 y s
  | .dist24 y => Sys2Proof.Machine.execDist24 y s
  | .dist25 y => Sys2Proof.Machine.execDist25 y s
  | .dist26 y => Sys2Proof.Machine.execDist26 y s
  | .dist27 y => Sys2Proof.Machine.execDist27 y s
  | .dist28 y => Sys2Proof.Machine.execDist28 y s
  | .dist29 y => Sys2Proof.Machine.execDist29 y s
  | .dist30 => Sys2Proof.Machine.execDist30 s
  | .dist31 => Sys2Proof.Machine.execDist31 s
  | .cl v => Sys2Proof.Machine.execCl v s
  | .cl16 x => Sys2Proof.Machine.execCl16 x s
  | .cl17 x => Sys2Proof.Machine.execCl17 x s
  | .cl18 x => Sys2Proof.Machine.execCl18 x s
  | .infCreate allocOk => Sys2Proof.Machine.execInfCreate allocOk s
  | .infReset input data => Sys2Proof.Machine.execInfReset input data s
  | .infStep out cap => Sys2Proof.Machine.execInfStep out cap s
  | .infDestroy => Sys2Proof.Machine.execInfDestroy s
  | .defCreate allocOk => Sys2Proof.Machine.execDefCreate allocOk s
  | .defReset input data level => Sys2Proof.Machine.execDefReset input data level s
  | .defStep out cap => Sys2Proof.Machine.execDefStep out cap s
  | .defDestroy => Sys2Proof.Machine.execDefDestroy s

end Sys2Proof.Machine
end

