-- ==== Sys2Proof/Machine/Fetch.lean ====
section
/-! DEFINITION. What happens next (R100, R320, R380, log 1): the grammar position, the fetch and decoding of
the element there, and the transitions that have no element of their own. -/

namespace Sys2Proof.Machine

/-- What the machine does next: run an instruction from a state, raise a cause there, or take a transition
that has no element. -/
inductive Action where
  | run (i : Instr) (s : State)
  | raise (c : Cause) (s : State)
  | outcome (r : Result)
  deriving Repr

/-! ### the INFLATE engine -/

/-- The bits up to the next byte boundary (R330). -/
def InfRegs.padWidth (r : InfRegs) : Nat := (8 - r.brBit.val) % 8

/-- The position in a Huffman-coded body (R338): none while a code is in flight, which is drained first. -/
def InfRegs.bodyPos (r : InfRegs) : Option Pos :=
  match r.sub with
  | .distance _ _ => some (.dsym r.dTree)
  | _ => if r.codeInFlight then none else some (.llsym r.llTree)

/-- The position in the prologue of a dynamic block (R334 to R336): none once every length is defined. -/
def InfRegs.prologuePos (r : InfRegs) : Option Pos :=
  match r.sub with
  | .codeLens _ => some .cllens
  | .lengths seq => if seq.length < r.nSeq then some (.clsym r.treeCl seq.isEmpty) else none
  | _ => some .dynhdr

/-- The position in a stored block (R330 to R332): none once every byte is copied. -/
def InfRegs.storedPos (r : InfRegs) : Option Pos :=
  if r.iPhase then (if r.storedRem = 0 then none else some .raw)
  else
    match r.sub with
    | .stored => some .shdr
    | _ => some (.pad r.padWidth)

/-- The position in the header (R301, R305). -/
def InfRegs.headerPos (r : InfRegs) : Option Pos :=
  match r.sub with
  | .dictid => some .dictid
  | _ => some .zhdr

/-- The grammar position (R100, R320); none where the next transition has no element. That a value of `sub` which
does not fit the state counts as `start` is the model's choice (log 30). -/
def InfRegs.pos (r : InfRegs) : Option Pos :=
  match r.iState with
  | .iInit => r.headerPos
  | .iBlock => some .bhdr
  | .iNocomp => r.storedPos
  | .iFixed => if r.iPhase then r.bodyPos else none
  | .iDynamic => if r.iPhase then r.bodyPos else r.prologuePos
  | .iEnd => none
  | .iError => none

/-- The elements whose meanings move the cursor themselves: PAD (R330) and RAW (R332), which leaves it
where it is when the output is full. -/
def movesCursor : Instr → Bool
  | .pad => true
  | .raw _ => true
  | _ => false

/-- Fetch at a position: decode the unread bits and move the cursor past what is consumed (R26, R453). -/
def State.fetchAt (p : Pos) (s : State) : Action :=
  match decodeAt p (s.inf.restBits s.infIn) with
  | .ok i used => .run i (if movesCursor i then s else s.withInf fun r => r.advance used)
  | .reject c used => .raise c (s.withInf fun r => r.advance used)

/-- The INFLATE transitions that have no element: R333, R336 and R337, R344, R342 on resumption, R345 and
R346. -/
def State.infInternal (s : State) : State :=
  match s.inf.iState with
  | .iNocomp => s.withInf InfRegs.endBody
  | .iFixed => if s.inf.iPhase then s.drainCode else s.withInf fun r => { r with iPhase := true }
  | .iDynamic =>
    if s.inf.iPhase then s.drainCode
    else
      match s.inf.seq? with
      | some seq => s.finishLengths seq
      | none => s
  | .iEnd => s.answerInf .ended
  | .iError => s.answerInf .errorFormat
  | .iInit => s
  | .iBlock => s

/-- The next move of the INFLATE engine (R320). -/
def State.infAction (s : State) : Action :=
  match s.inf.pos with
  | some p => s.fetchAt p
  | none => .outcome (.next s.infInternal)

/-! ### the DEFLATE engine -/

/-- The next move of the DEFLATE engine: one pass of R380's loop. -/
def State.dflAction (s : State) : Action :=
  match s.dfl.dState with
  | .dInit => .outcome (.next s.passInit)
  | .dBlock => .outcome (.next s.passBlock)
  | .dNocomp => .outcome s.passNocomp
  | .dLzss => .outcome (.next s.passLzss)
  | .dFixed => .outcome (.next s.passFixed)
  | .dDynamic => .outcome (.next s.passDynamic)
  | .dEnd => .run (.trailer s.dfl.adler) s
  | .dDone => .outcome (.next s.passDone)

/-! ### the host -/

/-- The next move of the host: the first waiting transaction (R109); with none the block is idle and holds
its context (R467, log 11). -/
def State.hostAction (s : State) : Action :=
  match s.cmds with
  | [] => .outcome (.next s)
  | x :: rest => .run (commandOf x.code.toNat x.ops) { s with cmds := rest }

/-- The next move (log 1, log 2). -/
def State.nextAction (s : State) : Action :=
  match s.turn with
  | .host => s.hostAction
  | .inf => s.infAction
  | .dfl => s.dflAction

/-! ### placing an instruction where the next step fetches it (log 11) -/

/-- The operands of a command as those of its transaction. -/
def opsOf : Instr → HostOps
  | .infCreate ok => { allocOk := ok }
  | .defCreate ok => { allocOk := ok }
  | .infReset sp data => { space := sp, data := data }
  | .defReset sp data level => { space := sp, data := data, level := level }
  | .infStep out cap => { space := out.name, data := out.bytes, cap := cap }
  | .defStep out cap => { space := out.name, data := out.bytes, cap := cap }
  | _ => {}

/-- INPUT holds the given stream bits, the cursor is at the first, and the engine is at the position that
`set` names. -/
def State.placeBits (bits : Bits) (set : InfRegs → InfRegs) (s : State) : State :=
  { s with
    turn := .inf
    infLife := .active
    infIn := Memory.ofBytes (bytesOfBits bits)
    inf := set { s.inf with
      brLen := (bytesOfBits bits).length
      brByte := 0
      brBit := 0
      iPhase := false
      sub := .start
      pendLen := 0 } }

/-- A code-length tree of nineteen 5-bit codes, the table `EncCtx.fixed` encodes with. -/
def placedClTree : Trie := (buildDecodeTree EncCtx.fixed.clLen).getD .nil

/-- Where an element stands (R100). -/
def placeRegs (i : Instr) (r : InfRegs) : InfRegs :=
  match i with
  | .zhdr _ _ _ _ _ => { r with iState := .iInit }
  | .dictid _ => { r with iState := .iInit, sub := .dictid }
  | .bhdrStored _ => { r with iState := .iBlock }
  | .bhdrFixed _ => { r with iState := .iBlock }
  | .bhdrDynamic _ => { r with iState := .iBlock }
  | .bhdrReserved _ => { r with iState := .iBlock }
  | .pad => { r with iState := .iNocomp }
  | .shdr _ _ => { r with iState := .iNocomp, sub := .stored }
  | .raw _ => { r with iState := .iNocomp, iPhase := true, storedRem := 1 }
  | .dynhdr _ _ _ => { r with iState := .iDynamic }
  | .cllens _ => { r with iState := .iDynamic, sub := .codeLens 0 }
  | j =>
    if (clParts j).isSome then
      { r with iState := .iDynamic, sub := .lengths [0], treeCl := placedClTree, hlit := 0, hdist := 0 }
    else if (dParts j).isSome then { r with iState := .iFixed, iPhase := true, sub := .distance 257 3 }
    else { r with iState := .iFixed, iPhase := true }

/-- A host transaction is next, in the LIFE that lets its command run (R430). -/
def State.placeCommand (c : Nat) (i : Instr) (s : State) : State :=
  let life := if c % 4 = 0 then Life.absent else if c % 4 = 2 then Life.active else Life.created
  let t := { s with turn := .host, cmds := ⟨BitVec.ofNat 3 c, opsOf i⟩ :: s.cmds }
  if c < 4 then { t with infLife := life } else { t with dflLife := life }

/-- D_END with the checksum that gives this trailer (R309). -/
def State.placeTrailer (a : BitVec 32) (s : State) : State :=
  { s with
    turn := .dfl
    dflLife := .active
    dfl := { s.dfl with
      dState := .dEnd
      emitIdx := 0
      adlerS1 := a.toNat % 65536
      adlerS2 := a.toNat / 65536 } }

/-- The state whose next step runs `i`. -/
def State.placeInstr (i : Instr) (s : State) : State :=
  match i with
  | .trailer a => s.placeTrailer a
  | j =>
    match commandCode j with
    | some c => s.placeCommand c j
    | none => s.placeBits (encode EncCtx.fixed j) (placeRegs j)

end Sys2Proof.Machine
end

