-- ==== Sys2Proof/Machine/Step.lean ====
section
/-! DEFINITION. One step of the machine (log 1), and placing a word of the opcode table where it fetches. -/

namespace Sys2Proof.Machine

/-- One step: the agent whose turn it is makes its next move. -/
def step (s : State) : Host.Outcome State Fault Refusal :=
  match s.nextAction with
  | .run i t => exec i t
  | .raise c t => .next (t.raiseFormat c)
  | .outcome r => r

/-- The state whose next step runs the instruction of an opcode-table word (log 11, log 12). -/
def State.withFetchWord (s : State) (nbits w : Nat) : State :=
  match decodeTableWord nbits w with
  | some i => s.placeInstr i
  | none => s

end Sys2Proof.Machine
end

