-- ==== Sys2Proof/Safety.lean ====
section
/-! DEFINITION. The terms claims are stated in: what holds of every state a run reaches (the invariants the
spec states of its registers), a command run to its end, a session, and the laws' reference functions. -/

namespace Sys2Proof.Machine

/-! ### invariants of the memories -/

/-- Every memory space is in canonical form. -/
def State.memOk (s : State) : Prop :=
  s.infIn.wf = true ∧ s.infOut.wf = true ∧ s.win.wf = true ∧ s.dflIn.wf = true ∧ s.dflOut.wf = true

/-! ### invariants of the INFLATE engine -/

/-- The cursor's invariants (R25). -/
def InfRegs.cursorOk (r : InfRegs) : Prop := r.brByte ≤ r.brLen ∧ (r.brByte = r.brLen → r.brBit = 0)

/-- The engine is in the body of a Huffman-coded block (R22, R338). -/
def InfRegs.inBody (r : InfRegs) : Prop := (r.iState = .iFixed ∨ r.iState = .iDynamic) ∧ r.iPhase = true

/-- The model's scratch register agrees with the position (log 17). -/
def InfRegs.subOk (r : InfRegs) : Prop :=
  match r.sub with
  | .start => True
  | .dictid => r.iState = .iInit
  | .stored => r.iState = .iNocomp ∧ r.iPhase = false ∧ r.brBit = 0
  | .codeLens k => r.iState = .iDynamic ∧ r.iPhase = false ∧ k < r.nCl
  | .lengths seq => r.iState = .iDynamic ∧ r.iPhase = false ∧ seq.length ≤ r.nSeq
  | .distance sym len => r.inBody ∧ r.pendLen = 0 ∧ 257 ≤ sym.toNat ∧ sym.toNat ≤ 285 ∧ 3 ≤ len ∧ len ≤ 258

/-- The invariants of the INFLATE engine's registers in a session. -/
structure InfRegs.Ok (c : Config) (r : InfRegs) : Prop where
  /-- R25 -/
  cursor : r.cursorOk
  /-- R50 -/
  room : r.thisOut ≤ r.outLim
  counted : r.thisOut ≤ r.totalOut
  /-- R29, R76 -/
  winPos : r.winPos = r.totalOut % c.winCap
  /-- R27 -/
  pendLen : r.pendLen ≤ 258
  /-- R27, R341 -/
  pendDist : r.pendDist ≤ 32768 ∧ r.pendDist ≤ r.totalOut
  /-- R28 -/
  storedRem : r.storedRem ≤ 65535
  /-- R32, R451, R459 -/
  cause : r.errCause = .none ↔ r.iState ≠ .iError
  /-- R338: a code is in flight in a Huffman-coded body only -/
  inFlight : r.pendLen ≠ 0 → r.inBody
  /-- R22: the phase is 1 in a block only -/
  phase : r.iState = .iInit ∨ r.iState = .iBlock ∨ r.iState = .iEnd → r.iPhase = false
  /-- R77: stored data is byte-aligned -/
  aligned : r.iState = .iNocomp → r.iPhase = true → r.brBit = 0
  sub : r.subOk

/-- The invariant of the INFLATE engine: it moves in a session only, and there its registers are in
order. Outside a session R54 and R57 leave them unspecified. -/
def State.infOk (s : State) : Prop :=
  (s.turn = .inf → s.infLife = .active) ∧ (s.infLife = .active → s.inf.Ok s.cfg)

/-- The bytes the current STEP has stored are the newest bytes of the window (R29, R343). -/
def State.winOk (s : State) : Prop :=
  s.infLife = .active → ∀ k, k < s.inf.thisOut → k < s.cfg.winCap →
    s.infOut.read (s.inf.thisOut - 1 - k) = s.win.read ((s.inf.totalOut - 1 - k) % s.cfg.winCap)

/-! ### invariants of the DEFLATE engine -/

/-- The Adler-32 sums (S1, S2) after a byte sequence, from (1, 0) (R307, R308). -/
def adlerSums (bs : List Byte) : Nat × Nat :=
  bs.foldl (fun p b => ((p.1 + b.toNat) % 65521, (p.2 + (p.1 + b.toNat) % 65521) % 65521)) (1, 0)

/-- The invariants of the bit writer and of the end of the stream (R36, R50, R154, R398). -/
structure DefRegs.WriterOk (r : DefRegs) : Prop where
  /-- R36 -/
  count : r.bitqCnt ≤ 23
  /-- R154: the bits at and above BITQ_CNT are 0 -/
  clean : r.bitq.toNat < 2 ^ r.bitqCnt
  /-- R50 -/
  room : r.thisOut ≤ r.outLim
  counted : r.thisOut ≤ r.totalOut
  /-- R40: the code lengths a Dynamic block is written with -/
  widths : r.dState = .dDynamic →
    (∀ l ∈ r.llcLen.toList, l ≤ 15) ∧ (∀ l ∈ r.dcLen.toList, l ≤ 15) ∧ (∀ l ∈ r.clcLen.toList, l ≤ 7)
  /-- R398 -/
  ending : r.dState = .dEnd → r.emitIdx ≤ 5 ∧ (r.emitIdx ≠ 0 → r.bitqCnt % 8 = 0)
  /-- R398 -/
  done : r.dState = .dDone → r.bitqCnt = 0

/-- The slots are used in age order (R213): 0 to FRESH - 1 until the arena is full, then cyclically from
the rotating cursor. -/
def DefRegs.slotsOk (c : Config) (r : DefRegs) : Prop :=
  r.freed = [] ∧ r.fresh = r.hist.length ∧ r.hist.length ≤ c.histCap ∧ r.evictCur < c.histCap ∧
  (r.hist.length < c.histCap → r.evictCur = 0) ∧
  r.hist.map HistEntry.slot = (List.range r.hist.length).map fun i => (r.evictCur + i) % c.histCap

/-- The invariants of the input cursor, the checksum, the tokens, the block and the history. -/
structure DefRegs.InputOk (c : Config) (m : Memory) (r : DefRegs) : Prop where
  /-- R35 -/
  cursor : r.inCur ≤ r.inEnd
  /-- R37 -/
  adler : (r.adlerS1, r.adlerS2) = adlerSums (m.bytes 0 r.inCur)
  /-- R38 -/
  tokens : r.tokCnt ≤ c.tokenCap
  /-- R42, R383 -/
  stored : r.dState = .dNocomp → r.blkStart + r.blkLen ≤ r.inEnd ∧ r.blkLen ≤ 65535
  /-- R383, R386 -/
  final : r.dState = .dNocomp ∨ r.dState = .dFixed ∨ r.dState = .dDynamic →
    (r.blkFinal = true ↔ r.inCur = r.inEnd)
  /-- R309 -/
  ended : r.dState = .dEnd ∨ r.dState = .dDone → r.inCur = r.inEnd
  /-- R213 -/
  slots : r.slotsOk c
  /-- R210, R211, R212 -/
  entries : ∀ e ∈ r.hist, e.hash = hash3 m e.pos ∧ e.pos < r.inCur ∧ e.pos + 3 ≤ r.inEnd
  /-- R210 -/
  rising : r.live.Pairwise (· < ·)

/-- The invariant of the DEFLATE engine, as `infOk`. -/
def State.dflOk (s : State) : Prop :=
  (s.turn = .dfl → s.dflLife = .active) ∧
  (s.dflLife = .active → s.dfl.WriterOk ∧ s.dfl.InputOk s.cfg s.dflIn)

/-! ### the invariant of the whole block -/

/-- Every register is within its width (R12; Machine/Widths.lean), in every LIFE. -/
def State.WidthsOk (s : State) : Prop := s.inf.WidthsOk s.cfg ∧ s.dfl.WidthsOk s.cfg ∧ s.dfl.CodesOk

/-- The invariant of the whole block. -/
structure State.Ok (s : State) : Prop where
  cfg : s.cfg.legal = true
  widths : s.WidthsOk
  mem : s.memOk
  inf : s.infOk
  win : s.winOk
  dfl : s.dflOk

/-! ### the grammar position -/

/-- Which element stands next, by I_STATE, I_PHASE, the code in flight and the element expected (R100, R112, R320,
R344; the last is the model's scratch register, log 17): ZHDR and DICTID in I_INIT; BHDR in I_BLOCK; PAD, SHDR and
then STORED_REM bytes in I_NOCOMP; DYNHDR, CLLENS and code-length symbols under TREE_CL in the prologue of
I_DYNAMIC; in a body, unless a code is in flight, a lit/len symbol, or after a length a distance symbol, under the
fixed trees in I_FIXED and the block's own in I_DYNAMIC; no element elsewhere. What stands next where `sub` does not
fit I_STATE and I_PHASE, which no run reaches, is the model's choice (log 30). -/
def PositionFollowsTheGrammar (r : InfRegs) : Prop :=
  (r.iState = .iInit → r.pos = some (if r.sub = .dictid then .dictid else .zhdr)) ∧
  (r.iState = .iBlock → r.pos = some .bhdr) ∧
  (r.iState = .iNocomp →
    (r.iPhase = false → r.pos = some (if r.sub = .stored then .shdr else .pad ((8 - r.brBit.val) % 8))) ∧
    (r.iPhase = true → r.pos = if r.storedRem = 0 then none else some .raw)) ∧
  (r.iState = .iDynamic → r.iPhase = false →
    (∀ k, r.sub = .codeLens k → r.pos = some .cllens) ∧
    (∀ seq, r.sub = .lengths seq → r.pos =
      if seq.length < (r.hlit.toNat + 257) + (r.hdist.toNat + 1) then some (.clsym r.treeCl (decide (seq = [])))
      else none) ∧
    ((∀ k, r.sub ≠ .codeLens k) → (∀ seq, r.sub ≠ .lengths seq) → r.pos = some .dynhdr)) ∧
  (r.iState = .iFixed → r.iPhase = false → r.pos = none) ∧
  (r.iPhase = true → ∀ ll d : Trie,
    (r.iState = .iFixed ∧ ll = ftreeLl ∧ d = ftreeD) ∨ (r.iState = .iDynamic ∧ ll = r.treeLl ∧ d = r.treeD) →
      (∀ sym len, r.sub = .distance sym len → r.pos = some (.dsym d)) ∧
      ((∀ sym len, r.sub ≠ .distance sym len) → r.pos = if r.pendLen = 0 then some (.llsym ll) else none)) ∧
  (r.iState = .iEnd ∨ r.iState = .iError → r.pos = none)

/-! ### results of the length and distance elements -/

/-- The element reads match length `len` with symbol `sym` and changes nothing else (R338). -/
def ReadsLength (i : Instr) (sym : BitVec 9) (len : Nat) : Prop :=
  ∀ s : State, exec i s = .next { s with inf := { s.inf with sub := .distance sym len } }

/-- After a length has been read, and where `d` bytes are out, the element puts the match in flight and goes on
with `drainCode()`, whatever the room (R338, R342). -/
def LoadsMatch (i : Instr) (d : Nat) : Prop :=
  ∀ (s : State) (sym : BitVec 9) (len : Nat), s.inf.sub = .distance sym len → d ≤ s.inf.totalOut →
    exec i s = .next
      { s with inf := { s.inf with pendSym := sym, pendLen := len, pendDist := d, sub := .start } }.drainCode

/-- After a length has been read, the element copies that many bytes from `d` back, where the output has
room for them and `d` bytes are out (R338, R342). The `k`-th byte stored is the window's byte at
`(k mod d) - d` from the window position before the copy: byte-serial (R81). Whatever the room, the match is put
in flight and drained. -/
def CopiesFrom (i : Instr) (d : Nat) : Prop :=
  LoadsMatch i d ∧
  ∀ (s : State) (sym : BitVec 9) (len : Nat),
    s.infOut.wf = true → s.win.wf = true → 33026 ≤ s.cfg.winCap → s.inf.winPos < s.cfg.winCap →
    s.inf.sub = .distance sym len → len ≤ 258 → s.inf.thisOut + len ≤ s.inf.outLim → d ≤ s.inf.totalOut →
    let src := fun k => s.win.read ((s.inf.winPos + s.cfg.winCap - d + k % d) % s.cfg.winCap)
    ∃ t, exec i s = .next t ∧
      t.inf = { s.inf with
        pendSym := sym, pendLen := 0, pendDist := d, sub := .start,
        winPos := (s.inf.winPos + len) % s.cfg.winCap,
        thisOut := s.inf.thisOut + len, totalOut := s.inf.totalOut + len } ∧
      (∀ k, k < len → t.infOut.read (s.inf.thisOut + k) = src k) ∧
      (∀ a, a < s.inf.thisOut ∨ s.inf.thisOut + len ≤ a → t.infOut.read a = s.infOut.read a) ∧
      (∀ k, k < len → t.win.read ((s.inf.winPos + k) % s.cfg.winCap) = src k) ∧
      (∀ a, (∀ k, k < len → a ≠ (s.inf.winPos + k) % s.cfg.winCap) → t.win.read a = s.win.read a) ∧
      { t with inf := s.inf, infOut := s.infOut, win := s.win } = s

/-! ### commands and sessions -/

/-- Step until it is the host's move, `k` times at most. -/
def runCommand : Nat → State → Option State
  | 0, s => if s.turn = .host then some s else none
  | k + 1, s =>
    if s.turn = .host then some s
    else
      match step s with
      | .next t => runCommand k t
      | .fault _ => none
      | .refused _ => none

/-- The command running in `s` ends in `t` (R435). -/
def Ends (s t : State) : Prop := ∃ k, runCommand k s = some t

/-- INF.STEPs with the capacities `caps` and any buffers, each but the last answering PENDING and the last
not; the list of bytes is the concatenation of what they produce (R72, R445). -/
inductive InfSession : State → List Nat → List Byte → State → Prop
  | last {s u t : State} {out : Buffer} {cap : Nat} :
    exec (.infStep out cap) s = .next u → Ends u t → t.inf.lastStatus ≠ .pending →
    InfSession s [cap] (t.infOut.bytes 0 t.inf.thisOut) t
  | more {s u t v : State} {out : Buffer} {cap : Nat} {caps : List Nat} {bs : List Byte} :
    exec (.infStep out cap) s = .next u → Ends u t → t.inf.lastStatus = .pending → InfSession t caps bs v →
    InfSession s (cap :: caps) (t.infOut.bytes 0 t.inf.thisOut ++ bs) v

/-- The same of DEF.STEPs. -/
inductive DflSession : State → List Nat → List Byte → State → Prop
  | last {s u t : State} {out : Buffer} {cap : Nat} :
    exec (.defStep out cap) s = .next u → Ends u t → t.dfl.lastStatus ≠ .pending →
    DflSession s [cap] (t.dflOut.bytes 0 t.dfl.thisOut) t
  | more {s u t v : State} {out : Buffer} {cap : Nat} {caps : List Nat} {bs : List Byte} :
    exec (.defStep out cap) s = .next u → Ends u t → t.dfl.lastStatus = .pending → DflSession t caps bs v →
    DflSession s (cap :: caps) (t.dflOut.bytes 0 t.dfl.thisOut ++ bs) v

/-! ### encoding -/

/-- The decode tries of an encoding context's length tables (R176). -/
structure Trees where
  ll : Trie
  d : Trie
  cl : Trie

/-- The trees are those of the context's tables. -/
def treesOf (ctx : EncCtx) (t : Trees) : Prop :=
  buildDecodeTree ctx.llLen = some t.ll ∧ buildDecodeTree ctx.dLen = some t.d ∧ buildDecodeTree ctx.clLen = some t.cl

/-- The grammar position of an element (R100); a code-length element stands after another one. -/
def posOf (ctx : EncCtx) (t : Trees) (i : Instr) : Pos :=
  match i with
  | .zhdr _ _ _ _ _ => .zhdr
  | .dictid _ => .dictid
  | .bhdrStored _ => .bhdr
  | .bhdrFixed _ => .bhdr
  | .bhdrDynamic _ => .bhdr
  | .bhdrReserved _ => .bhdr
  | .pad => .pad ctx.padWidth
  | .shdr _ _ => .shdr
  | .raw _ => .raw
  | .dynhdr _ _ _ => .dynhdr
  | .cllens _ => .cllens
  | .trailer _ => .trailer
  | j =>
    if (llParts j).isSome then .llsym t.ll
    else if (dParts j).isSome then .dsym t.d
    else if (clParts j).isSome then .clsym t.cl false
    else .hcmd (opsOf j)

/-- The symbol an element carries has a code in the context's table (R107, R180). -/
def hasCode (ctx : EncCtx) (i : Instr) : Prop :=
  (∀ p, llParts i = some p → ctx.llLen.getD p.1 0 ≠ 0) ∧
  (∀ p, dParts i = some p → ctx.dLen.getD p.1 0 ≠ 0) ∧
  (∀ p, clParts i = some p → ctx.clLen.getD p.1 0 ≠ 0)

/-! ### what the decoder rejects (R178, R451, R453) -/

/-- The walk of R178 is still going on after the bits `pre`: it is at the root, or at a node that is no leaf. -/
def WalkGoesOn (t : Trie) (pre : Bits) : Prop := pre = [] ∨ ∃ z o, pre.foldl Trie.child t = .node z o

/-- The walk of R178 ends after the bits `pre`, at the leaf of `s`. -/
def WalkEndsAt (t : Trie) (pre : Bits) (s : Nat) : Prop := pre ≠ [] ∧ pre.foldl Trie.child t = .leaf s

/-- What reading a Huffman-coded element at `p` under the tree `t` rejects, and with how many bits consumed
(R107, R178, R453): a child that does not exist is CODE_WALKOFF, its bit consumed; the end of the input inside the
code, or inside the extra bits, is INPUT_EXHAUSTED, with nothing left. A symbol that `stops` is raised before its
extra bits are read, and is not spoken of here. -/
def RejectsSymbols (p : Pos) (t : Trie) (extra : Nat → Nat) (stops : Nat → Prop) : Prop :=
  (∀ pre b rest, WalkGoesOn t pre → (pre ++ [b]).foldl Trie.child t = .nil →
    decodeAt p (pre ++ b :: rest) = .reject .codeWalkoff (pre.length + 1)) ∧
  (∀ bs, WalkGoesOn t bs → decodeAt p bs = .reject .inputExhausted bs.length) ∧
  (∀ pre rest s, WalkEndsAt t pre s → ¬ stops s → rest.length < extra s →
    decodeAt p (pre ++ rest) = .reject .inputExhausted (pre.length + rest.length))

/-! ### the bit writer's law (R155) -/

/-- What the DEFLATE engine has written in this STEP: the bits of the bytes stored in OUTPUT, then those
still queued. -/
def State.written (s : State) : Bits :=
  bitsOfBytes (s.dflOut.bytes 0 s.dfl.thisOut) ++ bitsLE s.dfl.bitqCnt s.dfl.bitq.toNat

/-- A bit sequence after one more item: `LE(n, v)`, `BE(n, v)`, or zeros up to a byte boundary. -/
def appendItem (w : Bits) : Item → Bits
  | .le n v => w ++ bitsLE n v
  | .be n v => w ++ bitsBE n v
  | .flush => w ++ List.replicate ((8 - w.length % 8) % 8) false

/-- The width of an item (R390: at most 16). -/
def Item.width : Item → Nat
  | .le n _ => n
  | .be n _ => n
  | .flush => 0

/-- Nothing but the writer's registers (R36, R50) and EMIT_IDX differs. -/
def DefRegs.SameButWriter (r q : DefRegs) : Prop :=
  { q with
    bitq := r.bitq
    bitqCnt := r.bitqCnt
    thisOut := r.thisOut
    totalOut := r.totalOut
    emitIdx := r.emitIdx } = r

/-- From `s` an emission has suspended in `t` (R390, R437): the STEP ends with PENDING and its triple, and
nothing but OUTPUT, the writer's registers, EMIT_IDX and LAST_STATUS has changed. -/
def Suspends (s t : State) : Prop :=
  t.turn = .host ∧ t.dfl.lastStatus = .pending ∧
  t.resp = some (.step .pending t.dfl.thisOut (t.dfl.totalOut % 2 ^ s.cfg.cntW)) ∧
  s.dfl.SameButWriter { t.dfl with lastStatus := s.dfl.lastStatus } ∧
  { t with turn := s.turn, resp := s.resp, dflOut := s.dflOut, dfl := s.dfl } = s

/-- The step writes exactly the bits `bits` of a block, where the buffer has room for them (R390): the
engine goes on after the block (R397), the bytes stored before and those above are as they were, TOTAL_OUT
counts the stored bytes, and nothing else changes. -/
def WritesBlock (s : State) (bits : Bits) : Prop :=
  s.written.length + bits.length ≤ 8 * s.dfl.outLim →
    ∃ t, step s = .next t ∧
      t.written = s.written ++ bits ∧
      t.dfl.dState = (if s.dfl.blkFinal then .dEnd else .dBlock) ∧
      t.dfl.totalOut + s.dfl.thisOut = s.dfl.totalOut + t.dfl.thisOut ∧
      (∀ a, a < s.dfl.thisOut ∨ t.dfl.thisOut ≤ a → t.dflOut.read a = s.dflOut.read a) ∧
      { t with dflOut := s.dflOut, dfl := { t.dfl with
          dState := s.dfl.dState
          bitq := s.dfl.bitq
          bitqCnt := s.dfl.bitqCnt
          thisOut := s.dfl.thisOut
          totalOut := s.dfl.totalOut } } = s

/-- The bits of a token (R389), given the bits of each lit/len and of each distance symbol: a literal's code,
or the length's code and extra bits and the distance's code and extra bits. -/
def tokenBits (ll d : Nat → Bits) (t : Token) : Bits :=
  if t.dist = 0 then ll t.sym
  else
    ll t.sym ++ bitsLE (lenExtra (t.sym - 257)) (t.len - lenBase (t.sym - 257))
      ++ d (dc t.dist) ++ bitsLE (distExtra (dc t.dist)) (t.dist - distBase (dc t.dist))

/-- The bits of a symbol in a pair of table registers (R180): `BE(LEN[s], CODE[s])`. -/
def codeBits {n : Nat} (len code : Vector Nat n) (s : Nat) : Bits := bitsBE (len.toList.getD s 0) (code.toList.getD s 0)

/-- The Kraft sum of a length table over its used symbols, in units of `2^(-bound)`. -/
def kraftSum (bound : Nat) (len : List Nat) : Nat := (len.map fun l => if l = 0 then 0 else 2 ^ (bound - l)).sum

/-- The history `live` after the positions from `p` on, `n` of them, that have three bytes left before `fin`
were inserted one by one, at most `cap` being kept (R210, R212, R386). -/
def liveAfter (cap fin : Nat) : Nat → Nat → List Nat → List Nat
  | 0, _, live => live
  | n + 1, p, live =>
    liveAfter cap fin n (p + 1)
      (if p + 3 ≤ fin then (if live.length = cap then live.drop 1 else live) ++ [p] else live)

/-! ### what tokens and run-length items denote -/

/-- A byte-serial copy of `n` bytes from `d` back (R81, R342). -/
def copyBack : Nat → Nat → List Byte → List Byte
  | 0, _, out => out
  | n + 1, d, out => copyBack n d (out ++ [out.getD (out.length - d) 0])

/-- The output after one more token (R38). -/
def applyToken (out : List Byte) (t : Token) : List Byte :=
  if t.dist = 0 then out ++ [BitVec.ofNat 8 t.sym] else copyBack t.len t.dist out

/-- The lengths after one more run-length item, as the decoder reads it (R336); none is REPEAT_NO_PREV. -/
def applyRle (seq : List Nat) (e : RleItem) : Option (List Nat) :=
  if e.sym = 16 then seq.getLast?.map fun v => seq ++ List.replicate (3 + e.xv) v
  else if e.sym = 17 then some (seq ++ List.replicate (3 + e.xv) 0)
  else if e.sym = 18 then some (seq ++ List.replicate (11 + e.xv) 0)
  else some (seq ++ [e.sym])

end Sys2Proof.Machine
end

