-- ==== Sys2Proof/Certificates/Slice0/Obligations.lean ====
section
/-! DEFINITION. The statements for the provers: what the rules of spec/ say the block does. -/

open Sys2Proof Sys2Proof.Machine

/-! ### encoding -/

/-- Decoding the encoding of an instruction gives it back, with every operand, whatever follows, in every
context whose tables are not over-subscribed (R100 to R108, R110, R111, R181). The bits of a host command's code are
the model's choice (log 33). -/
def Obligations.DecodeOfEncode : Prop :=
  ∀ (ctx : EncCtx) (t : Trees) (i : Instr) (rest : Bits), treesOf ctx t → hasCode ctx i →
    decodeAt (posOf ctx t i) (encode ctx i ++ rest) = .ok i (encode ctx i).length

/-- A decoded instruction was its encoding: no two bit strings at one position stand for one instruction.
PAD is apart: its bits are not examined (R120). The bits of a host command's code are the model's choice (log 33).
What is rejected, with which cause and how many bits consumed (R141, R143, R451, R453, R457): an element of fixed
width cut short consumes what is left, HDR_TRUNCATED in the header and INPUT_EXHAUSTED elsewhere, but a RAW byte
nothing (R332); a symbol whose code walks off, or is cut short, or whose extra bits are, by `RejectsSymbols`; and
symbol 16 as the first code-length symbol is REPEAT_NO_PREV before its extra bits are read (R336). -/
def Obligations.EncodeOfDecode : Prop :=
  (∀ (ctx : EncCtx) (t : Trees) (i : Instr) (bs : Bits) (used : Nat), treesOf ctx t → i ≠ .pad →
    decodeAt (posOf ctx t i) bs = .ok i used → bs.take used = encode ctx i) ∧
  (∀ bs : Bits,
    (∀ p n c, (p, n, c) ∈ [(Pos.zhdr, 16, Cause.hdrTruncated), (.dictid, 32, .hdrTruncated),
        (.bhdr, 3, .inputExhausted), (.shdr, 32, .inputExhausted), (.dynhdr, 14, .inputExhausted),
        (.cllens, 3, .inputExhausted)] →
      bs.length < n → decodeAt p bs = .reject c bs.length) ∧
    (bs.length < 8 → decodeAt .raw bs = .reject .inputExhausted 0)) ∧
  (∀ t : Trie,
    RejectsSymbols (.llsym t) t llExtra (fun _ => False) ∧
    RejectsSymbols (.dsym t) t dExtra (fun _ => False) ∧
    RejectsSymbols (.clsym t false) t clExtra (fun _ => False) ∧
    RejectsSymbols (.clsym t true) t clExtra (fun s => s = 16) ∧
    ∀ pre rest, WalkEndsAt t pre 16 → decodeAt (.clsym t true) (pre ++ rest) = .reject .repeatNoPrev pre.length)

/-- Words written out from the spec's examples decode to the elements the spec names (R301, R322, R331,
R334, R587, R520, R521, R549, R557, R309). The order of the bits of a host command's code is the model's choice
(log 33). -/
def Obligations.WrittenWordsDecode : Prop :=
  decodeAt .zhdr (bitsOfBytes [0x78#8, 0x9c#8]) = .ok (.zhdr 8 7 28 false 2) 16 ∧
  decodeAt .bhdr [true, true, false] = .ok (.bhdrFixed true) 3 ∧
  decodeAt .shdr (bitsOfBytes [0x03#8, 0x00#8, 0xfc#8, 0xff#8]) = .ok (.shdr 3 0xfffc) 32 ∧
  decodeAt .dynhdr (List.replicate 11 false ++ [true, true, true]) = .ok (.dynhdr 0 0 14) 14 ∧
  decodeAt (.clsym (.node (.leaf 18) (.node (.leaf 0) (.leaf 1))) true)
    [false, true, true, false, true, false, true, true] = .ok (.cl18 107) 8 ∧
  decodeAt (.llsym ftreeLl) [true, false, false, true, false, false, false, true] = .ok (.lit 0x61) 8 ∧
  decodeAt (.llsym ftreeLl) (List.replicate 7 false) = .ok .eob 7 ∧
  decodeAt (.llsym ftreeLl)
    [true, true, false, false, false, true, false, false, true, true, true, true, true] = .ok (.len284 31) 13 ∧
  decodeAt (.dsym ftreeD) [false, false, true, false, false, true] = .ok (.dist4 1) 6 ∧
  decodeAt .trailer (bitsOfBytes [0x11#8, 0xe6#8, 0x03#8, 0x98#8]) = .ok (.trailer 0x11e60398) 32 ∧
  decodeAt (.hcmd { space := 5, data := [1#8], cap := 9 }) [false, true, true] = .ok (.defStep ⟨5, [1#8]⟩ 9) 3

/-- R122: fixed-tree prefix decoding is the walk of FTREE_LL. R179: the fixed tries are those of the fixed
length tables, both complete, so that decoding on them never walks off; they can give the reserved symbols. -/
def Obligations.FixedPrefixIsTrieWalk : Prop :=
  (∀ bs : Bits, fixedPrefixDecode bs =
    match ftreeLl.walk bs with
    | .found s used _ => some (s, used)
    | .exhausted _ => none
    | .walkOff _ => none) ∧
  buildDecodeTree fixLlLen = some ftreeLl ∧ buildDecodeTree fixDLen = some ftreeD ∧
  kraftSum 15 fixLlLen = 2 ^ 15 ∧ kraftSum 15 fixDLen = 2 ^ 15 ∧
  (∀ bs used, ftreeLl.walk bs ≠ .walkOff used ∧ ftreeD.walk bs ≠ .walkOff used) ∧
  (∃ b₁ b₂ b₃ b₄ : Bits, ftreeLl.walk b₁ = .found 286 8 [] ∧ ftreeLl.walk b₂ = .found 287 8 [] ∧
    ftreeD.walk b₃ = .found 30 5 [] ∧ ftreeD.walk b₄ = .found 31 5 [])

/-- R181: for a length table that is not over-subscribed, decoding a stream that starts with a used
symbol's code returns the symbol and consumes its length. R176, R174: a table of lengths up to 15 is
over-subscribed exactly where its Kraft sum is above 1, and otherwise every used symbol's code fits its length. -/
def Obligations.CodeDecodesToItsSymbol : Prop :=
  (∀ (len : List Nat) (t : Trie) (s : Nat) (rest : Bits), buildDecodeTree len = some t → len.getD s 0 ≠ 0 →
    t.walk (symbolBits len s ++ rest) = .found s (len.getD s 0) rest) ∧
  (∀ len : List Nat, (∀ l ∈ len, l ≤ 15) →
    (buildDecodeTree len = none ↔ 2 ^ 15 < kraftSum 15 len) ∧
    (kraftSum 15 len ≤ 2 ^ 15 → ∀ s, len.getD s 0 ≠ 0 → (assignCodes len).getD s 0 < 2 ^ len.getD s 0))

/-! ### the bit reader -/

/-- R141: `readBits(n)` returns the next `min(n, avail)` stream bits as an integer, the first bit least
significant, and moves the cursor past them; a short read leaves the stream exhausted; `n = 0` changes
nothing. R142: `readBitsBE(n)` reads the same bits and gives their reversal. -/
def Obligations.ReadBitsTakesNextBits : Prop :=
  ∀ (m : Memory) (r : InfRegs) (n : Nat), r.cursorOk → n ≤ 16 →
    readBits m n r = ((ofBitsLE ((r.restBits m).take n), min n r.avail), r.advance (min n r.avail)) ∧
    (r.avail < n → (readBits m n r).2.brByte = r.brLen ∧ (readBits m n r).2.brBit = 0) ∧
    readBits m 0 r = ((0, 0), r) ∧
    readBitsBE m n r =
      ((revBits (readBits m n r).1.2 (readBits m n r).1.1, (readBits m n r).1.2), (readBits m n r).2)

/-- R144 (and the only jump of R26): `alignToByte()` moves the cursor to the next byte boundary, which
cannot fail, and does nothing at one; it changes nothing else. -/
def Obligations.AlignMovesToByteBoundary : Prop :=
  ∀ r : InfRegs,
    r.alignToByte.brBit = 0 ∧ r.alignToByte.bitpos = 8 * ((r.bitpos + 7) / 8) ∧
    (r.brBit = 0 → r.alignToByte = r) ∧ (r.cursorOk → r.alignToByte.cursorOk) ∧
    { r.alignToByte with brByte := r.brByte, brBit := r.brBit } = r

/-- R145: `readBytesAligned(n)` delivers the next `min(n, avail div 8)` whole bytes of the stream, whether
the cursor is aligned or not, and leaves the bits that make no byte. -/
def Obligations.ReadBytesDeliversWholeBytes : Prop :=
  ∀ (m : Memory) (r : InfRegs) (n : Nat), r.cursorOk →
    (readBytesAligned m n r).1.length = min n (r.avail / 8) ∧
    bitsOfBytes (readBytesAligned m n r).1 = (r.restBits m).take (8 * min n (r.avail / 8)) ∧
    (readBytesAligned m n r).2 = r.advance (8 * min n (r.avail / 8))

/-! ### the bit writer and the emission sequencer -/

/-- R150: `drain()` moves bits from the queue to OUTPUT without changing the sequence written; after it
the queue holds less than a byte or the buffer is full, and it leaves every other register. -/
def Obligations.DrainKeepsTheWrittenBits : Prop :=
  ∀ s : State, s.dflOut.wf = true → s.dfl.WriterOk →
    s.drain.written = s.written ∧
    (s.drain.dfl.writerReady = true ∨ s.drain.dfl.thisOut = s.dfl.outLim) ∧
    s.drain.dfl.thisOut ≤ s.dfl.outLim ∧
    s.dfl.thisOut ≤ s.drain.dfl.thisOut ∧
    s.drain.dfl.totalOut + s.dfl.thisOut = s.dfl.totalOut + s.drain.dfl.thisOut ∧
    (∀ a, a < s.dfl.thisOut ∨ s.drain.dfl.thisOut ≤ a → s.drain.dflOut.read a = s.dflOut.read a) ∧
    { s.drain with dflOut := s.dflOut, dfl := { s.drain.dfl with
        bitq := s.dfl.bitq
        bitqCnt := s.dfl.bitqCnt
        thisOut := s.dfl.thisOut
        totalOut := s.dfl.totalOut } } = s

/-- R390, R155: `emitList` performs the items from EMIT_IDX on in order, each once and whole: the bits
written grow by exactly those of the items performed; the bytes stored before and those above are as they were,
and TOTAL_OUT counts the stored bytes. It either reaches the end of the list, with EMIT_IDX 0, and goes on with
what follows, or suspends at the item EMIT_IDX names with the buffer full. In either case every register but the
writer's, and those a suspension names (R437), is as it was. -/
def Obligations.EmissionWritesItsItems : Prop :=
  ∀ (s : State) (l : List Item) (fin : DefRegs → DefRegs),
    s.dflOut.wf = true → s.dfl.WriterOk → (∀ i ∈ l, i.width ≤ 16) →
    (∀ r, (fin r).bitq = r.bitq ∧ (fin r).bitqCnt = r.bitqCnt ∧ (fin r).thisOut = r.thisOut ∧
      (fin r).totalOut = r.totalOut) →
    let t := s.emitList l fin
    s.dfl.thisOut ≤ t.dfl.thisOut ∧ t.dfl.thisOut ≤ s.dfl.outLim ∧
    t.dfl.totalOut + s.dfl.thisOut = s.dfl.totalOut + t.dfl.thisOut ∧
    (∀ a, a < s.dfl.thisOut ∨ t.dfl.thisOut ≤ a → t.dflOut.read a = s.dflOut.read a) ∧
    ∃ j, j ≤ (l.drop s.dfl.emitIdx).length ∧
      t.written = ((l.drop s.dfl.emitIdx).take j).foldl appendItem s.written ∧
      ((j = (l.drop s.dfl.emitIdx).length ∧
          (∃ r : DefRegs, r.emitIdx = 0 ∧ s.dfl.SameButWriter r ∧ t.dfl = fin r) ∧
          { t with dflOut := s.dflOut, dfl := s.dfl } = s) ∨
        (j < (l.drop s.dfl.emitIdx).length ∧
          t.dfl.emitIdx = s.dfl.emitIdx + j ∧ t.dfl.thisOut = s.dfl.outLim ∧ 8 ≤ t.dfl.bitqCnt ∧ Suspends s t))

/-! ### the wire elements: results and frames -/

/-- ZHDR, DICTID, PAD, SHDR and DYNHDR complete with the registers their rules name and change nothing else
(R301, R305, R330, R331, R334, R335); the illegal forms of SHDR and DYNHDR raise, with the registers their
rules load before the raise. The illegal forms of ZHDR are `HeaderChecksInOrder`'s. -/
def Obligations.HeaderElementsComplete : Prop :=
  ∀ s : State,
    (∀ (cinfo : BitVec 4) (fcheck : BitVec 5) (flevel : BitVec 2), cinfo.toNat ≤ 7 →
      ((cinfo.toNat * 16 + 8) * 256 + (flevel.toNat * 64 + fcheck.toNat)) % 31 = 0 →
      exec (.zhdr 8 cinfo fcheck false flevel) s = .next { s with inf := { s.inf with
        cmf := BitVec.ofNat 8 (cinfo.toNat * 16 + 8)
        flg := BitVec.ofNat 8 (flevel.toNat * 64 + fcheck.toNat)
        iState := .iBlock
        sub := .start } }) ∧
    (∀ id, exec (.dictid id) s = .next { s with inf := { s.inf with
      dictid := id
      iState := .iBlock
      sub := .start } }) ∧
    exec .pad s = .next { s with inf := { s.inf with
      brByte := (s.inf.bitpos + 7) / 8
      brBit := 0
      sub := .stored } } ∧
    (∀ len nlen : BitVec 16, len.toNat + nlen.toNat = 65535 →
      exec (.shdr len nlen) s = .next { s with inf := { s.inf with
        storedRem := len.toNat
        iPhase := true
        sub := .start } }) ∧
    (∀ (hlit hdist : BitVec 5) (hclen : BitVec 4), hlit.toNat ≤ 29 →
      exec (.dynhdr hlit hdist hclen) s = .next { s with inf := { s.inf with
        hlit := hlit
        hdist := hdist
        hclen := hclen
        clLen := Vector.replicate 19 0
        sub := .codeLens 0 } }) ∧
    (∀ len nlen : BitVec 16, len.toNat + nlen.toNat ≠ 65535 →
      exec (.shdr len nlen) s = .next (s.raiseFormat .storedNlen)) ∧
    (∀ (hlit hdist : BitVec 5) (hclen : BitVec 4), 29 < hlit.toNat →
      exec (.dynhdr hlit hdist hclen) s =
        .next ({ s with inf := { s.inf with hlit := hlit, hdist := hdist, hclen := hclen } }.raiseFormat .alphabetSize))

/-- R322: BHDR writes BFINAL, BTYPE and the phase and selects the block's state by its type, and raises
BLOCK_TYPE for the reserved type; the step in I_BLOCK reads three bits, the first BFINAL, the other two
BTYPE, least significant first, and raises INPUT_EXHAUSTED where fewer remain. -/
def Obligations.BlockHeaderSelectsTheState : Prop :=
  (∀ (s : State) (final : Bool),
    exec (.bhdrStored final) s = .next { s with inf := { s.inf with
      bfinal := final, btype := 0, iPhase := false, iState := .iNocomp, sub := .start } } ∧
    exec (.bhdrFixed final) s = .next { s with inf := { s.inf with
      bfinal := final, btype := 1, iPhase := false, iState := .iFixed, sub := .start } } ∧
    exec (.bhdrDynamic final) s = .next { s with inf := { s.inf with
      bfinal := final, btype := 2, iPhase := false, iState := .iDynamic, sub := .start } } ∧
    exec (.bhdrReserved final) s = .next ({ s with inf := { s.inf with
      bfinal := final, btype := 3, iPhase := false, sub := .start } }.raiseFormat .blockType)) ∧
  (∀ s : State, s.turn = .inf → s.inf.iState = .iBlock →
    let bs := s.inf.restBits s.infIn
    (bs.length < 3 →
      step s = .next ({ s with inf := s.inf.advance bs.length }.raiseFormat .inputExhausted)) ∧
    (∀ f b₀ b₁ rest, bs = f :: b₀ :: b₁ :: rest →
      let t := { s with inf := { s.inf.advance 3 with
        bfinal := f, btype := BitVec.ofNat 2 (b₀.toNat + 2 * b₁.toNat), iPhase := false, sub := .start } }
      step s = .next (
        match b₁, b₀ with
        | false, false => { t with inf := { t.inf with iState := .iNocomp } }
        | false, true => { t with inf := { t.inf with iState := .iFixed } }
        | true, false => { t with inf := { t.inf with iState := .iDynamic } }
        | true, true => t.raiseFormat .blockType)))

/-- R339 and R333: EOB and the end of stored data return to I_BLOCK, or to I_END when BFINAL is 1, and
change nothing else but I_PHASE. -/
def Obligations.BlockBodiesEndByBfinal : Prop :=
  ∀ s : State,
    exec .eob s = .next { s with inf := { s.inf with
      iPhase := false, iState := if s.inf.bfinal then .iEnd else .iBlock, sub := .start } } ∧
    (s.turn = .inf → s.inf.iState = .iNocomp → s.inf.iPhase = true → s.inf.storedRem = 0 →
      step s = .next { s with inf := { s.inf with
        iPhase := false, iState := if s.inf.bfinal then .iEnd else .iBlock, sub := .start } })

/-- CLLENS: the `k`-th field is the length of symbol HCLENS_ORDER[k] (R117, R335); after the last the
code-length tree is built, or CODE_OVERSUBSCRIBED is raised. -/
def Obligations.CllensFillsTheTable : Prop :=
  ∀ (s : State) (k : Nat) (v : BitVec 3), s.inf.sub = .codeLens k → k < s.inf.hclen.toNat + 4 →
    let order := [16, 17, 18, 0, 8, 7, 9, 6, 10, 5, 11, 4, 12, 3, 13, 2, 14, 1, 15]
    let cl := s.inf.clLen.setIfInBounds (order.getD k 0) v
    (k + 1 < s.inf.hclen.toNat + 4 →
      exec (.cllens v) s = .next { s with inf := { s.inf with clLen := cl, sub := .codeLens (k + 1) } }) ∧
    (k + 1 = s.inf.hclen.toNat + 4 →
      (∀ t, buildDecodeTree (cl.toList.map BitVec.toNat) = some t →
        exec (.cllens v) s = .next { s with inf := { s.inf with clLen := cl, treeCl := t, sub := .lengths [] } }) ∧
      (buildDecodeTree (cl.toList.map BitVec.toNat) = none →
        exec (.cllens v) s =
          .next ({ s with inf := { s.inf with clLen := cl } }.raiseFormat .codeOversubscribed)))

/-- CL, CL16, CL17 and CL18 append their lengths to the sequence where they fit, and raise REPEAT_NO_PREV
or ALPHABET_SIZE where their rules say (R584 to R587). -/
def Obligations.CodeLengthItemsAppend : Prop :=
  ∀ (s : State) (seq : List (BitVec 4)), s.inf.sub = .lengths seq →
    let n := (s.inf.hlit.toNat + 257) + (s.inf.hdist.toNat + 1)
    let appended := fun (r : Nat) (v : BitVec 4) =>
      if seq.length + r ≤ n then
        Host.Outcome.next { s with inf := { s.inf with sub := .lengths (seq ++ List.replicate r v) } }
      else Host.Outcome.next (s.raiseFormat .alphabetSize)
    (∀ v, exec (.cl v) s = .next { s with inf := { s.inf with sub := .lengths (seq ++ [v]) } }) ∧
    (∀ x init v, seq = init ++ [v] → exec (.cl16 x) s = appended (3 + x.toNat) v) ∧
    (∀ x, seq = [] → exec (.cl16 x) s = .next (s.raiseFormat .repeatNoPrev)) ∧
    (∀ x, exec (.cl17 x) s = appended (3 + x.toNat) 0) ∧
    (∀ x, exec (.cl18 x) s = appended (11 + x.toNat) 0)

/-- LIT (R520, R342, R343): with room the byte is stored at THIS_OUT and at WIN[WIN_POS] and the counters
advance; with the buffer full the code stays in flight and the STEP answers PENDING. Nothing else changes. That the
element's transition includes the drain is the model's choice of step (log 18). -/
def Obligations.LiteralIsEmittedOrHeld : Prop :=
  ∀ (s : State) (b : Byte), s.infOut.wf = true → s.win.wf = true →
    (s.inf.thisOut ≠ s.inf.outLim →
      ∃ t, exec (.lit b) s = .next t ∧
        t.inf = { s.inf with
          pendSym := b.zeroExtend 9, pendLen := 0, pendDist := 0, winPos := (s.inf.winPos + 1) % s.cfg.winCap,
          thisOut := s.inf.thisOut + 1, totalOut := s.inf.totalOut + 1 } ∧
        (∀ a, t.infOut.read a = if a = s.inf.thisOut then b else s.infOut.read a) ∧
        (∀ a, t.win.read a = if a = s.inf.winPos then b else s.win.read a) ∧
        { t with inf := s.inf, infOut := s.infOut, win := s.win } = s) ∧
    (s.inf.thisOut = s.inf.outLim →
      exec (.lit b) s = .next { s with
        turn := .host
        resp := some (.step .pending s.inf.thisOut (s.inf.totalOut % 2 ^ s.cfg.cntW))
        inf := { s.inf with
          pendSym := b.zeroExtend 9, pendLen := 1, pendDist := 0, lastStatus := .pending } })

/-- RAW (R332): the missing input byte is tested first, then the full buffer; otherwise one byte goes to
OUTPUT and the window, and the cursor, STORED_REM and the counters move. -/
def Obligations.StoredByteIsCopied : Prop :=
  ∀ (s : State) (b : Byte), s.infOut.wf = true → s.win.wf = true →
    (s.inf.avail < 8 → exec (.raw b) s = .next (s.raiseFormat .inputExhausted)) ∧
    (8 ≤ s.inf.avail → s.inf.thisOut = s.inf.outLim →
      exec (.raw b) s = .next { s with
        turn := .host
        resp := some (.step .pending s.inf.thisOut (s.inf.totalOut % 2 ^ s.cfg.cntW))
        inf := { s.inf with lastStatus := .pending } }) ∧
    (8 ≤ s.inf.avail → s.inf.thisOut ≠ s.inf.outLim →
      ∃ t, exec (.raw b) s = .next t ∧
        t.inf = { s.inf with
          brByte := s.inf.brByte + 1, storedRem := s.inf.storedRem - 1,
          winPos := (s.inf.winPos + 1) % s.cfg.winCap,
          thisOut := s.inf.thisOut + 1, totalOut := s.inf.totalOut + 1 } ∧
        (∀ a, t.infOut.read a = if a = s.inf.thisOut then b else s.infOut.read a) ∧
        (∀ a, t.win.read a = if a = s.inf.winPos then b else s.win.read a) ∧
        { t with inf := s.inf, infOut := s.infOut, win := s.win } = s)

/-- LEN257 to LEN285: the match length is the base of the symbol's rule plus its extra bits (R522 to
R550), and nothing else changes. -/
def Obligations.LengthSymbolsGiveTheirLength : Prop :=
  ReadsLength .len257 257 3 ∧
  ReadsLength .len258 258 4 ∧
  ReadsLength .len259 259 5 ∧
  ReadsLength .len260 260 6 ∧
  ReadsLength .len261 261 7 ∧
  ReadsLength .len262 262 8 ∧
  ReadsLength .len263 263 9 ∧
  ReadsLength .len264 264 10 ∧
  (∀ x, ReadsLength (.len265 x) 265 (11 + x.toNat)) ∧
  (∀ x, ReadsLength (.len266 x) 266 (13 + x.toNat)) ∧
  (∀ x, ReadsLength (.len267 x) 267 (15 + x.toNat)) ∧
  (∀ x, ReadsLength (.len268 x) 268 (17 + x.toNat)) ∧
  (∀ x, ReadsLength (.len269 x) 269 (19 + x.toNat)) ∧
  (∀ x, ReadsLength (.len270 x) 270 (23 + x.toNat)) ∧
  (∀ x, ReadsLength (.len271 x) 271 (27 + x.toNat)) ∧
  (∀ x, ReadsLength (.len272 x) 272 (31 + x.toNat)) ∧
  (∀ x, ReadsLength (.len273 x) 273 (35 + x.toNat)) ∧
  (∀ x, ReadsLength (.len274 x) 274 (43 + x.toNat)) ∧
  (∀ x, ReadsLength (.len275 x) 275 (51 + x.toNat)) ∧
  (∀ x, ReadsLength (.len276 x) 276 (59 + x.toNat)) ∧
  (∀ x, ReadsLength (.len277 x) 277 (67 + x.toNat)) ∧
  (∀ x, ReadsLength (.len278 x) 278 (83 + x.toNat)) ∧
  (∀ x, ReadsLength (.len279 x) 279 (99 + x.toNat)) ∧
  (∀ x, ReadsLength (.len280 x) 280 (115 + x.toNat)) ∧
  (∀ x, ReadsLength (.len281 x) 281 (131 + x.toNat)) ∧
  (∀ x, ReadsLength (.len282 x) 282 (163 + x.toNat)) ∧
  (∀ x, ReadsLength (.len283 x) 283 (195 + x.toNat)) ∧
  (∀ x, ReadsLength (.len284 x) 284 (227 + x.toNat)) ∧
  ReadsLength .len285 285 258

/-- DIST0 to DIST29: after a length has been read, the element copies that many bytes from its distance
back, where the distance is the base of the symbol's rule plus its extra bits (R553 to R582, R342): a copy
byte by byte, so that a length above the distance repeats the last bytes (R81). Where the output has less room, the
match is loaded all the same and `drainCode()` (`DrainCodeEmitsAsFits`) emits what fits. That the transition
includes the drain is the model's choice of step (log 18). -/
def Obligations.DistanceSymbolsCopyBack : Prop :=
  CopiesFrom .dist0 1 ∧
  CopiesFrom .dist1 2 ∧
  CopiesFrom .dist2 3 ∧
  CopiesFrom .dist3 4 ∧
  (∀ y, CopiesFrom (.dist4 y) (5 + y.toNat)) ∧
  (∀ y, CopiesFrom (.dist5 y) (7 + y.toNat)) ∧
  (∀ y, CopiesFrom (.dist6 y) (9 + y.toNat)) ∧
  (∀ y, CopiesFrom (.dist7 y) (13 + y.toNat)) ∧
  (∀ y, CopiesFrom (.dist8 y) (17 + y.toNat)) ∧
  (∀ y, CopiesFrom (.dist9 y) (25 + y.toNat)) ∧
  (∀ y, CopiesFrom (.dist10 y) (33 + y.toNat)) ∧
  (∀ y, CopiesFrom (.dist11 y) (49 + y.toNat)) ∧
  (∀ y, CopiesFrom (.dist12 y) (65 + y.toNat)) ∧
  (∀ y, CopiesFrom (.dist13 y) (97 + y.toNat)) ∧
  (∀ y, CopiesFrom (.dist14 y) (129 + y.toNat)) ∧
  (∀ y, CopiesFrom (.dist15 y) (193 + y.toNat)) ∧
  (∀ y, CopiesFrom (.dist16 y) (257 + y.toNat)) ∧
  (∀ y, CopiesFrom (.dist17 y) (385 + y.toNat)) ∧
  (∀ y, CopiesFrom (.dist18 y) (513 + y.toNat)) ∧
  (∀ y, CopiesFrom (.dist19 y) (769 + y.toNat)) ∧
  (∀ y, CopiesFrom (.dist20 y) (1025 + y.toNat)) ∧
  (∀ y, CopiesFrom (.dist21 y) (1537 + y.toNat)) ∧
  (∀ y, CopiesFrom (.dist22 y) (2049 + y.toNat)) ∧
  (∀ y, CopiesFrom (.dist23 y) (3073 + y.toNat)) ∧
  (∀ y, CopiesFrom (.dist24 y) (4097 + y.toNat)) ∧
  (∀ y, CopiesFrom (.dist25 y) (6145 + y.toNat)) ∧
  (∀ y, CopiesFrom (.dist26 y) (8193 + y.toNat)) ∧
  (∀ y, CopiesFrom (.dist27 y) (12289 + y.toNat)) ∧
  (∀ y, CopiesFrom (.dist28 y) (16385 + y.toNat)) ∧
  (∀ y, CopiesFrom (.dist29 y) (24577 + y.toNat))

/-- R341, R551, R583, R552: a distance above the bytes output so far raises DIST_TOO_FAR; LL286, LL287,
DIST30 and DIST31 raise SYMBOL_INVALID; nothing is emitted. A distance symbol stands after a length only,
and elsewhere the model refuses it by name (log 15). -/
def Obligations.BadMatchSymbolsRaise : Prop :=
  ∀ s : State,
    (∀ (i : Instr) (d n y : Nat) (sym : BitVec 9) (len : Nat), dParts i = some (d, n, y) → d < 30 →
      s.inf.sub = .distance sym len → s.inf.totalOut < distBase d + y →
      exec i s = .next (s.raiseFormat .distTooFar)) ∧
    exec .ll286 s = .next (s.raiseFormat .symbolInvalid) ∧ exec .ll287 s = .next (s.raiseFormat .symbolInvalid) ∧
    (∀ sym len, s.inf.sub = .distance sym len →
      exec .dist30 s = .next (s.raiseFormat .symbolInvalid) ∧ exec .dist31 s = .next (s.raiseFormat .symbolInvalid)) ∧
    ((∀ sym len, s.inf.sub ≠ .distance sym len) →
      ∀ i p, dParts i = some p → exec i s = .refused .outOfPlace)

/-- R342, R343, R437: `drainCode()` emits as many bytes of the in-flight code as the buffer has room for: a
literal's byte, or the window's bytes at the distance, byte by byte; each goes to OUTPUT at THIS_OUT and to
the window at WIN_POS, and no other byte of them changes. If bytes of the code remain the STEP ends with
PENDING, the code kept in flight; nothing else changes. R338: on resumption the engine goes on with
`drainCode()` before it reads another symbol. -/
def Obligations.DrainCodeEmitsAsFits : Prop :=
  (∀ s : State, s.inf.thisOut ≤ s.inf.outLim →
    let k := min s.inf.pendLen (s.inf.outLim - s.inf.thisOut)
    let t := s.drainCode
    t.inf.thisOut = s.inf.thisOut + k ∧ t.inf.totalOut = s.inf.totalOut + k ∧
    { t.inf with
      pendLen := s.inf.pendLen, winPos := s.inf.winPos, thisOut := s.inf.thisOut, totalOut := s.inf.totalOut,
      lastStatus := s.inf.lastStatus } = s.inf ∧
    t.inf.pendLen = s.inf.pendLen - k ∧
    (k = s.inf.pendLen → t.turn = s.turn ∧ t.resp = s.resp ∧ t.inf.lastStatus = s.inf.lastStatus) ∧
    (k < s.inf.pendLen → t.turn = .host ∧ t.inf.lastStatus = .pending ∧
      t.resp = some (.step .pending s.inf.outLim ((s.inf.totalOut + k) % 2 ^ s.cfg.cntW))) ∧
    { t with turn := s.turn, resp := s.resp, inf := s.inf, infOut := s.infOut, win := s.win } = s) ∧
  (∀ s : State, s.infOut.wf = true → s.win.wf = true → 33026 ≤ s.cfg.winCap → s.inf.winPos < s.cfg.winCap →
    s.inf.thisOut ≤ s.inf.outLim → s.inf.pendLen ≤ 258 → s.inf.pendDist ≤ 32768 →
    let k := min s.inf.pendLen (s.inf.outLim - s.inf.thisOut)
    let t := s.drainCode
    let byte : Nat → Byte := fun j =>
      if s.inf.pendDist = 0 then BitVec.ofNat 8 s.inf.pendSym.toNat
      else s.win.read ((s.inf.winPos + s.cfg.winCap - s.inf.pendDist + j % s.inf.pendDist) % s.cfg.winCap)
    t.inf.winPos = (s.inf.winPos + k) % s.cfg.winCap ∧
    (∀ j, j < k → t.infOut.read (s.inf.thisOut + j) = byte j) ∧
    (∀ a, a < s.inf.thisOut ∨ s.inf.thisOut + k ≤ a → t.infOut.read a = s.infOut.read a) ∧
    (∀ j, j < k → t.win.read ((s.inf.winPos + j) % s.cfg.winCap) = byte j) ∧
    (∀ a, (∀ j, j < k → a ≠ (s.inf.winPos + j) % s.cfg.winCap) → t.win.read a = s.win.read a)) ∧
  (∀ s : State, s.turn = .inf → s.inf.inBody → s.inf.pendLen ≠ 0 → (∀ sym len, s.inf.sub ≠ .distance sym len) →
    step s = .next s.drainCode)

/-- TRAILER (R309, R398): with an empty or part-filled byte queued and eight bytes of room, the queued bits
are padded with zeros to a byte, the checksum's four bytes follow most significant first, everything is in
OUTPUT and the engine is in D_DONE. -/
def Obligations.TrailerIsWritten : Prop :=
  ∀ (s : State) (a : BitVec 32), s.dflOut.wf = true → s.dfl.WriterOk → s.dfl.emitIdx = 0 →
    s.dfl.thisOut + 8 ≤ s.dfl.outLim →
    ∃ t, exec (.trailer a) s = .next t ∧
      t.dfl.dState = .dDone ∧ t.dfl.bitqCnt = 0 ∧ t.dfl.emitIdx = 0 ∧ t.turn = s.turn ∧ t.resp = s.resp ∧
      t.written = s.written ++ List.replicate ((8 - s.written.length % 8) % 8) false
        ++ bitsOfBytes [BitVec.ofNat 8 (a.toNat / 2 ^ 24), BitVec.ofNat 8 (a.toNat / 2 ^ 16),
          BitVec.ofNat 8 (a.toNat / 2 ^ 8), BitVec.ofNat 8 a.toNat] ∧
      t.dfl.totalOut + s.dfl.thisOut = s.dfl.totalOut + t.dfl.thisOut ∧
      (∀ x, x < s.dfl.thisOut ∨ t.dfl.thisOut ≤ x → t.dflOut.read x = s.dflOut.read x) ∧
      { t with dflOut := s.dflOut, dfl := { t.dfl with
          dState := s.dfl.dState
          bitq := s.dfl.bitq
          bitqCnt := s.dfl.bitqCnt
          thisOut := s.dfl.thisOut
          totalOut := s.dfl.totalOut } } = s

/-! ### the INFLATE engine's steps -/

/-- R301 to R304: the header's step reads two bytes and applies the checks in order; the cause is that of
the first that fails, with CMF and FLG loaded; a header cut short is HDR_TRUNCATED. R305: where FDICT is set
under the skip policy the next step reads the four bytes of DICTID, the first the most significant, and goes to
I_BLOCK; a DICTID cut short is HDR_TRUNCATED, with DICTID as it was. -/
def Obligations.HeaderChecksInOrder : Prop :=
  ∀ s : State, s.turn = .inf → s.inf.iState = .iInit →
    let bs := s.inf.restBits s.infIn
    let byte := fun k => ofBitsLE ((bs.drop (8 * k)).take 8)
    let truncated := ({ s with inf := s.inf.advance bs.length }).raiseFormat .hdrTruncated
    (s.inf.sub = .start → bs.length < 16 → step s = .next truncated) ∧
    (s.inf.sub = .start → 16 ≤ bs.length →
      let c := byte 0
      let f := byte 1
      let t := { s with inf := { s.inf.advance 16 with cmf := BitVec.ofNat 8 c, flg := BitVec.ofNat 8 f } }
      step s = .next (
        if c % 16 ≠ 8 then t.raiseFormat .hdrMethod
        else if 7 < c / 16 then t.raiseFormat .hdrCinfo
        else if (c * 256 + f) % 31 ≠ 0 then t.raiseFormat .hdrFcheck
        else if f / 32 % 2 = 0 then { t with inf := { t.inf with iState := .iBlock } }
        else if s.cfg.fdictPolicy = .error then t.raiseFormat .hdrFdict
        else { t with inf := { t.inf with sub := .dictid } })) ∧
    (s.inf.sub = .dictid → bs.length < 32 → step s = .next truncated) ∧
    (s.inf.sub = .dictid → 32 ≤ bs.length →
      step s = .next { s with inf := { s.inf.advance 32 with
        dictid := BitVec.ofNat 32 (byte 0 * 2 ^ 24 + byte 1 * 2 ^ 16 + byte 2 * 2 ^ 8 + byte 3)
        iState := .iBlock
        sub := .start } })

/-- The last lines of R336, and R337: when every length is defined the step writes LL_LEN and D_LEN with
zeros past the counts, builds the lit/len tree and then the distance tree, and the body begins; the first
tree that is over-subscribed raises. -/
def Obligations.DynamicTreesAreBuilt : Prop :=
  ∀ (s : State) (seq : List (BitVec 4)), s.turn = .inf → s.inf.iState = .iDynamic → s.inf.iPhase = false →
    s.inf.sub = .lengths seq → s.inf.hlit.toNat ≤ 29 → seq.length = s.inf.hlit.toNat + 257 + (s.inf.hdist.toNat + 1) →
    ∃ (ll : Vector (BitVec 4) 288) (d : Vector (BitVec 4) 32),
      (∀ k, k < 288 → ll.toList.getD k 0 = if k < s.inf.hlit.toNat + 257 then seq.getD k 0 else 0) ∧
      (∀ k, k < 32 → d.toList.getD k 0 =
        if k ≤ s.inf.hdist.toNat then seq.getD (s.inf.hlit.toNat + 257 + k) 0 else 0) ∧
      let t := { s with inf := { s.inf with llLen := ll, dLen := d } }
      step s = .next (
        match buildDecodeTree ((seq.take (s.inf.hlit.toNat + 257)).map BitVec.toNat),
          buildDecodeTree ((seq.drop (s.inf.hlit.toNat + 257)).map BitVec.toNat) with
        | none, _ => t.raiseFormat .codeOversubscribed
        | some tl, none => { t with inf := { t.inf with treeLl := tl } }.raiseFormat .codeOversubscribed
        | some tl, some td => { t with inf := { t.inf with
            treeLl := tl, treeD := td, iPhase := true, sub := .start } })

/-- R455: when a step of the INFLATE engine enters I_ERROR, the cause is recorded, the STEP ends with
ERROR_FORMAT and the counts as they stood, and nothing is emitted for the failing element. -/
def Obligations.ErrorIsPrecise : Prop :=
  ∀ s t : State, s.turn = .inf → s.inf.iState ≠ .iError → step s = .next t → t.inf.iState = .iError →
    t.inf.errCause ≠ .none ∧ t.inf.lastStatus = .errorFormat ∧ t.turn = .host ∧
    t.resp = some (.step .errorFormat s.inf.thisOut (s.inf.totalOut % 2 ^ s.cfg.cntW)) ∧
    t.infOut = s.infOut ∧ t.win = s.win ∧ t.inf.thisOut = s.inf.thisOut ∧ t.inf.totalOut = s.inf.totalOut ∧
    t.inf.winPos = s.inf.winPos

/-- R345, R346, R399: a step in I_END, I_ERROR or D_DONE ends the STEP with END, ERROR_FORMAT or END and the
counts as they stand, and changes nothing else. So every later STEP there answers the same status with nothing
produced, and changes only OUT_BASE, OUT_LIM, THIS_OUT and LAST_STATUS; OUTPUT is the new buffer as the host
gave it. -/
def Obligations.TerminalStatesAreSticky : Prop :=
  (∀ s : State, s.turn = .inf → s.inf.iState = .iEnd ∨ s.inf.iState = .iError →
    let st := if s.inf.iState = .iEnd then Status.ended else Status.errorFormat
    step s = .next { s with
      turn := .host
      resp := some (.step st s.inf.thisOut (s.inf.totalOut % 2 ^ s.cfg.cntW))
      inf := { s.inf with lastStatus := st } }) ∧
  (∀ s : State, s.turn = .dfl → s.dfl.dState = .dDone →
    step s = .next { s with
      turn := .host
      resp := some (.step .ended s.dfl.thisOut (s.dfl.totalOut % 2 ^ s.cfg.cntW))
      dfl := { s.dfl with lastStatus := .ended } }) ∧
  (∀ (s : State) (out cap : Nat) (buf : List Byte), s.infLife = .active → cap < 2 ^ s.cfg.xlen →
    s.inf.iState = .iEnd ∨ s.inf.iState = .iError →
    let st := if s.inf.iState = .iEnd then Status.ended else Status.errorFormat
    ∃ u, exec (.infStep ⟨out, buf⟩ cap) s = .next u ∧
      step u = .next { s with
        turn := .host
        resp := some (.step st 0 (s.inf.totalOut % 2 ^ s.cfg.cntW))
        infOut := Memory.ofBytes (buf.take cap)
        inf := { s.inf with outBase := out, outLim := cap, thisOut := 0, lastStatus := st } }) ∧
  (∀ (s : State) (out cap : Nat) (buf : List Byte), s.dflLife = .active → cap < 2 ^ s.cfg.xlen → s.dfl.dState = .dDone →
    ∃ u, exec (.defStep ⟨out, buf⟩ cap) s = .next u ∧
      step u = .next { s with
        turn := .host
        resp := some (.step .ended 0 (s.dfl.totalOut % 2 ^ s.cfg.cntW))
        dflOut := Memory.ofBytes (buf.take cap)
        dfl := { s.dfl with outBase := out, outLim := cap, thisOut := 0, lastStatus := .ended } })

/-- R435, R439, R461: a STEP's answer is the triple of its status, THIS_OUT and TOTAL_OUT modulo 2^CNT_W,
with LAST_STATUS the status: END, PENDING or ERROR_FORMAT of INFLATE, END or PENDING of DEFLATE. -/
def Obligations.StepAnswersAreClosed : Prop :=
  (∀ s t : State, s.turn = .inf → step s = .next t → t.turn = .host →
    t.resp = some (.step t.inf.lastStatus t.inf.thisOut (t.inf.totalOut % 2 ^ t.cfg.cntW)) ∧
    (t.inf.lastStatus = .ended ∨ t.inf.lastStatus = .pending ∨ t.inf.lastStatus = .errorFormat)) ∧
  (∀ s t : State, s.turn = .dfl → step s = .next t → t.turn = .host →
    t.resp = some (.step t.dfl.lastStatus t.dfl.thisOut (t.dfl.totalOut % 2 ^ t.cfg.cntW)) ∧
    (t.dfl.lastStatus = .ended ∨ t.dfl.lastStatus = .pending))

/-- R321, R352, R381, R442: a STEP that answers PENDING has filled its buffer. R437, R390: the step by which the
DEFLATE engine answers PENDING, in whatever state, is a suspended emission: every register but the writer's,
EMIT_IDX and LAST_STATUS is as it was. -/
def Obligations.PendingMeansFullBuffer : Prop :=
  (∀ s t : State, s.turn = .inf → step s = .next t → t.turn = .host → t.inf.lastStatus = .pending →
    t.inf.thisOut = t.inf.outLim) ∧
  (∀ s t : State, s.dflOk → s.turn = .dfl → step s = .next t → t.turn = .host → t.dfl.lastStatus = .pending →
    t.dfl.thisOut = t.dfl.outLim) ∧
  (∀ s t : State, s.turn = .dfl → step s = .next t → t.turn = .host → t.dfl.lastStatus = .pending → Suspends s t)

/-- R26: a step of the INFLATE engine never moves the cursor backwards nor, in a session, past the end of
INPUT. -/
def Obligations.CursorNeverMovesBack : Prop :=
  ∀ s t : State, s.turn = .inf → step s = .next t →
    s.inf.bitpos ≤ t.inf.bitpos ∧ t.inf.brLen = s.inf.brLen ∧ (s.infOk → t.inf.bitpos ≤ 8 * t.inf.brLen)

/-- R71, R72: an engine's step never writes INPUT; it stores to OUTPUT only at offsets from THIS_OUT up,
ascending and below OUT_LIM, and counts each stored byte once. R435: over a whole STEP, the bytes of the
host's buffer at and above `produced` keep the values the host gave them. -/
def Obligations.OutputIsWrittenOnce : Prop :=
  (∀ s t : State, s.memOk → s.infOk → s.turn = .inf → step s = .next t →
    t.infIn = s.infIn ∧ s.inf.thisOut ≤ t.inf.thisOut ∧ t.inf.thisOut ≤ s.inf.outLim ∧
    t.inf.totalOut + s.inf.thisOut = s.inf.totalOut + t.inf.thisOut ∧
    ∀ a, a < s.inf.thisOut ∨ t.inf.thisOut ≤ a → t.infOut.read a = s.infOut.read a) ∧
  (∀ s t : State, s.memOk → s.dflOk → s.turn = .dfl → step s = .next t →
    t.dflIn = s.dflIn ∧ s.dfl.thisOut ≤ t.dfl.thisOut ∧ t.dfl.thisOut ≤ s.dfl.outLim ∧
    t.dfl.totalOut + s.dfl.thisOut = s.dfl.totalOut + t.dfl.thisOut ∧
    ∀ a, a < s.dfl.thisOut ∨ t.dfl.thisOut ≤ a → t.dflOut.read a = s.dflOut.read a) ∧
  (∀ (s u t : State) (out cap : Nat) (buf : List Byte), s.Ok → exec (.infStep ⟨out, buf⟩ cap) s = .next u → Ends u t →
    t.inf.thisOut ≤ cap ∧ ∀ a, t.inf.thisOut ≤ a → a < cap → t.infOut.read a = buf.getD a 0) ∧
  (∀ (s u t : State) (out cap : Nat) (buf : List Byte), s.Ok → exec (.defStep ⟨out, buf⟩ cap) s = .next u → Ends u t →
    t.dfl.thisOut ≤ cap ∧ ∀ a, t.dfl.thisOut ≤ a → a < cap → t.dflOut.read a = buf.getD a 0)

/-- R355: the transitions of I_STATE and D_STATE, all of them. -/
def Obligations.StateTransitionsAreListed : Prop :=
  (∀ s t : State, s.turn = .inf → step s = .next t →
    t.inf.iState = s.inf.iState ∨ (t.inf.iState = .iError ∧ s.inf.iState ≠ .iEnd) ∨
    (s.inf.iState, t.inf.iState) ∈
      [(IState.iInit, IState.iBlock), (.iBlock, .iNocomp), (.iBlock, .iFixed), (.iBlock, .iDynamic),
        (.iNocomp, .iBlock), (.iFixed, .iBlock), (.iDynamic, .iBlock),
        (.iNocomp, .iEnd), (.iFixed, .iEnd), (.iDynamic, .iEnd)]) ∧
  (∀ s t : State, s.turn = .dfl → step s = .next t →
    t.dfl.dState = s.dfl.dState ∨
    (s.dfl.dState, t.dfl.dState) ∈
      [(DState.dInit, DState.dBlock), (.dBlock, .dNocomp), (.dBlock, .dLzss), (.dLzss, .dFixed),
        (.dLzss, .dDynamic), (.dNocomp, .dBlock), (.dFixed, .dBlock), (.dDynamic, .dBlock),
        (.dNocomp, .dEnd), (.dFixed, .dEnd), (.dDynamic, .dEnd), (.dEnd, .dDone)])

/-- R20, R443, R465: a step of one engine leaves the other engine's registers and memories, the parameters
and the waiting commands as they are; and what a step of an engine does depends on its own context alone: two
states that agree on the parameters and on that engine's registers and memories step to states that agree on
them, on whose move it is and on the answer, or fault alike. -/
def Obligations.EnginesShareNothing : Prop :=
  (∀ s t : State, s.turn = .inf → step s = .next t →
    t.dfl = s.dfl ∧ t.dflIn = s.dflIn ∧ t.dflOut = s.dflOut ∧ t.dflLife = s.dflLife ∧ t.infLife = s.infLife ∧
    t.cfg = s.cfg ∧ t.cmds = s.cmds ∧ t.freeCnt = s.freeCnt) ∧
  (∀ s t : State, s.turn = .dfl → step s = .next t →
    t.inf = s.inf ∧ t.infIn = s.infIn ∧ t.infOut = s.infOut ∧ t.win = s.win ∧ t.infLife = s.infLife ∧
    t.dflLife = s.dflLife ∧ t.cfg = s.cfg ∧ t.cmds = s.cmds ∧ t.freeCnt = s.freeCnt) ∧
  (∀ s₁ s₂ t₁ : State, s₁.turn = .inf → s₂.turn = .inf → s₁.cfg = s₂.cfg → s₁.inf = s₂.inf →
    s₁.infIn = s₂.infIn → s₁.infOut = s₂.infOut → s₁.win = s₂.win → step s₁ = .next t₁ →
    ∃ t₂, step s₂ = .next t₂ ∧ t₁.inf = t₂.inf ∧ t₁.infIn = t₂.infIn ∧ t₁.infOut = t₂.infOut ∧ t₁.win = t₂.win ∧
      t₁.turn = t₂.turn ∧ (t₁.turn = .host → t₁.resp = t₂.resp)) ∧
  (∀ s₁ s₂ : State, s₁.turn = .dfl → s₂.turn = .dfl → s₁.cfg = s₂.cfg → s₁.dfl = s₂.dfl →
    s₁.dflIn = s₂.dflIn → s₁.dflOut = s₂.dflOut →
    (∀ t₁, step s₁ = .next t₁ →
      ∃ t₂, step s₂ = .next t₂ ∧ t₁.dfl = t₂.dfl ∧ t₁.dflIn = t₂.dflIn ∧ t₁.dflOut = t₂.dflOut ∧
        t₁.turn = t₂.turn ∧ (t₁.turn = .host → t₁.resp = t₂.resp)) ∧
    (∀ f, step s₁ = .fault f → step s₂ = .fault f))

/-- A step runs the decoded instruction (R100, R111, R320): in the INFLATE engine's turn the element at the
cursor's position, with the cursor moved past it (PAD and RAW move it themselves), or the cause its bits
raise; in D_END the trailer of the checksum (log 13); in the host's turn the first waiting command, taken off the
queue; with none waiting, nothing (log 11). The position is that of the grammar, with the trees in force (R100,
R112, R344); where the scratch register does not fit I_STATE and I_PHASE, which no run reaches, the position is the
model's choice (log 30). R344: in I_FIXED with I_PHASE 0 the step sets I_PHASE, and changes nothing else. -/
def Obligations.StepRunsTheDecodedInstruction : Prop :=
  (∀ r : InfRegs, PositionFollowsTheGrammar r) ∧
  (∀ s : State, s.turn = .inf → s.inf.iState = .iFixed → s.inf.iPhase = false →
    step s = .next { s with inf := { s.inf with iPhase := true } }) ∧
  (∀ (s : State) (p : Pos) (i : Instr) (used : Nat), s.turn = .inf → s.inf.pos = some p →
    decodeAt p (s.inf.restBits s.infIn) = .ok i used →
    step s = exec i
      (match i with
      | .pad => s
      | .raw _ => s
      | _ => { s with inf := s.inf.advance used })) ∧
  (∀ (s : State) (p : Pos) (c : Cause) (used : Nat), s.turn = .inf → s.inf.pos = some p →
    decodeAt p (s.inf.restBits s.infIn) = .reject c used →
    step s = .next ({ s with inf := s.inf.advance used }.raiseFormat c)) ∧
  (∀ s : State, s.turn = .dfl → s.dfl.dState = .dEnd →
    step s = exec (.trailer (BitVec.ofNat 32 (s.dfl.adlerS2 * 65536 + s.dfl.adlerS1))) s) ∧
  (∀ (s : State) (x : Xact) (rest : List Xact), s.turn = .host → s.cmds = x :: rest →
    step s = exec (commandOf x.code.toNat x.ops) { s with cmds := rest }) ∧
  (∀ s : State, s.turn = .host → s.cmds = [] → step s = .next s)

/-! ### host commands -/

/-- R430: a command is refused exactly in the LIFE states the table marks; in the others, with operands
in range, it completes. -/
def Obligations.CommandLegality : Prop :=
  ∀ (s : State) (sp cap : Nat) (data buf : List Byte) (level : BitVec 2) (ok : Bool),
    data.length < 2 ^ s.cfg.xlen → cap < 2 ^ s.cfg.xlen → level.toNat ≤ 2 →
    (∀ life, s.infLife = life →
      (life ≠ .absent → exec (.infCreate ok) s = .refused (.commandRefused life)) ∧
      (life = .absent → exec (.infReset sp data) s = .refused (.commandRefused life) ∧
        exec .infDestroy s = .refused (.commandRefused life)) ∧
      (life ≠ .active → exec (.infStep ⟨sp, buf⟩ cap) s = .refused (.commandRefused life)) ∧
      (life = .absent → ∃ t, exec (.infCreate ok) s = .next t) ∧
      (life ≠ .absent → (∃ t, exec (.infReset sp data) s = .next t) ∧ ∃ t, exec .infDestroy s = .next t) ∧
      (life = .active → ∃ t, exec (.infStep ⟨sp, buf⟩ cap) s = .next t)) ∧
    (∀ life, s.dflLife = life →
      (life ≠ .absent → exec (.defCreate ok) s = .refused (.commandRefused life)) ∧
      (life = .absent → exec (.defReset sp data level) s = .refused (.commandRefused life) ∧
        exec .defDestroy s = .refused (.commandRefused life)) ∧
      (life ≠ .active → exec (.defStep ⟨sp, buf⟩ cap) s = .refused (.commandRefused life)) ∧
      (life = .absent → ∃ t, exec (.defCreate ok) s = .next t) ∧
      (life ≠ .absent → (∃ t, exec (.defReset sp data level) s = .next t) ∧ ∃ t, exec .defDestroy s = .next t) ∧
      (life = .active → ∃ t, exec (.defStep ⟨sp, buf⟩ cap) s = .next t))

/-- R431, R452: CREATE answers OK and makes LIFE CREATED when the allocator agrees; otherwise ERROR_MEMORY
with LIFE ABSENT; the other engine is not touched. That LAST_STATUS then shows ERROR_MEMORY is the model's
reading (log 14). R435, R320, R380: STEP sets OUT_BASE, OUT_LIM and THIS_OUT and hands the move to its engine,
with OUTPUT the host's buffer as it stands (a byte past the end of the operand's list being 0: log 5); it
changes nothing else. R438, R57: DESTROY makes LIFE ABSENT, gives no response, and does not touch the other
engine. -/
def Obligations.CreateStepAndDestroyCommands : Prop :=
  (∀ s : State,
    (s.infLife = .absent →
      (∃ t, exec (.infCreate true) s = .next t ∧ t.infLife = .created ∧ t.resp = some (.status .ok) ∧
        t.inf.lastStatus = .ok ∧ t.dfl = s.dfl ∧ t.dflLife = s.dflLife ∧ t.dflIn = s.dflIn ∧ t.dflOut = s.dflOut ∧
        t.turn = s.turn ∧ t.cfg = s.cfg) ∧
      exec (.infCreate false) s = .next { s with
        resp := some (.status .errorMemory), inf := { s.inf with lastStatus := .errorMemory } }) ∧
    (s.dflLife = .absent →
      (∃ t, exec (.defCreate true) s = .next t ∧ t.dflLife = .created ∧ t.resp = some (.status .ok) ∧
        t.dfl.lastStatus = .ok ∧ t.inf = s.inf ∧ t.infLife = s.infLife ∧ t.infIn = s.infIn ∧ t.infOut = s.infOut ∧
        t.win = s.win ∧ t.turn = s.turn ∧ t.cfg = s.cfg) ∧
      exec (.defCreate false) s = .next { s with
        resp := some (.status .errorMemory), dfl := { s.dfl with lastStatus := .errorMemory } })) ∧
  ∀ (s : State) (out cap : Nat) (buf : List Byte), cap < 2 ^ s.cfg.xlen →
    (s.infLife = .active →
      exec (.infStep ⟨out, buf⟩ cap) s = .next { s with
        turn := .inf, resp := none, infOut := Memory.ofBytes (buf.take cap),
        inf := { s.inf with outBase := out, outLim := cap, thisOut := 0 } }) ∧
    (s.dflLife = .active →
      exec (.defStep ⟨out, buf⟩ cap) s = .next { s with
        turn := .dfl, resp := none, dflOut := Memory.ofBytes (buf.take cap),
        dfl := { s.dfl with outBase := out, outLim := cap, thisOut := 0 } }) ∧
    (∀ a, a < cap → (Memory.ofBytes (buf.take cap)).read a = buf.getD a 0) ∧
    (s.infLife ≠ .absent → ∃ t, exec .infDestroy s = .next t ∧ t.infLife = .absent ∧ t.resp = none ∧
      t.dfl = s.dfl ∧ t.dflLife = s.dflLife ∧ t.dflIn = s.dflIn ∧ t.dflOut = s.dflOut ∧ t.turn = s.turn ∧
      t.cfg = s.cfg) ∧
    (s.dflLife ≠ .absent → ∃ t, exec .defDestroy s = .next t ∧ t.dflLife = .absent ∧ t.resp = none ∧
      t.inf = s.inf ∧ t.infLife = s.infLife ∧ t.infIn = s.infIn ∧ t.infOut = s.infOut ∧ t.win = s.win ∧
      t.turn = s.turn ∧ t.cfg = s.cfg)

/-- R433 with R55, R434 with R56: after RESET every register of the table that has a value holds it, INPUT
holds the operand's bytes, the response is OK, and the other engine is not touched; DEF.RESET with level 3 is
refused. -/
def Obligations.ResetValues : Prop :=
  (∀ (s : State) (input : Nat) (data : List Byte), s.infLife ≠ .absent → data.length < 2 ^ s.cfg.xlen →
    ∃ t, exec (.infReset input data) s = .next t ∧
      t.infLife = .active ∧ t.resp = some (.status .ok) ∧ t.turn = s.turn ∧ t.cfg = s.cfg ∧
      t.inf.iState = .iInit ∧ t.inf.iPhase = false ∧ t.inf.inBase = input ∧ t.inf.brLen = data.length ∧
      t.inf.brByte = 0 ∧ t.inf.brBit = 0 ∧ t.inf.cmf = 0 ∧ t.inf.flg = 0 ∧ t.inf.dictid = 0 ∧
      t.inf.bfinal = false ∧ t.inf.btype = 0 ∧ t.inf.pendSym = 0 ∧ t.inf.pendLen = 0 ∧ t.inf.pendDist = 0 ∧
      t.inf.storedRem = 0 ∧ t.inf.winPos = 0 ∧ t.inf.totalOut = 0 ∧ t.inf.thisOut = 0 ∧ t.inf.outLim = 0 ∧
      t.inf.errCause = .none ∧ t.inf.lastStatus = .ok ∧
      (∀ a, a < data.length → t.infIn.read a = data.getD a 0) ∧
      t.dfl = s.dfl ∧ t.dflLife = s.dflLife ∧ t.dflIn = s.dflIn ∧ t.dflOut = s.dflOut) ∧
  (∀ (s : State) (input : Nat) (data : List Byte) (level : BitVec 2), s.dflLife ≠ .absent →
    data.length < 2 ^ s.cfg.xlen →
    (level = 3 → exec (.defReset input data level) s = .refused .levelRefused) ∧
    (level ≠ 3 → ∃ t, exec (.defReset input data level) s = .next t ∧
      t.dflLife = .active ∧ t.resp = some (.status .ok) ∧ t.turn = s.turn ∧ t.cfg = s.cfg ∧
      t.dfl.dState = .dInit ∧
      t.dfl.level = (if level = 0 then .noCompression else if level = 1 then .fixed else .dynamic) ∧
      t.dfl.inBase = input ∧ t.dfl.inEnd = data.length ∧ t.dfl.inCur = 0 ∧ t.dfl.bitqCnt = 0 ∧ t.dfl.bitq = 0 ∧
      t.dfl.adlerS1 = 1 ∧ t.dfl.adlerS2 = 0 ∧ t.dfl.tokCnt = 0 ∧ t.dfl.blkFinal = false ∧ t.dfl.blkStart = 0 ∧
      t.dfl.blkLen = 0 ∧ t.dfl.emitIdx = 0 ∧ t.dfl.histCnt = 0 ∧ t.dfl.live = [] ∧ t.dfl.evictCur = 0 ∧
      (∀ b, t.dfl.headOf s.cfg b = none) ∧ (0 < s.cfg.histCap → t.dfl.freeHead s.cfg = some 0) ∧
      t.dfl.totalOut = 0 ∧ t.dfl.thisOut = 0 ∧ t.dfl.outLim = 0 ∧ t.dfl.lastStatus = .ok ∧
      (∀ a, a < data.length → t.dflIn.read a = data.getD a 0) ∧
      t.inf = s.inf ∧ t.infLife = s.infLife ∧ t.infIn = s.infIn ∧ t.infOut = s.infOut ∧ t.win = s.win))

/-! ### the DEFLATE engine -/

/-- R306, R390: where the buffer has room for them, the header's pass writes what is left, from EMIT_IDX on, of
CMF 78 and the FLG byte of the level, goes to D_BLOCK with EMIT_IDX 0, and changes no other register; the two
bytes are a multiple of 31. With the buffer full the pass queues CMF and suspends before FLG; resumed into a full
buffer it suspends again. Nothing else changes (R437). -/
def Obligations.HeaderOfTheLevelIsWritten : Prop :=
  ∀ s : State, s.turn = .dfl → s.dfl.dState = .dInit →
    let flg : Byte := match s.dfl.level with
      | .noCompression => 0x01
      | .fixed => 0x5e
      | .dynamic => 0x9c
    let suspended := fun r : DefRegs => { s with
      turn := .host
      resp := some (.step .pending r.thisOut (r.totalOut % 2 ^ s.cfg.cntW))
      dfl := { r with lastStatus := .pending } }
    (0x78 * 256 + flg.toNat) % 31 = 0 ∧
    (s.dflOut.wf = true → s.dfl.WriterOk → s.dfl.emitIdx ≤ 1 →
      s.written.length + 8 * (1 - s.dfl.emitIdx) < 8 * s.dfl.outLim + 8 →
      ∃ t, step s = .next t ∧ t.dfl.dState = .dBlock ∧ t.dfl.emitIdx = 0 ∧
        t.written = s.written ++ bitsOfBytes ([0x78, flg].drop s.dfl.emitIdx) ∧
        t.dfl.totalOut + s.dfl.thisOut = s.dfl.totalOut + t.dfl.thisOut ∧
        (∀ a, a < s.dfl.thisOut ∨ t.dfl.thisOut ≤ a → t.dflOut.read a = s.dflOut.read a) ∧
        s.dfl.SameButWriter { t.dfl with dState := s.dfl.dState } ∧
        { t with dflOut := s.dflOut, dfl := s.dfl } = s) ∧
    (s.dfl.emitIdx = 0 → s.dfl.bitqCnt = 0 → s.dfl.bitq = 0 → s.dfl.thisOut = s.dfl.outLim →
      step s = .next (suspended { s.dfl with bitq := 0x78, bitqCnt := 8, emitIdx := 1 })) ∧
    (s.dfl.emitIdx = 1 → s.dfl.bitqCnt = 8 → s.dfl.thisOut = s.dfl.outLim → step s = .next (suspended s.dfl))

/-- R382, R383: the step in D_BLOCK. At level NoCompression it forms a stored block: it takes up to 65535
bytes, consumes them for the cursor and the checksum, and the block is final when it reaches the end of the
input; at the other levels it goes to D_LZSS. R385 to R387: the step in D_LZSS is the pass, then D_FIXED, or
the tables and then D_DYNAMIC, with EMIT_IDX 0 and no output. -/
def Obligations.BlocksAreFormed : Prop :=
  (∀ s : State, s.turn = .dfl → s.dfl.dState = .dBlock → s.dfl.level = .noCompression →
    let len := min 65535 (s.dfl.inEnd - s.dfl.inCur)
    let sums := (s.dflIn.bytes s.dfl.inCur len).foldl
      (fun p b => ((p.1 + b.toNat) % 65521, (p.2 + (p.1 + b.toNat) % 65521) % 65521))
      (s.dfl.adlerS1, s.dfl.adlerS2)
    step s = .next { s with dfl := { s.dfl with
      blkStart := s.dfl.inCur
      blkLen := len
      adlerS1 := sums.1
      adlerS2 := sums.2
      inCur := s.dfl.inCur + len
      blkFinal := decide (s.dfl.inCur + len = s.dfl.inEnd)
      emitIdx := 0
      dState := .dNocomp } }) ∧
  (∀ s : State, s.turn = .dfl → s.dfl.dState = .dBlock → s.dfl.level = .fixed ∨ s.dfl.level = .dynamic →
    step s = .next { s with dfl := { s.dfl with dState := .dLzss } }) ∧
  (∀ s : State, s.turn = .dfl → s.dfl.dState = .dLzss → s.dfl.level = .fixed →
    step s = .next { s with dfl := { s.dfl.runPass s.cfg s.dflIn with emitIdx := 0, dState := .dFixed } }) ∧
  (∀ s : State, s.turn = .dfl → s.dfl.dState = .dLzss → s.dfl.level = .dynamic →
    step s = .next { s with dfl := { (s.dfl.runPass s.cfg s.dflIn).buildTables with
      emitIdx := 0, dState := .dDynamic } })

/-- R384: with EMIT_IDX 0 and room, the step in D_NOCOMP writes the stored block: BFINAL, BTYPE 0, zeros to a
byte boundary, LEN, its complement, and the block's bytes of INPUT. A block that reaches past the end of
INPUT, which no run forms (R383), faults: the model's choice (log 24). -/
def Obligations.StoredBlockIsWritten : Prop :=
  ∀ s : State, s.turn = .dfl → s.dfl.dState = .dNocomp →
    (s.dfl.blkStart + s.dfl.blkLen ≤ s.dfl.inEnd → s.dfl.blkLen ≤ 65535 → s.dfl.emitIdx = 0 →
      s.dflOut.wf = true → s.dfl.WriterOk →
      WritesBlock s
        ([s.dfl.blkFinal, false, false]
          ++ List.replicate ((8 - (s.written.length + 3) % 8) % 8) false
          ++ bitsLE 16 s.dfl.blkLen ++ bitsLE 16 (65535 - s.dfl.blkLen)
          ++ bitsOfBytes (s.dflIn.bytes s.dfl.blkStart s.dfl.blkLen))) ∧
    (s.dfl.inEnd < s.dfl.blkStart + s.dfl.blkLen → step s = .fault .inputOutside)

/-- R388, R389: with EMIT_IDX 0 and room, the step in D_FIXED writes the Fixed block: BFINAL, BTYPE 1, each
token with the fixed codes, and the end-of-block code. R396, R389: the step in D_DYNAMIC writes the Dynamic
block: BFINAL, BTYPE 2, the three counts, the code-length lengths in HCLENS_ORDER, the run-length items, each
token with the block's codes, and the end-of-block code. -/
def Obligations.HuffmanBlocksAreWritten : Prop :=
  (∀ s : State, s.turn = .dfl → s.dfl.dState = .dFixed → s.dfl.emitIdx = 0 → s.dflOut.wf = true →
    s.dfl.WriterOk →
    WritesBlock s
      ([s.dfl.blkFinal, true, false]
        ++ s.dfl.tok.flatMap (tokenBits (symbolBits fixLlLen) (symbolBits fixDLen))
        ++ List.replicate 7 false)) ∧
  (∀ s : State, s.turn = .dfl → s.dfl.dState = .dDynamic → s.dfl.emitIdx = 0 → s.dflOut.wf = true →
    s.dfl.WriterOk →
    let ll := codeBits s.dfl.llcLen s.dfl.llcCode
    let d := codeBits s.dfl.dcLen s.dfl.dcCode
    let cl := codeBits s.dfl.clcLen s.dfl.clcCode
    let order := [16, 17, 18, 0, 8, 7, 9, 6, 10, 5, 11, 4, 12, 3, 13, 2, 14, 1, 15]
    WritesBlock s
      ([s.dfl.blkFinal, false, true]
        ++ bitsLE 5 (s.dfl.nlit - 257) ++ bitsLE 5 (s.dfl.ndist - 1) ++ bitsLE 4 (s.dfl.ncl - 4)
        ++ (List.range s.dfl.ncl).flatMap (fun k => bitsLE 3 (s.dfl.clcLen.toList.getD (order.getD k 0) 0))
        ++ s.dfl.rle.flatMap (fun e => cl e.sym ++
            bitsLE (if e.sym = 16 then 2 else if e.sym = 17 then 3 else if e.sym = 18 then 7 else 0) e.xv)
        ++ s.dfl.tok.flatMap (tokenBits ll d)
        ++ ll 256))

/-- The LZSS pass (R385, R386): the tokens of a pass, replayed by the decoder's rules over the input already
consumed, give exactly the input consumed after it; there are at most TOKEN_CAP of them, and the pass ends
with them or with the input. After a pass the frequency tables count the tokens, and the block's one EOB. -/
def Obligations.PassTokensReproduceTheInput : Prop :=
  (∀ (c : Config) (m : Memory) (r : DefRegs), r.inCur ≤ r.inEnd →
    let t := r.runPass c m
    t.tok.foldl applyToken (m.bytes 0 r.inCur) = m.bytes 0 t.inCur ∧
    t.inCur ≤ t.inEnd ∧ t.tokCnt ≤ c.tokenCap ∧ (t.tokCnt < c.tokenCap → t.inCur = t.inEnd) ∧
    (t.blkFinal = true ↔ t.inCur = t.inEnd)) ∧
  (∀ (c : Config) (m : Memory) (r : DefRegs),
    let t := r.runPass c m
    (∀ k, k < 286 → t.freqLl.toList.getD k 0 = if k = 256 then 1 else t.tok.countP fun x => x.sym == k) ∧
    (∀ k, k < 30 → t.freqD.toList.getD k 0 = t.tok.countP fun x => decide (x.dist ≠ 0) && dc x.dist == k))

/-- R386, R219, R217: the pass is greedy. Each token stands where the tokens before it end; it is the longest
match (R214) over the history with every earlier position inserted, or, where there is none or fewer than
three bytes remain, the literal there. The entries of TOK from TOK_CNT up are as they were (R385). After the pass
every consumed position is inserted (R212) and checksummed (R308), and no register but those of the pass has
changed. -/
def Obligations.PassIsGreedy : Prop :=
  ∀ (c : Config) (m : Memory) (r : DefRegs), r.inCur ≤ r.inEnd → 0 < c.histCap → r.slotsOk c →
    (∀ e ∈ r.hist, e.hash = hash3 m e.pos) →
    let t := r.runPass c m
    let start := fun k => r.inCur + ((t.tok.take k).map Token.len).sum
    let liveAt := fun q => liveAfter c.histCap r.inEnd (q - r.inCur) r.inCur r.live
    (∀ k, k < t.tokCnt →
      let q := start k
      let f := if 3 ≤ r.inEnd - q then bestMatch m r.inEnd q (walked c.walkOrder (liveAt q)) else ⟨0, 0⟩
      t.tok[k]? = some (if 3 ≤ f.len then ⟨257 + lc f.len, f.len, f.dist⟩ else ⟨(m.read q).toNat, 1, 0⟩)) ∧
    (∀ k, t.tokCnt ≤ k → t.tokAt k = r.tokAt k) ∧
    t.inCur = start t.tokCnt ∧ t.live = liveAt t.inCur ∧
    (t.adlerS1, t.adlerS2) = (m.bytes r.inCur (t.inCur - r.inCur)).foldl
      (fun p b => ((p.1 + b.toNat) % 65521, (p.2 + (p.1 + b.toNat) % 65521) % 65521)) (r.adlerS1, r.adlerS2) ∧
    { t with
      inCur := r.inCur, adlerS1 := r.adlerS1, adlerS2 := r.adlerS2, tok := r.tok, tokRest := r.tokRest,
      freqLl := r.freqLl, freqD := r.freqD, blkFinal := r.blkFinal, hist := r.hist, freed := r.freed, fresh := r.fresh,
      evictCur := r.evictCur } = r

/-- R391 to R395: what the table building leaves. The lit/len and distance tables are the length assignment of
their frequencies with its canonical codes; NLIT and NDIST are the least counts, from 257 and 1 up, that cover
the last used symbol; RLE is the run-length coding of the two tables, and decodes back to them (R336); FREQ_CL
counts its items; the code-length table is the length assignment of FREQ_CL with its canonical codes; NCL is
the least count, from 4 up, that covers the last non-zero length in HCLENS_ORDER. Every counted symbol has a
code (an unused symbol's is 0 by the model's choice, log 29), the entries of RLE from RLE_CNT up are as they were,
and nothing else changes. -/
def Obligations.DynamicTablesAreBuilt : Prop :=
  ∀ r : DefRegs,
    let t := r.buildTables
    let ll := buildLengths r.freqLl.toList 15
    let d := buildLengths r.freqD.toList 15
    let cl := buildLengths t.freqCl.toList 7
    let seq := ll.take t.nlit ++ d.take t.ndist
    let order := [16, 17, 18, 0, 8, 7, 9, 6, 10, 5, 11, 4, 12, 3, 13, 2, 14, 1, 15]
    t.llcLen.toList = ll ∧ t.llcCode.toList = assignCodes ll ∧
    t.dcLen.toList = d ∧ t.dcCode.toList = assignCodes d ∧
    257 ≤ t.nlit ∧ t.nlit ≤ 286 ∧ (t.nlit = 257 ∨ ll.getD (t.nlit - 1) 0 ≠ 0) ∧
    (∀ k, t.nlit ≤ k → ll.getD k 0 = 0) ∧
    1 ≤ t.ndist ∧ t.ndist ≤ 30 ∧ (t.ndist = 1 ∨ d.getD (t.ndist - 1) 0 ≠ 0) ∧
    (∀ k, t.ndist ≤ k → d.getD k 0 = 0) ∧
    t.rle = rleOf seq ∧ t.rle.length ≤ 316 ∧ (∀ k, t.rleCnt ≤ k → t.rleAt k = r.rleAt k) ∧
    (t.rle.foldl (fun acc e => acc.bind fun l => applyRle l e) (some []) = some seq) ∧
    (∀ k, k < 19 → t.freqCl.toList.getD k 0 = t.rle.countP fun e => e.sym == k) ∧
    t.clcLen.toList = cl ∧ t.clcCode.toList = assignCodes cl ∧
    4 ≤ t.ncl ∧ t.ncl ≤ 19 ∧ (t.ncl = 4 ∨ cl.getD (order.getD (t.ncl - 1) 0) 0 ≠ 0) ∧
    (∀ k, t.ncl ≤ k → k < 19 → cl.getD (order.getD k 0) 0 = 0) ∧
    (∀ k, r.freqLl.toList.getD k 0 ≠ 0 → ll.getD k 0 ≠ 0) ∧ (∀ k, r.freqD.toList.getD k 0 ≠ 0 → d.getD k 0 ≠ 0) ∧
    (∀ e ∈ t.rle, cl.getD e.sym 0 ≠ 0) ∧
    { t with
      llcLen := r.llcLen, llcCode := r.llcCode, dcLen := r.dcLen, dcCode := r.dcCode, clcLen := r.clcLen,
      clcCode := r.clcCode, nlit := r.nlit, ndist := r.ndist, ncl := r.ncl, rle := r.rle,
      rleRest := r.rleRest, freqCl := r.freqCl } = r

/-- R216: a match found has a length of 3 to 258, a distance of 1 to 32768 and at least the length, lies
inside the input, and its bytes agree. R214, R215: it is at a live position, and no live position in reach has
a longer agreeing run, so that a match is found where there is one. R218: of the positions that agree as far,
the nearest is taken, or the farthest under the other walk order. -/
def Obligations.MatchBounds : Prop :=
  ∀ (c : Config) (m : Memory) (r : DefRegs) (cur : Nat),
    let f := r.findLongestMatch c m cur
    let agrees := fun p l => ∀ k, k < l → m.read (p + k) = m.read (cur + k)
    (f.len ≠ 0 →
      3 ≤ f.len ∧ f.len ≤ 258 ∧ 1 ≤ f.dist ∧ f.dist ≤ 32768 ∧ f.len ≤ f.dist ∧ f.len ≤ r.inEnd - cur ∧
      f.dist ≤ cur ∧ cur - f.dist ∈ r.live ∧ agrees (cur - f.dist) f.len) ∧
    ((∀ e ∈ r.hist, e.hash = hash3 m e.pos) →
      (∀ p ∈ r.live, 1 ≤ cur - p → cur - p ≤ 32768 →
        ∀ l, 3 ≤ l → l ≤ cur - p → l ≤ r.inEnd - cur → l ≤ 258 → agrees p l → l ≤ f.len) ∧
      (f.len ≠ 0 → r.live.Pairwise (· < ·) →
        ∀ p ∈ r.live, f.len ≤ cur - p → cur - p ≤ 32768 → agrees p f.len →
          (c.walkOrder = .newestFirst → f.dist ≤ cur - p) ∧ (c.walkOrder = .oldestFirst → cur - p ≤ f.dist)))

/-- R215: the bucket changes nothing: the search over the bucket is the search over all of LIVE, where each
entry's hash is that of its position. -/
def Obligations.BucketChangesNothing : Prop :=
  ∀ (c : Config) (m : Memory) (r : DefRegs) (cur : Nat), (∀ e ∈ r.hist, e.hash = hash3 m e.pos) →
    r.findLongestMatch c m cur = bestMatch m r.inEnd cur (walked c.walkOrder r.live)

/-- R212, R213: on LIVE, `insert` appends the position, and drops the oldest when HIST_CAP are live; the
slots stay in age order. -/
def Obligations.InsertDropsTheOldest : Prop :=
  ∀ (c : Config) (m : Memory) (r : DefRegs) (p : Nat), 0 < c.histCap → r.slotsOk c →
    (r.insert c m p).live = (if r.live.length = c.histCap then r.live.drop 1 else r.live) ++ [p] ∧
    (r.insert c m p).slotsOk c

/-- R222 with R220, R221: for every length and distance the codes are in range, the extra values fit their
widths, and decoding gives the length and the distance back; length 258 has code 28. The ranges of the codes
tile 3 to 258, with 258 covered twice, and 1 to 32768. -/
def Obligations.QuantisationInverts : Prop :=
  (∀ l, 3 ≤ l → l ≤ 258 →
    lc l ≤ 28 ∧ l - lenBase (lc l) < 2 ^ lenExtra (lc l) ∧ matchLength (257 + lc l) (l - lenBase (lc l)) = l ∧
    (lc l = 28 ↔ l = 258)) ∧
  (∀ d, 1 ≤ d → d ≤ 32768 →
    dc d ≤ 29 ∧ d - distBase (dc d) < 2 ^ distExtra (dc d) ∧ matchDistance (dc d) (d - distBase (dc d)) = d) ∧
  (∀ i x, i ≤ 28 → x < 2 ^ lenExtra i →
    3 ≤ lenBase i + x ∧ lenBase i + x ≤ 258 ∧ (lc (lenBase i + x) = i ∨ (i = 27 ∧ lenBase i + x = 258))) ∧
  (∀ j y, j ≤ 29 → y < 2 ^ distExtra j →
    1 ≤ distBase j + y ∧ distBase j + y ≤ 32768 ∧ dc (distBase j + y) = j)

/-- R393: the run-length items of a length sequence decode to it by the decoder's rules (R336), never
with a repeat before the first length; each maximal run is coded by itself, in the items the rule lists. -/
def Obligations.RunLengthsDecodeBack : Prop :=
  (∀ seq : List Nat, (∀ v ∈ seq, v ≤ 15) →
    ((rleOf seq).foldl (fun acc e => acc.bind fun l => applyRle l e) (some []) = some seq) ∧
    ∀ e ∈ rleOf seq, e.sym ≤ 18 ∧ e.xv < 2 ^ clExtra e.sym) ∧
  (∀ (v n : Nat) (rest : List Nat), 0 < n → rest.head? ≠ some v →
    rleOf (List.replicate n v ++ rest) = rleOf (List.replicate n v) ++ rleOf rest) ∧
  (∀ n : Nat,
    (11 ≤ n → rleOf (List.replicate n 0) = ⟨18, min n 138 - 11⟩ :: rleOf (List.replicate (n - min n 138) 0)) ∧
    (3 ≤ n → n < 11 → rleOf (List.replicate n 0) = [⟨17, n - 3⟩]) ∧
    (n < 3 → rleOf (List.replicate n 0) = List.replicate n ⟨0, 0⟩)) ∧
  (∀ v n : Nat, v ≠ 0 →
    (3 ≤ n → rleOf (List.replicate (n + 1) v) =
      ⟨v, 0⟩ :: ⟨16, min n 6 - 3⟩ :: (rleOf (List.replicate (n - min n 6 + 1) v)).tail) ∧
    (n < 3 → rleOf (List.replicate (n + 1) v) = List.replicate (n + 1) ⟨v, 0⟩))

/-- R170, items 1 to 4 and 6: an unused symbol has length 0, no length is above the bound, a single used
symbol has length 1; with two or more used symbols, as many as the bound can tell apart, each has a length of
at least 1 and the table is complete: its Kraft sum is exactly 1. -/
def Obligations.BuiltLengthsAreBounded : Prop :=
  ∀ (freq : List Nat) (maxBits : Nat), 1 ≤ maxBits →
    let len := buildLengths freq maxBits
    let used := freq.countP fun f => f ≠ 0
    len.length = freq.length ∧
    (∀ s, freq.getD s 0 = 0 → len.getD s 0 = 0) ∧
    (∀ s, len.getD s 0 ≤ maxBits) ∧
    (used = 1 → ∀ s, freq.getD s 0 ≠ 0 → len.getD s 0 = 1) ∧
    (2 ≤ used → used ≤ 2 ^ maxBits →
      (∀ s, freq.getD s 0 ≠ 0 → 1 ≤ len.getD s 0) ∧ kraftSum maxBits len = 2 ^ maxBits)

/-! ### invariants -/

/-- At power-on the invariant holds, and both engines are ABSENT (R490). The values of the registers there
are the model's own (log 3). -/
def Obligations.PowerOnIsOk : Prop := State.reset.Ok ∧ State.reset.infLife = .absent ∧ State.reset.dflLife = .absent

/-- R12: every step keeps every register within the width 10_state.md gives it (the code values are
`CodesKeepTheirWidths`'s). The width of EVICT_CUR and the reading of NDIST's are the model's choice (log 31).
The bound on XLEN is what lets EMIT_IDX, an XLEN-bit register (R44), count the items of any emission list. -/
def Obligations.RegistersKeepTheirWidths : Prop :=
  ∀ s t : State, s.Ok → 70000 + 4 * s.cfg.tokenCap ≤ 2 ^ s.cfg.xlen → step s = .next t →
    t.inf.WidthsOk t.cfg ∧ t.dfl.WidthsOk t.cfg

/-- R12, R40: every step keeps the code values of the block's tables within 15, 15 and 7 bits. -/
def Obligations.CodesKeepTheirWidths : Prop := ∀ s t : State, s.Ok → step s = .next t → t.dfl.CodesOk

/-- Every step keeps every memory space in canonical form. -/
def Obligations.MemoriesStayCanonical : Prop := ∀ s t : State, s.memOk → step s = .next t → t.memOk

/-- Every step keeps the INFLATE engine's invariants: the cursor's (R25), the accounting's (R50), the
in-flight code's (R27), the window position's (R29), the cause's (R459). -/
def Obligations.InflateStaysInOrder : Prop := ∀ s t : State, s.infOk → step s = .next t → t.infOk

/-- Every step keeps the window the mirror of the output (R29, R343). -/
def Obligations.WindowMirrorsOutput : Prop :=
  ∀ s t : State, s.cfg.legal = true → s.memOk → s.infOk → s.winOk → step s = .next t → t.winOk

/-- Every step keeps the DEFLATE engine's invariants: the writer's (R36), the cursor's (R35), the
checksum's (R37), the history's (R210, R213), the block's (R383), the end's (R398). -/
def Obligations.DeflateStaysInOrder : Prop :=
  ∀ s t : State, s.cfg.legal = true → s.dflOk → step s = .next t → t.dflOk

/-! ### whole commands and sessions -/

/-- R320, R442: every INF.STEP terminates: from any state in the engine's turn, the command ends. -/
def Obligations.InflateStepTerminates : Prop := ∀ s : State, s.turn = .inf → ∃ t, Ends s t ∧ t.turn = .host

/-- R380, R442: every DEF.STEP terminates, in a session. -/
def Obligations.DeflateStepTerminates : Prop :=
  ∀ s : State, s.cfg.legal = true → s.dflOk → s.turn = .dfl → ∃ t, Ends s t ∧ t.turn = .host

/-- R351: chunking invariance: two runs of one session to its end, whatever the capacities of their STEPs,
give the same bytes, status, cause, cursor and total. -/
def Obligations.InflateChunkingInvariance : Prop :=
  ∀ (s t₁ t₂ : State) (c₁ c₂ : List Nat) (o₁ o₂ : List Byte),
    InfSession s c₁ o₁ t₁ → InfSession s c₂ o₂ t₂ →
    o₁ = o₂ ∧ t₁.inf.lastStatus = t₂.inf.lastStatus ∧ t₁.inf.errCause = t₂.inf.errCause ∧
    t₁.inf.brByte = t₂.inf.brByte ∧ t₁.inf.brBit = t₂.inf.brBit ∧ t₁.inf.totalOut = t₂.inf.totalOut

/-- R400: chunking invariance of the encoder: two runs of one session to its end give the same stream. -/
def Obligations.DeflateChunkingInvariance : Prop :=
  ∀ (s t₁ t₂ : State) (c₁ c₂ : List Nat) (o₁ o₂ : List Byte), s.cfg.legal = true → s.dflOk →
    DflSession s c₁ o₁ t₁ → DflSession s c₂ o₂ t₂ → o₁ = o₂ ∧ t₁.dfl.totalOut = t₂.dfl.totalOut
end

