-- ==== Sys2Proof/Laws/Bits.lean ====
section
/-! SUPPORT. The laws of packing and unpacking stream bits. -/

namespace Sys2Proof

@[simp] theorem length_bitsLE (n v : Nat) : (bitsLE n v).length = n := by
  induction n generalizing v with
  | zero => rfl
  | succ n ih => simp [bitsLE, ih]

@[simp] theorem length_bitsBE (n v : Nat) : (bitsBE n v).length = n := by simp [bitsBE]

/-- Reading back what was packed gives the low `n` bits. -/
theorem ofBitsLE_bitsLE (n v : Nat) : ofBitsLE (bitsLE n v) = v % 2 ^ n := by
  induction n generalizing v with
  | zero => simp [bitsLE, ofBitsLE, Nat.mod_one]
  | succ n ih =>
    simp only [bitsLE, ofBitsLE, ih]
    have h2 : (v % 2 == 1).toNat = v % 2 := by
      rcases Nat.mod_two_eq_zero_or_one v with h | h <;> simp [h]
    rw [h2, Nat.pow_succ, Nat.mul_comm (2 ^ n) 2, Nat.mod_mul]

/-- Packing what was read gives the bits back. -/
theorem bitsLE_ofBitsLE (bs : Bits) : bitsLE bs.length (ofBitsLE bs) = bs := by
  induction bs with
  | nil => rfl
  | cons b bs ih =>
    have h1 : ((b.toNat + 2 * ofBitsLE bs) % 2 == 1) = b := by cases b <;> simp [Nat.add_mod]
    have h2 : (b.toNat + 2 * ofBitsLE bs) / 2 = ofBitsLE bs := by cases b <;> (simp; try omega)
    simp only [List.length_cons, bitsLE, ofBitsLE, h1, h2, ih]

theorem ofBitsLE_lt (bs : Bits) : ofBitsLE bs < 2 ^ bs.length := by
  induction bs with
  | nil => simp [ofBitsLE]
  | cons b bs ih =>
    simp only [ofBitsLE, List.length_cons, Nat.pow_succ]
    cases b <;> simp <;> omega

theorem bitsLE_mod (n v : Nat) : bitsLE n (v % 2 ^ n) = bitsLE n v := by
  have := bitsLE_ofBitsLE (bitsLE n v)
  rwa [length_bitsLE, ofBitsLE_bitsLE] at this

theorem bitsLE_add (n k v : Nat) : bitsLE (n + k) v = bitsLE n v ++ bitsLE k (v / 2 ^ n) := by
  induction n generalizing v with
  | zero => simp [bitsLE]
  | succ n ih =>
    rw [show n + 1 + k = n + k + 1 by omega]
    simp only [bitsLE, List.cons_append, ih]
    rw [Nat.div_div_eq_div_mul, Nat.pow_succ, Nat.mul_comm 2]

/-- `rev` reads the bits from the other end (R11). -/
theorem bitsLE_revBits (n v : Nat) : bitsLE n (revBits n v) = bitsBE n v := by
  have := bitsLE_ofBitsLE (bitsBE n v)
  rwa [length_bitsBE] at this

theorem takeBits_eq {n : Nat} {bs : Bits} (h : n ≤ bs.length) : takeBits n bs = some (bs.take n, bs.drop n) := by
  induction n generalizing bs with
  | zero => simp [takeBits]
  | succ n ih =>
    cases bs with
    | nil => simp at h
    | cons b bs => simp [takeBits, ih (by simpa using h)]

theorem takeBits_short {n : Nat} {bs : Bits} (h : bs.length < n) : takeBits n bs = none := by
  induction n generalizing bs with
  | zero => omega
  | succ n ih =>
    cases bs with
    | nil => rfl
    | cons b bs => simp [takeBits, ih (by simpa using h)]

theorem takeBits_append (a b : Bits) : takeBits a.length (a ++ b) = some (a, b) := by
  rw [takeBits_eq (by simp)]
  simp

@[simp] theorem length_bitsOfBytes (bs : List Byte) : (bitsOfBytes bs).length = 8 * bs.length := by
  induction bs with
  | nil => rfl
  | cons b bs ih => simp [bitsOfBytes, ih]; omega

@[simp] theorem bitsOfBytes_append (a b : List Byte) : bitsOfBytes (a ++ b) = bitsOfBytes a ++ bitsOfBytes b := by
  induction a with
  | nil => rfl
  | cons x xs ih => simp [bitsOfBytes, ih]

end Sys2Proof
end

