-- ==== Sys2Proof/Laws/Memory.lean ====
section
/-! SUPPORT. The laws of the memory spaces: read after write, and every operation keeps the canonical form. -/

namespace Sys2Proof.Machine

@[simp] theorem Memory.read_nil (a : Nat) : Memory.read [] a = unlistedByte := rfl

theorem Memory.read_cons (c : Host.Cell) (m : Memory) (a : Nat) :
    Memory.read (c :: m) a = if c.1 = a then c.2 else Memory.read m a := rfl

theorem Memory.wfFrom_mono {lo lo' : Nat} (h : lo' ≤ lo) {m : Memory} (hm : Memory.wfFrom lo m = true) :
    Memory.wfFrom lo' m = true := by
  cases m with
  | nil => rfl
  | cons c m =>
    simp only [Memory.wfFrom, Bool.and_eq_true, decide_eq_true_eq] at hm ⊢
    exact ⟨⟨h.trans hm.1.1, hm.1.2⟩, hm.2⟩

/-- Below the first listed address nothing is listed. -/
theorem Memory.read_below {lo a : Nat} (h : a < lo) {m : Memory} (hm : Memory.wfFrom lo m = true) :
    m.read a = unlistedByte := by
  induction m generalizing lo with
  | nil => rfl
  | cons c m ih =>
    simp only [Memory.wfFrom, Bool.and_eq_true, decide_eq_true_eq] at hm
    rw [Memory.read_cons, if_neg (by omega)]
    exact ih (by omega) hm.2

theorem Memory.read_push {lo a b x} {m : Memory} (hm : Memory.wfFrom lo m = true) (h : a < lo) :
    (Memory.push a b m).read x = if x = a then b else m.read x := by
  unfold Memory.push
  split
  · split
    · subst_vars; exact Memory.read_below h hm
    · rfl
  · rw [Memory.read_cons]
    simp only [eq_comm]

theorem Memory.wfFrom_push {lo a b} {m : Memory} (hm : Memory.wfFrom (a + 1) m = true) (h : lo ≤ a) :
    Memory.wfFrom lo (Memory.push a b m) = true := by
  unfold Memory.push
  split
  · exact Memory.wfFrom_mono (by omega) hm
  · simp [Memory.wfFrom, *]

theorem Memory.wfFrom_write {lo a b} {m : Memory} (hm : Memory.wfFrom lo m = true) (h : lo ≤ a) :
    Memory.wfFrom lo (m.write a b) = true := by
  induction m generalizing lo with
  | nil => exact Memory.wfFrom_push rfl h
  | cons c m ih =>
    simp only [Memory.wfFrom, Bool.and_eq_true, decide_eq_true_eq] at hm
    unfold Memory.write
    split
    · refine Memory.wfFrom_push ?_ h
      simp only [Memory.wfFrom, Bool.and_eq_true, decide_eq_true_eq]
      exact ⟨⟨by omega, hm.1.2⟩, hm.2⟩
    · split
      · subst_vars; exact Memory.wfFrom_push hm.2 h
      · simp only [Memory.wfFrom, Bool.and_eq_true, decide_eq_true_eq]
        exact ⟨hm.1, ih hm.2 (by omega)⟩

/-- A write keeps the canonical form. -/
theorem Memory.wf_write {m : Memory} (hm : m.wf = true) (a : Nat) (b : Byte) : (m.write a b).wf = true :=
  Memory.wfFrom_write hm (Nat.zero_le a)

theorem Memory.read_write_from {lo a b x} {m : Memory} (hm : Memory.wfFrom lo m = true) :
    (m.write a b).read x = if x = a then b else m.read x := by
  induction m generalizing lo with
  | nil => exact Memory.read_push (lo := a + 1) rfl (by omega)
  | cons c m ih =>
    have hc := hm
    simp only [Memory.wfFrom, Bool.and_eq_true, decide_eq_true_eq] at hm
    unfold Memory.write
    split
    · refine Memory.read_push (lo := c.1) ?_ (by omega)
      simp only [Memory.wfFrom, Bool.and_eq_true, decide_eq_true_eq]
      exact ⟨⟨le_refl _, hm.1.2⟩, hm.2⟩
    · split
      · subst_vars
        rw [Memory.read_push hm.2 (by omega), Memory.read_cons]
        by_cases hx : x = c.1
        · simp [hx]
        · rw [if_neg hx, if_neg hx, if_neg (Ne.symm hx)]
      · rw [Memory.read_cons, Memory.read_cons, ih hm.2]
        split <;> split <;> simp_all

/-- Read after write (R81): the address written gives the byte, every other address what it gave. -/
theorem Memory.read_write {m : Memory} (hm : m.wf = true) (a : Nat) (b : Byte) (x : Nat) :
    (m.write a b).read x = if x = a then b else m.read x := Memory.read_write_from hm

theorem Memory.wfFrom_ofBytesFrom (bs : List Byte) (a : Nat) : Memory.wfFrom a (Memory.ofBytesFrom a bs) = true := by
  induction bs generalizing a with
  | nil => rfl
  | cons b bs ih => exact Memory.wfFrom_push (ih (a + 1)) (le_refl a)

/-- A memory made from bytes is in canonical form. -/
theorem Memory.wf_ofBytes (bs : List Byte) : (Memory.ofBytes bs).wf = true := Memory.wfFrom_ofBytesFrom bs 0

theorem Memory.read_ofBytesFrom (bs : List Byte) (a k : Nat) :
    (Memory.ofBytesFrom a bs).read (a + k) = bs.getD k unlistedByte := by
  induction bs generalizing a k with
  | nil => rfl
  | cons b bs ih =>
    unfold Memory.ofBytesFrom
    rw [Memory.read_push (Memory.wfFrom_ofBytesFrom bs (a + 1)) (by omega)]
    cases k with
    | zero => simp
    | succ k =>
      rw [if_neg (by omega)]
      have := ih (a + 1) k
      rw [show a + (k + 1) = a + 1 + k by omega, this]
      simp

/-- The byte at an address of a memory made from bytes. -/
theorem Memory.read_ofBytes (bs : List Byte) (k : Nat) : (Memory.ofBytes bs).read k = bs.getD k unlistedByte := by
  have := Memory.read_ofBytesFrom bs 0 k
  rwa [Nat.zero_add] at this

@[simp] theorem Memory.length_bytes (m : Memory) (a n : Nat) : (m.bytes a n).length = n := by
  induction n generalizing a with
  | zero => rfl
  | succ n ih => simp [Memory.bytes, ih]

theorem Memory.getD_bytes (m : Memory) (a n k : Nat) (h : k < n) (d : Byte) :
    (m.bytes a n).getD k d = m.read (a + k) := by
  induction n generalizing a k with
  | zero => omega
  | succ n ih =>
    cases k with
    | zero => rfl
    | succ k =>
      have := ih (a + 1) k (by omega)
      simp only [Memory.bytes, List.getD_cons_succ]
      rw [this]
      congr 1
      omega

theorem Memory.bytes_append (m : Memory) (a n k : Nat) :
    m.bytes a (n + k) = m.bytes a n ++ m.bytes (a + n) k := by
  induction n generalizing a with
  | zero => simp [Memory.bytes]
  | succ n ih =>
    rw [show n + 1 + k = n + k + 1 by omega]
    simp only [Memory.bytes, List.cons_append]
    rw [ih (a + 1), show a + 1 + n = a + (n + 1) by omega]

theorem Memory.bytes_congr {m m' : Memory} {a n : Nat} (h : ∀ k, k < n → m.read (a + k) = m'.read (a + k)) :
    m.bytes a n = m'.bytes a n := by
  induction n generalizing a with
  | zero => rfl
  | succ n ih =>
    simp only [Memory.bytes]
    rw [show m.read a = m'.read a from h 0 (by omega), ih fun k hk => by
      have := h (k + 1) (by omega)
      rwa [show a + (k + 1) = a + 1 + k by omega] at this]

/-- Storing the byte after the first `n` extends the bytes stored. -/
theorem Memory.bytes_write_end {m : Memory} (hm : m.wf = true) (n : Nat) (b : Byte) :
    (m.write n b).bytes 0 (n + 1) = m.bytes 0 n ++ [b] := by
  rw [Memory.bytes_append]
  congr 1
  · refine Memory.bytes_congr fun k hk => ?_
    rw [Memory.read_write hm, if_neg (by omega)]
  · simp [Memory.bytes, Memory.read_write hm]

/-! ### the host's buffer as OUTPUT (R435) -/

theorem outputOf_wf (cap : Nat) (buf : List Byte) : (outputOf cap buf).wf = true := Memory.wf_ofBytes _

theorem outputOf_read {cap a : Nat} (h : a < cap) (buf : List Byte) : (outputOf cap buf).read a = buf.getD a 0 := by
  rw [outputOf, Memory.read_ofBytes]
  simp [List.getD_eq_getElem?_getD, h, unlistedByte]

end Sys2Proof.Machine
end

