-- ==== Sys2Proof/Laws/State.lean ====
section
/-! SUPPORT. What each update of the state leaves in each field: one lemma per field, so that no proof
unfolds a record update. -/

namespace Sys2Proof.Machine

/-! ### withInf -/

@[simp] theorem State.withInf_cfg (f : InfRegs → InfRegs) (s : State) : (s.withInf f).cfg = s.cfg := rfl
@[simp] theorem State.withInf_turn (f : InfRegs → InfRegs) (s : State) : (s.withInf f).turn = s.turn := rfl
@[simp] theorem State.withInf_cmds (f : InfRegs → InfRegs) (s : State) : (s.withInf f).cmds = s.cmds := rfl
@[simp] theorem State.withInf_resp (f : InfRegs → InfRegs) (s : State) : (s.withInf f).resp = s.resp := rfl
@[simp] theorem State.withInf_freeCnt (f : InfRegs → InfRegs) (s : State) :
    (s.withInf f).freeCnt = s.freeCnt := rfl
@[simp] theorem State.withInf_infLife (f : InfRegs → InfRegs) (s : State) :
    (s.withInf f).infLife = s.infLife := rfl
@[simp] theorem State.withInf_inf (f : InfRegs → InfRegs) (s : State) : (s.withInf f).inf = f s.inf := rfl
@[simp] theorem State.withInf_infIn (f : InfRegs → InfRegs) (s : State) : (s.withInf f).infIn = s.infIn := rfl
@[simp] theorem State.withInf_infOut (f : InfRegs → InfRegs) (s : State) :
    (s.withInf f).infOut = s.infOut := rfl
@[simp] theorem State.withInf_win (f : InfRegs → InfRegs) (s : State) : (s.withInf f).win = s.win := rfl
@[simp] theorem State.withInf_dflLife (f : InfRegs → InfRegs) (s : State) :
    (s.withInf f).dflLife = s.dflLife := rfl
@[simp] theorem State.withInf_dfl (f : InfRegs → InfRegs) (s : State) : (s.withInf f).dfl = s.dfl := rfl
@[simp] theorem State.withInf_dflIn (f : InfRegs → InfRegs) (s : State) : (s.withInf f).dflIn = s.dflIn := rfl
@[simp] theorem State.withInf_dflOut (f : InfRegs → InfRegs) (s : State) :
    (s.withInf f).dflOut = s.dflOut := rfl

/-! ### answerInf, suspendInf, raiseFormat -/

@[simp] theorem State.answerInf_cfg (st : Status) (s : State) : (s.answerInf st).cfg = s.cfg := rfl
@[simp] theorem State.answerInf_turn (st : Status) (s : State) : (s.answerInf st).turn = .host := rfl
@[simp] theorem State.answerInf_cmds (st : Status) (s : State) : (s.answerInf st).cmds = s.cmds := rfl
@[simp] theorem State.answerInf_resp (st : Status) (s : State) :
    (s.answerInf st).resp = some (.step st s.inf.thisOut (reportedTotal s.cfg s.inf.totalOut)) := rfl
@[simp] theorem State.answerInf_freeCnt (st : Status) (s : State) :
    (s.answerInf st).freeCnt = s.freeCnt := rfl
@[simp] theorem State.answerInf_infLife (st : Status) (s : State) :
    (s.answerInf st).infLife = s.infLife := rfl
@[simp] theorem State.answerInf_inf (st : Status) (s : State) :
    (s.answerInf st).inf = { s.inf with lastStatus := st } := rfl
@[simp] theorem State.answerInf_infIn (st : Status) (s : State) : (s.answerInf st).infIn = s.infIn := rfl
@[simp] theorem State.answerInf_infOut (st : Status) (s : State) : (s.answerInf st).infOut = s.infOut := rfl
@[simp] theorem State.answerInf_win (st : Status) (s : State) : (s.answerInf st).win = s.win := rfl
@[simp] theorem State.answerInf_dflLife (st : Status) (s : State) :
    (s.answerInf st).dflLife = s.dflLife := rfl
@[simp] theorem State.answerInf_dfl (st : Status) (s : State) : (s.answerInf st).dfl = s.dfl := rfl
@[simp] theorem State.answerInf_dflIn (st : Status) (s : State) : (s.answerInf st).dflIn = s.dflIn := rfl
@[simp] theorem State.answerInf_dflOut (st : Status) (s : State) : (s.answerInf st).dflOut = s.dflOut := rfl
@[simp] theorem State.suspendInf_cfg (s : State) : (s.suspendInf).cfg = s.cfg := rfl
@[simp] theorem State.suspendInf_turn (s : State) : (s.suspendInf).turn = .host := rfl
@[simp] theorem State.suspendInf_cmds (s : State) : (s.suspendInf).cmds = s.cmds := rfl
@[simp] theorem State.suspendInf_resp (s : State) :
    (s.suspendInf).resp = some (.step .pending s.inf.thisOut (reportedTotal s.cfg s.inf.totalOut)) := rfl
@[simp] theorem State.suspendInf_freeCnt (s : State) : (s.suspendInf).freeCnt = s.freeCnt := rfl
@[simp] theorem State.suspendInf_infLife (s : State) : (s.suspendInf).infLife = s.infLife := rfl
@[simp] theorem State.suspendInf_inf (s : State) :
    (s.suspendInf).inf = { s.inf with lastStatus := .pending } := rfl
@[simp] theorem State.suspendInf_infIn (s : State) : (s.suspendInf).infIn = s.infIn := rfl
@[simp] theorem State.suspendInf_infOut (s : State) : (s.suspendInf).infOut = s.infOut := rfl
@[simp] theorem State.suspendInf_win (s : State) : (s.suspendInf).win = s.win := rfl
@[simp] theorem State.suspendInf_dflLife (s : State) : (s.suspendInf).dflLife = s.dflLife := rfl
@[simp] theorem State.suspendInf_dfl (s : State) : (s.suspendInf).dfl = s.dfl := rfl
@[simp] theorem State.suspendInf_dflIn (s : State) : (s.suspendInf).dflIn = s.dflIn := rfl
@[simp] theorem State.suspendInf_dflOut (s : State) : (s.suspendInf).dflOut = s.dflOut := rfl
@[simp] theorem State.raiseFormat_cfg (c : Cause) (s : State) : (s.raiseFormat c).cfg = s.cfg := rfl
@[simp] theorem State.raiseFormat_turn (c : Cause) (s : State) : (s.raiseFormat c).turn = .host := rfl
@[simp] theorem State.raiseFormat_cmds (c : Cause) (s : State) : (s.raiseFormat c).cmds = s.cmds := rfl
@[simp] theorem State.raiseFormat_resp (c : Cause) (s : State) :
    (s.raiseFormat c).resp = some (.step .errorFormat s.inf.thisOut (reportedTotal s.cfg s.inf.totalOut)) := rfl
@[simp] theorem State.raiseFormat_freeCnt (c : Cause) (s : State) :
    (s.raiseFormat c).freeCnt = s.freeCnt := rfl
@[simp] theorem State.raiseFormat_infLife (c : Cause) (s : State) :
    (s.raiseFormat c).infLife = s.infLife := rfl
@[simp] theorem State.raiseFormat_inf (c : Cause) (s : State) :
    (s.raiseFormat c).inf = { s.inf with errCause := c, iState := .iError, sub := .start, lastStatus := .errorFormat } := rfl
@[simp] theorem State.raiseFormat_infIn (c : Cause) (s : State) : (s.raiseFormat c).infIn = s.infIn := rfl
@[simp] theorem State.raiseFormat_infOut (c : Cause) (s : State) : (s.raiseFormat c).infOut = s.infOut := rfl
@[simp] theorem State.raiseFormat_win (c : Cause) (s : State) : (s.raiseFormat c).win = s.win := rfl
@[simp] theorem State.raiseFormat_dflLife (c : Cause) (s : State) :
    (s.raiseFormat c).dflLife = s.dflLife := rfl
@[simp] theorem State.raiseFormat_dfl (c : Cause) (s : State) : (s.raiseFormat c).dfl = s.dfl := rfl
@[simp] theorem State.raiseFormat_dflIn (c : Cause) (s : State) : (s.raiseFormat c).dflIn = s.dflIn := rfl
@[simp] theorem State.raiseFormat_dflOut (c : Cause) (s : State) : (s.raiseFormat c).dflOut = s.dflOut := rfl

/-! ### emitByte, emitPend -/

@[simp] theorem State.emitByte_cfg (b : Byte) (s : State) : (s.emitByte b).cfg = s.cfg := rfl
@[simp] theorem State.emitByte_turn (b : Byte) (s : State) : (s.emitByte b).turn = s.turn := rfl
@[simp] theorem State.emitByte_cmds (b : Byte) (s : State) : (s.emitByte b).cmds = s.cmds := rfl
@[simp] theorem State.emitByte_resp (b : Byte) (s : State) : (s.emitByte b).resp = s.resp := rfl
@[simp] theorem State.emitByte_freeCnt (b : Byte) (s : State) : (s.emitByte b).freeCnt = s.freeCnt := rfl
@[simp] theorem State.emitByte_infLife (b : Byte) (s : State) : (s.emitByte b).infLife = s.infLife := rfl
@[simp] theorem State.emitByte_inf (b : Byte) (s : State) :
    (s.emitByte b).inf = { s.inf with winPos := (s.inf.winPos + 1) % s.cfg.winCap, thisOut := s.inf.thisOut + 1, totalOut := s.inf.totalOut + 1 } := rfl
@[simp] theorem State.emitByte_infIn (b : Byte) (s : State) : (s.emitByte b).infIn = s.infIn := rfl
@[simp] theorem State.emitByte_infOut (b : Byte) (s : State) :
    (s.emitByte b).infOut = s.infOut.write s.inf.thisOut b := rfl
@[simp] theorem State.emitByte_win (b : Byte) (s : State) :
    (s.emitByte b).win = s.win.write s.inf.winPos b := rfl
@[simp] theorem State.emitByte_dflLife (b : Byte) (s : State) : (s.emitByte b).dflLife = s.dflLife := rfl
@[simp] theorem State.emitByte_dfl (b : Byte) (s : State) : (s.emitByte b).dfl = s.dfl := rfl
@[simp] theorem State.emitByte_dflIn (b : Byte) (s : State) : (s.emitByte b).dflIn = s.dflIn := rfl
@[simp] theorem State.emitByte_dflOut (b : Byte) (s : State) : (s.emitByte b).dflOut = s.dflOut := rfl
@[simp] theorem State.emitPend_cfg (n : Nat) (s : State) : (s.emitPend n).cfg = s.cfg := rfl
@[simp] theorem State.emitPend_turn (n : Nat) (s : State) : (s.emitPend n).turn = s.turn := rfl
@[simp] theorem State.emitPend_cmds (n : Nat) (s : State) : (s.emitPend n).cmds = s.cmds := rfl
@[simp] theorem State.emitPend_resp (n : Nat) (s : State) : (s.emitPend n).resp = s.resp := rfl
@[simp] theorem State.emitPend_freeCnt (n : Nat) (s : State) : (s.emitPend n).freeCnt = s.freeCnt := rfl
@[simp] theorem State.emitPend_infLife (n : Nat) (s : State) : (s.emitPend n).infLife = s.infLife := rfl
@[simp] theorem State.emitPend_inf (n : Nat) (s : State) :
    (s.emitPend n).inf = { s.inf with winPos := (s.inf.winPos + 1) % s.cfg.winCap, thisOut := s.inf.thisOut + 1, totalOut := s.inf.totalOut + 1, pendLen := n } := rfl
@[simp] theorem State.emitPend_infIn (n : Nat) (s : State) : (s.emitPend n).infIn = s.infIn := rfl
@[simp] theorem State.emitPend_infOut (n : Nat) (s : State) :
    (s.emitPend n).infOut = s.infOut.write s.inf.thisOut s.pendByte := rfl
@[simp] theorem State.emitPend_win (n : Nat) (s : State) :
    (s.emitPend n).win = s.win.write s.inf.winPos s.pendByte := rfl
@[simp] theorem State.emitPend_dflLife (n : Nat) (s : State) : (s.emitPend n).dflLife = s.dflLife := rfl
@[simp] theorem State.emitPend_dfl (n : Nat) (s : State) : (s.emitPend n).dfl = s.dfl := rfl
@[simp] theorem State.emitPend_dflIn (n : Nat) (s : State) : (s.emitPend n).dflIn = s.dflIn := rfl
@[simp] theorem State.emitPend_dflOut (n : Nat) (s : State) : (s.emitPend n).dflOut = s.dflOut := rfl

/-! ### answerDfl, suspendDfl -/

@[simp] theorem State.answerDfl_cfg (st : Status) (s : State) : (s.answerDfl st).cfg = s.cfg := rfl
@[simp] theorem State.answerDfl_turn (st : Status) (s : State) : (s.answerDfl st).turn = .host := rfl
@[simp] theorem State.answerDfl_cmds (st : Status) (s : State) : (s.answerDfl st).cmds = s.cmds := rfl
@[simp] theorem State.answerDfl_resp (st : Status) (s : State) :
    (s.answerDfl st).resp = some (.step st s.dfl.thisOut (reportedTotal s.cfg s.dfl.totalOut)) := rfl
@[simp] theorem State.answerDfl_freeCnt (st : Status) (s : State) :
    (s.answerDfl st).freeCnt = s.freeCnt := rfl
@[simp] theorem State.answerDfl_infLife (st : Status) (s : State) :
    (s.answerDfl st).infLife = s.infLife := rfl
@[simp] theorem State.answerDfl_inf (st : Status) (s : State) : (s.answerDfl st).inf = s.inf := rfl
@[simp] theorem State.answerDfl_infIn (st : Status) (s : State) : (s.answerDfl st).infIn = s.infIn := rfl
@[simp] theorem State.answerDfl_infOut (st : Status) (s : State) : (s.answerDfl st).infOut = s.infOut := rfl
@[simp] theorem State.answerDfl_win (st : Status) (s : State) : (s.answerDfl st).win = s.win := rfl
@[simp] theorem State.answerDfl_dflLife (st : Status) (s : State) :
    (s.answerDfl st).dflLife = s.dflLife := rfl
@[simp] theorem State.answerDfl_dfl (st : Status) (s : State) :
    (s.answerDfl st).dfl = { s.dfl with lastStatus := st } := rfl
@[simp] theorem State.answerDfl_dflIn (st : Status) (s : State) : (s.answerDfl st).dflIn = s.dflIn := rfl
@[simp] theorem State.answerDfl_dflOut (st : Status) (s : State) : (s.answerDfl st).dflOut = s.dflOut := rfl
@[simp] theorem State.suspendDfl_cfg (s : State) : (s.suspendDfl).cfg = s.cfg := rfl
@[simp] theorem State.suspendDfl_turn (s : State) : (s.suspendDfl).turn = .host := rfl
@[simp] theorem State.suspendDfl_cmds (s : State) : (s.suspendDfl).cmds = s.cmds := rfl
@[simp] theorem State.suspendDfl_resp (s : State) :
    (s.suspendDfl).resp = some (.step .pending s.dfl.thisOut (reportedTotal s.cfg s.dfl.totalOut)) := rfl
@[simp] theorem State.suspendDfl_freeCnt (s : State) : (s.suspendDfl).freeCnt = s.freeCnt := rfl
@[simp] theorem State.suspendDfl_infLife (s : State) : (s.suspendDfl).infLife = s.infLife := rfl
@[simp] theorem State.suspendDfl_inf (s : State) : (s.suspendDfl).inf = s.inf := rfl
@[simp] theorem State.suspendDfl_infIn (s : State) : (s.suspendDfl).infIn = s.infIn := rfl
@[simp] theorem State.suspendDfl_infOut (s : State) : (s.suspendDfl).infOut = s.infOut := rfl
@[simp] theorem State.suspendDfl_win (s : State) : (s.suspendDfl).win = s.win := rfl
@[simp] theorem State.suspendDfl_dflLife (s : State) : (s.suspendDfl).dflLife = s.dflLife := rfl
@[simp] theorem State.suspendDfl_dfl (s : State) :
    (s.suspendDfl).dfl = { s.dfl with lastStatus := .pending } := rfl
@[simp] theorem State.suspendDfl_dflIn (s : State) : (s.suspendDfl).dflIn = s.dflIn := rfl
@[simp] theorem State.suspendDfl_dflOut (s : State) : (s.suspendDfl).dflOut = s.dflOut := rfl

/-! ### drainByte, performItem -/

@[simp] theorem State.drainByte_cfg (s : State) : (s.drainByte).cfg = s.cfg := rfl
@[simp] theorem State.drainByte_turn (s : State) : (s.drainByte).turn = s.turn := rfl
@[simp] theorem State.drainByte_cmds (s : State) : (s.drainByte).cmds = s.cmds := rfl
@[simp] theorem State.drainByte_resp (s : State) : (s.drainByte).resp = s.resp := rfl
@[simp] theorem State.drainByte_freeCnt (s : State) : (s.drainByte).freeCnt = s.freeCnt := rfl
@[simp] theorem State.drainByte_infLife (s : State) : (s.drainByte).infLife = s.infLife := rfl
@[simp] theorem State.drainByte_inf (s : State) : (s.drainByte).inf = s.inf := rfl
@[simp] theorem State.drainByte_infIn (s : State) : (s.drainByte).infIn = s.infIn := rfl
@[simp] theorem State.drainByte_infOut (s : State) : (s.drainByte).infOut = s.infOut := rfl
@[simp] theorem State.drainByte_win (s : State) : (s.drainByte).win = s.win := rfl
@[simp] theorem State.drainByte_dflLife (s : State) : (s.drainByte).dflLife = s.dflLife := rfl
@[simp] theorem State.drainByte_dfl (s : State) :
    (s.drainByte).dfl = { s.dfl with bitq := s.dfl.bitq >>> 8, bitqCnt := s.dfl.bitqCnt - 8, thisOut := s.dfl.thisOut + 1, totalOut := s.dfl.totalOut + 1 } := rfl
@[simp] theorem State.drainByte_dflIn (s : State) : (s.drainByte).dflIn = s.dflIn := rfl
@[simp] theorem State.drainByte_dflOut (s : State) :
    (s.drainByte).dflOut = s.dflOut.write s.dfl.thisOut (s.dfl.bitq.truncate 8) := rfl
@[simp] theorem State.performItem_cfg (i : Item) (s : State) : (s.performItem i).cfg = s.cfg := rfl
@[simp] theorem State.performItem_turn (i : Item) (s : State) : (s.performItem i).turn = s.turn := rfl
@[simp] theorem State.performItem_cmds (i : Item) (s : State) : (s.performItem i).cmds = s.cmds := rfl
@[simp] theorem State.performItem_resp (i : Item) (s : State) : (s.performItem i).resp = s.resp := rfl
@[simp] theorem State.performItem_freeCnt (i : Item) (s : State) :
    (s.performItem i).freeCnt = s.freeCnt := rfl
@[simp] theorem State.performItem_infLife (i : Item) (s : State) :
    (s.performItem i).infLife = s.infLife := rfl
@[simp] theorem State.performItem_inf (i : Item) (s : State) : (s.performItem i).inf = s.inf := rfl
@[simp] theorem State.performItem_infIn (i : Item) (s : State) : (s.performItem i).infIn = s.infIn := rfl
@[simp] theorem State.performItem_infOut (i : Item) (s : State) : (s.performItem i).infOut = s.infOut := rfl
@[simp] theorem State.performItem_win (i : Item) (s : State) : (s.performItem i).win = s.win := rfl
@[simp] theorem State.performItem_dflLife (i : Item) (s : State) :
    (s.performItem i).dflLife = s.dflLife := rfl
@[simp] theorem State.performItem_dfl (i : Item) (s : State) :
    (s.performItem i).dfl = { s.dfl.perform i with emitIdx := s.dfl.emitIdx + 1 } := rfl
@[simp] theorem State.performItem_dflIn (i : Item) (s : State) : (s.performItem i).dflIn = s.dflIn := rfl
@[simp] theorem State.performItem_dflOut (i : Item) (s : State) : (s.performItem i).dflOut = s.dflOut := rfl

/-! ### takeLength -/

@[simp] theorem State.takeLength_cfg (sym x : Nat) (s : State) : (s.takeLength sym x).cfg = s.cfg := rfl
@[simp] theorem State.takeLength_turn (sym x : Nat) (s : State) : (s.takeLength sym x).turn = s.turn := rfl
@[simp] theorem State.takeLength_cmds (sym x : Nat) (s : State) : (s.takeLength sym x).cmds = s.cmds := rfl
@[simp] theorem State.takeLength_resp (sym x : Nat) (s : State) : (s.takeLength sym x).resp = s.resp := rfl
@[simp] theorem State.takeLength_freeCnt (sym x : Nat) (s : State) :
    (s.takeLength sym x).freeCnt = s.freeCnt := rfl
@[simp] theorem State.takeLength_infLife (sym x : Nat) (s : State) :
    (s.takeLength sym x).infLife = s.infLife := rfl
@[simp] theorem State.takeLength_inf (sym x : Nat) (s : State) :
    (s.takeLength sym x).inf = { s.inf with sub := .distance (BitVec.ofNat 9 sym) (matchLength sym x) } := rfl
@[simp] theorem State.takeLength_infIn (sym x : Nat) (s : State) : (s.takeLength sym x).infIn = s.infIn := rfl
@[simp] theorem State.takeLength_infOut (sym x : Nat) (s : State) :
    (s.takeLength sym x).infOut = s.infOut := rfl
@[simp] theorem State.takeLength_win (sym x : Nat) (s : State) : (s.takeLength sym x).win = s.win := rfl
@[simp] theorem State.takeLength_dflLife (sym x : Nat) (s : State) :
    (s.takeLength sym x).dflLife = s.dflLife := rfl
@[simp] theorem State.takeLength_dfl (sym x : Nat) (s : State) : (s.takeLength sym x).dfl = s.dfl := rfl
@[simp] theorem State.takeLength_dflIn (sym x : Nat) (s : State) : (s.takeLength sym x).dflIn = s.dflIn := rfl
@[simp] theorem State.takeLength_dflOut (sym x : Nat) (s : State) :
    (s.takeLength sym x).dflOut = s.dflOut := rfl

/-! ### reset and destroy -/

@[simp] theorem State.resetInf_cfg (input : Nat) (data : List Byte) (s : State) :
    (s.resetInf input data).cfg = s.cfg := rfl
@[simp] theorem State.resetInf_turn (input : Nat) (data : List Byte) (s : State) :
    (s.resetInf input data).turn = s.turn := rfl
@[simp] theorem State.resetInf_cmds (input : Nat) (data : List Byte) (s : State) :
    (s.resetInf input data).cmds = s.cmds := rfl
@[simp] theorem State.resetInf_resp (input : Nat) (data : List Byte) (s : State) :
    (s.resetInf input data).resp = some (.status .ok) := rfl
@[simp] theorem State.resetInf_freeCnt (input : Nat) (data : List Byte) (s : State) :
    (s.resetInf input data).freeCnt = s.freeCnt + 1 := rfl
@[simp] theorem State.resetInf_infLife (input : Nat) (data : List Byte) (s : State) :
    (s.resetInf input data).infLife = .active := rfl
@[simp] theorem State.resetInf_inf (input : Nat) (data : List Byte) (s : State) :
    (s.resetInf input data).inf = s.freeInfRegs.afterReset input data.length := rfl
@[simp] theorem State.resetInf_infIn (input : Nat) (data : List Byte) (s : State) :
    (s.resetInf input data).infIn = Memory.ofBytes data := rfl
@[simp] theorem State.resetInf_infOut (input : Nat) (data : List Byte) (s : State) :
    (s.resetInf input data).infOut = [] := rfl
@[simp] theorem State.resetInf_win (input : Nat) (data : List Byte) (s : State) :
    (s.resetInf input data).win = [] := rfl
@[simp] theorem State.resetInf_dflLife (input : Nat) (data : List Byte) (s : State) :
    (s.resetInf input data).dflLife = s.dflLife := rfl
@[simp] theorem State.resetInf_dfl (input : Nat) (data : List Byte) (s : State) :
    (s.resetInf input data).dfl = s.dfl := rfl
@[simp] theorem State.resetInf_dflIn (input : Nat) (data : List Byte) (s : State) :
    (s.resetInf input data).dflIn = s.dflIn := rfl
@[simp] theorem State.resetInf_dflOut (input : Nat) (data : List Byte) (s : State) :
    (s.resetInf input data).dflOut = s.dflOut := rfl
@[simp] theorem State.resetDfl_cfg (input : Nat) (data : List Byte) (level : Level) (s : State) :
    (s.resetDfl input data level).cfg = s.cfg := rfl
@[simp] theorem State.resetDfl_turn (input : Nat) (data : List Byte) (level : Level) (s : State) :
    (s.resetDfl input data level).turn = s.turn := rfl
@[simp] theorem State.resetDfl_cmds (input : Nat) (data : List Byte) (level : Level) (s : State) :
    (s.resetDfl input data level).cmds = s.cmds := rfl
@[simp] theorem State.resetDfl_resp (input : Nat) (data : List Byte) (level : Level) (s : State) :
    (s.resetDfl input data level).resp = some (.status .ok) := rfl
@[simp] theorem State.resetDfl_freeCnt (input : Nat) (data : List Byte) (level : Level) (s : State) :
    (s.resetDfl input data level).freeCnt = s.freeCnt + 1 := rfl
@[simp] theorem State.resetDfl_infLife (input : Nat) (data : List Byte) (level : Level) (s : State) :
    (s.resetDfl input data level).infLife = s.infLife := rfl
@[simp] theorem State.resetDfl_inf (input : Nat) (data : List Byte) (level : Level) (s : State) :
    (s.resetDfl input data level).inf = s.inf := rfl
@[simp] theorem State.resetDfl_infIn (input : Nat) (data : List Byte) (level : Level) (s : State) :
    (s.resetDfl input data level).infIn = s.infIn := rfl
@[simp] theorem State.resetDfl_infOut (input : Nat) (data : List Byte) (level : Level) (s : State) :
    (s.resetDfl input data level).infOut = s.infOut := rfl
@[simp] theorem State.resetDfl_win (input : Nat) (data : List Byte) (level : Level) (s : State) :
    (s.resetDfl input data level).win = s.win := rfl
@[simp] theorem State.resetDfl_dflLife (input : Nat) (data : List Byte) (level : Level) (s : State) :
    (s.resetDfl input data level).dflLife = .active := rfl
@[simp] theorem State.resetDfl_dfl (input : Nat) (data : List Byte) (level : Level) (s : State) :
    (s.resetDfl input data level).dfl = s.freeDflRegs.afterReset input data.length level := rfl
@[simp] theorem State.resetDfl_dflIn (input : Nat) (data : List Byte) (level : Level) (s : State) :
    (s.resetDfl input data level).dflIn = Memory.ofBytes data := rfl
@[simp] theorem State.resetDfl_dflOut (input : Nat) (data : List Byte) (level : Level) (s : State) :
    (s.resetDfl input data level).dflOut = [] := rfl
@[simp] theorem State.destroyInf_cfg (s : State) : (s.destroyInf).cfg = s.cfg := rfl
@[simp] theorem State.destroyInf_turn (s : State) : (s.destroyInf).turn = s.turn := rfl
@[simp] theorem State.destroyInf_cmds (s : State) : (s.destroyInf).cmds = s.cmds := rfl
@[simp] theorem State.destroyInf_resp (s : State) : (s.destroyInf).resp = none := rfl
@[simp] theorem State.destroyInf_freeCnt (s : State) : (s.destroyInf).freeCnt = s.freeCnt + 1 := rfl
@[simp] theorem State.destroyInf_infLife (s : State) : (s.destroyInf).infLife = .absent := rfl
@[simp] theorem State.destroyInf_inf (s : State) : (s.destroyInf).inf = s.freeInfRegs := rfl
@[simp] theorem State.destroyInf_infIn (s : State) : (s.destroyInf).infIn = [] := rfl
@[simp] theorem State.destroyInf_infOut (s : State) : (s.destroyInf).infOut = [] := rfl
@[simp] theorem State.destroyInf_win (s : State) : (s.destroyInf).win = [] := rfl
@[simp] theorem State.destroyInf_dflLife (s : State) : (s.destroyInf).dflLife = s.dflLife := rfl
@[simp] theorem State.destroyInf_dfl (s : State) : (s.destroyInf).dfl = s.dfl := rfl
@[simp] theorem State.destroyInf_dflIn (s : State) : (s.destroyInf).dflIn = s.dflIn := rfl
@[simp] theorem State.destroyInf_dflOut (s : State) : (s.destroyInf).dflOut = s.dflOut := rfl
@[simp] theorem State.destroyDfl_cfg (s : State) : (s.destroyDfl).cfg = s.cfg := rfl
@[simp] theorem State.destroyDfl_turn (s : State) : (s.destroyDfl).turn = s.turn := rfl
@[simp] theorem State.destroyDfl_cmds (s : State) : (s.destroyDfl).cmds = s.cmds := rfl
@[simp] theorem State.destroyDfl_resp (s : State) : (s.destroyDfl).resp = none := rfl
@[simp] theorem State.destroyDfl_freeCnt (s : State) : (s.destroyDfl).freeCnt = s.freeCnt + 1 := rfl
@[simp] theorem State.destroyDfl_infLife (s : State) : (s.destroyDfl).infLife = s.infLife := rfl
@[simp] theorem State.destroyDfl_inf (s : State) : (s.destroyDfl).inf = s.inf := rfl
@[simp] theorem State.destroyDfl_infIn (s : State) : (s.destroyDfl).infIn = s.infIn := rfl
@[simp] theorem State.destroyDfl_infOut (s : State) : (s.destroyDfl).infOut = s.infOut := rfl
@[simp] theorem State.destroyDfl_win (s : State) : (s.destroyDfl).win = s.win := rfl
@[simp] theorem State.destroyDfl_dflLife (s : State) : (s.destroyDfl).dflLife = .absent := rfl
@[simp] theorem State.destroyDfl_dfl (s : State) : (s.destroyDfl).dfl = s.freeDflRegs := rfl
@[simp] theorem State.destroyDfl_dflIn (s : State) : (s.destroyDfl).dflIn = [] := rfl
@[simp] theorem State.destroyDfl_dflOut (s : State) : (s.destroyDfl).dflOut = [] := rfl

/-! ### TOK and RLE (R38, R41) -/

theorem trimEnd_cons {α : Type} [DecidableEq α] (d x : α) (l : List α) :
    trimEnd d (x :: l) = if trimEnd d l = [] ∧ x = d then [] else x :: trimEnd d l := by
  rw [trimEnd]
  cases trimEnd d l with
  | nil => by_cases h : x = d <;> simp [h]
  | cons y l' => simp

/-- Trimming keeps every entry of the array. -/
@[simp] theorem trimEnd_getD {α : Type} [DecidableEq α] (d : α) (l : List α) (k : Nat) :
    (trimEnd d l).getD k d = l.getD k d := by
  induction l generalizing k with
  | nil => rfl
  | cons x l ih =>
    rw [trimEnd_cons]
    split
    · rename_i h
      cases k with
      | zero => simp [h.2]
      | succ k => have := ih k; rw [h.1] at this; simpa using this
    · cases k with
      | zero => rfl
      | succ k => simpa using ih k

@[simp] theorem trimEnd_trimEnd {α : Type} [DecidableEq α] (d : α) (l : List α) :
    trimEnd d (trimEnd d l) = trimEnd d l := by
  induction l with
  | nil => rfl
  | cons x l ih =>
    rw [trimEnd_cons]
    split
    · rfl
    · rename_i h; rw [trimEnd_cons, ih, if_neg h]

theorem length_trimEnd_le {α : Type} [DecidableEq α] (d : α) (l : List α) : (trimEnd d l).length ≤ l.length := by
  induction l with
  | nil => exact Nat.le_refl _
  | cons x l ih =>
    rw [trimEnd_cons]
    split
    · exact Nat.zero_le _
    · simpa using ih

theorem mem_of_mem_trimEnd {α : Type} [DecidableEq α] {d x : α} {l : List α} (h : x ∈ trimEnd d l) : x ∈ l := by
  induction l with
  | nil => simp [trimEnd] at h
  | cons y l ih =>
    rw [trimEnd_cons] at h
    split at h
    · simp at h
    · rcases List.mem_cons.1 h with rfl | h
      · exact List.mem_cons_self
      · exact List.mem_cons_of_mem _ (ih h)

/-- Dropping entries off the front keeps a trimmed list trimmed. -/
theorem trimEnd_drop {α : Type} [DecidableEq α] {d : α} {l : List α} (h : trimEnd d l = l) (n : Nat) :
    trimEnd d (l.drop n) = l.drop n := by
  induction n generalizing l with
  | zero => simpa using h
  | succ n ih =>
    cases l with
    | nil => rfl
    | cons x l =>
      rw [trimEnd_cons] at h
      split at h
      · simp at h
      · exact ih (by simpa using h)

@[simp] theorem DefRegs.clearTok_tok (r : DefRegs) : r.clearTok.tok = [] := rfl
@[simp] theorem DefRegs.clearTok_tokCnt (r : DefRegs) : r.clearTok.tokCnt = 0 := rfl

/-- `TOK_CNT <- 0` leaves every entry. -/
@[simp] theorem DefRegs.clearTok_tokAt (r : DefRegs) (k : Nat) : r.clearTok.tokAt k = r.tokAt k := by
  simp only [DefRegs.tokAt, DefRegs.clearTok, List.nil_append, trimEnd_getD]

@[simp] theorem DefRegs.pushTok_tok (t : Token) (r : DefRegs) : (r.pushTok t).tok = r.tok ++ [t] := rfl
@[simp] theorem DefRegs.pushTok_tokCnt (t : Token) (r : DefRegs) : (r.pushTok t).tokCnt = r.tokCnt + 1 := by
  simp [DefRegs.tokCnt]

/-- Appending a token writes the entry at TOK_CNT and no other. -/
theorem DefRegs.pushTok_tokAt (t : Token) (r : DefRegs) (k : Nat) :
    (r.pushTok t).tokAt k = if k = r.tokCnt then t else r.tokAt k := by
  simp only [DefRegs.tokAt, DefRegs.pushTok, DefRegs.tokCnt, List.getD_eq_getElem?_getD, List.append_assoc]
  rcases Nat.lt_trichotomy k r.tok.length with h | rfl | h
  · rw [if_neg (by omega), List.getElem?_append_left h, List.getElem?_append_left h]
  · simp
  · have he : ∀ b : List Token, (r.tok ++ b)[k]? = b[k - r.tok.length]? := fun b =>
      List.getElem?_append_right (by omega)
    obtain ⟨j, hj⟩ : ∃ j, k - r.tok.length = j + 1 := ⟨k - r.tok.length - 1, by omega⟩
    rw [if_neg (by omega), he, he, hj]
    simp

@[simp] theorem DefRegs.writeRle_rle (l : List RleItem) (r : DefRegs) : (r.writeRle l).rle = l := rfl

/-- Writing RLE leaves the entries from the new RLE_CNT up. -/
theorem DefRegs.writeRle_rleAt {l : List RleItem} {r : DefRegs} {k : Nat} (h : l.length ≤ k) :
    (r.writeRle l).rleAt k = r.rleAt k := by
  have hd := trimEnd_getD RleItem.zero ((r.rle ++ r.rleRest).drop l.length) (k - l.length)
  simp only [DefRegs.rleAt, DefRegs.writeRle, List.getD_eq_getElem?_getD] at hd ⊢
  rw [List.getElem?_append_right h, hd, List.getElem?_drop, show l.length + (k - l.length) = k by omega]

/-! The frames. -/

theorem DefRegs.clearTok_frame (r : DefRegs) :
    { r.clearTok with tok := r.tok, tokRest := r.tokRest } = r := rfl
theorem DefRegs.pushTok_frame (t : Token) (r : DefRegs) :
    { r.pushTok t with tok := r.tok, tokRest := r.tokRest } = r := rfl
theorem DefRegs.writeRle_frame (l : List RleItem) (r : DefRegs) :
    { r.writeRle l with rle := r.rle, rleRest := r.rleRest } = r := rfl

@[simp] theorem DefRegs.clearTok_inCur (r : DefRegs) : r.clearTok.inCur = r.inCur := rfl
@[simp] theorem DefRegs.clearTok_inEnd (r : DefRegs) : r.clearTok.inEnd = r.inEnd := rfl
@[simp] theorem DefRegs.clearTok_freqLl (r : DefRegs) : r.clearTok.freqLl = r.freqLl := rfl
@[simp] theorem DefRegs.clearTok_freqD (r : DefRegs) : r.clearTok.freqD = r.freqD := rfl
@[simp] theorem DefRegs.clearTok_adlerS1 (r : DefRegs) : r.clearTok.adlerS1 = r.adlerS1 := rfl
@[simp] theorem DefRegs.clearTok_adlerS2 (r : DefRegs) : r.clearTok.adlerS2 = r.adlerS2 := rfl
@[simp] theorem DefRegs.clearTok_blkFinal (r : DefRegs) : r.clearTok.blkFinal = r.blkFinal := rfl
@[simp] theorem DefRegs.clearTok_hist (r : DefRegs) : r.clearTok.hist = r.hist := rfl
@[simp] theorem DefRegs.clearTok_freed (r : DefRegs) : r.clearTok.freed = r.freed := rfl
@[simp] theorem DefRegs.clearTok_fresh (r : DefRegs) : r.clearTok.fresh = r.fresh := rfl
@[simp] theorem DefRegs.clearTok_evictCur (r : DefRegs) : r.clearTok.evictCur = r.evictCur := rfl
@[simp] theorem DefRegs.pushTok_inCur (t : Token) (r : DefRegs) : (r.pushTok t).inCur = r.inCur := rfl
@[simp] theorem DefRegs.pushTok_inEnd (t : Token) (r : DefRegs) : (r.pushTok t).inEnd = r.inEnd := rfl
@[simp] theorem DefRegs.pushTok_freqLl (t : Token) (r : DefRegs) : (r.pushTok t).freqLl = r.freqLl := rfl
@[simp] theorem DefRegs.pushTok_freqD (t : Token) (r : DefRegs) : (r.pushTok t).freqD = r.freqD := rfl
@[simp] theorem DefRegs.pushTok_adlerS1 (t : Token) (r : DefRegs) : (r.pushTok t).adlerS1 = r.adlerS1 := rfl
@[simp] theorem DefRegs.pushTok_adlerS2 (t : Token) (r : DefRegs) : (r.pushTok t).adlerS2 = r.adlerS2 := rfl
@[simp] theorem DefRegs.pushTok_blkFinal (t : Token) (r : DefRegs) : (r.pushTok t).blkFinal = r.blkFinal := rfl
@[simp] theorem DefRegs.pushTok_hist (t : Token) (r : DefRegs) : (r.pushTok t).hist = r.hist := rfl
@[simp] theorem DefRegs.pushTok_freed (t : Token) (r : DefRegs) : (r.pushTok t).freed = r.freed := rfl
@[simp] theorem DefRegs.pushTok_fresh (t : Token) (r : DefRegs) : (r.pushTok t).fresh = r.fresh := rfl
@[simp] theorem DefRegs.pushTok_evictCur (t : Token) (r : DefRegs) : (r.pushTok t).evictCur = r.evictCur := rfl

end Sys2Proof.Machine
end

