-- ==== Sys2Proof/Laws/Ops.lean ====
section
/-! SUPPORT. The laws of the shared operations: the cursor and the unread bits, the loop that drains the
in-flight code, the writer's queue and the emission of a list of items. Each loop's induction is done
here once; its users give the property that one pass keeps. -/

namespace Sys2Proof.Machine

/-! ### the cursor -/

@[simp] theorem InfRegs.atBit_bitpos (r : InfRegs) (p : Nat) : (r.atBit p).bitpos = p := by
  simp only [InfRegs.bitpos, InfRegs.atBit]
  omega

@[simp] theorem InfRegs.atBit_brLen (r : InfRegs) (p : Nat) : (r.atBit p).brLen = r.brLen := rfl

@[simp] theorem InfRegs.advance_bitpos (r : InfRegs) (n : Nat) : (r.advance n).bitpos = r.bitpos + n := by
  simp [InfRegs.advance]

@[simp] theorem InfRegs.advance_brLen (r : InfRegs) (n : Nat) : (r.advance n).brLen = r.brLen := rfl

/-- Two register sets that differ in nothing but the cursor, with one BITPOS, are equal. -/
theorem InfRegs.atBit_self (r : InfRegs) : r.atBit r.bitpos = r := by
  have h := r.brBit.isLt
  have h1 : r.bitpos / 8 = r.brByte := by simp only [InfRegs.bitpos]; omega
  have h2 : r.bitpos % 8 = r.brBit.val := by simp only [InfRegs.bitpos]; omega
  cases r
  simp only [InfRegs.atBit] at *
  simp [h1, h2]

@[simp] theorem InfRegs.advance_zero (r : InfRegs) : r.advance 0 = r := by
  simp [InfRegs.advance, InfRegs.atBit_self]

@[simp] theorem InfRegs.advance_advance (r : InfRegs) (n k : Nat) : (r.advance n).advance k = r.advance (n + k) := by
  have h : ((r.advance n).bitpos + k) = r.bitpos + (n + k) := by simp [Nat.add_assoc]
  simp only [InfRegs.advance] at *
  rw [h]
  rfl

/-- The unread bits are `avail` in number. -/
@[simp] theorem InfRegs.length_restBits (r : InfRegs) (m : Memory) : (r.restBits m).length = r.avail := by
  simp [InfRegs.restBits, Memory.streamBits, InfRegs.avail]

theorem InfRegs.avail_eq (r : InfRegs) : r.avail = 8 * r.brLen - r.bitpos := by
  simp only [InfRegs.avail, InfRegs.bitpos]
  omega

/-- Moving past `n` bits drops `n` unread bits. -/
theorem InfRegs.avail_advance (r : InfRegs) (n : Nat) : (r.advance n).avail = r.avail - n := by
  simp only [InfRegs.avail_eq, InfRegs.advance_bitpos, InfRegs.advance_brLen]
  omega

/-- The bits of `n` bytes from byte `a` on are those from byte `a + k` on after the first `8 k`. -/
theorem Memory.streamBits_drop (m : Memory) (a n k : Nat) (h : k ≤ n) :
    (m.streamBits a n).drop (8 * k) = m.streamBits (a + k) (n - k) := by
  have hn : n = k + (n - k) := by omega
  conv_lhs => rw [hn]
  rw [Memory.streamBits, Memory.bytes_append, bitsOfBytes_append, List.drop_append]
  simp [Memory.streamBits]

/-- Where the cursor stands determines the unread bits: moving past `n` of them drops them. -/
theorem InfRegs.restBits_advance (r : InfRegs) (m : Memory) (n : Nat) (h : n ≤ r.avail) :
    (r.advance n).restBits m = (r.restBits m).drop n := by
  have hb := r.brBit.isLt
  have ha : (r.advance n).brByte = (r.bitpos + n) / 8 := rfl
  have hv : (r.advance n).brBit.val = (r.bitpos + n) % 8 := rfl
  have hl : (r.advance n).brLen = r.brLen := rfl
  simp only [InfRegs.avail, InfRegs.bitpos] at *
  rw [InfRegs.restBits, InfRegs.restBits, ha, hv, hl, List.drop_drop]
  have hk : (8 * r.brByte + r.brBit.val + n) / 8 = r.brByte + (r.brBit.val + n) / 8 := by omega
  by_cases hz : (r.brBit.val + n) / 8 ≤ r.brLen - r.brByte
  · have h1 := Memory.streamBits_drop m r.brByte (r.brLen - r.brByte) _ hz
    rw [hk, show r.brLen - (r.brByte + (r.brBit.val + n) / 8) = r.brLen - r.brByte - (r.brBit.val + n) / 8 by omega,
      ← h1, List.drop_drop]
    congr 1
    omega
  · exfalso
    omega

/-! ### draining the in-flight code (R342) -/

/-- The induction of R342's loop: a property of the bytes left and the state that one pass keeps holds at
the end of the loop, or of the state in which it suspends. -/
theorem drainLoop_induct {P : Nat → State → Prop}
    (pass : ∀ n s, s.inf.thisOut ≠ s.inf.outLim → P (n + 1) s → P n (s.emitPend n)) :
    ∀ {n : Nat} {s : State}, P n s →
      P 0 (drainLoop n s) ∨
      ∃ m t, P (m + 1) t ∧ t.inf.thisOut = t.inf.outLim ∧ drainLoop n s = t.suspendInf := by
  intro n
  induction n with
  | zero => intro s h; exact .inl h
  | succ n ih =>
    intro s h
    by_cases hf : s.inf.thisOut = s.inf.outLim
    · exact .inr ⟨n, s, h, hf, by rw [drainLoop, if_pos hf]⟩
    · rw [drainLoop, if_neg hf]
      exact ih (pass n s hf h)

/-- What R342's loop never writes, suspended or not. -/
theorem drainLoop_frame (n : Nat) (s : State) :
    { drainLoop n s with turn := s.turn, resp := s.resp, inf := s.inf, infOut := s.infOut, win := s.win } = s ∧
    { (drainLoop n s).inf with
        pendLen := s.inf.pendLen, winPos := s.inf.winPos, thisOut := s.inf.thisOut,
        totalOut := s.inf.totalOut, lastStatus := s.inf.lastStatus } = s.inf := by
  induction n generalizing s with
  | zero => exact ⟨rfl, rfl⟩
  | succ n ih =>
    unfold drainLoop
    split
    · exact ⟨rfl, rfl⟩
    · have h := ih (s.emitPend n)
      constructor
      · have h1 := congrArg (fun t : State =>
          { t with turn := s.turn, resp := s.resp, inf := s.inf, infOut := s.infOut, win := s.win }) h.1
        exact h1
      · have h2 := congrArg (fun r : InfRegs =>
          { r with
            pendLen := s.inf.pendLen, winPos := s.inf.winPos, thisOut := s.inf.thisOut,
            totalOut := s.inf.totalOut, lastStatus := s.inf.lastStatus }) h.2
        exact h2

/-- Where the output has room for all of them, every byte goes out and the engine keeps its move. -/
theorem drainLoop_fits {n : Nat} {s : State} (h : s.inf.thisOut + n ≤ s.inf.outLim) :
    (drainLoop n s).turn = s.turn ∧ (drainLoop n s).resp = s.resp ∧
    (drainLoop n s).inf.lastStatus = s.inf.lastStatus ∧ (drainLoop n s).inf.thisOut = s.inf.thisOut + n ∧
    (drainLoop n s).inf.totalOut = s.inf.totalOut + n ∧ (n ≠ 0 → (drainLoop n s).inf.pendLen = 0) := by
  induction n generalizing s with
  | zero => simp [drainLoop]
  | succ n ih =>
    rw [drainLoop, if_neg (by omega)]
    obtain ⟨h1, h2, h3, h4, h5, h6⟩ := ih (s := s.emitPend n) (by simp; omega)
    refine ⟨by simpa using h1, by simpa using h2, by simpa using h3, by rw [h4]; simp; omega,
      by rw [h5]; simp; omega, fun _ => ?_⟩
    by_cases hn : n = 0
    · subst hn; rfl
    · exact h6 hn

/-- Where it has not, it is filled and the STEP suspends with the code's rest in flight. -/
theorem drainLoop_full {n : Nat} {s : State} (h0 : s.inf.thisOut ≤ s.inf.outLim)
    (h : s.inf.outLim < s.inf.thisOut + n) (hp : s.inf.pendLen = n) :
    ∃ t : State, drainLoop n s = t.suspendInf ∧ t.inf.thisOut = s.inf.outLim ∧ t.inf.outLim = s.inf.outLim ∧
      t.cfg = s.cfg ∧ t.inf.totalOut = s.inf.totalOut + (s.inf.outLim - s.inf.thisOut) ∧
      t.inf.pendLen = n - (s.inf.outLim - s.inf.thisOut) := by
  induction n generalizing s with
  | zero => omega
  | succ n ih =>
    by_cases hf : s.inf.thisOut = s.inf.outLim
    · exact ⟨s, by rw [drainLoop, if_pos hf], hf, rfl, rfl, by omega, by omega⟩
    · rw [drainLoop, if_neg hf]
      obtain ⟨t, h1, h2, h3, h4, h5, h6⟩ := ih (s := s.emitPend n) (by simp; omega) (by simp; omega) rfl
      refine ⟨t, h1, h2, h3, h4, ?_, ?_⟩
      · rw [h5]; simp; omega
      · rw [h6]; simp; omega

/-! ### the writer's queue (R150) -/

/-- The induction of `drain()`'s loop. -/
theorem drainBytes_induct {P : State → Prop}
    (pass : ∀ s, 8 ≤ s.dfl.bitqCnt → s.dfl.thisOut < s.dfl.outLim → P s → P s.drainByte) :
    ∀ {k : Nat} {s : State}, P s → P (drainBytes k s) := by
  intro k
  induction k with
  | zero => intro s h; exact h
  | succ k ih =>
    intro s h
    unfold drainBytes
    split
    · rename_i hc; exact ih (pass s hc.1 hc.2 h)
    · exact h

theorem State.drain_induct {P : State → Prop}
    (pass : ∀ s, 8 ≤ s.dfl.bitqCnt → s.dfl.thisOut < s.dfl.outLim → P s → P s.drainByte) {s : State} (h : P s) :
    P s.drain := drainBytes_induct pass h

/-- `drain()` ends when less than a byte is queued or the buffer is full. -/
theorem State.drain_stops (s : State) : ¬ (8 ≤ s.drain.dfl.bitqCnt ∧ s.drain.dfl.thisOut < s.drain.dfl.outLim) := by
  suffices h : ∀ k (t : State), t.dfl.bitqCnt / 8 ≤ k →
      ¬ (8 ≤ (drainBytes k t).dfl.bitqCnt ∧ (drainBytes k t).dfl.thisOut < (drainBytes k t).dfl.outLim) from
    h _ s (Nat.le_refl _)
  intro k
  induction k with
  | zero => intro t ht; simp only [drainBytes]; omega
  | succ k ih =>
    intro t ht
    unfold drainBytes
    split
    · rename_i hc
      exact ih _ (by simp; omega)
    · assumption

/-- What `drain()` never writes. -/
theorem State.drain_frame (s : State) :
    { s.drain with dfl := s.dfl, dflOut := s.dflOut } = s ∧
    { s.drain.dfl with
        bitq := s.dfl.bitq, bitqCnt := s.dfl.bitqCnt, thisOut := s.dfl.thisOut,
        totalOut := s.dfl.totalOut } = s.dfl :=
  State.drain_induct (P := fun t =>
      { t with dfl := s.dfl, dflOut := s.dflOut } = s ∧
      { t.dfl with
          bitq := s.dfl.bitq, bitqCnt := s.dfl.bitqCnt, thisOut := s.dfl.thisOut,
          totalOut := s.dfl.totalOut } = s.dfl)
    (fun _ _ _ h => h) ⟨rfl, rfl⟩

/-! ### the emission of a list (R390) -/

/-- The induction of R390's loop: a property of the items left and the state that draining the queue and
performing an item keep holds where the list ends, or of the state in which the emission suspends. -/
theorem emitItems_induct {P : List Item → State → Prop} {fin : DefRegs → DefRegs}
    (drain : ∀ l s, P l s → P l s.drain)
    (item : ∀ i l s, s.dfl.writerReady = true → P (i :: l) s → P l (s.performItem i)) :
    ∀ {l : List Item} {s : State}, P l s →
      (∃ t, P [] t ∧ emitItems fin l s = { t with dfl := fin { t.dfl with emitIdx := 0 } }) ∨
      ∃ i l' t, P (i :: l') t ∧ t.dfl.writerReady = false ∧ t.drain.dfl.writerReady = false ∧
        emitItems fin l s = t.suspendDfl := by
  intro l
  induction l with
  | nil => intro s h; exact .inl ⟨s, h, rfl⟩
  | cons i l ih =>
    intro s h
    simp only [emitItems]
    cases hw : s.drain.dfl.writerReady with
    | true => rw [if_pos rfl]; exact ih (item i l _ hw (drain _ _ h))
    | false =>
      refine .inr ⟨i, l, s.drain, drain _ _ h, hw, ?_, by simp⟩
      have hs := s.drain_stops
      simp only [DefRegs.writerReady, decide_eq_false_iff_not] at hw
      have hd : s.drain.drain = s.drain := by
        unfold State.drain at hs hw ⊢
        generalize drainBytes (s.dfl.bitqCnt / 8) s = t at hs hw ⊢
        cases hk : t.dfl.bitqCnt / 8 with
        | zero => rfl
        | succ k => rw [drainBytes, if_neg hs]
      rw [hd]
      simpa [DefRegs.writerReady] using hw

/-! ### emissions that suspend (R390, R437) -/

theorem DefRegs.SameButWriter.refl (r : DefRegs) : r.SameButWriter r := rfl

theorem DefRegs.SameButWriter.trans {r q p : DefRegs} (h₁ : r.SameButWriter q) (h₂ : q.SameButWriter p) :
    r.SameButWriter p := by
  unfold DefRegs.SameButWriter at *
  rw [← h₂] at h₁
  exact h₁

/-- Draining changes the writer's registers only. -/
theorem State.drain_sameButWriter (s : State) : s.dfl.SameButWriter s.drain.dfl :=
  State.drain_induct (P := fun t => s.dfl.SameButWriter t.dfl) (fun _ _ _ h => h) (.refl _)

/-- An item changes the writer's registers and EMIT_IDX only. -/
theorem State.performItem_sameButWriter (i : Item) (s : State) : s.dfl.SameButWriter (s.performItem i).dfl := by
  cases i <;> simp only [State.performItem, DefRegs.perform, DefRegs.flush]
  case flush => split <;> rfl
  all_goals rfl

/-- Suspending where an emission has changed the writer's registers only (R437). -/
theorem suspends_suspendDfl {s t : State} (hr : s.dfl.SameButWriter t.dfl)
    (ht : { t with dflOut := s.dflOut, dfl := s.dfl } = s) : Suspends s t.suspendDfl := by
  have hc : t.cfg = s.cfg := by rw [← ht]
  have hl : t.dfl.lastStatus = s.dfl.lastStatus := by
    conv_rhs => rw [← show _ = s.dfl from hr]
  refine ⟨rfl, rfl, by simp [State.suspendDfl, State.answerDfl, reportedTotal, hc], ?_, ?_⟩
  · show s.dfl.SameButWriter { t.dfl with lastStatus := s.dfl.lastStatus }
    rw [← hl]
    exact hr
  · exact congrArg (fun u : State => { u with turn := s.turn, resp := s.resp }) ht

end Sys2Proof.Machine
end

