-- ==== Sys2Proof/Laws/Deflate.lean ====
section
/-! SUPPORT. What the parts of the LZSS pass and of forming a stored block never write, and the induction of
the pass's loop. -/

namespace Sys2Proof.Machine

/-- `adlerUpdate` writes the two sums only. -/
theorem DefRegs.adlerUpdate_frame (b : Byte) (r : DefRegs) :
    { r.adlerUpdate b with adlerS1 := r.adlerS1, adlerS2 := r.adlerS2 } = r := rfl

theorem adlerRange_frame (m : Memory) (n p : Nat) (r : DefRegs) :
    { adlerRange m n p r with adlerS1 := r.adlerS1, adlerS2 := r.adlerS2 } = r := by
  induction n generalizing p r with
  | zero => rfl
  | succ n ih =>
    have h := congrArg (fun t : DefRegs => { t with adlerS1 := r.adlerS1, adlerS2 := r.adlerS2 })
      (ih (p + 1) (r.adlerUpdate (m.read p)))
    exact h

/-- The history's registers. -/
theorem DefRegs.insert_frame (c : Config) (m : Memory) (p : Nat) (r : DefRegs) :
    { r.insert c m p with hist := r.hist, freed := r.freed, fresh := r.fresh, evictCur := r.evictCur } = r := by
  have h : ∀ x : DefRegs, { x.takeSlot.2 with hist := r.hist, freed := r.freed, fresh := r.fresh, evictCur := r.evictCur }
      = { x with hist := r.hist, freed := r.freed, fresh := r.fresh, evictCur := r.evictCur } := by
    intro x
    unfold DefRegs.takeSlot
    split <;> rfl
  unfold DefRegs.insert
  refine (h _).trans ?_
  split <;> rfl

/-- Consuming input writes the history and the checksum only. -/
theorem consume_frame (c : Config) (m : Memory) (k p : Nat) (r : DefRegs) :
    { consume c m k p r with
        hist := r.hist, freed := r.freed, fresh := r.fresh, evictCur := r.evictCur,
        adlerS1 := r.adlerS1, adlerS2 := r.adlerS2 } = r := by
  induction k generalizing p r with
  | zero => rfl
  | succ k ih =>
    unfold consume
    have hi := r.insert_frame c m p
    split
    · have h := congrArg (fun t : DefRegs =>
        { t with
          hist := r.hist, freed := r.freed, fresh := r.fresh, evictCur := r.evictCur,
          adlerS1 := r.adlerS1, adlerS2 := r.adlerS2 })
        (ih (p + 1) ((r.insert c m p).adlerUpdate (m.read p)))
      exact h.trans (congrArg (fun t : DefRegs => { t with adlerS1 := r.adlerS1, adlerS2 := r.adlerS2 }) hi)
    · have h := congrArg (fun t : DefRegs =>
        { t with
          hist := r.hist, freed := r.freed, fresh := r.fresh, evictCur := r.evictCur,
          adlerS1 := r.adlerS1, adlerS2 := r.adlerS2 })
        (ih (p + 1) (r.adlerUpdate (m.read p)))
      exact h

@[simp] theorem consume_inEnd (c : Config) (m : Memory) (k p : Nat) (r : DefRegs) :
    (consume c m k p r).inEnd = r.inEnd := by
  have h := congrArg DefRegs.inEnd (consume_frame c m k p r)
  exact h

@[simp] theorem consume_tok (c : Config) (m : Memory) (k p : Nat) (r : DefRegs) :
    (consume c m k p r).tok = r.tok := by
  have h := congrArg DefRegs.tok (consume_frame c m k p r)
  exact h

@[simp] theorem consume_tokRest (c : Config) (m : Memory) (k p : Nat) (r : DefRegs) :
    (consume c m k p r).tokRest = r.tokRest := by
  have h := congrArg DefRegs.tokRest (consume_frame c m k p r)
  exact h

@[simp] theorem consume_freqLl (c : Config) (m : Memory) (k p : Nat) (r : DefRegs) :
    (consume c m k p r).freqLl = r.freqLl := by
  have h := congrArg DefRegs.freqLl (consume_frame c m k p r)
  exact h

@[simp] theorem consume_freqD (c : Config) (m : Memory) (k p : Nat) (r : DefRegs) :
    (consume c m k p r).freqD = r.freqD := by
  have h := congrArg DefRegs.freqD (consume_frame c m k p r)
  exact h

/-- The input consumed by one token is what the token says: a match's length, or one byte. -/
theorem DefRegs.passToken_inCur (c : Config) (m : Memory) (r : DefRegs) :
    (r.passToken c m).inCur = r.inCur + (if 3 ≤ (r.searchAt c m).len then (r.searchAt c m).len else 1) := by
  unfold DefRegs.passToken
  dsimp only
  split <;> rfl

@[simp] theorem DefRegs.passToken_inEnd (c : Config) (m : Memory) (r : DefRegs) :
    (r.passToken c m).inEnd = r.inEnd := by
  unfold DefRegs.passToken
  dsimp only
  split <;> simp [DefRegs.addMatch, DefRegs.addLiteral]

/-- One token is appended. -/
theorem DefRegs.passToken_tok (c : Config) (m : Memory) (r : DefRegs) :
    (r.passToken c m).tok = r.tok ++
      [if 3 ≤ (r.searchAt c m).len then
        ⟨257 + lc (r.searchAt c m).len, (r.searchAt c m).len, (r.searchAt c m).dist⟩
      else ⟨(m.read r.inCur).toNat, 1, 0⟩] := by
  unfold DefRegs.passToken
  dsimp only
  split <;> simp [DefRegs.addMatch, DefRegs.addLiteral]

/-- The entries of TOK above the new token stay. -/
theorem DefRegs.passToken_tokRest (c : Config) (m : Memory) (r : DefRegs) :
    (r.passToken c m).tokRest = r.tokRest.drop 1 := by
  unfold DefRegs.passToken
  dsimp only
  split <;> simp [DefRegs.addMatch, DefRegs.addLiteral, DefRegs.pushTok]

/-- The induction of the pass's loop (R386). -/
theorem passLoop_induct {c : Config} {m : Memory} {P : Nat → DefRegs → Prop}
    (token : ∀ k r, r.inCur < r.inEnd → P (k + 1) r → P k (r.passToken c m)) :
    ∀ {k : Nat} {r : DefRegs}, P k r →
      ∃ k', P k' (passLoop c m k r) ∧ (k' = 0 ∨ ¬ (passLoop c m k r).inCur < (passLoop c m k r).inEnd) := by
  intro k
  induction k with
  | zero => intro r h; exact ⟨0, h, .inl rfl⟩
  | succ k ih =>
    intro r h
    unfold passLoop
    split
    · rename_i hc; exact ih (token k r hc h)
    · rename_i hc; exact ⟨k + 1, h, .inr hc⟩

/-- The match length agrees on its bytes and is at most its limit (R214). -/
theorem matchLen_spec (m : Memory) (lim p q : Nat) :
    matchLen m lim p q ≤ lim ∧ ∀ i, i < matchLen m lim p q → m.read (p + i) = m.read (q + i) := by
  induction lim generalizing p q with
  | zero => exact ⟨Nat.le_refl _, fun i h => by simp [matchLen] at h⟩
  | succ lim ih =>
    unfold matchLen
    split
    · rename_i he
      obtain ⟨h1, h2⟩ := ih (p + 1) (q + 1)
      refine ⟨by omega, fun i hi => ?_⟩
      cases i with
      | zero => simpa using he
      | succ i =>
        have := h2 i (by omega)
        rwa [Nat.add_assoc, Nat.add_assoc, Nat.add_comm 1 i] at this
    · exact ⟨Nat.zero_le _, fun i h => by simp at h⟩

end Sys2Proof.Machine
end

