-- ==== Sys2Proof/Laws/Huffman.lean ====
section
/-! SUPPORT. The laws of the decode tries: what insertion does to the map a trie stands for, what a built
trie's map is (R177), and the walk by the map (R178). -/

namespace Sys2Proof

open Machine

@[simp] theorem Trie.lookup_nil (p : Bits) : Trie.nil.lookup p = none := by cases p <;> rfl

@[simp] theorem Trie.lookup_leaf_nil (s : Nat) : (Trie.leaf s).lookup [] = some s := rfl

@[simp] theorem Trie.lookup_leaf_cons (s : Nat) (b : Bool) (p : Bits) : (Trie.leaf s).lookup (b :: p) = none := rfl

@[simp] theorem Trie.lookup_node_nil (z o : Trie) : (Trie.node z o).lookup [] = none := rfl

@[simp] theorem Trie.lookup_node_cons (z o : Trie) (b : Bool) (p : Bits) :
    (Trie.node z o).lookup (b :: p) = if b then o.lookup p else z.lookup p := rfl

/-- An insertion that succeeds finds no symbol at its path, and adds exactly its symbol to the map. -/
theorem Trie.lookup_insert {t t' : Trie} {p : Bits} {s : Nat} (h : t.insert p s = some t') :
    t.lookup p = none ∧ ∀ q, t'.lookup q = if q = p then some s else t.lookup q := by
  induction p generalizing t t' with
  | nil =>
    cases t with
    | nil =>
      simp only [Trie.insert, Option.some.injEq] at h
      subst h
      refine ⟨rfl, fun q => ?_⟩
      cases q <;> simp
    | leaf _ => simp [Trie.insert] at h
    | node _ _ => simp [Trie.insert] at h
  | cons b p ih =>
    cases t with
    | leaf _ => simp [Trie.insert] at h
    | nil =>
      simp only [Trie.insert, Option.map_eq_some_iff] at h
      obtain ⟨u, hu, rfl⟩ := h
      obtain ⟨-, hq⟩ := ih hu
      refine ⟨rfl, fun q => ?_⟩
      cases q with
      | nil => cases b <;> simp
      | cons c q => cases b <;> cases c <;> simp [hq]
    | node z o =>
      cases b with
      | true =>
        simp only [Trie.insert, if_true, Option.map_eq_some_iff] at h
        obtain ⟨u, hu, rfl⟩ := h
        obtain ⟨hn, hq⟩ := ih hu
        refine ⟨by simpa using hn, fun q => ?_⟩
        cases q with
        | nil => simp
        | cons c q => cases c <;> simp [hq]
      | false =>
        simp only [Trie.insert, Bool.false_eq_true, if_false, Option.map_eq_some_iff] at h
        obtain ⟨u, hu, rfl⟩ := h
        obtain ⟨hn, hq⟩ := ih hu
        refine ⟨by simpa using hn, fun q => ?_⟩
        cases q with
        | nil => simp
        | cons c q => cases c <;> simp [hq]

/-- What the outer loop of R176 adds to the map: each used symbol's code, none of them there before. -/
theorem lookup_buildFrom {l : List (Nat × Nat)} {k : Nat} {t t' : Trie} (h : buildFrom k l t = some t')
    (p : Bits) (s : Nat) :
    t'.lookup p = some s ↔
      t.lookup p = some s ∨ ∃ i, i < l.length ∧ s = k + i ∧ (l.getD i (0, 0)).1 ≠ 0 ∧
        p = bitsBE (l.getD i (0, 0)).1 (l.getD i (0, 0)).2 := by
  induction l generalizing k t with
  | nil =>
    simp only [buildFrom, Option.some.injEq] at h
    subst h
    simp
  | cons x l ih =>
    obtain ⟨n, c⟩ := x
    simp only [buildFrom] at h
    split at h
    · rename_i hn
      rw [ih h]
      constructor
      · rintro (h' | ⟨i, hi, rfl, h'⟩)
        · exact .inl h'
        · exact .inr ⟨i + 1, by simpa using hi, by omega, by simpa using h'⟩
      · rintro (h' | ⟨i, hi, rfl, h'⟩)
        · exact .inl h'
        · cases i with
          | zero => simp [hn] at h'
          | succ i => exact .inr ⟨i, by simpa using hi, by omega, by simpa using h'⟩
    · rename_i hn
      split at h
      · simp at h
      · split at h
        · simp at h
        · rename_i u hu
          obtain ⟨hnone, hq⟩ := Trie.lookup_insert hu
          rw [ih h, hq]
          constructor
          · rintro (h' | ⟨i, hi, rfl, h'⟩)
            · split at h'
              · rename_i hp
                simp only [Option.some.injEq] at h'
                exact .inr ⟨0, by simp, by omega, by simpa using hn, by simpa using hp⟩
              · exact .inl h'
            · exact .inr ⟨i + 1, by simpa using hi, by omega, by simpa using h'⟩
          · rintro (h' | ⟨i, hi, rfl, h'⟩)
            · left
              rw [if_neg]
              · exact h'
              · rintro rfl; simp [hnone] at h'
            · cases i with
              | zero => left; simp only [List.getD_cons_zero] at h'; rw [if_pos h'.2]; simp
              | succ i => exact .inr ⟨i, by simpa using hi, by omega, by simpa using h'⟩

theorem length_assignFrom (tbl ls : List Nat) : (assignFrom tbl ls).length = ls.length := by
  induction ls generalizing tbl with
  | nil => rfl
  | cons l ls ih =>
    unfold assignFrom
    split <;> simp [ih]

@[simp] theorem length_assignCodes (len : List Nat) : (assignCodes len).length = len.length :=
  length_assignFrom _ _

/-- The map of a built trie (R177): exactly the codes of the used symbols. -/
theorem lookup_buildDecodeTree {len : List Nat} {t : Trie} (h : buildDecodeTree len = some t) (p : Bits) (s : Nat) :
    t.lookup p = some s ↔ len.getD s 0 ≠ 0 ∧ p = symbolBits len s := by
  have hz : ∀ i, i < len.length →
      (len.zip (assignCodes len)).getD i (0, 0) = (len.getD i 0, (assignCodes len).getD i 0) := by
    intro i hi
    simp [List.getD_eq_getElem?_getD, hi]
  rw [lookup_buildFrom h]
  constructor
  · rintro (h' | ⟨i, hi, rfl, h'⟩)
    · simp at h'
    · have hi' : i < len.length := by simpa using hi
      rw [hz i hi'] at h'
      simpa [symbolBits] using h'
  · rintro ⟨h1, rfl⟩
    have hs : s < len.length := by
      by_contra hc
      simp [List.getD_eq_getElem?_getD, List.getElem?_eq_none (not_lt.mp hc)] at h1
    refine .inr ⟨s, by simpa using hs, by omega, ?_⟩
    rw [hz s hs]
    exact ⟨h1, rfl⟩

/-- The walk finds the symbol whose path the stream starts with (R178). -/
theorem Trie.walkFrom_of_lookup {t : Trie} {p rest : Bits} {s : Nat} (hp : p ≠ []) (h : t.lookup p = some s)
    (u : Nat) : t.walkFrom (p ++ rest) u = .found s (u + p.length) rest := by
  induction p generalizing t u with
  | nil => exact absurd rfl hp
  | cons b p ih =>
    cases t with
    | nil => simp at h
    | leaf _ => simp at h
    | node z o =>
      have hc : (Trie.node z o).child b = if b then o else z := rfl
      have h' : (if b then o else z).lookup p = some s := by cases b <;> simpa using h
      simp only [List.cons_append, Trie.walkFrom, hc]
      generalize (if b then o else z) = c at h'
      cases c with
      | nil => simp at h'
      | leaf s' =>
        cases p with
        | nil => simp only [Trie.lookup_leaf_nil, Option.some.injEq] at h'; subst h'; simp
        | cons _ _ => simp at h'
      | node z' o' =>
        cases p with
        | nil => simp at h'
        | cons c' p' =>
          simp only []
          rw [ih (by simp) h']
          simp only [List.length_cons]
          congr 1
          omega

/-- A symbol the walk finds is at the path it consumed. -/
theorem Trie.lookup_of_walkFrom {t : Trie} {bs rest : Bits} {s u v : Nat} (h : t.walkFrom bs u = .found s v rest) :
    ∃ p, p ≠ [] ∧ bs = p ++ rest ∧ v = u + p.length ∧ t.lookup p = some s := by
  induction bs generalizing t u with
  | nil => simp [Trie.walkFrom] at h
  | cons b bs ih =>
    simp only [Trie.walkFrom] at h
    cases t with
    | nil => simp [Trie.child] at h
    | leaf _ => simp [Trie.child] at h
    | node z o =>
      have hc : (Trie.node z o).child b = if b then o else z := rfl
      rw [hc] at h
      have hl : ∀ q, (Trie.node z o).lookup (b :: q) = (if b then o else z).lookup q := by
        intro q; cases b <;> rfl
      generalize (if b then o else z) = c at h hl
      cases c with
      | nil => simp at h
      | leaf s' =>
        simp only [Walk.found.injEq] at h
        obtain ⟨rfl, rfl, rfl⟩ := h
        exact ⟨[b], by simp, by simp, by simp, by rw [hl]; rfl⟩
      | node z' o' =>
        obtain ⟨p, -, rfl, rfl, hp⟩ := ih h
        exact ⟨b :: p, by simp, by simp, by simp; omega, by rw [hl]; exact hp⟩

/-- The walk consumes no more bits than there are. -/
theorem Trie.walkFrom_used {t : Trie} {bs : Bits} {u : Nat} :
    match t.walkFrom bs u with
    | .found _ v rest => u < v ∧ v + rest.length = u + bs.length
    | .exhausted v => v = u + bs.length
    | .walkOff v => u < v ∧ v ≤ u + bs.length := by
  induction bs generalizing t u with
  | nil => simp [Trie.walkFrom]
  | cons b bs ih =>
    rw [Trie.walkFrom]
    cases t.child b with
    | nil => simp only [List.length_cons]; omega
    | leaf s => simp only [List.length_cons]; omega
    | node z o =>
      have h := ih (t := .node z o) (u := u + 1)
      simp only [List.length_cons]
      cases hw : (Trie.node z o).walkFrom bs (u + 1) <;> rw [hw] at h <;> simp only at h ⊢ <;> omega

/-- FTREE_LL is the trie of FIX_LL_LEN (R179). -/
theorem ftreeLl_eq : buildDecodeTree fixLlLen = some ftreeLl := by decide +kernel

/-- FTREE_D is the trie of FIX_D_LEN (R179). -/
theorem ftreeD_eq : buildDecodeTree fixDLen = some ftreeD := by decide +kernel

/-! ### the walk by the children (R178) -/

theorem foldl_child_nil (bs : Bits) : bs.foldl Trie.child .nil = .nil := by
  induction bs with
  | nil => rfl
  | cons b bs ih => simpa [Trie.child] using ih

theorem foldl_child_leaf (s : Nat) {bs : Bits} (h : bs ≠ []) : bs.foldl Trie.child (.leaf s) = .nil := by
  cases bs with
  | nil => exact absurd rfl h
  | cons b bs => simpa [Trie.child] using foldl_child_nil bs

/-- As long as the walk goes on it consumes its bits and is at the node they lead to. -/
theorem walkFrom_of_goesOn {t : Trie} {pre : Bits} (rest : Bits) (u : Nat) (h : WalkGoesOn t pre) :
    t.walkFrom (pre ++ rest) u = (pre.foldl Trie.child t).walkFrom rest (u + pre.length) := by
  induction pre generalizing t u with
  | nil => rfl
  | cons b pre ih =>
    obtain h | ⟨z, o, h⟩ := h
    · simp at h
    simp only [List.foldl_cons, List.cons_append, List.length_cons] at h ⊢
    rw [Trie.walkFrom]
    cases hc : t.child b with
    | nil => rw [hc, foldl_child_nil] at h; simp at h
    | leaf s =>
      rw [hc] at h
      by_cases hp : pre = []
      · simp [hp] at h
      · rw [foldl_child_leaf s hp] at h; simp at h
    | node z' o' =>
      rw [hc] at h
      simp only
      rw [ih (u + 1) (.inr ⟨z, o, h⟩), Nat.add_assoc, Nat.add_comm 1]

/-- The walk ends at the leaf its bits lead to. -/
theorem walk_of_endsAt {t : Trie} {pre : Bits} {s : Nat} (rest : Bits) (h : WalkEndsAt t pre s) :
    t.walk (pre ++ rest) = .found s pre.length rest := by
  obtain ⟨hn, h⟩ := h
  obtain ⟨p, b, rfl⟩ : ∃ p b, pre = p ++ [b] :=
    ⟨pre.dropLast, pre.getLast hn, (List.dropLast_append_getLast hn).symm⟩
  simp only [List.foldl_append, List.foldl_cons, List.foldl_nil] at h
  have hw : WalkGoesOn t p := by
    cases hp : p.foldl Trie.child t with
    | nil => rw [hp] at h; simp [Trie.child] at h
    | leaf s => rw [hp] at h; simp [Trie.child] at h
    | node z o => exact .inr ⟨z, o, hp⟩
  rw [Trie.walk, List.append_assoc, walkFrom_of_goesOn _ 0 hw]
  simp [Trie.walkFrom, h]

end Sys2Proof
end

