-- ==== Sys2Proof/Laws/Step.lean ====
section
/-! SUPPORT. What one step can be, by whose move it is: the inversion lemmas that later proofs cite instead of
unfolding the step. -/

namespace Sys2Proof.Machine

/-- A step of the INFLATE engine that goes on ran the element at the grammar position, or raised the cause of
one that could not be decoded, or took a transition that has no element. -/
theorem step_inf_cases {s t : State} (ht : s.turn = .inf) (h : step s = .next t) :
    (∃ p i used, s.inf.pos = some p ∧ decodeAt p (s.inf.restBits s.infIn) = .ok i used ∧
      exec i (if movesCursor i then s else s.withInf fun r => r.advance used) = .next t) ∨
    (∃ p c used, s.inf.pos = some p ∧ decodeAt p (s.inf.restBits s.infIn) = .reject c used ∧
      t = (s.withInf fun r => r.advance used).raiseFormat c) ∨
    (s.inf.pos = none ∧ t = s.infInternal) := by
  unfold step State.nextAction at h
  rw [ht] at h
  simp only [State.infAction] at h
  cases hp : s.inf.pos with
  | none =>
    rw [hp] at h
    simp only [Host.Outcome.next.injEq] at h
    exact .inr (.inr ⟨rfl, h.symm⟩)
  | some p =>
    rw [hp] at h
    simp only [State.fetchAt] at h
    cases hd : decodeAt p (s.inf.restBits s.infIn) with
    | ok i used => rw [hd] at h; exact .inl ⟨p, i, used, rfl, hd, h⟩
    | reject c used =>
      rw [hd] at h
      simp only [Host.Outcome.next.injEq] at h
      exact .inr (.inl ⟨p, c, used, rfl, hd, h.symm⟩)

/-- A step of the DEFLATE engine that goes on was one pass of R380's loop. -/
theorem step_dfl_cases {s t : State} (ht : s.turn = .dfl) (h : step s = .next t) :
    (s.dfl.dState = .dInit ∧ t = s.passInit) ∨
    (s.dfl.dState = .dBlock ∧ t = s.passBlock) ∨
    (s.dfl.dState = .dNocomp ∧ s.dfl.blkStart + s.dfl.blkLen ≤ s.dfl.inEnd ∧
      t = s.emitList (storedItems s.dflIn s.dfl) DefRegs.endBlock) ∨
    (s.dfl.dState = .dLzss ∧ t = s.passLzss) ∨
    (s.dfl.dState = .dFixed ∧ t = s.passFixed) ∨
    (s.dfl.dState = .dDynamic ∧ t = s.passDynamic) ∨
    (s.dfl.dState = .dEnd ∧ t = s.emitList (trailerItems s.dfl.adler) fun r => { r with dState := .dDone }) ∨
    (s.dfl.dState = .dDone ∧ t = s.passDone) := by
  unfold step State.nextAction at h
  rw [ht] at h
  simp only [State.dflAction] at h
  cases hd : s.dfl.dState <;> rw [hd] at h <;>
    simp only [exec, execTrailer, State.passNocomp, Host.Outcome.next.injEq] at h
  case dNocomp =>
    split at h
    · exact absurd h (by simp)
    · simp only [Host.Outcome.next.injEq] at h
      simp [← h]
      omega
  all_goals simp [← h]

/-- A step of the host that goes on ran the first waiting command, or there was none and nothing happened. -/
theorem step_host_cases {s t : State} (ht : s.turn = .host) (h : step s = .next t) :
    (∃ x rest, s.cmds = x :: rest ∧ exec (commandOf x.code.toNat x.ops) { s with cmds := rest } = .next t) ∨
    (s.cmds = [] ∧ t = s) := by
  unfold step State.nextAction at h
  rw [ht] at h
  simp only [State.hostAction] at h
  cases hc : s.cmds with
  | nil => rw [hc] at h; simp only [Host.Outcome.next.injEq] at h; exact .inr ⟨rfl, h.symm⟩
  | cons x rest => rw [hc] at h; exact .inl ⟨x, rest, rfl, h⟩

/-- The one meaning that a distance element has (R338, R341): after a length it raises or it emits. -/
theorem takeDistance_cases {s t : State} {d : Nat} (h : s.takeDistance d = .next t) :
    ∃ sym len, s.inf.sub = .distance sym len ∧
      ((s.inf.totalOut < d ∧ t = s.raiseFormat .distTooFar) ∨
        (d ≤ s.inf.totalOut ∧ t = (s.withInf fun r =>
          { r with pendSym := sym, pendLen := len, pendDist := d, sub := .start }).drainCode)) := by
  unfold State.takeDistance at h
  split at h
  · rename_i sym len hs
    refine ⟨sym, len, hs, ?_⟩
    split at h
    · exact .inl ⟨‹_›, by simpa using h.symm⟩
    · exact .inr ⟨by omega, by simpa using h.symm⟩
  · simp at h

/-- A run of code lengths is appended or overruns the alphabet (R336). -/
theorem appendRun_cases (seq : List (BitVec 4)) (n : Nat) (v : BitVec 4) (s : State) :
    (s.inf.nSeq < seq.length + n ∧ s.appendRun seq n v = s.raiseFormat .alphabetSize) ∨
    (seq.length + n ≤ s.inf.nSeq ∧
      s.appendRun seq n v = s.withInf fun r => { r with sub := .lengths (seq ++ List.replicate n v) }) := by
  unfold State.appendRun
  split
  · exact .inl ⟨‹_›, rfl⟩
  · exact .inr ⟨by omega, rfl⟩

end Sys2Proof.Machine
end

