-- ==== Sys2Proof/Laws/Widths.lean ====
section
/-! SUPPORT. What fitting a value to its register leaves: it is always within the width, and every value
within the width is left as it is, so that an unspecified register may hold every value of its width and no
other. -/

namespace Sys2Proof.Machine

theorem le_two_pow_ceilLog2 (n : Nat) : n ≤ 2 ^ ceilLog2 n := by
  unfold ceilLog2
  split
  · omega
  · have := Nat.lt_log2_self (n := n - 1)
    omega

@[simp] theorem fitBits_lt (n v : Nat) : fitBits n v < 2 ^ n := Nat.mod_lt _ (Nat.two_pow_pos n)

theorem fitBits_of_lt {n v : Nat} (h : v < 2 ^ n) : fitBits n v = v := Nat.mod_eq_of_lt h

theorem Trie.fit_fits (d : Nat) (t : Trie) : Trie.Fits d (Trie.fit d t) := by
  induction t generalizing d with
  | nil => simp [Trie.fit, Trie.Fits]
  | leaf s => simpa [Trie.fit, Trie.Fits] using fitBits_lt 9 s
  | node z o hz ho =>
    cases d with
    | zero => simp [Trie.fit, Trie.Fits]
    | succ d => exact ⟨hz d, ho d⟩

theorem Trie.fit_of_fits {d : Nat} {t : Trie} (h : Trie.Fits d t) : Trie.fit d t = t := by
  induction t generalizing d with
  | nil => simp [Trie.fit]
  | leaf s => rw [Trie.fit, fitBits_of_lt (by simpa [Trie.Fits] using h)]
  | node z o hz ho =>
    cases d with
    | zero => simp [Trie.Fits] at h
    | succ d => rw [Trie.fit, hz h.1, ho h.2]

theorem InfRegs.fit_widthsOk (c : Config) (r : InfRegs) : (r.fit c).WidthsOk c where
  brLen := fitBits_lt ..
  brByte := fitBits_lt ..
  pendLen := fitBits_lt ..
  pendDist := fitBits_lt ..
  storedRem := fitBits_lt ..
  winPos := fitBits_lt ..
  trees := ⟨Trie.fit_fits .., Trie.fit_fits .., Trie.fit_fits ..⟩
  outLim := fitBits_lt ..
  thisOut := fitBits_lt ..

theorem InfRegs.fit_of_widthsOk {c : Config} {r : InfRegs} (h : r.WidthsOk c) : r.fit c = r := by
  rw [InfRegs.fit, fitBits_of_lt h.brLen, fitBits_of_lt h.brByte, fitBits_of_lt h.pendLen,
    fitBits_of_lt h.pendDist, fitBits_of_lt h.storedRem, fitBits_of_lt h.winPos, Trie.fit_of_fits h.trees.1,
    Trie.fit_of_fits h.trees.2.1, Trie.fit_of_fits h.trees.2.2, fitBits_of_lt h.outLim, fitBits_of_lt h.thisOut]

/-- Every entry of a fitted table is within the width. -/
theorem map_fitBits_lt {n k : Nat} (v : Vector Nat n) : ∀ x ∈ (v.map (fitBits k)).toList, x < 2 ^ k := by
  intro x hx
  rw [Vector.toList_map] at hx
  obtain ⟨y, -, rfl⟩ := List.mem_map.1 hx
  exact fitBits_lt k y

theorem map_fitBits_of_lt {n k : Nat} {v : Vector Nat n} (h : ∀ x ∈ v.toList, x < 2 ^ k) :
    v.map (fitBits k) = v := by
  apply Vector.toList_inj.1
  rw [Vector.toList_map]
  exact (List.map_congr_left fun x hx => fitBits_of_lt (h x hx)).trans (List.map_id _)

theorem Token.fit_fits (t : Token) : t.fit.Fits := ⟨fitBits_lt .., fitBits_lt .., fitBits_lt ..⟩

theorem Token.fit_of_fits {t : Token} (h : t.Fits) : t.fit = t := by
  simp [Token.fit, fitBits_of_lt h.1, fitBits_of_lt h.2.1, fitBits_of_lt h.2.2]

theorem RleItem.fit_fits (e : RleItem) : e.fit.Fits := ⟨fitBits_lt .., fitBits_lt ..⟩

theorem RleItem.fit_of_fits {e : RleItem} (h : e.Fits) : e.fit = e := by
  simp [RleItem.fit, fitBits_of_lt h.1, fitBits_of_lt h.2]

/-! An array held in two parts, cut to its `n` entries and to the widths of an entry. -/

theorem fitParts_length {α : Type} [DecidableEq α] (f : α → α) (d : α) (n : Nat) (a b : List α) :
    ((a.take n).map f).length + (trimEnd d ((b.take (n - a.length)).map f)).length ≤ n := by
  have := length_trimEnd_le d ((b.take (n - a.length)).map f)
  simp only [List.length_map, List.length_take] at this ⊢
  omega

theorem fitParts_forall {α : Type} [DecidableEq α] {f : α → α} {P : α → Prop} (h : ∀ x, P (f x)) (d : α) (n k : Nat)
    (a b : List α) : ∀ x ∈ (a.take n).map f ++ trimEnd d ((b.take k).map f), P x := by
  intro x hx
  rcases List.mem_append.1 hx with hx | hx
  · obtain ⟨y, -, rfl⟩ := List.mem_map.1 hx; exact h y
  · obtain ⟨y, -, rfl⟩ := List.mem_map.1 (mem_of_mem_trimEnd hx); exact h y

theorem fitParts_of_forall {α : Type} [DecidableEq α] {f : α → α} {d : α} {n : Nat} {a b : List α}
    (hl : a.length + b.length ≤ n) (h : ∀ x ∈ a ++ b, f x = x) (ht : trimEnd d b = b) :
    (a.take n).map f = a ∧ trimEnd d ((b.take (n - a.length)).map f) = b := by
  have hm : ∀ l : List α, (∀ x ∈ l, f x = x) → l.map f = l := fun l hf =>
    (List.map_congr_left hf).trans (List.map_id _)
  rw [List.take_of_length_le (by omega), List.take_of_length_le (by omega),
    hm a fun x hx => h x (List.mem_append_left _ hx), hm b fun x hx => h x (List.mem_append_right _ hx)]
  exact ⟨rfl, ht⟩

theorem fitHist_fits (c : Config) (l : List HistEntry) :
    (fitHist c l).length ≤ c.histCap ∧ ∀ e ∈ fitHist c l, e.Fits c := by
  refine ⟨by simp [fitHist], fun e he => ?_⟩
  obtain ⟨x, hx, rfl⟩ := List.mem_map.1 he
  have := List.of_mem_filter (List.mem_of_mem_take hx)
  exact ⟨of_decide_eq_true this, fitBits_lt ..⟩

theorem fitHist_of_fits {c : Config} {l : List HistEntry} (hl : l.length ≤ c.histCap) (h : ∀ e ∈ l, e.Fits c) :
    fitHist c l = l := by
  rw [fitHist, List.filter_eq_self.2 fun e he => decide_eq_true (h e he).1, List.take_of_length_le hl]
  exact (List.map_congr_left fun e he => by rw [fitBits_of_lt (h e he).2, id]).trans (List.map_id _)

theorem DefRegs.fit_widthsOk (c : Config) (r : DefRegs) : (r.fit c).WidthsOk c where
  inCur := fitBits_lt ..
  inEnd := fitBits_lt ..
  bitqCnt := fitBits_lt ..
  adler := ⟨fitBits_lt .., fitBits_lt ..⟩
  tok := ⟨fitParts_length .., fitParts_forall (P := Token.Fits) Token.fit_fits _ _ _ _ _, trimEnd_trimEnd ..⟩
  freqLl := map_fitBits_lt _
  freqD := map_fitBits_lt _
  freqCl := map_fitBits_lt _
  llcLen := map_fitBits_lt _
  dcLen := map_fitBits_lt _
  clcLen := map_fitBits_lt _
  counts := ⟨fitBits_lt .., fitBits_lt .., fitBits_lt ..⟩
  rle := ⟨fitParts_length .., fitParts_forall (P := RleItem.Fits) RleItem.fit_fits _ _ _ _ _, trimEnd_trimEnd ..⟩
  blk := ⟨fitBits_lt .., fitBits_lt ..⟩
  hist := fitHist_fits c r.hist
  free := by
    refine ⟨by simp [DefRegs.fit], fun s hs => ?_, Nat.min_le_right _ _⟩
    simp only [DefRegs.fit] at hs
    simpa using List.of_mem_filter (List.mem_of_mem_take hs)
  evictCur := fitBits_lt ..
  emitIdx := fitBits_lt ..
  outLim := fitBits_lt ..
  thisOut := fitBits_lt ..

theorem DefRegs.fit_codesOk (c : Config) (r : DefRegs) : (r.fit c).CodesOk :=
  ⟨map_fitBits_lt _, map_fitBits_lt _, map_fitBits_lt _⟩

theorem DefRegs.fit_of_widthsOk {c : Config} {r : DefRegs} (h : r.WidthsOk c) (hc : r.CodesOk) : r.fit c = r := by
  obtain ⟨htok, htokR⟩ := fitParts_of_forall h.tok.1 (fun t ht => Token.fit_of_fits (h.tok.2.1 t ht)) h.tok.2.2
  obtain ⟨hrle, hrleR⟩ := fitParts_of_forall h.rle.1 (fun e he => RleItem.fit_of_fits (h.rle.2.1 e he)) h.rle.2.2
  have hfree : (r.freed.filter fun s => decide (s < c.histCap)).take c.histCap = r.freed := by
    rw [List.filter_eq_self.2 fun s hs => decide_eq_true (h.free.2.1 s hs), List.take_of_length_le h.free.1]
  rw [DefRegs.fit, htok, htokR, hrle, hrleR, hfree, fitHist_of_fits h.hist.1 h.hist.2, Nat.min_eq_left h.free.2.2,
    map_fitBits_of_lt h.freqLl, map_fitBits_of_lt h.freqD, map_fitBits_of_lt h.freqCl,
    map_fitBits_of_lt h.llcLen, map_fitBits_of_lt h.dcLen, map_fitBits_of_lt h.clcLen,
    map_fitBits_of_lt hc.1, map_fitBits_of_lt hc.2.1, map_fitBits_of_lt hc.2.2,
    fitBits_of_lt h.inCur, fitBits_of_lt h.inEnd, fitBits_of_lt h.bitqCnt, fitBits_of_lt h.adler.1,
    fitBits_of_lt h.adler.2, fitBits_of_lt h.counts.1, fitBits_of_lt h.counts.2.1, fitBits_of_lt h.counts.2.2,
    fitBits_of_lt h.blk.1, fitBits_of_lt h.blk.2, fitBits_of_lt h.evictCur, fitBits_of_lt h.emitIdx,
    fitBits_of_lt h.outLim, fitBits_of_lt h.thisOut]

/-! ### unspecified registers -/

theorem State.freeInfRegs_widthsOk (s : State) : s.freeInfRegs.WidthsOk s.cfg := InfRegs.fit_widthsOk ..

theorem State.freeDflRegs_widthsOk (s : State) : s.freeDflRegs.WidthsOk s.cfg := DefRegs.fit_widthsOk ..

theorem State.freeDflRegs_codesOk (s : State) : s.freeDflRegs.CodesOk := DefRegs.fit_codesOk ..

end Sys2Proof.Machine
end

