-- ==== Sys2Proof/Tests/Slice0.lean ====
section
/-! SUPPORT. The model's own tests: ill-formed terms that WellFormed refuses, words written out from the spec's
encodings, single steps whose results stand in 95_test_vectors.md or are computed by hand from its rules,
and, for every obligation with hypotheses, states and operands that meet them. -/

namespace Sys2Proof.Tests

set_option Elab.async false

open Sys2Proof Sys2Proof.Machine

/-! ### helpers -/

/-- Stream bits written as 0 and 1. -/
def wire (l : List Nat) : Bits := l.map fun n => n == 1

/-- The next state of a result, if it has one. -/
def next? : Result → Option State
  | .next t => some t
  | .fault _ => none
  | .refused _ => none

/-- The refusal of a result, if it is one. -/
def refusal? : Result → Option Refusal
  | .next _ => none
  | .fault _ => none
  | .refused r => some r

/-- An INFLATE session in the engine's move: INPUT, the capacity of the STEP, and the registers `f` sets. -/
def infAt (input : List Byte) (cap : Nat) (f : InfRegs → InfRegs) : State :=
  { State.reset with
    turn := .inf
    infLife := .active
    infIn := Memory.ofBytes input
    inf := f { InfRegs.powerOn with brLen := input.length, outLim := cap } }

/-- A DEFLATE session in the engine's move. -/
def dflAt (input : List Byte) (cap : Nat) (f : DefRegs → DefRegs) : State :=
  { State.reset with
    turn := .dfl
    dflLife := .active
    dflIn := Memory.ofBytes input
    dfl := f { DefRegs.powerOn with inEnd := input.length, outLim := cap, adlerS1 := 1 } }

/-- The bytes of an ASCII text. -/
def text (s : List Char) : List Byte := s.map fun c => BitVec.ofNat 8 c.toNat

/-- The tokens of one pass as (symbol or length, distance). -/
def passOf (c : Config) (input : List Byte) : List (Nat × Nat) :=
  let r := { DefRegs.powerOn with inEnd := input.length, adlerS1 := 1 }
  (r.runPass c (Memory.ofBytes input)).tok.map fun t => if t.dist = 0 then (t.sym, 0) else (t.len, t.dist)

/-! ### WellFormed refuses each ill-formed element (R120, R433 to R435) -/

theorem test_illformed_zhdr_cm : wellFormed Config.default (.zhdr 7 7 28 false 2) = false := by decide
theorem test_illformed_zhdr_cinfo : wellFormed Config.default (.zhdr 8 8 28 false 0) = false := by decide
theorem test_illformed_zhdr_fcheck : wellFormed Config.default (.zhdr 8 7 29 false 2) = false := by decide
theorem test_illformed_zhdr_fdict :
    wellFormed Config.default (.zhdr 8 7 27 true 2) = false ∧
    wellFormed { Config.default with fdictPolicy := .skip } (.zhdr 8 7 27 true 2) = true := by decide
theorem test_illformed_bhdr : wellFormed Config.default (.bhdrReserved true) = false := by decide
theorem test_illformed_shdr :
    wellFormed Config.default (.shdr 3 0xfffd) = false ∧ wellFormed Config.default (.shdr 3 0xfffc) = true := by decide
theorem test_illformed_dynhdr :
    wellFormed Config.default (.dynhdr 30 0 0) = false ∧ wellFormed Config.default (.dynhdr 29 31 15) = true := by decide
theorem test_illformed_symbols :
    wellFormed Config.default .ll286 = false ∧ wellFormed Config.default .ll287 = false ∧
    wellFormed Config.default .dist30 = false ∧ wellFormed Config.default .dist31 = false := by decide
theorem test_illformed_level : wellFormed Config.default (.defReset 0 [] 3) = false := by decide
theorem test_illformed_capacity :
    wellFormed Config.default (.infStep ⟨0, []⟩ (2 ^ 32)) = false ∧
    wellFormed Config.default (.defStep ⟨0, []⟩ (2 ^ 32)) = false ∧
    wellFormed Config.default (.infStep ⟨0, [5]⟩ (2 ^ 32 - 1)) = true := by decide
theorem test_illformed_buffer :
    wellFormed Config.default (.infStep ⟨0, [5, 6]⟩ 1) = false ∧ wellFormed Config.default (.defStep ⟨0, [5]⟩ 0) = false := by
  decide
theorem test_illformed_length :
    wellFormed { Config.default with xlen := 1 } (.infReset 0 [1, 2]) = false ∧
    wellFormed { Config.default with xlen := 1 } (.defReset 0 [1, 2] 0) = false := by decide

/-! ### words from the spec's encodings -/

/-- R301's pattern `0001cccckkkkkdll` with CINFO 7, FCHECK 28, FDICT 0, FLEVEL 2 (the bytes 78 9c). -/
theorem test_decode_zhdr :
    decodeAt .zhdr (wire [0, 0, 0, 1, 1, 1, 1, 0, 0, 0, 1, 1, 1, 0, 0, 1]) = .ok (.zhdr 8 7 28 false 2) 16 := by
  decide +kernel

/-- DICTID and TRAILER: four bytes, the most significant first (R305, R309). -/
theorem test_decode_big_endian :
    decodeAt .dictid (bitsOfBytes [0x12, 0x34, 0x56, 0x78]) = .ok (.dictid 0x12345678) 32 ∧
    decodeAt .trailer (bitsOfBytes [0x02, 0x4d, 0x01, 0x27]) = .ok (.trailer 0x024d0127) 32 := by decide +kernel

/-- R322: BFINAL, then BTYPE, least significant bit first. -/
theorem test_decode_bhdr :
    decodeAt .bhdr (wire [0, 0, 0]) = .ok (.bhdrStored false) 3 ∧
    decodeAt .bhdr (wire [1, 1, 0]) = .ok (.bhdrFixed true) 3 ∧
    decodeAt .bhdr (wire [0, 0, 1]) = .ok (.bhdrDynamic false) 3 ∧
    decodeAt .bhdr (wire [1, 1, 1]) = .ok (.bhdrReserved true) 3 := by decide +kernel

/-- R330: the padding's bits are not examined; R331, R332. -/
theorem test_decode_stored :
    decodeAt (.pad 5) (wire [1, 0, 1, 0, 1]) = .ok .pad 5 ∧
    decodeAt .shdr (bitsOfBytes [0x0a, 0x00, 0xf5, 0xff]) = .ok (.shdr 10 0xfff5) 32 ∧
    decodeAt .raw (wire [1, 0, 0, 0, 0, 1, 1, 0]) = .ok (.raw 0x61) 8 := by decide +kernel

/-- R334 and R335. -/
theorem test_decode_dynamic_header :
    decodeAt .dynhdr (wire [1, 0, 1, 1, 1, 0, 1, 0, 0, 0, 1, 0, 0, 1]) = .ok (.dynhdr 29 2 9) 14 ∧
    decodeAt .cllens (wire [1, 1, 0]) = .ok (.cllens 3) 3 := by decide +kernel

/-- The code-length elements under the tree of lengths 16: 2, 17: 2, 18: 2, 5: 2, whose codes are 5 `00`,
16 `01`, 17 `10`, 18 `11` (R174, R584 to R587). -/
theorem test_decode_codelen :
    let t := (buildDecodeTree [0, 0, 0, 0, 0, 2, 0, 0, 0, 0, 0, 0, 0, 0, 0, 0, 2, 2, 2]).getD .nil
    decodeAt (.clsym t true) (wire [0, 0]) = .ok (.cl 5) 2 ∧
    decodeAt (.clsym t false) (wire [0, 1, 0, 1]) = .ok (.cl16 2) 4 ∧
    decodeAt (.clsym t true) (wire [0, 1, 0, 1]) = .reject .repeatNoPrev 2 ∧
    decodeAt (.clsym t true) (wire [1, 0, 1, 1, 0]) = .ok (.cl17 3) 5 ∧
    decodeAt (.clsym t true) (wire [1, 1, 1, 0, 1, 0, 0, 0, 0]) = .ok (.cl18 5) 9 := by decide +kernel

/-- R109: bit 2 is the engine, bits 1:0 the operation. -/
theorem test_decode_commands :
    let o : HostOps := { allocOk := true, space := 4, data := [7], level := 2, cap := 9 }
    decodeAt (.hcmd o) (wire [0, 0, 0]) = .ok (.infCreate true) 3 ∧
    decodeAt (.hcmd o) (wire [1, 0, 0]) = .ok (.infReset 4 [7]) 3 ∧
    decodeAt (.hcmd o) (wire [0, 1, 0]) = .ok (.infStep ⟨4, [7]⟩ 9) 3 ∧
    decodeAt (.hcmd o) (wire [1, 1, 0]) = .ok .infDestroy 3 ∧
    decodeAt (.hcmd o) (wire [0, 0, 1]) = .ok (.defCreate true) 3 ∧
    decodeAt (.hcmd o) (wire [1, 0, 1]) = .ok (.defReset 4 [7] 2) 3 ∧
    decodeAt (.hcmd o) (wire [0, 1, 1]) = .ok (.defStep ⟨4, [7]⟩ 9) 3 ∧
    decodeAt (.hcmd o) (wire [1, 1, 1]) = .ok .defDestroy 3 := by decide +kernel

/-- The lit/len elements in a Fixed block: the code of R113, then the extra bits of R115, the first least
significant (R520 to R551). -/
theorem test_decode_litlen_a :
    decodeAt (.llsym ftreeLl) (wire [0, 0, 1, 1, 0, 0, 0, 0]) = .ok (.lit 0x00) 8 ∧
    decodeAt (.llsym ftreeLl) (wire [1, 0, 1, 1, 1, 1, 1, 1]) = .ok (.lit 0x8f) 8 ∧
    decodeAt (.llsym ftreeLl) (wire [1, 1, 0, 0, 1, 0, 0, 0, 0]) = .ok (.lit 0x90) 9 ∧
    decodeAt (.llsym ftreeLl) (wire [1, 1, 1, 1, 1, 1, 1, 1, 1]) = .ok (.lit 0xff) 9 ∧
    decodeAt (.llsym ftreeLl) (wire [0, 0, 0, 0, 0, 0, 0]) = .ok .eob 7 ∧
    decodeAt (.llsym ftreeLl) (wire [0, 0, 0, 0, 0, 0, 1]) = .ok .len257 7 ∧
    decodeAt (.llsym ftreeLl) (wire [0, 0, 0, 0, 0, 1, 0]) = .ok .len258 7 ∧
    decodeAt (.llsym ftreeLl) (wire [0, 0, 0, 0, 0, 1, 1]) = .ok .len259 7 ∧
    decodeAt (.llsym ftreeLl) (wire [0, 0, 0, 0, 1, 0, 0]) = .ok .len260 7 ∧
    decodeAt (.llsym ftreeLl) (wire [0, 0, 0, 0, 1, 0, 1]) = .ok .len261 7 ∧
    decodeAt (.llsym ftreeLl) (wire [0, 0, 0, 0, 1, 1, 0]) = .ok .len262 7 ∧
    decodeAt (.llsym ftreeLl) (wire [0, 0, 0, 0, 1, 1, 1]) = .ok .len263 7 ∧
    decodeAt (.llsym ftreeLl) (wire [0, 0, 0, 1, 0, 0, 0]) = .ok .len264 7 ∧
    decodeAt (.llsym ftreeLl) (wire [0, 0, 0, 1, 0, 0, 1, 1]) = .ok (.len265 1) 8 ∧
    decodeAt (.llsym ftreeLl) (wire [0, 0, 0, 1, 0, 1, 0, 1]) = .ok (.len266 1) 8 ∧
    decodeAt (.llsym ftreeLl) (wire [0, 0, 0, 1, 0, 1, 1, 1]) = .ok (.len267 1) 8 ∧
    decodeAt (.llsym ftreeLl) (wire [0, 0, 0, 1, 1, 0, 0, 1]) = .ok (.len268 1) 8 ∧
    decodeAt (.llsym ftreeLl) (wire [0, 0, 0, 1, 1, 0, 1, 1, 0]) = .ok (.len269 1) 9 := by decide +kernel

/-- The lit/len elements, continued. -/
theorem test_decode_litlen_b :
    decodeAt (.llsym ftreeLl) (wire [0, 0, 0, 1, 1, 1, 0, 1, 0]) = .ok (.len270 1) 9 ∧
    decodeAt (.llsym ftreeLl) (wire [0, 0, 0, 1, 1, 1, 1, 1, 0]) = .ok (.len271 1) 9 ∧
    decodeAt (.llsym ftreeLl) (wire [0, 0, 1, 0, 0, 0, 0, 1, 0]) = .ok (.len272 1) 9 ∧
    decodeAt (.llsym ftreeLl) (wire [0, 0, 1, 0, 0, 0, 1, 1, 0, 0]) = .ok (.len273 1) 10 ∧
    decodeAt (.llsym ftreeLl) (wire [0, 0, 1, 0, 0, 1, 0, 1, 0, 0]) = .ok (.len274 1) 10 ∧
    decodeAt (.llsym ftreeLl) (wire [0, 0, 1, 0, 0, 1, 1, 1, 0, 0]) = .ok (.len275 1) 10 ∧
    decodeAt (.llsym ftreeLl) (wire [0, 0, 1, 0, 1, 0, 0, 1, 0, 0]) = .ok (.len276 1) 10 ∧
    decodeAt (.llsym ftreeLl) (wire [0, 0, 1, 0, 1, 0, 1, 1, 0, 0, 0]) = .ok (.len277 1) 11 ∧
    decodeAt (.llsym ftreeLl) (wire [0, 0, 1, 0, 1, 1, 0, 1, 0, 0, 0]) = .ok (.len278 1) 11 ∧
    decodeAt (.llsym ftreeLl) (wire [0, 0, 1, 0, 1, 1, 1, 1, 0, 0, 0]) = .ok (.len279 1) 11 ∧
    decodeAt (.llsym ftreeLl) (wire [1, 1, 0, 0, 0, 0, 0, 0, 1, 0, 0, 0]) = .ok (.len280 1) 12 ∧
    decodeAt (.llsym ftreeLl) (wire [1, 1, 0, 0, 0, 0, 0, 1, 1, 0, 0, 0, 0]) = .ok (.len281 1) 13 ∧
    decodeAt (.llsym ftreeLl) (wire [1, 1, 0, 0, 0, 0, 1, 0, 1, 0, 0, 0, 0]) = .ok (.len282 1) 13 ∧
    decodeAt (.llsym ftreeLl) (wire [1, 1, 0, 0, 0, 0, 1, 1, 1, 0, 0, 0, 0]) = .ok (.len283 1) 13 ∧
    decodeAt (.llsym ftreeLl) (wire [1, 1, 0, 0, 0, 1, 0, 0, 1, 0, 0, 0, 0]) = .ok (.len284 1) 13 ∧
    decodeAt (.llsym ftreeLl) (wire [1, 1, 0, 0, 0, 1, 0, 1]) = .ok .len285 8 ∧
    decodeAt (.llsym ftreeLl) (wire [1, 1, 0, 0, 0, 1, 1, 0]) = .ok .ll286 8 ∧
    decodeAt (.llsym ftreeLl) (wire [1, 1, 0, 0, 0, 1, 1, 1]) = .ok .ll287 8 := by decide +kernel

/-- The distance elements in a Fixed block: the five-bit code of R114, then the extra bits of R116 (R553 to R583). -/
theorem test_decode_dist_a :
    decodeAt (.dsym ftreeD) (wire [0, 0, 0, 0, 0]) = .ok .dist0 5 ∧
    decodeAt (.dsym ftreeD) (wire [0, 0, 0, 0, 1]) = .ok .dist1 5 ∧
    decodeAt (.dsym ftreeD) (wire [0, 0, 0, 1, 0]) = .ok .dist2 5 ∧
    decodeAt (.dsym ftreeD) (wire [0, 0, 0, 1, 1]) = .ok .dist3 5 ∧
    decodeAt (.dsym ftreeD) (wire [0, 0, 1, 0, 0, 1]) = .ok (.dist4 1) 6 ∧
    decodeAt (.dsym ftreeD) (wire [0, 0, 1, 0, 1, 1]) = .ok (.dist5 1) 6 ∧
    decodeAt (.dsym ftreeD) (wire [0, 0, 1, 1, 0, 1, 0]) = .ok (.dist6 1) 7 ∧
    decodeAt (.dsym ftreeD) (wire [0, 0, 1, 1, 1, 1, 0]) = .ok (.dist7 1) 7 ∧
    decodeAt (.dsym ftreeD) (wire [0, 1, 0, 0, 0, 1, 0, 0]) = .ok (.dist8 1) 8 ∧
    decodeAt (.dsym ftreeD) (wire [0, 1, 0, 0, 1, 1, 0, 0]) = .ok (.dist9 1) 8 ∧
    decodeAt (.dsym ftreeD) (wire [0, 1, 0, 1, 0, 1, 0, 0, 0]) = .ok (.dist10 1) 9 ∧
    decodeAt (.dsym ftreeD) (wire [0, 1, 0, 1, 1, 1, 0, 0, 0]) = .ok (.dist11 1) 9 ∧
    decodeAt (.dsym ftreeD) (wire [0, 1, 1, 0, 0, 1, 0, 0, 0, 0]) = .ok (.dist12 1) 10 ∧
    decodeAt (.dsym ftreeD) (wire [0, 1, 1, 0, 1, 1, 0, 0, 0, 0]) = .ok (.dist13 1) 10 ∧
    decodeAt (.dsym ftreeD) (wire [0, 1, 1, 1, 0, 1, 0, 0, 0, 0, 0]) = .ok (.dist14 1) 11 ∧
    decodeAt (.dsym ftreeD) (wire [0, 1, 1, 1, 1, 1, 0, 0, 0, 0, 0]) = .ok (.dist15 1) 11 := by decide +kernel

/-- The distance elements, continued. -/
theorem test_decode_dist_b :
    decodeAt (.dsym ftreeD) (wire [1, 0, 0, 0, 0, 1, 0, 0, 0, 0, 0, 0]) = .ok (.dist16 1) 12 ∧
    decodeAt (.dsym ftreeD) (wire [1, 0, 0, 0, 1, 1, 0, 0, 0, 0, 0, 0]) = .ok (.dist17 1) 12 ∧
    decodeAt (.dsym ftreeD) (wire [1, 0, 0, 1, 0, 1, 0, 0, 0, 0, 0, 0, 0]) = .ok (.dist18 1) 13 ∧
    decodeAt (.dsym ftreeD) (wire [1, 0, 0, 1, 1, 1, 0, 0, 0, 0, 0, 0, 0]) = .ok (.dist19 1) 13 ∧
    decodeAt (.dsym ftreeD) (wire [1, 0, 1, 0, 0, 1, 0, 0, 0, 0, 0, 0, 0, 0]) = .ok (.dist20 1) 14 ∧
    decodeAt (.dsym ftreeD) (wire [1, 0, 1, 0, 1, 1, 0, 0, 0, 0, 0, 0, 0, 0]) = .ok (.dist21 1) 14 ∧
    decodeAt (.dsym ftreeD) (wire [1, 0, 1, 1, 0, 1, 0, 0, 0, 0, 0, 0, 0, 0, 0]) = .ok (.dist22 1) 15 ∧
    decodeAt (.dsym ftreeD) (wire [1, 0, 1, 1, 1, 1, 0, 0, 0, 0, 0, 0, 0, 0, 0]) = .ok (.dist23 1) 15 ∧
    decodeAt (.dsym ftreeD) (wire [1, 1, 0, 0, 0, 1, 0, 0, 0, 0, 0, 0, 0, 0, 0, 0]) = .ok (.dist24 1) 16 ∧
    decodeAt (.dsym ftreeD) (wire [1, 1, 0, 0, 1, 1, 0, 0, 0, 0, 0, 0, 0, 0, 0, 0]) = .ok (.dist25 1) 16 ∧
    decodeAt (.dsym ftreeD) (wire [1, 1, 0, 1, 0, 1, 0, 0, 0, 0, 0, 0, 0, 0, 0, 0, 0]) = .ok (.dist26 1) 17 ∧
    decodeAt (.dsym ftreeD) (wire [1, 1, 0, 1, 1, 1, 0, 0, 0, 0, 0, 0, 0, 0, 0, 0, 0]) = .ok (.dist27 1) 17 ∧
    decodeAt (.dsym ftreeD) (wire [1, 1, 1, 0, 0, 1, 0, 0, 0, 0, 0, 0, 0, 0, 0, 0, 0, 0]) = .ok (.dist28 1) 18 ∧
    decodeAt (.dsym ftreeD) (wire [1, 1, 1, 0, 1, 1, 0, 0, 0, 0, 0, 0, 0, 0, 0, 0, 0, 0]) = .ok (.dist29 1) 18 ∧
    decodeAt (.dsym ftreeD) (wire [1, 1, 1, 1, 0]) = .ok .dist30 5 ∧
    decodeAt (.dsym ftreeD) (wire [1, 1, 1, 1, 1]) = .ok .dist31 5 := by decide +kernel

/-- Short elements raise the cause their rules name, with what is left consumed (R302, R305, R322, R332, R143). -/
theorem test_decode_short :
    decodeAt .zhdr (bitsOfBytes [0x78]) = .reject .hdrTruncated 8 ∧
    decodeAt .bhdr (wire [1, 0]) = .reject .inputExhausted 2 ∧
    decodeAt .raw (wire [1, 1, 1]) = .reject .inputExhausted 0 ∧
    decodeAt (.llsym ftreeLl) (wire [0, 0, 1, 0, 0, 1, 0, 1]) = .reject .inputExhausted 8 := by decide +kernel

/-- 95_test_vectors.md 3.1. -/
theorem test_assign_codes :
    assignCodes [3, 3, 3, 3, 3, 2, 4, 4] = [2, 3, 4, 5, 6, 0, 14, 15] ∧
    assignCodes [2, 1, 3, 3] = [2, 0, 6, 7] ∧
    buildDecodeTree [1, 1, 1] = none := by decide +kernel

/-- 95_test_vectors.md 3.2, rows 4, 6, 8, 11 and 14. -/
theorem test_build_lengths :
    buildLengths [1, 2, 4, 8, 16, 32] 4 = [4, 4, 4, 4, 2, 1] ∧ buildLengths [0, 7, 0, 0] 15 = [0, 1, 0, 0] ∧
    buildLengths [10, 1, 1] 15 = [1, 2, 2] ∧ buildLengths [0, 0, 0] 15 = [0, 0, 0] ∧
    buildLengths [1, 1, 1, 3] 7 = [3, 3, 2, 1] := by decide +kernel

/-- 95_test_vectors.md 3.3: the tree of lengths 2, 2, 2 walks off at the second bit of `11`. -/
theorem test_walk_off : ((buildDecodeTree [2, 2, 2]).getD .nil).walk (wire [1, 1]) = .walkOff 2 := by decide +kernel

/-- 95_test_vectors.md 4.3. -/
theorem test_quantise :
    lc 18 = 11 ∧ lc 257 = 27 ∧ lc 258 = 28 ∧ dc 258 = 16 ∧ dc 16384 = 27 ∧ dc 32768 = 29 := by decide +kernel

/-- R385, R386: emptying the buffer and appending a token leaves the entries above it. -/
theorem test_tok_entries_stay :
    let r := ({ DefRegs.powerOn with tok := [⟨1, 1, 0⟩, ⟨2, 1, 0⟩], tokRest := [⟨3, 1, 0⟩] }).clearTok.pushTok ⟨9, 1, 0⟩
    r.tokCnt = 1 ∧ (List.range 4).map (fun k => (r.tokAt k).sym) = [9, 2, 3, 0] := by decide +kernel

/-- R393: a shorter RLE leaves the entries above its count. -/
theorem test_rle_entries_stay :
    let r := { DefRegs.powerOn with rle := [⟨1, 0⟩, ⟨16, 3⟩, ⟨0, 0⟩] }.writeRle [⟨18, 1⟩]
    r.rleCnt = 1 ∧ (List.range 4).map (fun k => (r.rleAt k).sym) = [18, 16, 0, 0] ∧ r.rleRest = [⟨16, 3⟩] := by
  decide +kernel

/-- 95_test_vectors.md 4.1: the longest match wins over the nearest; a match is never longer than its distance. -/
theorem test_pass_longest :
    passOf Config.default (text ['a', 'b', 'c', 'd', 'X', 'a', 'b', 'c', 'Y', 'a', 'b', 'c', 'd']) =
      [(97, 0), (98, 0), (99, 0), (100, 0), (88, 0), (3, 5), (89, 0), (4, 9)] ∧
    passOf Config.default (List.replicate 10 0x61) = [(97, 0), (97, 0), (97, 0), (3, 3), (4, 4)] := by decide +kernel

/-- 95_test_vectors.md 4.1: the tie under each WALK_ORDER (R218). -/
theorem test_pass_tie :
    let s := text ['a', 'b', 'c', 'X', 'a', 'b', 'c', 'Y', 'a', 'b', 'c']
    (passOf Config.default s).getLast? = some (3, 4) ∧
    (passOf { Config.default with walkOrder := .oldestFirst } s).getLast? = some (3, 8) := by decide +kernel

/-- 95_test_vectors.md 4.2: with HIST_CAP = 4 the position that could match has been evicted. -/
theorem test_pass_evicts :
    passOf { Config.default with histCap := 4 } (text ['a', 'b', 'c', 'd', 'e', 'a', 'b', 'c']) =
      [(97, 0), (98, 0), (99, 0), (100, 0), (101, 0), (97, 0), (98, 0), (99, 0)] := by decide +kernel

/-! ### single steps -/

/-- The header's checks (R302 to R305): the bytes 78 9c go on to I_BLOCK; 79 9c, 88 1c, 78 9d and 78 bb
raise METHOD, CINFO, FCHECK and FDICT. -/
theorem test_step_header :
    ((next? (step (infAt [0x78, 0x9c] 0 id))).map fun t => (t.inf.iState, t.inf.cmf, t.inf.flg)) =
      some (.iBlock, 0x78, 0x9c) ∧
    [[0x79, 0x9c], [0x88, 0x1c], [0x78, 0x9d], [0x78, 0xbb]].map
      (fun l => (next? (step (infAt l 0 id))).map fun t => t.inf.errCause) =
      [some .hdrMethod, some .hdrCinfo, some .hdrFcheck, some .hdrFdict] := by decide +kernel

/-- P-9: BTYPE 3 raises BLOCK_TYPE with BFINAL and BTYPE loaded and the cursor at (2, 3). -/
theorem test_step_reserved_block :
    (next? (step (infAt [0x78, 0x01, 0x07] 5 fun r => { r with iState := .iBlock, brByte := 2 }))).map
      (fun t => (t.inf.errCause, t.inf.bfinal, t.inf.btype, t.inf.bitpos, t.resp)) =
      some (.blockType, true, 3, 8 * 2 + 3, some (.step .errorFormat 0 0)) := by decide +kernel

/-- P-3: LEN 3 with NLEN fffd raises STORED_NLEN. -/
theorem test_step_nlen :
    (next? (exec (.shdr 3 0xfffd) (infAt [] 0 fun r => { r with iState := .iNocomp, sub := .stored }))).map
      (fun t => t.inf.errCause) = some .storedNlen := by decide +kernel

/-- A literal with room, and one held (R338, R342). -/
theorem test_step_lit :
    ((next? (exec (.lit 0x61) (infAt [] 1 id))).map fun t => (t.infOut.read 0, t.win.read 0, t.inf.thisOut, t.turn)) =
      some (0x61, 0x61, 1, .inf) ∧
    ((next? (exec (.lit 0x61) (infAt [] 0 id))).map fun t => (t.infOut, t.inf.pendLen, t.resp)) =
      some ([], 1, some (.step .pending 0 0)) := by decide +kernel

/-- A copy whose length is above its distance repeats its own bytes (R342): `a b` and (5, 2) give `ababa`. -/
theorem test_step_copy :
    let s := { infAt [] 9 fun r => { r with
        sub := .distance 259 5, winPos := 2, totalOut := 2, thisOut := 2, iState := .iFixed, iPhase := true } with
      win := Memory.ofBytes [0x61, 0x62], infOut := Memory.ofBytes [0x61, 0x62] }
    (next? (exec .dist1 s)).map (fun t => (t.infOut.bytes 0 7, t.inf.pendDist, t.inf.winPos)) =
      some ([0x61, 0x62, 0x61, 0x62, 0x61, 0x62, 0x61], 2, 7) := by decide +kernel

/-- A distance above the bytes output so far raises (R341); so does a reserved one (R583). -/
theorem test_step_too_far :
    let s := infAt [] 9 fun r => { r with sub := .distance 257 3, totalOut := 2, iState := .iFixed, iPhase := true }
    (next? (exec .dist2 s)).map (fun t => (t.inf.errCause, t.infOut)) = some (.distTooFar, []) ∧
    (next? (exec .dist30 s)).map (fun t => t.inf.errCause) = some .symbolInvalid := by decide +kernel

/-- R336: the run of CL18 that passes the end of the sequence raises ALPHABET_SIZE; one that ends there does
not. -/
theorem test_step_run_overrun :
    let s := infAt [] 0 fun r => { r with iState := .iDynamic, sub := .lengths (List.replicate 120 0) }
    (next? (exec (.cl18 127) s)).map (fun t => t.inf.sub) = some (.lengths (List.replicate 258 0)) ∧
    (next? (exec (.cl18 127) { s with inf := { s.inf with sub := .lengths (List.replicate 121 0) } })).map
      (fun t => t.inf.errCause) = some .alphabetSize := by decide +kernel

/-- R306: the header of each level. -/
theorem test_step_deflate_header :
    [Level.noCompression, .fixed, .dynamic].map (fun l =>
      (next? (step (dflAt [] 2 fun r => { r with level := l }))).map fun t =>
        (t.dfl.dState, t.dflOut.bytes 0 1, t.dfl.bitq, t.dfl.bitqCnt)) =
      [some (.dBlock, [0x78], 0x01, 8), some (.dBlock, [0x78], 0x5e, 8), some (.dBlock, [0x78], 0x9c, 8)] := by
  decide +kernel

/-- R383 and R308 over `abc`: one final stored block, and the Adler-32 024d0127. -/
theorem test_step_form_stored :
    (next? (step (dflAt (text ['a', 'b', 'c']) 0 fun r => { r with dState := .dBlock }))).map
      (fun t => (t.dfl.dState, t.dfl.blkLen, t.dfl.blkFinal, t.dfl.inCur, t.dfl.adler)) =
      some (.dNocomp, 3, true, 3, 0x024d0127) := by decide +kernel

/-- R309: the trailer is padded to a byte and written most significant byte first. -/
theorem test_step_trailer :
    (next? (exec (.trailer 0x024d0127) (dflAt [] 9 fun r => { r with dState := .dEnd, bitq := 5, bitqCnt := 3 }))).map
      (fun t => (t.dfl.dState, t.dflOut.bytes 0 5, t.dfl.bitqCnt)) =
      some (.dDone, [0x05, 0x02, 0x4d, 0x01, 0x27], 0) := by decide +kernel

/-- R430, R434: a STEP before RESET and level 3 are refused. -/
theorem test_refused_commands :
    refusal? (exec (.infStep ⟨0, []⟩ 9) { State.reset with infLife := .created }) = some (.commandRefused .created) ∧
    refusal? (exec (.defReset 0 [] 3) { State.reset with dflLife := .created }) = some .levelRefused := by
  decide +kernel

/-- R435: OUTPUT starts as the host's buffer, and what it holds above the capacity is not part of it. -/
theorem test_step_buffer :
    (next? (exec (.infStep ⟨4, [7, 8, 9]⟩ 2) { State.reset with infLife := .active })).map
      (fun t => (t.infOut.bytes 0 3, t.inf.outBase, t.inf.outLim)) = some ([7, 8, 0], 4, 2) := by decide +kernel

/-- R452: an allocator that refuses leaves LIFE at ABSENT. -/
theorem test_create_refused :
    (next? (exec (.defCreate false) State.reset)).map (fun t => (t.dflLife, t.resp)) =
      some (.absent, some (.status .errorMemory)) := by decide +kernel

/-! ### placing a word of the opcode table where the next step runs it (log 11, log 12) -/

/-- The words of the table's rows: LEN265, DIST4, ZHDR, SHDR. -/
theorem test_table_words :
    decodeTableWord 16 0x109 = some (.len265 0) ∧ decodeTableWord 8 4 = some (.dist4 0) ∧
    decodeTableWord 16 0x1e39 = some (.zhdr 8 7 28 false 2) ∧
    decodeTableWord 32 0xfffc0003 = some (.shdr 3 0xfffc) := by decide +kernel

/-- The step after the placing is the placed element's. -/
theorem test_placed_words :
    ((next? (step (State.reset.withFetchWord 16 0x109))).map fun t => t.inf.sub) = some (.distance 265 11) ∧
    ((next? (step (State.reset.withFetchWord 8 0))).map fun t => (t.inf.errCause, t.turn)) =
      some (.distTooFar, .host) ∧
    ((next? (step (State.reset.withFetchWord 3 2))).map fun t => t.turn) = some .inf := by decide +kernel

/-! ### witnesses: states and operands that meet the hypotheses of each obligation -/

theorem next_of {r : Result} (h : (next? r).isSome = true) : r = .next ((next? r).getD State.reset) := by
  cases r <;> simp_all [next?]

/-- The state one step later. -/
def stepped (s : State) : State := (next? (step s)).getD State.reset

/-- The state a command ends in, within `k` steps. -/
def ended (k : Nat) (s : State) : State := (runCommand k s).getD State.reset

theorem ended_of {k : Nat} {s : State} (h : (runCommand k s).isSome = true) : runCommand k s = some (ended k s) := by
  unfold ended
  cases hr : runCommand k s <;> simp_all

/-- The stream 78 5e 4b 04 00: a Fixed block that holds `a`. -/
def session : State :=
  { State.reset with
    infLife := .active
    infIn := Memory.ofBytes [0x78, 0x5e, 0x4b, 0x04, 0x00]
    inf := { InfRegs.powerOn with brLen := 5 } }

/-- The empty input at level 0. -/
def dflSession : State :=
  { State.reset with dflLife := .active, dfl := { DefRegs.powerOn with adlerS1 := 1 } }

/-- In I_BLOCK before the byte 07 of P-9. -/
def atBlock : State := infAt [0x07] 0 fun r => { r with iState := .iBlock }

/-- In the body of a Fixed block, a literal in flight and no room for it. -/
def held : State :=
  infAt [0x00] 0 fun r => { r with iState := .iFixed, iPhase := true, pendSym := 0x61, pendLen := 1 }

/-- In the body of a Fixed block, before the code of the literal `a`, with room for it. -/
def beforeLit : State :=
  infAt [0x89, 0x00] 1 fun r => { r with iState := .iFixed, iPhase := true }

/-- An invariant of a DEFLATE state: before the header, a byte queued and no room for it. -/
def blocked : State := dflAt [] 0 fun r => { r with bitq := 0x78, bitqCnt := 8, emitIdx := 1 }

theorem atBlock_infOk : atBlock.infOk := by
  refine ⟨fun _ => rfl, fun _ => ⟨?_, ?_, ?_, ?_, ?_, ?_, ?_, ?_, ?_, ?_, ?_, ?_⟩⟩ <;>
    simp [atBlock, infAt, InfRegs.cursorOk, InfRegs.powerOn, InfRegs.subOk]

theorem held_infOk : held.infOk := by
  refine ⟨fun _ => rfl, fun _ => ⟨?_, ?_, ?_, ?_, ?_, ?_, ?_, ?_, ?_, ?_, ?_, ?_⟩⟩ <;>
    simp [held, infAt, InfRegs.cursorOk, InfRegs.powerOn, InfRegs.subOk, InfRegs.inBody]

theorem beforeLit_infOk : beforeLit.infOk := by
  refine ⟨fun _ => rfl, fun _ => ⟨?_, ?_, ?_, ?_, ?_, ?_, ?_, ?_, ?_, ?_, ?_, ?_⟩⟩ <;>
    simp [beforeLit, infAt, InfRegs.cursorOk, InfRegs.powerOn, InfRegs.subOk]

theorem dflOk_of {s : State} (hl : s.turn = .dfl → s.dflLife = .active) (hw : s.dfl.WriterOk)
    (hd : s.dfl.dState = .dInit) (hi : s.dfl.inCur = 0) (ha : (s.dfl.adlerS1, s.dfl.adlerS2) = (1, 0))
    (ht : s.dfl.tok = []) (hh : s.dfl.hist = []) (hf : s.dfl.freed = []) (hn : s.dfl.fresh = 0)
    (he : s.dfl.evictCur = 0) (hc : 0 < s.cfg.histCap) : s.dflOk := by
  refine ⟨hl, fun _ => ⟨hw, ⟨by omega, ?_, ?_, ?_, ?_, ?_, ?_, ?_, ?_⟩⟩⟩ <;>
    simp [*, DefRegs.tokCnt, DefRegs.slotsOk, DefRegs.live, adlerSums, Memory.bytes]

theorem writerOk_of {s : State} (hd : s.dfl.dState = .dInit) (h1 : s.dfl.bitqCnt ≤ 23)
    (h2 : s.dfl.bitq.toNat < 2 ^ s.dfl.bitqCnt) (h3 : s.dfl.thisOut ≤ s.dfl.outLim) (h4 : s.dfl.thisOut ≤ s.dfl.totalOut) :
    s.dfl.WriterOk :=
  ⟨h1, h2, h3, h4, by simp [hd], by simp [hd], by simp [hd]⟩

theorem blocked_dflOk : blocked.dflOk :=
  dflOk_of (fun _ => rfl) (writerOk_of rfl (by decide) (by decide) (by decide) (by decide)) rfl rfl rfl rfl rfl rfl rfl
    rfl (by decide +kernel)

theorem dflSession_dflOk : dflSession.dflOk :=
  dflOk_of (fun _ => rfl) (writerOk_of rfl (by decide) (by decide) (by decide) (by decide)) rfl rfl rfl rfl rfl rfl rfl
    rfl (by decide +kernel)

theorem atBlock_memOk : atBlock.memOk := by unfold State.memOk; decide +kernel
theorem held_memOk : held.memOk := by unfold State.memOk; decide +kernel
theorem beforeLit_memOk : beforeLit.memOk := by unfold State.memOk; decide +kernel
theorem blocked_memOk : blocked.memOk := by unfold State.memOk; decide +kernel

/-- In D_LZSS at level Dynamic, before the pass over one byte. -/
def atPass : State := dflAt [0x61] 0 fun r => { r with dState := .dLzss, level := .dynamic }

theorem infWidths_of {c : Config} {r : InfRegs} {n k : Nat} (hn : n < 2 ^ c.xlen) (hk : k < 2 ^ c.xlen)
    (h : r = { InfRegs.powerOn with iState := r.iState, iPhase := r.iPhase, brLen := n, outLim := k }) :
    r.WidthsOk c := by
  rw [h]
  constructor <;> simp [InfRegs.powerOn, Trie.Fits, *]

theorem replicate_lt {n k : Nat} : ∀ x ∈ (Vector.replicate n 0).toList, x < 2 ^ k := by
  intro x hx
  rw [Vector.toList_replicate] at hx
  simp [List.eq_of_mem_replicate hx]

theorem dflWidths_of {c : Config} {r : DefRegs} {n a : Nat} (hn : n < 2 ^ c.xlen) (ha : a < 2 ^ 16)
    (h : r = { DefRegs.powerOn with dState := r.dState, level := r.level, adlerS1 := a, inEnd := n }) :
    r.WidthsOk c ∧ r.CodesOk := by
  have h0 := fun k => Nat.two_pow_pos k
  rw [h]
  exact ⟨⟨h0 _, hn, h0 _, ⟨ha, h0 _⟩, ⟨Nat.zero_le _, by simp [DefRegs.powerOn], rfl⟩, replicate_lt, replicate_lt,
      replicate_lt, replicate_lt, replicate_lt, replicate_lt, ⟨h0 _, h0 _, h0 _⟩,
      ⟨Nat.zero_le _, by simp [DefRegs.powerOn], rfl⟩, ⟨h0 _, h0 _⟩, ⟨Nat.zero_le _, by simp [DefRegs.powerOn]⟩,
      ⟨Nat.zero_le _, by simp [DefRegs.powerOn], Nat.zero_le _⟩, h0 _, h0 _, h0 _, h0 _⟩,
    replicate_lt, replicate_lt, replicate_lt⟩

theorem winOk_of {s : State} (h : s.inf.thisOut = 0) : s.winOk := fun _ k hk => by omega

theorem infIdle {s : State} (h : s.infLife = .absent) (ht : s.turn ≠ .inf) : s.infOk :=
  ⟨fun h' => absurd h' ht, fun h' => by simp [h] at h'⟩

theorem dflIdle {s : State} (h : s.dflLife = .absent) (ht : s.turn ≠ .dfl) : s.dflOk :=
  ⟨fun h' => absurd h' ht, fun h' => by simp [h] at h'⟩

theorem session_ok : session.Ok where
  cfg := by decide +kernel
  widths := ⟨infWidths_of (n := 5) (k := 0) (by decide) (by decide) rfl, dflWidths_of (n := 0) (a := 0) (by decide) (by decide) rfl⟩
  mem := by unfold State.memOk; decide +kernel
  inf := by
    refine ⟨fun h => by simp [session, State.reset] at h, fun _ => ⟨?_, ?_, ?_, ?_, ?_, ?_, ?_, ?_, ?_, ?_, ?_, ?_⟩⟩ <;>
      simp [session, State.reset, InfRegs.cursorOk, InfRegs.powerOn, InfRegs.subOk]
  win := winOk_of rfl
  dfl := dflIdle rfl (by decide)

theorem beforeLit_ok : beforeLit.Ok where
  cfg := by decide +kernel
  widths := ⟨infWidths_of (n := 2) (k := 1) (by decide) (by decide) rfl, dflWidths_of (n := 0) (a := 0) (by decide) (by decide) rfl⟩
  mem := beforeLit_memOk
  inf := beforeLit_infOk
  win := winOk_of rfl
  dfl := dflIdle rfl (by decide)

theorem dflSession_ok : dflSession.Ok where
  cfg := by decide +kernel
  widths := ⟨infWidths_of (n := 0) (k := 0) (by decide) (by decide) rfl, dflWidths_of (n := 0) (a := 1) (by decide) (by decide) rfl⟩
  mem := by unfold State.memOk; decide +kernel
  inf := infIdle rfl (by decide)
  win := winOk_of rfl
  dfl := dflSession_dflOk

theorem atPass_writerOk : atPass.dfl.WriterOk :=
  ⟨by decide, by decide, by decide, by decide, by decide, by decide, by decide⟩

theorem atPass_ok : atPass.Ok where
  cfg := by decide +kernel
  widths := ⟨infWidths_of (n := 0) (k := 0) (by decide) (by decide) rfl, dflWidths_of (n := 1) (a := 1) (by decide) (by decide) rfl⟩
  mem := by unfold State.memOk; decide +kernel
  inf := infIdle rfl (by decide)
  win := winOk_of rfl
  dfl := by
    refine ⟨fun _ => rfl, fun _ => ⟨atPass_writerOk, ⟨by decide, ?_, ?_, ?_, ?_, ?_, ?_, ?_, ?_⟩⟩⟩ <;>
      simp [atPass, dflAt, DefRegs.powerOn, State.reset, DefRegs.tokCnt, DefRegs.slotsOk, DefRegs.live, adlerSums,
        Memory.bytes, Config.default]

/-! #### encoding -/

/-- The trees of the fixed context. -/
def fixedTrees : Trees := ⟨ftreeLl, ftreeD, placedClTree⟩

theorem fixedTrees_of : treesOf EncCtx.fixed fixedTrees :=
  ⟨ftreeLl_eq, ftreeD_eq, by decide +kernel⟩

theorem hasCode_of {ctx : EncCtx} {i : Instr}
    (h : ((llParts i).all fun p => ctx.llLen.getD p.1 0 != 0) && ((dParts i).all fun p => ctx.dLen.getD p.1 0 != 0)
      && ((clParts i).all fun p => ctx.clLen.getD p.1 0 != 0)) : hasCode ctx i := by
  simp only [Bool.and_eq_true, Option.all_eq_true, bne_iff_ne] at h
  exact ⟨h.1.1, h.1.2, h.2⟩

/-- For `DecodeOfEncode`: an element of each alphabet with its widest operand, and a header. -/
theorem witness_decode_of_encode :
    treesOf EncCtx.fixed fixedTrees ∧ hasCode EncCtx.fixed (.len284 31) ∧ hasCode EncCtx.fixed (.dist29 8191) ∧
    hasCode EncCtx.fixed (.cl18 127) ∧ hasCode EncCtx.fixed (.zhdr 8 7 28 false 2) :=
  ⟨fixedTrees_of, hasCode_of (by decide +kernel), hasCode_of (by decide +kernel), hasCode_of (by decide +kernel),
    hasCode_of (by decide +kernel)⟩

/-- For `EncodeOfDecode`. -/
theorem witness_encode_of_decode :
    treesOf EncCtx.fixed fixedTrees ∧ Instr.dist29 8191 ≠ .pad ∧
    decodeAt (posOf EncCtx.fixed fixedTrees (.dist29 8191)) (encode EncCtx.fixed (.dist29 8191)) =
      .ok (.dist29 8191) 18 := ⟨fixedTrees_of, by decide, by decide +kernel⟩

/-- For the rejections of `EncodeOfDecode`: at the incomplete tree of a single code a bit that walks off, after the
root of the empty tree another, a code cut short, and extra bits cut short, in each alphabet; and symbol 16 as the
first code-length symbol, with the causes R178, R336 and R453 give them. -/
theorem witness_rejections :
    let t := fun s => Trie.node (.node .nil (.leaf s)) .nil
    (WalkGoesOn (t 0) [false] ∧ ([false] ++ [false]).foldl Trie.child (t 0) = .nil ∧
      decodeAt (.llsym (t 0)) [false, false, true] = .reject .codeWalkoff 2) ∧
    (WalkGoesOn .nil [] ∧ ([] ++ [true]).foldl Trie.child .nil = .nil ∧
      decodeAt (.dsym .nil) [true, true] = .reject .codeWalkoff 1) ∧
    (decodeAt (.dsym (t 0)) [false] = .reject .inputExhausted 1 ∧ decodeAt (.clsym (t 0) true) [] = .reject .inputExhausted 0) ∧
    (WalkEndsAt (t 284) [false, true] 284 ∧ [true, true, true, true].length < llExtra 284 ∧
      decodeAt (.llsym (t 284)) [false, true, true, true, true, true] = .reject .inputExhausted 6) ∧
    (WalkEndsAt (t 29) [false, true] 29 ∧ (List.replicate 12 true).length < dExtra 29 ∧
      decodeAt (.dsym (t 29)) (false :: List.replicate 13 true) = .reject .inputExhausted 14) ∧
    (WalkEndsAt (t 16) [false, true] 16 ∧ [true].length < clExtra 16 ∧
      decodeAt (.clsym (t 16) false) [false, true, true] = .reject .inputExhausted 3 ∧
      decodeAt (.clsym (t 16) true) [false, true, true] = .reject .repeatNoPrev 2) ∧
    (WalkEndsAt (t 18) [false, true] 18 ∧ ¬ (18 = 16) ∧ (List.replicate 6 true).length < clExtra 18) ∧
    decodeAt .shdr (List.replicate 31 false) = .reject .inputExhausted 31 ∧
    decodeAt .raw (List.replicate 7 false) = .reject .inputExhausted 0 := by
  refine ⟨⟨.inr ⟨_, _, rfl⟩, rfl, by decide +kernel⟩, ⟨.inl rfl, rfl, by decide +kernel⟩, ⟨by decide +kernel, by decide +kernel⟩,
    ⟨⟨by decide, rfl⟩, by decide +kernel, by decide +kernel⟩, ⟨⟨by decide, rfl⟩, by decide +kernel, by decide +kernel⟩,
    ⟨⟨by decide, rfl⟩, by decide +kernel, by decide +kernel, by decide +kernel⟩,
    ⟨⟨by decide, rfl⟩, by decide, by decide +kernel⟩, by decide +kernel, by decide +kernel⟩

/-- For `CodeDecodesToItsSymbol`: a complete table, an incomplete one, and a single symbol; and tables of
lengths up to 15 on either side of the bound. -/
theorem witness_code_decodes :
    (∀ l ∈ [2, 1, 3, 3], l ≤ 15) ∧ kraftSum 15 [2, 1, 3, 3] = 2 ^ 15 ∧
    (∀ l ∈ [2, 1, 3, 3, 15], l ≤ 15) ∧ 2 ^ 15 < kraftSum 15 [2, 1, 3, 3, 15] ∧
    buildDecodeTree [2, 1, 3, 3, 15] = none ∧
    (buildDecodeTree [2, 1, 3, 3]).isSome = true ∧ (buildDecodeTree [2, 2, 2]).isSome = true ∧
    (buildDecodeTree [0, 1]).isSome = true ∧ [2, 1, 3, 3].getD 3 0 ≠ 0 ∧ [0, 1].getD 1 0 ≠ 0 := by decide +kernel

/-! #### bit reader and writer -/

/-- For `ReadBitsTakesNextBits`, `AlignMovesToByteBoundary` and
`ReadBytesDeliversWholeBytes`: the last bit of the input, a short read of 16 bits there, and the end. -/
theorem witness_cursor :
    let r := { InfRegs.powerOn with brLen := 1, brBit := 7 }
    let e := { InfRegs.powerOn with brLen := 1, brByte := 1 }
    r.cursorOk ∧ r.avail < 16 ∧ e.cursorOk ∧ e.brBit = 0 := by
  simp [InfRegs.cursorOk, InfRegs.avail, InfRegs.powerOn]

/-- For `DrainKeepsTheWrittenBits` and `EmissionWritesItsItems`: a full queue and a full buffer, an empty
queue and room, items of the greatest width, and what follows a block's list. -/
theorem witness_writer :
    let s := dflAt [] 0 fun r => { r with bitq := 0x7fffff, bitqCnt := 23 }
    let t := dflAt [] 9 id
    s.dflOut.wf = true ∧ s.dfl.WriterOk ∧ t.dflOut.wf = true ∧ t.dfl.WriterOk ∧
    (∀ i ∈ [Item.le 16 65535, .be 15 1, .flush], i.width ≤ 16) ∧
    (∀ r : DefRegs, r.endBlock.bitq = r.bitq ∧ r.endBlock.bitqCnt = r.bitqCnt ∧ r.endBlock.thisOut = r.thisOut ∧
      r.endBlock.totalOut = r.totalOut) := by
  refine ⟨by decide +kernel, writerOk_of rfl (by decide) (by decide) (by decide) (by decide), by decide +kernel,
    writerOk_of rfl (by decide) (by decide) (by decide) (by decide), by decide, fun r => ⟨rfl, rfl, rfl, rfl⟩⟩

/-! #### the wire elements -/

/-- For `HeaderElementsComplete`: the operands of each clause at their bounds. -/
theorem witness_header_elements :
    ((0 * 16 + 8) * 256 + (0 * 64 + 29)) % 31 = 0 ∧ (7 : BitVec 4).toNat ≤ 7 ∧
    ((7 * 16 + 8) * 256 + (2 * 64 + 28)) % 31 = 0 ∧
    (0 : BitVec 16).toNat + (0xffff : BitVec 16).toNat = 65535 ∧
    (0xffff : BitVec 16).toNat + (0 : BitVec 16).toNat = 65535 ∧ (0 : BitVec 16).toNat + (0 : BitVec 16).toNat ≠ 65535 ∧
    (29 : BitVec 5).toNat ≤ 29 ∧ 29 < (30 : BitVec 5).toNat := by decide

/-- For `BlockHeaderSelectsTheState`: three bits and more, and two bits. -/
theorem witness_block_header :
    (atBlock.turn = .inf ∧ atBlock.inf.iState = .iBlock ∧
      atBlock.inf.restBits atBlock.infIn = true :: true :: true :: List.replicate 5 false) ∧
    (let s := infAt [0x07] 0 fun r => { r with iState := .iBlock, brBit := 6 };
      s.turn = .inf ∧ s.inf.iState = .iBlock ∧ (s.inf.restBits s.infIn).length < 3) := by decide +kernel

/-- For `BlockBodiesEndByBfinal`, with either BFINAL. -/
theorem witness_block_ends (b : Bool) :
    let s := infAt [] 0 fun r => { r with iState := .iNocomp, iPhase := true, bfinal := b }
    s.turn = .inf ∧ s.inf.iState = .iNocomp ∧ s.inf.iPhase = true ∧ s.inf.storedRem = 0 := ⟨rfl, rfl, rfl, rfl⟩

/-- For `CllensFillsTheTable`: a field before the last, and the last with a table that builds and one that is
over-subscribed. -/
theorem witness_cllens :
    let s := fun k (l : Vector (BitVec 3) 19) =>
      infAt [] 0 fun r => { r with iState := .iDynamic, sub := .codeLens k, clLen := l }
    let zero := Vector.replicate 19 (0 : BitVec 3)
    let one := Vector.replicate 19 (1 : BitVec 3)
    (s 0 zero).inf.sub = .codeLens 0 ∧ 0 + 1 < (s 0 zero).inf.hclen.toNat + 4 ∧
    (s 3 zero).inf.sub = .codeLens 3 ∧ 3 + 1 = (s 3 zero).inf.hclen.toNat + 4 ∧
    (buildDecodeTree ((zero.setIfInBounds 0 1).toList.map BitVec.toNat)).isSome = true ∧
    buildDecodeTree ((one.setIfInBounds 0 1).toList.map BitVec.toNat) = none := by decide +kernel

/-- For `CodeLengthItemsAppend`: an empty sequence and one with a last length; runs that fit and that do not. -/
theorem witness_code_lengths :
    let s := fun l => infAt [] 0 fun r => { r with iState := .iDynamic, sub := .lengths l }
    (s []).inf.sub = .lengths [] ∧ (s [3]).inf.sub = .lengths ([] ++ [3]) ∧
    120 + (11 + 127) ≤ ((s []).inf.hlit.toNat + 257) + ((s []).inf.hdist.toNat + 1) ∧
    ¬ 121 + (11 + 127) ≤ ((s []).inf.hlit.toNat + 257) + ((s []).inf.hdist.toNat + 1) := by decide +kernel

/-- For `LiteralIsEmittedOrHeld` and `StoredByteIsCopied`: room and no room, eight bits and seven. -/
theorem witness_byte_out :
    let s := fun cap (b : Fin 8) => infAt [0x61] cap fun r => { r with brBit := b }
    (s 1 0).infOut.wf = true ∧ (s 1 0).win.wf = true ∧ (s 1 0).inf.thisOut ≠ (s 1 0).inf.outLim ∧
    (s 0 0).inf.thisOut = (s 0 0).inf.outLim ∧ 8 ≤ (s 1 0).inf.avail ∧ 8 ≤ (s 0 0).inf.avail ∧
    (s 1 1).inf.avail < 8 := by decide +kernel

/-- For `DistanceSymbolsCopyBack`: the nearest and the farthest distance with the longest length, and no room
to spare; the same with one byte of room too few. -/
theorem witness_copies :
    let u := fun cap d => infAt [] cap fun r => { r with
      iState := .iFixed, iPhase := true, sub := .distance 285 258, totalOut := d, winPos := d }
    let s := u 258
    (∀ d ∈ [1, 24577 + (8191 : BitVec 13).toNat],
      (u 257 d).inf.sub = .distance 285 258 ∧ d ≤ (u 257 d).inf.totalOut ∧ (u 257 d).inf.outLim < 258 ∧
      (s d).infOut.wf = true ∧ (s d).win.wf = true ∧ 33026 ≤ (s d).cfg.winCap ∧ (s d).inf.winPos < (s d).cfg.winCap ∧
      (s d).inf.sub = .distance 285 258 ∧ 258 ≤ 258 ∧ (s d).inf.thisOut + 258 ≤ (s d).inf.outLim ∧
      d ≤ (s d).inf.totalOut) := by decide +kernel

/-- For `BadMatchSymbolsRaise`: a distance one above the bytes output, a length read, and none read. -/
theorem witness_bad_match :
    let s := infAt [] 9 fun r => { r with
      iState := .iFixed, iPhase := true, sub := .distance 257 3, totalOut := 32767 }
    dParts (.dist29 8191) = some (29, 13, 8191) ∧ 29 < 30 ∧ s.inf.sub = .distance 257 3 ∧
    s.inf.totalOut < distBase 29 + 8191 ∧ atBlock.inf.sub = .start ∧ (dParts .dist30).isSome = true := by
  decide +kernel

/-- For `DrainCodeEmitsAsFits`: all of the code fits, and one byte less; a literal; the farthest copy at the
end of the window; and a code in flight when the engine goes on. -/
theorem witness_drain_code :
    let s := fun cap d => infAt [] cap fun r => { r with
      iState := .iFixed, iPhase := true, pendLen := 258, pendDist := d, winPos := 65535 }
    (∀ d ∈ [0, 32768], (s 258 d).inf.thisOut ≤ (s 258 d).inf.outLim ∧
      min (s 258 d).inf.pendLen ((s 258 d).inf.outLim - (s 258 d).inf.thisOut) = (s 258 d).inf.pendLen ∧
      min (s 257 d).inf.pendLen ((s 257 d).inf.outLim - (s 257 d).inf.thisOut) < (s 257 d).inf.pendLen ∧
      (s 258 d).infOut.wf = true ∧ (s 258 d).win.wf = true ∧ 33026 ≤ (s 258 d).cfg.winCap ∧
      (s 258 d).inf.winPos < (s 258 d).cfg.winCap ∧ (s 258 d).inf.pendLen ≤ 258 ∧ (s 258 d).inf.pendDist ≤ 32768) ∧
    held.turn = .inf ∧ ((held.inf.iState = .iFixed ∨ held.inf.iState = .iDynamic) ∧ held.inf.iPhase = true) ∧
    held.inf.pendLen ≠ 0 ∧ held.inf.sub = .start := by decide +kernel

/-- For `TrailerIsWritten`: 23 queued bits and eight bytes of room. -/
theorem witness_trailer :
    let s := dflAt [] 8 fun r => { r with bitq := 0x7fffff, bitqCnt := 23, dState := .dEnd }
    s.dflOut.wf = true ∧ s.dfl.WriterOk ∧ s.dfl.emitIdx = 0 ∧ s.dfl.thisOut + 8 ≤ s.dfl.outLim :=
  ⟨by decide +kernel, ⟨by decide, by decide, by decide, by decide, by decide, by decide, by decide⟩, rfl, by decide⟩

/-! #### the engines' steps -/

/-- For `HeaderChecksInOrder`: sixteen bits and fifteen before ZHDR, 32 bits and 31 before DICTID. -/
theorem witness_header_checks :
    let s := fun (b : Fin 8) => infAt [0x78, 0x9c] 0 fun r => { r with brBit := b }
    let d := fun (b : Fin 8) => infAt [1, 2, 3, 4] 0 fun r => { r with sub := .dictid, brBit := b }
    ((s 0).turn = .inf ∧ (s 0).inf.iState = .iInit ∧ (s 0).inf.sub = .start ∧
      16 ≤ ((s 0).inf.restBits (s 0).infIn).length ∧ ((s 1).inf.restBits (s 1).infIn).length < 16) ∧
    ((d 0).turn = .inf ∧ (d 0).inf.iState = .iInit ∧ (d 0).inf.sub = .dictid ∧
      32 ≤ ((d 0).inf.restBits (d 0).infIn).length ∧ ((d 1).inf.restBits (d 1).infIn).length < 32) := by decide +kernel

/-- For `DynamicTreesAreBuilt`: the shortest and the longest sequence. -/
theorem witness_dynamic_trees :
    let s := fun (hl hd : BitVec 5) (n : Nat) => infAt [] 0 fun r => { r with
      iState := .iDynamic, hlit := hl, hdist := hd, sub := .lengths (List.replicate n 0) }
    (s 0 0 258).turn = .inf ∧ (s 0 0 258).inf.iState = .iDynamic ∧ (s 0 0 258).inf.iPhase = false ∧
    (s 0 0 258).inf.sub = .lengths (List.replicate 258 0) ∧ (s 0 0 258).inf.hlit.toNat ≤ 29 ∧
    (List.replicate 258 (0 : BitVec 4)).length =
      (s 0 0 258).inf.hlit.toNat + 257 + ((s 0 0 258).inf.hdist.toNat + 1) ∧
    (s 29 31 318).inf.hlit.toNat ≤ 29 ∧
    (List.replicate 318 (0 : BitVec 4)).length =
      (s 29 31 318).inf.hlit.toNat + 257 + ((s 29 31 318).inf.hdist.toNat + 1) := by decide +kernel

/-- For `ErrorIsPrecise`: the step that raises BLOCK_TYPE. -/
theorem witness_error :
    atBlock.turn = .inf ∧ atBlock.inf.iState ≠ .iError ∧ step atBlock = .next (stepped atBlock) ∧
    (stepped atBlock).inf.iState = .iError :=
  ⟨rfl, by decide, next_of (by decide +kernel), by decide +kernel⟩

/-- For `TerminalStatesAreSticky`: each terminal state, and the greatest capacity. -/
theorem witness_terminal :
    let e := { session with inf := { session.inf with iState := .iEnd } }
    let f := { session with inf := { session.inf with iState := .iError, errCause := .blockType } }
    let d := { dflSession with dfl := { dflSession.dfl with dState := .dDone } }
    e.infLife = .active ∧ e.inf.iState = .iEnd ∧ f.infLife = .active ∧ f.inf.iState = .iError ∧
    d.dflLife = .active ∧ d.dfl.dState = .dDone ∧ 2 ^ 32 - 1 < 2 ^ e.cfg.xlen ∧
    { e with turn := .inf }.turn = .inf ∧ { f with turn := .inf }.turn = .inf ∧ { d with turn := .dfl }.turn = .dfl := by
  decide +kernel

/-- For `StepAnswersAreClosed`: the step that answers, of each engine. -/
theorem witness_answers :
    held.turn = .inf ∧ step held = .next (stepped held) ∧ (stepped held).turn = .host ∧
    blocked.turn = .dfl ∧ step blocked = .next (stepped blocked) ∧ (stepped blocked).turn = .host :=
  ⟨rfl, next_of (by decide +kernel), by decide +kernel, rfl, next_of (by decide +kernel), by decide +kernel⟩

/-- For `PendingMeansFullBuffer`: the steps that answer PENDING. -/
theorem witness_pending :
    held.turn = .inf ∧ step held = .next (stepped held) ∧ (stepped held).turn = .host ∧
    (stepped held).inf.lastStatus = .pending ∧
    blocked.dflOk ∧ blocked.turn = .dfl ∧ step blocked = .next (stepped blocked) ∧ (stepped blocked).turn = .host ∧
    (stepped blocked).dfl.lastStatus = .pending :=
  ⟨rfl, next_of (by decide +kernel), by decide +kernel, by decide +kernel, blocked_dflOk, rfl,
    next_of (by decide +kernel), by decide +kernel, by decide +kernel⟩

/-- For `CursorNeverMovesBack`, `OutputIsWrittenOnce`, `StateTransitionsAreListed` and `EnginesShareNothing`:
a step that moves the cursor and stores a byte, one that leaves its state, and one of the other engine. -/
theorem witness_steps :
    beforeLit.turn = .inf ∧ beforeLit.memOk ∧ beforeLit.infOk ∧ step beforeLit = .next (stepped beforeLit) ∧
    (stepped beforeLit).inf.thisOut = 1 ∧ (stepped beforeLit).inf.bitpos = 8 ∧
    atBlock.turn = .inf ∧ step atBlock = .next (stepped atBlock) ∧
    (stepped atBlock).inf.iState ≠ atBlock.inf.iState ∧
    blocked.turn = .dfl ∧ blocked.memOk ∧ blocked.dflOk ∧ step blocked = .next (stepped blocked) :=
  ⟨rfl, beforeLit_memOk, beforeLit_infOk, next_of (by decide +kernel), by decide +kernel, by decide +kernel, rfl,
    next_of (by decide +kernel), by decide +kernel, rfl, blocked_memOk, blocked_dflOk, next_of (by decide +kernel)⟩

/-- For `OutputIsWrittenOnce` over whole STEPs: two bytes of buffer, the second of which the STEP leaves as the
host gave it. -/
theorem witness_whole_step :
    session.Ok ∧ dflSession.Ok ∧
    (∃ u t, exec (.infStep ⟨0, [7, 8]⟩ 2) session = .next u ∧ Ends u t ∧ t.inf.thisOut = 1 ∧ t.infOut.bytes 0 2 = [0x61, 8]) ∧
    (∃ u t, exec (.defStep ⟨0, [0, 0, 0, 0, 0, 0, 0, 0, 0, 0, 0, 8]⟩ 12) dflSession = .next u ∧ Ends u t ∧
      t.dfl.thisOut = 11 ∧ t.dflOut.read 11 = 8) :=
  ⟨session_ok, dflSession_ok,
    ⟨_, _, next_of (by decide +kernel), ⟨20, ended_of (by decide +kernel)⟩, by decide +kernel, by decide +kernel⟩,
    ⟨_, _, next_of (by decide +kernel), ⟨20, ended_of (by decide +kernel)⟩, by decide +kernel, by decide +kernel⟩⟩

/-- For `EnginesShareNothing`: states that differ outside the context of the engine whose turn it is; and a
fault of the DEFLATE engine. -/
theorem witness_own_context :
    let s := { held with dfl := blocked.dfl, dflLife := .active, cmds := [⟨6, {}⟩], freeCnt := 5 }
    let d := { blocked with inf := held.inf, infLife := .active, infIn := held.infIn, cmds := [⟨2, {}⟩], freeCnt := 5 }
    let f := dflAt [] 0 fun r => { r with dState := .dNocomp, blkLen := 1 }
    (held ≠ s ∧ held.turn = .inf ∧ s.turn = .inf ∧ held.cfg = s.cfg ∧ held.inf = s.inf ∧ held.infIn = s.infIn ∧
      held.infOut = s.infOut ∧ held.win = s.win ∧ step held = .next (stepped held)) ∧
    (blocked ≠ d ∧ blocked.turn = .dfl ∧ d.turn = .dfl ∧ blocked.cfg = d.cfg ∧ blocked.dfl = d.dfl ∧
      blocked.dflIn = d.dflIn ∧ blocked.dflOut = d.dflOut ∧ step blocked = .next (stepped blocked)) ∧
    f.turn = .dfl ∧ step f = .fault .inputOutside := by
  refine ⟨⟨?_, rfl, rfl, rfl, rfl, rfl, rfl, rfl, next_of (by decide +kernel)⟩,
    ⟨?_, rfl, rfl, rfl, rfl, rfl, rfl, next_of (by decide +kernel)⟩, rfl, rfl⟩ <;>
  · intro h
    have := congrArg State.freeCnt h
    simp [held, blocked, infAt, dflAt, State.reset] at this

/-- For `PositionFollowsTheGrammar`, in `StepRunsTheDecodedInstruction`: registers for each of its clauses, and the
positions the grammar of R100 gives them. -/
theorem witness_positions :
    let at_ := fun st ph sub => { InfRegs.powerOn with
      iState := st, iPhase := ph, sub := sub, treeCl := .leaf 1, treeLl := .leaf 2, treeD := .leaf 3 }
    (at_ .iInit false .start).pos = some .zhdr ∧ (at_ .iInit false .dictid).pos = some .dictid ∧
    (at_ .iBlock false .start).pos = some .bhdr ∧
    { at_ .iNocomp false .start with brBit := 7 }.pos = some (.pad 1) ∧ (at_ .iNocomp false .stored).pos = some .shdr ∧
    { at_ .iNocomp true .start with storedRem := 1 }.pos = some .raw ∧ (at_ .iNocomp true .start).pos = none ∧
    (at_ .iDynamic false .start).pos = some .dynhdr ∧ (at_ .iDynamic false (.codeLens 0)).pos = some .cllens ∧
    (at_ .iDynamic false (.lengths [])).pos = some (.clsym (.leaf 1) true) ∧
    (at_ .iDynamic false (.lengths (List.replicate 257 0))).pos = some (.clsym (.leaf 1) false) ∧
    (at_ .iDynamic false (.lengths (List.replicate 258 0))).pos = none ∧
    (at_ .iFixed false .start).pos = none ∧
    (at_ .iFixed true .start).pos = some (.llsym ftreeLl) ∧
    (at_ .iFixed true (.distance 257 3)).pos = some (.dsym ftreeD) ∧
    (at_ .iDynamic true .start).pos = some (.llsym (.leaf 2)) ∧
    (at_ .iDynamic true (.distance 257 3)).pos = some (.dsym (.leaf 3)) ∧
    { at_ .iDynamic true .start with pendLen := 1 }.pos = none ∧
    (at_ .iEnd false .start).pos = none ∧ (at_ .iError false .start).pos = none := by decide +kernel

/-- For `StepRunsTheDecodedInstruction`: each of its other clauses. -/
theorem witness_step_runs :
    (beforeLit.turn = .inf ∧ beforeLit.inf.pos = some (.llsym ftreeLl) ∧
      decodeAt (.llsym ftreeLl) (beforeLit.inf.restBits beforeLit.infIn) = .ok (.lit 0x61) 8) ∧
    (let s := infAt [0x78] 0 id;
      s.turn = .inf ∧ s.inf.pos = some .zhdr ∧ decodeAt .zhdr (s.inf.restBits s.infIn) = .reject .hdrTruncated 8) ∧
    (let s := infAt [] 0 fun r => { r with iState := .iFixed };
      s.turn = .inf ∧ s.inf.iState = .iFixed ∧ s.inf.iPhase = false) ∧
    (let s := dflAt [] 0 fun r => { r with dState := .dEnd };
      s.turn = .dfl ∧ s.dfl.dState = .dEnd) ∧
    (let s := { State.reset with cmds := [⟨0, { allocOk := true }⟩] };
      s.turn = .host ∧ s.cmds = ⟨0, { allocOk := true }⟩ :: []) ∧
    State.reset.turn = .host ∧ State.reset.cmds = [] := by decide +kernel

/-! #### host commands -/

/-- For `CommandLegality`, `CreateStepAndDestroyCommands` and `ResetValues`: each LIFE, the greatest capacity, an input that is not empty, and each level. -/
theorem witness_commands :
    State.reset.infLife = .absent ∧ State.reset.dflLife = .absent ∧
    { State.reset with infLife := .created }.infLife ≠ .absent ∧ session.infLife = .active ∧
    { State.reset with dflLife := .created }.dflLife ≠ .absent ∧ dflSession.dflLife = .active ∧
    2 ^ 32 - 1 < 2 ^ State.reset.cfg.xlen ∧ [(7 : Byte), 0].length < 2 ^ State.reset.cfg.xlen ∧
    (2 : BitVec 2).toNat ≤ 2 ∧ (2 : BitVec 2) ≠ 3 ∧ 0 < State.reset.cfg.histCap := by decide +kernel

/-! #### the DEFLATE engine -/

/-- For `HeaderOfTheLevelIsWritten`: one byte of room, which is all the pass needs; a resumption into a buffer
of one byte; no room at the start; and no room at a resumption. -/
theorem witness_header_of_level :
    let s := fun cap => dflAt [] cap id
    let r := fun cap => dflAt [] cap fun r => { r with bitq := 0x78, bitqCnt := 8, emitIdx := 1 }
    ((s 1).turn = .dfl ∧ (s 1).dfl.dState = .dInit ∧ (s 1).dflOut.wf = true ∧ (s 1).dfl.WriterOk ∧
      (s 1).dfl.emitIdx = 0 ∧ (s 1).written.length + 8 * (1 - 0) < 8 * (s 1).dfl.outLim + 8) ∧
    ((r 1).turn = .dfl ∧ (r 1).dfl.dState = .dInit ∧ (r 1).dflOut.wf = true ∧ (r 1).dfl.WriterOk ∧
      (r 1).dfl.emitIdx = 1 ∧ (r 1).written.length + 8 * (1 - 1) < 8 * (r 1).dfl.outLim + 8) ∧
    ((s 0).dfl.emitIdx = 0 ∧ (s 0).dfl.bitqCnt = 0 ∧ (s 0).dfl.bitq = 0 ∧ (s 0).dfl.thisOut = (s 0).dfl.outLim) ∧
    (r 0).dfl.emitIdx = 1 ∧ (r 0).dfl.bitqCnt = 8 ∧ (r 0).dfl.thisOut = (r 0).dfl.outLim :=
  ⟨⟨rfl, rfl, by decide +kernel, writerOk_of rfl (by decide) (by decide) (by decide) (by decide), rfl,
      by decide +kernel⟩,
    ⟨rfl, rfl, by decide +kernel, writerOk_of rfl (by decide) (by decide) (by decide) (by decide), rfl,
      by decide +kernel⟩,
    ⟨rfl, rfl, rfl, rfl⟩, rfl, rfl, rfl⟩

/-- For `BlocksAreFormed`: each of its clauses. -/
theorem witness_blocks_formed :
    let s := fun st l => dflAt [1, 2, 3] 0 fun r => { r with dState := st, level := l }
    (s .dBlock .fixed).turn = .dfl ∧ (s .dBlock .noCompression).dfl.dState = .dBlock ∧
    (s .dBlock .noCompression).dfl.level = .noCompression ∧ (s .dBlock .fixed).dfl.level = .fixed ∧
    (s .dLzss .dynamic).dfl.dState = .dLzss ∧ (s .dLzss .dynamic).dfl.level = .dynamic := by decide +kernel

/-- For `StoredBlockIsWritten`: the block of 95_test_vectors.md for `a`, after 5 queued bits, with exactly
the room it needs; and a block past the end of INPUT. -/
theorem witness_stored_written :
    let s := dflAt [0x61] 7 fun r => { r with
      dState := .dNocomp, blkLen := 1, blkFinal := true, inCur := 1, bitq := 0x1f, bitqCnt := 6 }
    s.turn = .dfl ∧ s.dfl.dState = .dNocomp ∧ s.dfl.blkStart + s.dfl.blkLen ≤ s.dfl.inEnd ∧
    s.dfl.blkLen ≤ 65535 ∧ s.dfl.emitIdx = 0 ∧ s.dflOut.wf = true ∧ s.dfl.WriterOk ∧
    s.written.length + ([true, false, false] ++ List.replicate ((8 - (s.written.length + 3) % 8) % 8) false
      ++ bitsLE 16 1 ++ bitsLE 16 65534 ++ bitsOfBytes [0x61]).length = 8 * s.dfl.outLim ∧
    (dflAt [] 0 fun r => { r with dState := .dNocomp, blkLen := 1 }).dfl.inEnd < 0 + 1 :=
  ⟨rfl, rfl, by decide +kernel, by decide +kernel, rfl, by decide +kernel,
    ⟨by decide, by decide, by decide, by decide, by decide, by decide, by decide⟩, by decide +kernel, by decide +kernel⟩

/-- For `HuffmanBlocksAreWritten`: a literal and a match, with room. -/
theorem witness_huffman_written :
    let s := fun st => dflAt [] 1000 fun r => { r with
      dState := st, tok := [⟨0x61, 1, 0⟩, ⟨285, 258, 32768⟩], nlit := 257, ndist := 1, ncl := 4 }
    (∀ st ∈ [DState.dFixed, .dDynamic], (s st).turn = .dfl ∧ (s st).dfl.dState = st ∧ (s st).dfl.emitIdx = 0 ∧
      (s st).dflOut.wf = true ∧ (s st).dfl.outLim = 1000) ∧ (s .dFixed).dfl.WriterOk ∧ (s .dDynamic).dfl.WriterOk :=
  ⟨by decide +kernel, ⟨by decide, by decide, by decide, by decide, by decide, by decide, by decide⟩,
    ⟨by decide, by decide, by decide, by decide, by decide +kernel, by decide, by decide⟩⟩

/-- For `PassTokensReproduceTheInput`: the end of the input, and a pass that finds a match. -/
theorem witness_pass :
    (dflAt [] 0 id).dfl.inCur ≤ (dflAt [] 0 id).dfl.inEnd ∧
    passOf Config.default (text ['a', 'b', 'c', 'a', 'b', 'c']) = [(97, 0), (98, 0), (99, 0), (3, 3)] := by
  decide +kernel

/-- For `MatchBounds` and `BucketChangesNothing`: two positions that agree with the search position, the
nearer at the least distance that allows a match, with the entries' hashes those of their positions. -/
theorem witness_match :
    let m := Memory.ofBytes (text ['a', 'b', 'c', 'a', 'b', 'c', 'a', 'b', 'c'])
    let r := { DefRegs.powerOn with inEnd := 9, hist := [⟨0, hash3 m 0, 0⟩, ⟨1, hash3 m 3, 3⟩] }
    let far := { Config.default with walkOrder := .oldestFirst }
    r.findLongestMatch Config.default m 6 = ⟨3, 3⟩ ∧ r.findLongestMatch far m 6 = ⟨3, 6⟩ ∧
    (∀ e ∈ r.hist, e.hash = hash3 m e.pos) ∧ r.live.Pairwise (· < ·) ∧
    (∀ p ∈ r.live, 1 ≤ 6 - p ∧ 6 - p ≤ 32768 ∧ 3 ≤ 6 - p ∧ 3 ≤ r.inEnd - 6 ∧
      ∀ k, k < 3 → m.read (p + k) = m.read (6 + k)) := by decide +kernel

/-- For `PassIsGreedy`: a pass that starts inside the input, over a history that has an entry. -/
theorem witness_greedy :
    let m := Memory.ofBytes (text ['a', 'b', 'c', 'a', 'b', 'c'])
    let r := { DefRegs.powerOn with inCur := 1, inEnd := 6, hist := [⟨0, hash3 m 0, 0⟩], fresh := 1 }
    r.inCur ≤ r.inEnd ∧ 0 < Config.default.histCap ∧ r.slotsOk Config.default ∧ (∀ e ∈ r.hist, e.hash = hash3 m e.pos) ∧
    (r.runPass Config.default m).tok.map Token.len = [1, 1, 3] := by
  unfold DefRegs.slotsOk
  decide +kernel

/-- For `InsertDropsTheOldest`: a full arena whose cursor is at its last slot, and an empty one. -/
theorem witness_insert :
    let c := { Config.default with histCap := 2 }
    let r := { DefRegs.powerOn with hist := [⟨1, 0, 4⟩, ⟨0, 0, 5⟩], fresh := 2, evictCur := 1 }
    0 < c.histCap ∧ r.slotsOk c ∧ DefRegs.powerOn.slotsOk c := by
  unfold DefRegs.slotsOk
  decide +kernel

/-- For `QuantisationInverts` and `RunLengthsDecodeBack`: the bounds of their ranges. -/
theorem witness_ranges :
    3 ≤ 258 ∧ 258 ≤ 258 ∧ 1 ≤ 32768 ∧ 32768 ≤ 32768 ∧ 27 ≤ 28 ∧ 31 < 2 ^ lenExtra 27 ∧ 29 ≤ 29 ∧
    8191 < 2 ^ distExtra 29 ∧ (∀ v ∈ List.replicate 139 0 ++ [15, 15, 15, 15], v ≤ 15) ∧
    0 < 139 ∧ [15, 15].head? ≠ some 0 := by
  decide +kernel

/-- For `BuiltLengthsAreBounded`: the least bound, a single used symbol, and as many as the bound allows. -/
theorem witness_built_lengths :
    1 ≤ 1 ∧ [0, 7, 0].countP (fun f => f ≠ 0) = 1 ∧ [0, 7, 0].getD 1 0 ≠ 0 ∧ [0, 7, 0].getD 0 0 = 0 ∧
    2 ≤ [5, 0, 7].countP (fun f => f ≠ 0) ∧ [5, 0, 7].countP (fun f => f ≠ 0) ≤ 2 ^ 1 := by decide +kernel

/-! #### invariants and sessions -/

theorem held_winOk : held.winOk := by
  intro _ k hk
  simp [held, infAt, InfRegs.powerOn] at hk

/-- For `MemoriesStayCanonical`, `InflateStaysInOrder` and `WindowMirrorsOutput`: a step that stores a byte,
from a state in which every invariant holds. -/
theorem witness_invariants :
    beforeLit.cfg.legal = true ∧ beforeLit.memOk ∧ beforeLit.infOk ∧ beforeLit.winOk ∧
    step beforeLit = .next (stepped beforeLit) :=
  ⟨by decide +kernel, beforeLit_memOk, beforeLit_infOk, fun _ k hk => by simp [beforeLit, infAt, InfRegs.powerOn] at hk,
    next_of (by decide +kernel)⟩

/-- For `RegistersKeepTheirWidths` and `CodesKeepTheirWidths`: a step of each engine, the second of which builds
the code tables. -/
theorem witness_widths :
    beforeLit.Ok ∧ 70000 + 4 * beforeLit.cfg.tokenCap ≤ 2 ^ beforeLit.cfg.xlen ∧
    step beforeLit = .next (stepped beforeLit) ∧
    atPass.Ok ∧ 70000 + 4 * atPass.cfg.tokenCap ≤ 2 ^ atPass.cfg.xlen ∧ step atPass = .next (stepped atPass) ∧
    (stepped atPass).dfl.llcLen.toList.getD 0x61 0 = 1 :=
  ⟨beforeLit_ok, by decide +kernel, next_of (by decide +kernel), atPass_ok, by decide +kernel,
    next_of (by decide +kernel), by decide +kernel⟩

/-- For `DeflateStaysInOrder` and `DeflateStepTerminates`. -/
theorem witness_deflate_invariant :
    blocked.cfg.legal = true ∧ blocked.dflOk ∧ blocked.turn = .dfl ∧ step blocked = .next (stepped blocked) :=
  ⟨by decide +kernel, blocked_dflOk, rfl, next_of (by decide +kernel)⟩

/-- For `InflateStepTerminates`. -/
theorem witness_inflate_turn : beforeLit.turn = .inf := rfl

/-- For `InflateChunkingInvariance`: one session with the capacities 1, and 0 then 1. -/
theorem witness_inflate_sessions :
    (∃ o t, InfSession session [1] o t ∧ t.inf.totalOut = 1) ∧
    (∃ o t, InfSession session [0, 1] o t ∧ t.inf.totalOut = 1) :=
  ⟨⟨_, _, .last (out := ⟨0, [7]⟩) (next_of (by decide +kernel)) ⟨20, ended_of (by decide +kernel)⟩ (by decide +kernel),
      by decide +kernel⟩,
    ⟨_, _, .more (out := ⟨0, [7]⟩) (next_of (by decide +kernel)) ⟨20, ended_of (by decide +kernel)⟩ (by decide +kernel)
      (.last (out := ⟨0, [7]⟩) (next_of (by decide +kernel)) ⟨20, ended_of (by decide +kernel)⟩ (by decide +kernel)),
      by decide +kernel⟩⟩

/-- For `DeflateChunkingInvariance`: one session with the capacity 20, and with 1 then 20. -/
theorem witness_deflate_sessions :
    dflSession.cfg.legal = true ∧ dflSession.dflOk ∧ (∃ o t, DflSession dflSession [20] o t ∧ t.dfl.totalOut = 11) ∧
    (∃ o t, DflSession dflSession [1, 20] o t ∧ t.dfl.totalOut = 11) :=
  ⟨by decide +kernel, dflSession_dflOk,
    ⟨_, _, .last (out := ⟨0, [7]⟩) (next_of (by decide +kernel)) ⟨20, ended_of (by decide +kernel)⟩ (by decide +kernel),
      by decide +kernel⟩,
    ⟨_, _, .more (out := ⟨0, [7]⟩) (next_of (by decide +kernel)) ⟨20, ended_of (by decide +kernel)⟩ (by decide +kernel)
      (.last (out := ⟨0, [7]⟩) (next_of (by decide +kernel)) ⟨20, ended_of (by decide +kernel)⟩ (by decide +kernel)),
      by decide +kernel⟩⟩

end Sys2Proof.Tests
end

section
/-! PROOFS. Package-merge (R170 to R173): the counting argument that gives the Kraft bound, and the code values
of R174 under it. -/

namespace Sys2Proof

open Machine

/-! ### the items of the merge rounds -/

/-- How often a symbol stands in the items of a list. -/
def pmCount (s : Nat) (l : List PmItem) : Nat := (l.flatMap PmItem.members).count s

@[simp] theorem pmCount_append (s : Nat) (a b : List PmItem) : pmCount s (a ++ b) = pmCount s a + pmCount s b := by
  simp [pmCount]

theorem pmCount_perm {a b : List PmItem} (h : a.Perm b) (s : Nat) : pmCount s a = pmCount s b :=
  (h.flatMap_right _).count_eq s

theorem pmInsert_perm (x : PmItem) (l : List PmItem) : (pmInsert x l).Perm (x :: l) := by
  induction l with
  | nil => exact .refl _
  | cons y l ih =>
    unfold pmInsert
    split
    · exact .refl _
    · exact (ih.cons y).trans (.swap x y l)

/-- Merging loses no item and adds none. -/
theorem pmMerge_perm (leaves pk : List PmItem) : (pmMerge leaves pk).Perm (leaves ++ pk) := by
  induction pk generalizing leaves with
  | nil => simp [pmMerge]
  | cons x pk ih =>
    have h : (pmMerge (pmInsert x leaves) pk).Perm (pmInsert x leaves ++ pk) := ih _
    exact h.trans (((pmInsert_perm x leaves).append_right pk).trans List.perm_middle.symm)

theorem length_pmPackage (l : List PmItem) : (pmPackage l).length = l.length / 2 := by
  induction l using pmPackage.induct with
  | case1 a b rest ih => simp [pmPackage, ih]; omega
  | case2 x => simp [pmPackage]
  | case3 => rfl

/-- Packages come from twice as many items, with the same members. -/
theorem exists_sublist_of_pmPackage {T l : List PmItem} (h : T.Sublist (pmPackage l)) :
    ∃ Q, Q.Sublist l ∧ Q.length = 2 * T.length ∧ ∀ s, pmCount s Q = pmCount s T := by
  induction l using pmPackage.induct generalizing T with
  | case1 a b rest ih =>
    rw [pmPackage] at h
    cases h with
    | cons _ h =>
      obtain ⟨Q, hQ, hl, hc⟩ := ih h
      exact ⟨Q, .cons a (.cons b hQ), hl, hc⟩
    | cons_cons _ h =>
      obtain ⟨Q, hQ, hl, hc⟩ := ih h
      refine ⟨a :: b :: Q, .cons_cons a (.cons_cons b hQ), by simp [hl]; omega, fun s => ?_⟩
      have := hc s
      simp only [pmCount, List.flatMap_cons, List.count_append] at this ⊢
      omega
  | case2 x =>
    rw [pmPackage, List.sublist_nil] at h
    exact ⟨[], List.nil_sublist _, by simp [h], by simp [h]⟩
  | case3 =>
    rw [pmPackage, List.sublist_nil] at h
    exact ⟨[], List.nil_sublist _, by simp [h], by simp [h]⟩

/-- After `n` rounds the list is two items short of twice the leaves, at most, when there are few enough leaves
for `n` rounds. -/
theorem length_pmRounds {leaves cur : List PmItem} {n : Nat} (h : 2 * leaves.length ≤ cur.length + 2 ^ (n + 1)) :
    2 * leaves.length ≤ (pmRounds leaves n cur).length + 2 := by
  induction n generalizing cur with
  | zero => simpa [pmRounds] using h
  | succ n ih =>
    refine ih ?_
    rw [(pmMerge_perm _ _).length_eq, List.length_append, length_pmPackage]
    rw [Nat.pow_succ] at h
    omega

/-! ### the counting invariant of the rounds -/

/-- The items are single symbols of `used`, each at most once. -/
def PmSingles (used : Finset Nat) (l : List PmItem) : Prop :=
  ∀ T, T.Sublist l → T.length = ∑ s ∈ used, pmCount s T ∧ ∀ s, pmCount s T ≤ if s ∈ used then 1 else 0

/-- What holds of any items of the list of round `j`, an item of which stands for the width `2^j`: a symbol is in
at most `j + 1` of them, and those that hold it have together at most the width `2^(j+1) - 2^(j+1-count)`. -/
def PmBounded (used : Finset Nat) (j : Nat) (l : List PmItem) : Prop :=
  ∀ T, T.Subperm l → (∀ s, pmCount s T ≤ if s ∈ used then j + 1 else 0) ∧
    T.length * 2 ^ j + ∑ s ∈ used, 2 ^ (j + 1 - pmCount s T) ≤ used.card * 2 ^ (j + 1)

theorem pmBounded_of_perm {used : Finset Nat} {j : Nat} {a b : List PmItem} (hp : a.Perm b)
    (h : PmBounded used j b) : PmBounded used j a :=
  fun T hT => h T (hT.trans hp.subperm)

/-- One more coin of a symbol, of twice the width of the coins before it. -/
theorem coin_width {a q j : Nat} (ha : a ≤ 1) (hq : q ≤ j + 1) :
    a * 2 ^ (j + 1) + 2 ^ (j + 2 - (a + q)) ≤ 2 ^ (j + 1 - q) + 2 ^ (j + 1) := by
  have h2 : 2 ^ (j + 2 - q) = 2 * 2 ^ (j + 1 - q) := by
    rw [show j + 2 - q = j + 1 - q + 1 by omega, Nat.pow_succ, Nat.mul_comm]
  have hle : 2 ^ (j + 1 - q) ≤ 2 ^ (j + 1) := Nat.pow_le_pow_right (by decide) (by omega)
  obtain rfl | rfl : a = 0 ∨ a = 1 := by omega
  · simp only [Nat.zero_mul, Nat.zero_add, h2]
    omega
  · rw [show j + 2 - (1 + q) = j + 1 - q by omega]
    omega

theorem pmBounded_singles {used : Finset Nat} {leaves : List PmItem} (h : PmSingles used leaves) :
    PmBounded used 0 leaves := by
  rintro T ⟨T', hT, hs⟩
  obtain ⟨hl, hc⟩ := h T' hs
  simp only [pmCount_perm hT] at hl hc
  refine ⟨by simpa using hc, ?_⟩
  have hp : ∀ s ∈ used, pmCount s T + 2 ^ (1 - pmCount s T) ≤ 2 := fun s hs => by
    have := hc s
    rw [if_pos hs] at this
    obtain h | h : pmCount s T = 0 ∨ pmCount s T = 1 := by omega
    all_goals simp [h]
  rw [← hT.length_eq, hl, Nat.pow_zero, Nat.mul_one, ← Finset.sum_add_distrib, Nat.zero_add, Nat.pow_one]
  exact (Finset.sum_le_sum hp).trans (by simp)

theorem pmBounded_merge {used : Finset Nat} {leaves cur : List PmItem} {j : Nat} (h : PmSingles used leaves)
    (hc : PmBounded used j cur) : PmBounded used (j + 1) (pmMerge leaves (pmPackage cur)) := by
  refine pmBounded_of_perm (pmMerge_perm _ _) ?_
  rintro T ⟨T', hT, hs⟩
  obtain ⟨A, B, rfl, hA, hB⟩ := List.sublist_append_iff.1 hs
  obtain ⟨Q, hQ, hlen, hcnt⟩ := exists_sublist_of_pmPackage hB
  obtain ⟨hAl, hAc⟩ := h A hA
  obtain ⟨hQc, hQs⟩ := hc Q hQ.subperm
  have hTc : ∀ s, pmCount s T = pmCount s A + pmCount s Q := fun s => by
    rw [← pmCount_perm hT, pmCount_append, hcnt]
  have hTl : T.length * 2 ^ (j + 1) = A.length * 2 ^ (j + 1) + Q.length * 2 ^ j := by
    rw [← hT.length_eq, List.length_append, hlen, Nat.pow_succ]
    ring
  refine ⟨fun s => ?_, ?_⟩
  · have h1 := hAc s
    have h2 := hQc s
    rw [hTc]
    by_cases hm : s ∈ used <;> simp only [hm, if_true, if_false] at h1 h2 ⊢ <;> omega
  · have hp : ∀ s ∈ used, pmCount s A * 2 ^ (j + 1) + 2 ^ (j + 2 - (pmCount s A + pmCount s Q)) ≤
        2 ^ (j + 1 - pmCount s Q) + 2 ^ (j + 1) := fun s hs => by
      have h1 := hAc s
      have h2 := hQc s
      rw [if_pos hs] at h1 h2
      exact coin_width h1 h2
    have hsum := Finset.sum_le_sum hp
    simp only [Finset.sum_add_distrib, ← Finset.sum_mul, ← hAl, Finset.sum_const, smul_eq_mul] at hsum
    simp only [hTc, hTl, show j + 1 + 1 = j + 2 from rfl]
    have h2 : used.card * 2 ^ (j + 2) = used.card * 2 ^ (j + 1) + used.card * 2 ^ (j + 1) := by ring
    omega

theorem pmBounded_rounds {used : Finset Nat} {leaves cur : List PmItem} {j n : Nat} (h : PmSingles used leaves)
    (hc : PmBounded used j cur) : PmBounded used (j + n) (pmRounds leaves n cur) := by
  induction n generalizing j cur with
  | zero => exact hc
  | succ n ih =>
    have := ih (pmBounded_merge h hc)
    rwa [Nat.add_assoc, Nat.add_comm 1] at this

/-! ### the leaves -/

theorem length_pmItems (k : Nat) (freq : List Nat) : (pmItems k freq).length = freq.countP (· ≠ 0) := by
  induction freq generalizing k with
  | nil => rfl
  | cons f fs ih =>
    unfold pmItems
    split <;> simp [*]

theorem pmItems_members (k : Nat) (freq : List Nat) {x : PmItem} (h : x ∈ pmItems k freq) : ∃ s, x.members = [s] := by
  induction freq generalizing k with
  | nil => simp [pmItems] at h
  | cons f fs ih =>
    unfold pmItems at h
    split at h
    · exact ih _ h
    · rcases List.mem_cons.1 h with rfl | h
      · exact ⟨k, rfl⟩
      · exact ih _ h

theorem le_of_mem_pmItems {k s : Nat} {freq : List Nat} (h : s ∈ (pmItems k freq).flatMap PmItem.members) : k ≤ s := by
  induction freq generalizing k with
  | nil => simp [pmItems] at h
  | cons f fs ih =>
    unfold pmItems at h
    split at h
    · exact (Nat.le_succ k).trans (ih h)
    · rcases List.mem_append.1 h with h | h
      · simp at h; omega
      · exact (Nat.le_succ k).trans (ih h)

theorem nodup_pmItems (k : Nat) (freq : List Nat) : ((pmItems k freq).flatMap PmItem.members).Nodup := by
  induction freq generalizing k with
  | nil => simp [pmItems]
  | cons f fs ih =>
    unfold pmItems
    split
    · exact ih _
    · refine List.nodup_cons.2 ⟨fun h => ?_, ih _⟩
      have := le_of_mem_pmItems h
      omega

theorem pmLeaves_perm (freq : List Nat) : (pmLeaves freq).Perm (pmItems 0 freq) :=
  pmMerge_perm [] (pmItems 0 freq)

theorem length_pmLeaves (freq : List Nat) : (pmLeaves freq).length = freq.countP (· ≠ 0) :=
  (pmLeaves_perm freq).length_eq.trans (length_pmItems 0 freq)

/-- The used symbols, as the leaves hold them. -/
def pmUsed (freq : List Nat) : Finset Nat := ((pmLeaves freq).flatMap PmItem.members).toFinset

theorem length_flatMap_members {l : List PmItem} (h : ∀ x ∈ l, ∃ s, x.members = [s]) :
    (l.flatMap PmItem.members).length = l.length := by
  induction l with
  | nil => rfl
  | cons x l ih =>
    obtain ⟨s, hs⟩ := h x (by simp)
    simp [hs, ih fun y hy => h y (by simp [hy])]

theorem pmLeaves_members {freq : List Nat} {x : PmItem} (h : x ∈ pmLeaves freq) : ∃ s, x.members = [s] :=
  pmItems_members 0 freq ((pmLeaves_perm freq).mem_iff.1 h)

theorem nodup_pmLeaves (freq : List Nat) : ((pmLeaves freq).flatMap PmItem.members).Nodup :=
  ((pmLeaves_perm freq).flatMap_right _).nodup_iff.2 (nodup_pmItems 0 freq)

theorem card_pmUsed (freq : List Nat) : (pmUsed freq).card = (pmLeaves freq).length :=
  (List.toFinset_card_of_nodup (nodup_pmLeaves freq)).trans (length_flatMap_members fun _ => pmLeaves_members)

theorem pmSingles_pmLeaves (freq : List Nat) : PmSingles (pmUsed freq) (pmLeaves freq) := by
  intro T hT
  have hsub := hT.flatMap PmItem.members
  have hmem : ∀ s ∈ T.flatMap PmItem.members, s ∈ pmUsed freq := fun s hs => List.mem_toFinset.2 (hsub.subset hs)
  refine ⟨?_, fun s => ?_⟩
  · rw [← length_flatMap_members fun x hx => pmLeaves_members (hT.subset hx)]
    simpa [pmCount] using (Multiset.sum_count_eq_card (m := (T.flatMap PmItem.members : Multiset Nat)) hmem).symm
  · split
    · exact List.nodup_iff_count_le_one.1 ((nodup_pmLeaves freq).sublist hsub) s
    · rename_i hs
      exact (List.count_eq_zero.2 fun h => hs (hmem s h)).le

/-! ### the lengths -/

/-- The items the lengths are counted in. -/
def pmTaken (freq : List Nat) (maxBits : Nat) : List PmItem :=
  (pmRounds (pmLeaves freq) (maxBits - 1) (pmLeaves freq)).take (2 * (pmLeaves freq).length - 2)

/-- The three cases of `buildLengths`, by the number of used symbols (R170, R172, R173). -/
theorem buildLengths_cases (freq : List Nat) (maxBits : Nat) :
    ((pmLeaves freq).length = 0 ∧ buildLengths freq maxBits = freq.map fun _ => 0) ∨
    ((pmLeaves freq).length = 1 ∧ buildLengths freq maxBits = freq.map fun f => if f = 0 then 0 else 1) ∨
    (2 ≤ (pmLeaves freq).length ∧
      buildLengths freq maxBits = (List.range freq.length).map fun s => pmCount s (pmTaken freq maxBits)) := by
  unfold buildLengths
  dsimp only
  split
  · exact .inl ⟨‹_›, rfl⟩
  · split
    · exact .inr (.inl ⟨‹_›, rfl⟩)
    · exact .inr (.inr ⟨by omega, rfl⟩)

theorem pmTaken_bounded (freq : List Nat) {maxBits : Nat} (hb : 1 ≤ maxBits) :
    (∀ s, pmCount s (pmTaken freq maxBits) ≤ if s ∈ pmUsed freq then maxBits else 0) ∧
    (pmTaken freq maxBits).length * 2 ^ (maxBits - 1) +
      ∑ s ∈ pmUsed freq, 2 ^ (maxBits - pmCount s (pmTaken freq maxBits)) ≤ (pmLeaves freq).length * 2 ^ maxBits := by
  have hs := pmSingles_pmLeaves freq
  have h := pmBounded_rounds (n := maxBits - 1) hs (pmBounded_singles hs) (pmTaken freq maxBits)
    (List.take_sublist _ _).subperm
  rw [Nat.zero_add, Nat.sub_add_cancel hb, card_pmUsed] at h
  exact h

/-- No length is above the bound (R170). -/
theorem buildLengths_le {freq : List Nat} {maxBits : Nat} (hb : 1 ≤ maxBits) :
    ∀ l ∈ buildLengths freq maxBits, l ≤ maxBits := by
  intro l hl
  obtain ⟨-, h⟩ | ⟨-, h⟩ | ⟨-, h⟩ := buildLengths_cases freq maxBits <;> rw [h] at hl <;>
    obtain ⟨x, -, rfl⟩ := List.mem_map.1 hl
  · exact Nat.zero_le _
  · split <;> omega
  · have := (pmTaken_bounded freq hb).1 x
    split at this <;> omega

theorem kraftSum_single (maxBits : Nat) (freq : List Nat) :
    kraftSum maxBits (freq.map fun f => if f = 0 then 0 else 1) = freq.countP (· ≠ 0) * 2 ^ (maxBits - 1) := by
  induction freq with
  | nil => simp [kraftSum]
  | cons f fs ih =>
    simp only [kraftSum, List.map_cons, List.sum_cons] at ih ⊢
    rw [ih]
    by_cases hf : f = 0
    · simp [hf]
    · simp [hf]
      ring

/-- The lengths meet Kraft's inequality where the bound has room for the used symbols (R170). -/
theorem kraftSum_buildLengths {freq : List Nat} {maxBits : Nat} (hb : 1 ≤ maxBits)
    (hk : freq.length ≤ 2 ^ maxBits) : kraftSum maxBits (buildLengths freq maxBits) ≤ 2 ^ maxBits := by
  have hpow : 2 ^ maxBits = 2 * 2 ^ (maxBits - 1) := by
    rw [← Nat.pow_succ', Nat.succ_eq_add_one, Nat.sub_add_cancel hb]
  have hle : (pmLeaves freq).length ≤ 2 ^ maxBits :=
    (length_pmLeaves freq).trans_le (List.countP_le_length.trans hk)
  obtain ⟨-, h⟩ | ⟨h1, h⟩ | ⟨h2, h⟩ := buildLengths_cases freq maxBits
  · simp [h, kraftSum]
  · rw [h, kraftSum_single, ← length_pmLeaves, h1]
    omega
  · have hlen : (pmTaken freq maxBits).length = 2 * (pmLeaves freq).length - 2 := by
      have := length_pmRounds (leaves := pmLeaves freq) (cur := pmLeaves freq) (n := maxBits - 1)
        (by rw [Nat.sub_add_cancel hb]; omega)
      rw [pmTaken, List.length_take]
      omega
    obtain ⟨hc, hsum⟩ := pmTaken_bounded freq hb
    have hw : (2 * (pmLeaves freq).length - 2) * 2 ^ (maxBits - 1) + 2 ^ maxBits =
        (pmLeaves freq).length * 2 ^ maxBits := by
      obtain ⟨k, hk⟩ : ∃ k, (pmLeaves freq).length = k + 1 := ⟨_, (Nat.sub_add_cancel (by omega)).symm⟩
      rw [hk, hpow, show 2 * (k + 1) - 2 = 2 * k by omega]
      ring
    have hsub : kraftSum maxBits (buildLengths freq maxBits) ≤
        ∑ s ∈ pmUsed freq, 2 ^ (maxBits - pmCount s (pmTaken freq maxBits)) := by
      rw [h, kraftSum, List.map_map]
      calc _ = ∑ s ∈ Finset.range freq.length, if pmCount s (pmTaken freq maxBits) = 0 then 0
              else 2 ^ (maxBits - pmCount s (pmTaken freq maxBits)) := rfl
        _ ≤ ∑ s ∈ pmUsed freq, if pmCount s (pmTaken freq maxBits) = 0 then 0
              else 2 ^ (maxBits - pmCount s (pmTaken freq maxBits)) :=
            Finset.sum_le_sum_of_ne_zero fun s _ hs => by
              have := hc s
              by_contra hn
              simp [hn] at this
              simp [this] at hs
        _ ≤ _ := Finset.sum_le_sum fun s _ => by split <;> simp
    rw [hlen] at hsum
    omega

/-! ### the code values (R174) -/

/-- A table and the entries that follow from its last: each is twice the sum of the one before and its count. -/
theorem nextCodesFrom_getD (len : List Nat) {fuel b code i : Nat} (hb : 1 ≤ b) (hi : i < fuel) :
    (nextCodesFrom len fuel b code).getD i 0 =
      ((code :: nextCodesFrom len fuel b code).getD i 0 + countLen len (b + i - 1)) * 2 := by
  induction fuel generalizing b code i with
  | zero => omega
  | succ fuel ih =>
    cases i with
    | zero => simp [nextCodesFrom]
    | succ i =>
      have := ih (b := b + 1) (code := (code + countLen len (b - 1)) * 2) (by omega) (Nat.lt_of_succ_lt_succ hi)
      simp only [nextCodesFrom, List.getD_cons_succ] at this ⊢
      rw [this, show b + 1 + i - 1 = b + (i + 1) - 1 by omega]

theorem nextCodes_succ (len : List Nat) {l : Nat} (h : l < 15) :
    (nextCodes len 15).getD (l + 1) 0 = ((nextCodes len 15).getD l 0 + countLen len l) * 2 := by
  have := nextCodesFrom_getD len (code := 0) (Nat.le_refl 1) h
  rwa [Nat.add_sub_cancel_left] at this

/-- The Kraft sum over the symbols with a length below `l`. -/
def kraftBelow (bound l : Nat) (len : List Nat) : Nat :=
  (len.map fun x => if x = 0 ∨ l ≤ x then 0 else 2 ^ (bound - x)).sum

theorem kraftBelow_le (bound l : Nat) (len : List Nat) : kraftBelow bound l len ≤ kraftSum bound len := by
  refine List.sum_le_sum fun x _ => ?_
  by_cases h : x = 0 <;> simp [h]
  split <;> simp

theorem kraftBelow_zero (bound : Nat) (len : List Nat) : kraftBelow bound 0 len = 0 := by
  simp [kraftBelow]

theorem kraftBelow_succ (bound l : Nat) (len : List Nat) :
    kraftBelow bound (l + 1) len = kraftBelow bound l len + countLen len l * 2 ^ (bound - l) := by
  induction len with
  | nil => simp [kraftBelow, countLen]
  | cons x xs ih =>
    simp only [kraftBelow, countLen, List.map_cons, List.sum_cons, List.count_cons] at ih ⊢
    rw [ih]
    obtain h | rfl | h := Nat.lt_trichotomy x l
    · simp [show ¬ l + 1 ≤ x by omega, show ¬ l ≤ x by omega, show x ≠ l by omega, Nat.add_assoc]
    · by_cases h0 : x = 0
      · simp [h0]
      · simp [h0]
        ring
    · simp [show l + 1 ≤ x by omega, show l ≤ x by omega, show x ≠ l by omega]

/-- The first code of length `l` stands above those of every shorter length. -/
theorem nextCodes_kraftBelow (len : List Nat) {bound l : Nat} (hb : bound ≤ 15) (hl : l ≤ bound) :
    (nextCodes len 15).getD l 0 * 2 ^ (bound - l) = kraftBelow bound l len := by
  induction l with
  | zero => simp [kraftBelow_zero, nextCodes]
  | succ l ih =>
    rw [nextCodes_succ len (by omega), kraftBelow_succ, ← ih (by omega),
      show bound - l = bound - (l + 1) + 1 by omega, Nat.pow_succ]
    ring

/-- Under Kraft's inequality every length has room for its codes. -/
theorem nextCodes_add_count_le {len : List Nat} {bound l : Nat} (hb : bound ≤ 15) (hl : l ≤ bound) (h0 : l ≠ 0)
    (hk : kraftSum bound len ≤ 2 ^ bound) : (nextCodes len 15).getD l 0 + len.count l ≤ 2 ^ l := by
  have h : ((nextCodes len 15).getD l 0 + len.count l) * 2 ^ (bound - l) ≤ 2 ^ l * 2 ^ (bound - l) := by
    rw [← Nat.pow_add, Nat.add_sub_cancel' hl]
    calc _ = kraftBelow bound (l + 1) len := by
            rw [kraftBelow_succ, ← nextCodes_kraftBelow len hb hl, countLen, if_neg h0, Nat.add_mul]
      _ ≤ _ := (kraftBelow_le ..).trans hk
  exact Nat.le_of_mul_le_mul_right h (Nat.two_pow_pos _)

/-- Where every length in use has room in its table of next codes, each code has the length of its symbol. -/
theorem assignFrom_lt {tbl ls : List Nat} (h : ∀ l ∈ ls, l ≠ 0 → tbl.getD l 0 + ls.count l ≤ 2 ^ l) (s : Nat) :
    (assignFrom tbl ls).getD s 0 < 2 ^ ls.getD s 0 := by
  induction ls generalizing tbl s with
  | nil => simp [assignFrom]
  | cons l ls ih =>
    unfold assignFrom
    by_cases h0 : l = 0
    · rw [if_pos h0]
      cases s with
      | zero => simp [h0]
      | succ s =>
        refine ih (fun k hk hk0 => ?_) s
        have := h k (List.mem_cons_of_mem _ hk) hk0
        rwa [List.count_cons_of_ne (by omega)] at this
    · rw [if_neg h0]
      have hl := h l List.mem_cons_self h0
      rw [List.count_cons_self] at hl
      cases s with
      | zero => simp only [List.getD_cons_zero]; omega
      | succ s =>
        refine ih (fun k hk hk0 => ?_) s
        have hk' := h k (List.mem_cons_of_mem _ hk) hk0
        by_cases hkl : l = k
        · subst hkl
          have : (tbl.set l (tbl.getD l 0 + 1)).getD l 0 ≤ tbl.getD l 0 + 1 := by
            simp only [List.getD_eq_getElem?_getD, List.getElem?_set_self']
            cases tbl[l]? <;> simp
          omega
        · rw [List.count_cons_of_ne hkl] at hk'
          rwa [List.getD_eq_getElem?_getD, List.getElem?_set_ne hkl, ← List.getD_eq_getElem?_getD]

/-- Under Kraft's inequality every code has the length of its symbol (R174). -/
theorem assignCodes_lt {len : List Nat} {bound : Nat} (hb : bound ≤ 15) (hl : ∀ x ∈ len, x ≤ bound)
    (hk : kraftSum bound len ≤ 2 ^ bound) (s : Nat) : (assignCodes len).getD s 0 < 2 ^ len.getD s 0 :=
  assignFrom_lt (fun l hm h0 => nextCodes_add_count_le hb (hl l hm) h0 hk) s

end Sys2Proof
end

section
/-! PROOFS. What the decoder consumes and what it can answer, and the depth of a built trie. -/

namespace Sys2Proof

open Machine

/-! ### the decoder -/

/-- An element of the compressed stream that the INFLATE engine can meet: no trailer (R310), no host command. -/
def Instr.isWire : Instr → Bool
  | .trailer _ => false
  | i => (commandCode i).isNone

theorem le_length_of_takeBits {n : Nat} {bs x rest : Bits} (h : takeBits n bs = some (x, rest)) : n ≤ bs.length := by
  by_contra hc
  rw [takeBits_short (by omega)] at h
  simp at h

theorem decodeFixed_used {n : Nat} {short : Cause} {bs : Bits} {mk : Bits → Instr} :
    (∀ {i used}, decodeFixed n short bs mk = .ok i used → used ≤ bs.length ∧ ∃ x, i = mk x) ∧
    ∀ {c used}, decodeFixed n short bs mk = .reject c used → used ≤ bs.length := by
  unfold decodeFixed
  cases h : takeBits n bs with
  | none => simp
  | some p =>
    obtain ⟨x, rest⟩ := p
    have := le_length_of_takeBits h
    constructor
    · rintro i used ⟨⟩
      exact ⟨this, x, rfl⟩
    · rintro c used ⟨⟩

theorem decodeSym_used {t : Trie} {extra : Nat → Nat} {mk : Nat → Nat → Option Instr} {stop : Nat → Option Cause}
    {bs : Bits} :
    (∀ {i used}, decodeSym t extra mk stop bs = .ok i used → used ≤ bs.length ∧ ∃ s x, mk s x = some i) ∧
    ∀ {c used}, decodeSym t extra mk stop bs = .reject c used → used ≤ bs.length := by
  have hw := Trie.walkFrom_used (t := t) (bs := bs) (u := 0)
  unfold decodeSym Trie.walk
  cases hf : t.walkFrom bs 0 with
  | exhausted v => rw [hf] at hw; refine ⟨nofun, ?_⟩; rintro c used ⟨⟩; omega
  | walkOff v => rw [hf] at hw; refine ⟨nofun, ?_⟩; rintro c used ⟨⟩; omega
  | found s v rest =>
    rw [hf] at hw
    dsimp only
    cases hs : stop s with
    | some c => refine ⟨nofun, ?_⟩; rintro c used ⟨⟩; omega
    | none =>
      dsimp only
      cases ht : takeBits (extra s) rest with
      | none => refine ⟨nofun, ?_⟩; rintro c used ⟨⟩; omega
      | some p =>
        have := le_length_of_takeBits ht
        dsimp only
        cases hm : mk s (ofBitsLE p.1) with
        | none => refine ⟨nofun, ?_⟩; rintro c used ⟨⟩; omega
        | some i => refine ⟨?_, nofun⟩; rintro j used ⟨⟩; exact ⟨by omega, s, _, hm⟩

theorem llOf_isWire {s x : Nat} {i : Instr} (h : llOf s x = some i) : i.isWire = true := by
  unfold llOf at h
  repeat' split at h
  all_goals cases h <;> rfl

theorem dOf_isWire {s y : Nat} {i : Instr} (h : dOf s y = some i) : i.isWire = true := by
  unfold dOf at h
  split at h <;> cases h <;> rfl

theorem clOf_isWire {s x : Nat} {i : Instr} (h : clOf s x = some i) : i.isWire = true := by
  unfold clOf at h
  repeat' split at h
  all_goals cases h <;> rfl

theorem mkBhdr_isWire (x : Bits) : (mkBhdr x).isWire = true := by
  unfold mkBhdr
  dsimp only
  split <;> rfl

/-- What decoding at a position is: a stored byte, a fixed-width element, or a Huffman-coded one; what it answers
where the compressed stream stands is an element of the stream. -/
theorem decodeAt_cases (p : Pos) (bs : Bits) :
    (8 ≤ bs.length ∧ ∃ x, decodeAt p bs = .ok (mkRaw x) 8) ∨
    decodeAt p bs = .reject .inputExhausted 0 ∨
    (∃ n short mk, decodeAt p bs = decodeFixed n short bs mk ∧
      (p ≠ .trailer → (∀ ops, p ≠ .hcmd ops) → ∀ x, (mk x).isWire = true)) ∨
    ∃ t extra mk stop, decodeAt p bs = decodeSym t extra mk stop bs ∧ ∀ s x i, mk s x = some i → i.isWire = true := by
  cases p with
  | zhdr => exact .inr (.inr (.inl ⟨_, _, mkZhdr, rfl, fun _ _ _ => rfl⟩))
  | dictid => exact .inr (.inr (.inl ⟨_, _, mkDictid, rfl, fun _ _ _ => rfl⟩))
  | bhdr => exact .inr (.inr (.inl ⟨_, _, mkBhdr, rfl, fun _ _ => mkBhdr_isWire⟩))
  | pad w => exact .inr (.inr (.inl ⟨_, _, fun _ => .pad, rfl, fun _ _ _ => rfl⟩))
  | shdr => exact .inr (.inr (.inl ⟨_, _, mkShdr, rfl, fun _ _ _ => rfl⟩))
  | raw =>
    cases h : takeBits 8 bs with
    | none => exact .inr (.inl (by simp only [decodeAt, h]))
    | some q => exact .inl ⟨le_length_of_takeBits h, q.1, by simp only [decodeAt, h]⟩
  | dynhdr => exact .inr (.inr (.inl ⟨_, _, mkDynhdr, rfl, fun _ _ _ => rfl⟩))
  | cllens => exact .inr (.inr (.inl ⟨_, _, mkCllens, rfl, fun _ _ _ => rfl⟩))
  | clsym t first => exact .inr (.inr (.inr ⟨t, clExtra, clOf, clStop first, rfl, fun _ _ _ => clOf_isWire⟩))
  | llsym t => exact .inr (.inr (.inr ⟨t, llExtra, llOf, fun _ => none, rfl, fun _ _ _ => llOf_isWire⟩))
  | dsym t => exact .inr (.inr (.inr ⟨t, dExtra, dOf, fun _ => none, rfl, fun _ _ _ => dOf_isWire⟩))
  | trailer => exact .inr (.inr (.inl ⟨_, _, mkTrailer, rfl, fun h => absurd rfl h⟩))
  | hcmd ops =>
    exact .inr (.inr (.inl ⟨_, _, fun x => commandOf (field x 0 3) ops, rfl, fun _ h => absurd rfl (h ops)⟩))

/-- The decoder consumes no more bits than there are. -/
theorem decodeAt_used {p : Pos} {bs : Bits} :
    (∀ {i used}, decodeAt p bs = .ok i used → used ≤ bs.length) ∧
    ∀ {c used}, decodeAt p bs = .reject c used → used ≤ bs.length := by
  obtain ⟨hl, x, h⟩ | h | ⟨n, short, mk, h, -⟩ | ⟨t, extra, mk, stop, h, -⟩ := decodeAt_cases p bs <;> rw [h]
  · refine ⟨?_, nofun⟩
    rintro i used ⟨⟩
    exact hl
  · refine ⟨nofun, ?_⟩
    rintro c used ⟨⟩
    exact Nat.zero_le _
  · exact ⟨fun h => (decodeFixed_used.1 h).1, decodeFixed_used.2⟩
  · exact ⟨fun h => (decodeSym_used.1 h).1, decodeSym_used.2⟩

/-- At a position of the compressed stream the decoder answers elements of the stream. -/
theorem decodeAt_isWire {p : Pos} {bs : Bits} {i : Instr} {used : Nat} (h : decodeAt p bs = .ok i used)
    (ht : p ≠ .trailer) (hc : ∀ ops, p ≠ .hcmd ops) : i.isWire = true := by
  obtain ⟨-, x, hd⟩ | hd | ⟨n, short, mk, hd, hw⟩ | ⟨t, extra, mk, stop, hd, hw⟩ := decodeAt_cases p bs <;> rw [hd] at h
  · cases h
    rfl
  · cases h
  · obtain ⟨-, x, rfl⟩ := decodeFixed_used.1 h
    exact hw ht hc x
  · obtain ⟨-, s, x, hm⟩ := decodeSym_used.1 h
    exact hw s x i hm

/-! ### the depth of a built trie (R31, R176) -/

/-- A path of at most `d` bits keeps a trie within depth `d`. -/
theorem Trie.insert_fits {d : Nat} {t t' : Trie} {p : Bits} {s : Nat} (ht : Trie.Fits d t) (hp : p.length ≤ d)
    (hs : s < 2 ^ 9) (h : t.insert p s = some t') : Trie.Fits d t' := by
  induction p generalizing d t t' with
  | nil =>
    cases t <;> simp only [Trie.insert, Option.some.injEq, reduceCtorEq] at h
    subst h
    simpa [Trie.Fits] using hs
  | cons b p ih =>
    obtain ⟨d, rfl⟩ : ∃ k, d = k + 1 := ⟨d - 1, by simp at hp; omega⟩
    have hp' : p.length ≤ d := by simpa using hp
    cases t with
    | leaf _ => simp [Trie.insert] at h
    | nil =>
      simp only [Trie.insert, Option.map_eq_some_iff] at h
      obtain ⟨u, hu, rfl⟩ := h
      have := ih (by simp [Trie.Fits]) hp' hu
      cases b <;> simp [Trie.Fits, this]
    | node z o =>
      obtain ⟨hz, ho⟩ := ht
      cases b <;> simp only [Trie.insert, if_true, Bool.false_eq_true, if_false, Option.map_eq_some_iff] at h <;>
        obtain ⟨u, hu, rfl⟩ := h
      · exact ⟨ih hz hp' hu, ho⟩
      · exact ⟨hz, ih ho hp' hu⟩

theorem buildFrom_fits {d k : Nat} {l : List (Nat × Nat)} {t t' : Trie} (ht : Trie.Fits d t)
    (hl : ∀ x ∈ l, x.1 ≤ d) (hk : k + l.length ≤ 2 ^ 9) (h : buildFrom k l t = some t') : Trie.Fits d t' := by
  induction l generalizing k t with
  | nil => simp only [buildFrom, Option.some.injEq] at h; exact h ▸ ht
  | cons x l ih =>
    obtain ⟨n, c⟩ := x
    have hl' : ∀ x ∈ l, x.1 ≤ d := fun x hx => hl x (List.mem_cons_of_mem _ hx)
    simp only [List.length_cons] at hk
    simp only [buildFrom] at h
    split at h
    · exact ih ht hl' (by omega) h
    · split at h
      · simp at h
      · split at h
        · simp at h
        · rename_i u hu
          have hn := hl (n, c) List.mem_cons_self
          exact ih (Trie.insert_fits ht (by simpa using hn) (by omega) hu) hl' (by omega) h

/-- A built trie is no deeper than the longest length, and holds the symbols of the table (R31). -/
theorem buildDecodeTree_fits {d : Nat} {len : List Nat} {t : Trie} (hl : ∀ x ∈ len, x ≤ d) (hn : len.length ≤ 2 ^ 9)
    (h : buildDecodeTree len = some t) : Trie.Fits d t :=
  buildFrom_fits (by simp [Trie.Fits]) (fun x hx => hl x.1 (List.of_mem_zip hx).1) (by simpa using hn) h

end Sys2Proof
end

section
/-! PROOFS. A step of the INFLATE engine keeps its registers within their widths (R12) and touches nothing of the
DEFLATE engine's registers. -/

namespace Sys2Proof.Machine

/-- What an INFLATE step needs of its engine's registers to stay within their widths. -/
structure State.InfReady (s : State) : Prop where
  winCap : 0 < s.cfg.winCap
  widths : s.inf.WidthsOk s.cfg
  cursor : s.inf.bitpos ≤ 8 * s.inf.brLen
  room : s.inf.thisOut ≤ s.inf.outLim
  length : ∀ sym len, s.inf.sub = .distance sym len → len ≤ 258

/-- What an INFLATE step leaves: the parameters, the other engine's registers, the widths. -/
structure InfKept (s t : State) : Prop where
  cfg : t.cfg = s.cfg
  dfl : t.dfl = s.dfl
  widths : t.inf.WidthsOk s.cfg

theorem InfKept.trans {s t u : State} (h₁ : InfKept s t) (h₂ : InfKept t u) : InfKept s u :=
  ⟨h₂.cfg.trans h₁.cfg, h₂.dfl.trans h₁.dfl, h₁.cfg ▸ h₂.widths⟩

/-! ### the operations the elements share -/

theorem withInf_keeps {s : State} {f : InfRegs → InfRegs} (h : (f s.inf).WidthsOk s.cfg) : InfKept s (s.withInf f) :=
  ⟨rfl, rfl, h⟩

theorem withInf_withInf_keeps {s : State} {f g : InfRegs → InfRegs} (h : (f (g s.inf)).WidthsOk s.cfg) :
    InfKept s ((s.withInf g).withInf f) := ⟨rfl, rfl, h⟩

theorem answerInf_keeps {s : State} (h : s.inf.WidthsOk s.cfg) (st : Status) : InfKept s (s.answerInf st) :=
  ⟨rfl, rfl, { h with }⟩

theorem raiseFormat_keeps {s : State} (h : s.inf.WidthsOk s.cfg) (c : Cause) : InfKept s (s.raiseFormat c) :=
  ⟨rfl, rfl, { h with }⟩

/-- A cause raised after registers were written. -/
theorem withInf_raiseFormat_keeps {s : State} {f : InfRegs → InfRegs} (h : (f s.inf).WidthsOk s.cfg) (c : Cause) :
    InfKept s ((s.withInf f).raiseFormat c) :=
  (withInf_keeps h).trans (raiseFormat_keeps h c)

/-- `emitByte` where the output has room. -/
theorem emitByte_keeps {s : State} (hc : 0 < s.cfg.winCap) (h : s.inf.WidthsOk s.cfg)
    (hr : s.inf.thisOut < s.inf.outLim) (b : Byte) : InfKept s (s.emitByte b) :=
  ⟨rfl, rfl, { h with
    winPos := (Nat.mod_lt _ hc).trans_le (le_two_pow_ceilLog2 _)
    thisOut := Nat.lt_of_le_of_lt hr h.outLim }⟩

theorem drainCode_keeps {s : State} (hc : 0 < s.cfg.winCap) (h : s.inf.WidthsOk s.cfg)
    (hr : s.inf.thisOut ≤ s.inf.outLim) : InfKept s s.drainCode := by
  have hpass : ∀ n t, t.inf.thisOut ≠ t.inf.outLim →
      (InfKept s t ∧ t.inf.thisOut ≤ t.inf.outLim ∧ n + 1 < 2 ^ 9) →
      InfKept s (t.emitPend n) ∧ (t.emitPend n).inf.thisOut ≤ (t.emitPend n).inf.outLim ∧ n < 2 ^ 9 := by
    rintro n t hne ⟨hk, hle, hn⟩
    have hlt : t.inf.thisOut < t.inf.outLim := by omega
    have he := emitByte_keeps (hk.cfg ▸ hc) (hk.cfg ▸ hk.widths) hlt t.pendByte
    have hn' : n < 2 ^ 9 := by omega
    exact ⟨hk.trans (he.trans ⟨rfl, rfl, { he.cfg ▸ he.widths with pendLen := hn' }⟩), hlt, hn'⟩
  obtain h' | ⟨n, t, ⟨hk, -, -⟩, -, ht⟩ := drainLoop_induct
    (P := fun n t => InfKept s t ∧ t.inf.thisOut ≤ t.inf.outLim ∧ n < 2 ^ 9) hpass
    (n := s.inf.pendLen) (s := s) ⟨⟨rfl, rfl, h⟩, hr, h.pendLen⟩
  · exact h'.1
  · rw [State.drainCode, ht]
    exact hk.trans (answerInf_keeps (hk.cfg ▸ hk.widths) .pending)

/-- A distance of R340's table, after a length of R338's. -/
theorem takeDistance_keeps {s t : State} {d : Nat} (hs : s.InfReady) (hd : d < 2 ^ 16)
    (h : s.takeDistance d = .next t) : InfKept s t := by
  obtain ⟨sym, len, hsub, ⟨-, rfl⟩ | ⟨-, rfl⟩⟩ := takeDistance_cases h
  · exact raiseFormat_keeps hs.widths _
  · have hl := hs.length sym len hsub
    have hw : ({ s.inf with pendSym := sym, pendLen := len, pendDist := d, sub := .start } : InfRegs).WidthsOk s.cfg :=
      { hs.widths with pendLen := by dsimp only; omega, pendDist := hd }
    exact (withInf_keeps hw).trans (drainCode_keeps hs.winCap hw hs.room)

theorem appendRun_keeps {s : State} (h : s.inf.WidthsOk s.cfg) (seq : List (BitVec 4)) (n : Nat) (v : BitVec 4) :
    InfKept s (s.appendRun seq n v) := by
  obtain ⟨-, ht⟩ | ⟨-, ht⟩ := appendRun_cases seq n v s <;> rw [ht]
  · exact raiseFormat_keeps h _
  · exact withInf_keeps { h with }

/-! ### the trees of a dynamic block -/


/-- A length of a register of `k`-bit lengths. -/
theorem toNat_le_of_mem {k : Nat} {l : List (BitVec k)} {x : Nat} (h : x ∈ l.map BitVec.toNat) : x ≤ 2 ^ k - 1 := by
  obtain ⟨b, -, rfl⟩ := List.mem_map.1 h
  have := b.isLt
  omega

theorem buildCl_keeps {s : State} (h : s.inf.WidthsOk s.cfg) : InfKept s s.buildCl := by
  unfold State.buildCl
  split
  · exact raiseFormat_keeps h _
  · rename_i t ht
    have hf : Trie.Fits 7 t := buildDecodeTree_fits (fun x hx => toNat_le_of_mem hx) (by simp) ht
    exact withInf_keeps { h with trees := ⟨hf, h.trees.2⟩ }

theorem finishLengths_keeps {s : State} (h : s.inf.WidthsOk s.cfg) (seq : List (BitVec 4)) :
    InfKept s (s.finishLengths seq) := by
  have hsplit : (s.inf.splitLengths seq).WidthsOk s.cfg := { h with }
  have h1 : InfKept s (s.withInf (InfRegs.splitLengths seq)) := withInf_keeps hsplit
  unfold State.finishLengths
  dsimp only
  split
  · exact h1.trans (raiseFormat_keeps hsplit _)
  · rename_i ll hll
    have hf : Trie.Fits 15 ll := buildDecodeTree_fits (fun x hx => toNat_le_of_mem hx) (by simp) hll
    have hw : ({ s.inf.splitLengths seq with treeLl := ll } : InfRegs).WidthsOk s.cfg :=
      { hsplit with trees := ⟨h.trees.1, hf, h.trees.2.2⟩ }
    have h2 : InfKept s ((s.withInf (InfRegs.splitLengths seq)).withInf fun r => { r with treeLl := ll }) :=
      h1.trans (withInf_keeps hw)
    split
    · exact h2.trans (raiseFormat_keeps hw _)
    · rename_i d hd
      have hg : Trie.Fits 15 d := buildDecodeTree_fits (fun x hx => toNat_le_of_mem hx) (by simp) hd
      exact h2.trans (withInf_keeps { hw with trees := ⟨h.trees.1, hf, hg⟩ })

/-! ### the elements -/

/-- A length element reads the length of its row (R338). -/
theorem exec_length {i : Instr} {p : Nat × Nat × Nat} (h : llParts i = some p) (h₁ : 257 ≤ p.1) (h₂ : p.1 ≤ 285)
    (s : State) : exec i s = .next (s.takeLength p.1 p.2.2) := by
  cases i
  case lit b => cases h; have := b.isLt; dsimp only at h₁; omega
  case eob | ll286 | ll287 => cases h; simp at h₁ h₂
  all_goals cases h <;> rfl

/-- A distance element takes the distance of its row (R340). -/
theorem exec_distance {i : Instr} {p : Nat × Nat × Nat} (h : dParts i = some p) (h₁ : p.1 < 30) (s : State) :
    exec i s = s.takeDistance (matchDistance p.1 p.2.2) := by
  cases i
  case dist30 | dist31 => cases h; simp at h₁
  all_goals cases h <;> rfl

/-- A distance element carries the extra bits of its symbol (R116). -/
theorem dParts_extra {i : Instr} {p : Nat × Nat × Nat} (h : dParts i = some p) :
    p.2.1 = dExtra p.1 ∧ p.2.2 < 2 ^ p.2.1 := by
  cases i
  case dist0 | dist1 | dist2 | dist3 | dist30 | dist31 => cases h; exact ⟨rfl, Nat.one_pos⟩
  all_goals cases h <;> exact ⟨rfl, BitVec.isLt _⟩

/-- No row of R340 reaches above 32768 (R116). -/
theorem matchDistance_le {i : Instr} {p : Nat × Nat × Nat} (h : dParts i = some p) (h₁ : p.1 < 30) :
    matchDistance p.1 p.2.2 ≤ 32768 := by
  have hrow : ∀ d < 30, distBase d + 2 ^ dExtra d ≤ 32769 := by decide
  obtain ⟨hw, hv⟩ := dParts_extra h
  have := hrow p.1 h₁
  rw [hw] at hv
  rw [matchDistance]
  omega

theorem exec_length_keeps {i : Instr} {p : Nat × Nat × Nat} {s t : State} (hs : s.InfReady)
    (hp : llParts i = some p) (h₁ : 257 ≤ p.1) (h₂ : p.1 ≤ 285) (h : exec i s = .next t) : InfKept s t := by
  cases (exec_length hp h₁ h₂ s).symm.trans h
  exact withInf_keeps { hs.widths with }

theorem exec_distance_keeps {i : Instr} {p : Nat × Nat × Nat} {s t : State} (hs : s.InfReady)
    (hp : dParts i = some p) (h₁ : p.1 < 30) (h : exec i s = .next t) : InfKept s t :=
  takeDistance_keeps hs (Nat.lt_of_le_of_lt (matchDistance_le hp h₁) (by decide)) ((exec_distance hp h₁ s).symm.trans h)

theorem execZhdr_keeps {s t : State} {cm cinfo : BitVec 4} {fcheck : BitVec 5} {fdict : Bool} {flevel : BitVec 2}
    (hs : s.InfReady) (h : execZhdr cm cinfo fcheck fdict flevel s = .next t) : InfKept s t := by
  have hw := hs.widths
  unfold execZhdr at h
  dsimp only at h
  split at h
  · cases h
    exact withInf_raiseFormat_keeps { hw with } _
  · split at h <;> cases h <;> exact withInf_withInf_keeps { hw with }

theorem execPad_keeps {s t : State} (hs : s.InfReady) (h : execPad s = .next t) : InfKept s t := by
  have hw := hs.widths
  cases h
  refine withInf_keeps ?_
  have hcur := hs.cursor
  rw [InfRegs.bitpos] at hcur
  unfold InfRegs.alignToByte
  split
  · exact { hw with }
  · rename_i hb
    have hb' : s.inf.brBit.val ≠ 0 := fun h0 => hb (Fin.ext h0)
    have hlt : s.inf.brByte + 1 ≤ s.inf.brLen := by omega
    exact { hw with brByte := Nat.lt_of_le_of_lt hlt hw.brLen }

theorem execShdr_keeps {s t : State} {len nlen : BitVec 16} (hs : s.InfReady) (h : execShdr len nlen s = .next t) :
    InfKept s t := by
  have hw := hs.widths
  unfold execShdr at h
  split at h <;> cases h
  · exact withInf_keeps { hw with storedRem := len.isLt }
  · exact raiseFormat_keeps hw _

theorem execRaw_keeps {s t : State} {b : Byte} (hs : s.InfReady) (h : execRaw b s = .next t) : InfKept s t := by
  have hw := hs.widths
  unfold execRaw at h
  split at h
  · cases h
    exact raiseFormat_keeps hw _
  · rename_i ha
    split at h
    · cases h
      exact answerInf_keeps hw _
    · rename_i hf
      cases h
      have hroom := hs.room
      have hlt : s.inf.thisOut < s.inf.outLim := by
        simp only [InfRegs.outFull, decide_eq_true_eq] at hf
        omega
      have hbyte : s.inf.brByte + 1 ≤ s.inf.brLen := by
        rw [InfRegs.avail] at ha
        omega
      have h1 : InfKept s (s.withInf fun r => { r with brByte := r.brByte + 1 }) :=
        withInf_keeps { hw with brByte := Nat.lt_of_le_of_lt hbyte hw.brLen }
      have h2 := h1.trans (emitByte_keeps (s := s.withInf _) hs.winCap h1.widths hlt b)
      exact h2.trans (withInf_keeps { h2.widths with storedRem := Nat.lt_of_le_of_lt (Nat.sub_le _ 1) hw.storedRem })

theorem execDynhdr_keeps {s t : State} {hlit hdist : BitVec 5} {hclen : BitVec 4} (hs : s.InfReady)
    (h : execDynhdr hlit hdist hclen s = .next t) : InfKept s t := by
  have hw := hs.widths
  unfold execDynhdr at h
  dsimp only at h
  split at h <;> cases h
  · exact withInf_raiseFormat_keeps { hw with } _
  · exact withInf_withInf_keeps { hw with }

theorem execCllens_keeps {s t : State} {len : BitVec 3} (hs : s.InfReady) (h : execCllens len s = .next t) :
    InfKept s t := by
  have hw := hs.widths
  unfold execCllens at h
  split at h
  · rename_i k hk
    dsimp only at h
    have hw' : ({ s.inf with clLen := s.inf.clLen.setIfInBounds (clOrder k) len } : InfRegs).WidthsOk s.cfg :=
      { hw with }
    split at h <;> cases h
    · exact withInf_withInf_keeps { hw with }
    · exact (withInf_keeps hw').trans (buildCl_keeps hw')
  · cases h

theorem execLit_keeps {s t : State} {b : Byte} (hs : s.InfReady) (h : execLit b s = .next t) : InfKept s t := by
  cases h
  have hw : ({ s.inf with pendSym := b.zeroExtend 9, pendLen := 1, pendDist := 0 } : InfRegs).WidthsOk s.cfg :=
    { hs.widths with pendLen := Nat.one_lt_two_pow (by decide), pendDist := Nat.two_pow_pos 16 }
  exact (withInf_keeps hw).trans (drainCode_keeps hs.winCap hw hs.room)

theorem execCl_keeps {s t : State} {v : BitVec 4} (hs : s.InfReady) (h : execCl v s = .next t) : InfKept s t := by
  unfold execCl at h
  split at h <;> cases h
  exact withInf_keeps { hs.widths with }

theorem execCl16_keeps {s t : State} {x : BitVec 2} (hs : s.InfReady) (h : execCl16 x s = .next t) : InfKept s t := by
  unfold execCl16 at h
  split at h
  · split at h <;> cases h
    · exact raiseFormat_keeps hs.widths _
    · exact appendRun_keeps hs.widths ..
  · cases h

theorem execCl17_keeps {s t : State} {x : BitVec 3} (hs : s.InfReady) (h : execCl17 x s = .next t) : InfKept s t := by
  unfold execCl17 at h
  split at h <;> cases h
  exact appendRun_keeps hs.widths ..

theorem execCl18_keeps {s t : State} {x : BitVec 7} (hs : s.InfReady) (h : execCl18 x s = .next t) : InfKept s t := by
  unfold execCl18 at h
  split at h <;> cases h
  exact appendRun_keeps hs.widths ..

theorem takeReservedDistance_keeps {s t : State} (hs : s.InfReady) (h : s.takeReservedDistance = .next t) :
    InfKept s t := by
  unfold State.takeReservedDistance at h
  split at h <;> cases h
  exact raiseFormat_keeps hs.widths _

/-- Every element of the compressed stream keeps the widths. -/
theorem exec_wire_keeps {i : Instr} {s t : State} (hi : i.isWire = true) (hs : s.InfReady)
    (h : exec i s = .next t) : InfKept s t := by
  have hw := hs.widths
  cases i
  case zhdr => exact execZhdr_keeps hs h
  case dictid | bhdrStored | bhdrFixed | bhdrDynamic | eob => cases h; exact withInf_keeps { hw with }
  case bhdrReserved => cases h; exact withInf_raiseFormat_keeps { hw with } _
  case pad => exact execPad_keeps hs h
  case shdr => exact execShdr_keeps hs h
  case raw => exact execRaw_keeps hs h
  case dynhdr => exact execDynhdr_keeps hs h
  case cllens => exact execCllens_keeps hs h
  case lit => exact execLit_keeps hs h
  case ll286 | ll287 => cases h; exact raiseFormat_keeps hw _
  case dist30 | dist31 => exact takeReservedDistance_keeps hs h
  case cl => exact execCl_keeps hs h
  case cl16 => exact execCl16_keeps hs h
  case cl17 => exact execCl17_keeps hs h
  case cl18 => exact execCl18_keeps hs h
  case trailer | infCreate | infReset | infStep | infDestroy | defCreate | defReset | defStep | defDestroy =>
    exact absurd hi Bool.false_ne_true
  case dist0 | dist1 | dist2 | dist3 | dist4 | dist5 | dist6 | dist7 | dist8 | dist9 | dist10 | dist11 | dist12
      | dist13 | dist14 | dist15 | dist16 | dist17 | dist18 | dist19 | dist20 | dist21 | dist22 | dist23 | dist24
      | dist25 | dist26 | dist27 | dist28 | dist29 => exact exec_distance_keeps hs rfl (by simp) h
  all_goals exact exec_length_keeps hs rfl (by simp) (by simp) h

/-! ### the step -/

/-- The cursor at a place within the input. -/
theorem InfRegs.advance_widthsOk {c : Config} {r : InfRegs} {n : Nat} (h : r.WidthsOk c)
    (hn : r.bitpos + n ≤ 8 * r.brLen) : (r.advance n).WidthsOk c := by
  have hb : (r.bitpos + n) / 8 ≤ r.brLen := by omega
  exact { h with brByte := Nat.lt_of_le_of_lt hb h.brLen }

theorem advance_ready {s : State} {n : Nat} (hs : s.InfReady) (hn : n ≤ s.inf.avail) :
    (s.withInf fun r => r.advance n).InfReady := by
  have hcur := hs.cursor
  rw [InfRegs.avail_eq] at hn
  have hle : s.inf.bitpos + n ≤ 8 * s.inf.brLen := by omega
  exact { winCap := hs.winCap, widths := InfRegs.advance_widthsOk hs.widths hle
          cursor := by simpa using hle, room := hs.room, length := hs.length }

/-- A grammar position of the INFLATE engine is in the compressed stream (R100, R310). -/
theorem pos_inStream {r : InfRegs} {p : Pos} (h : r.pos = some p) : p ≠ .trailer ∧ ∀ ops, p ≠ .hcmd ops := by
  simp only [InfRegs.pos, InfRegs.headerPos, InfRegs.storedPos, InfRegs.bodyPos, InfRegs.prologuePos] at h
  repeat' split at h
  all_goals cases h <;> exact ⟨nofun, nofun⟩

theorem infInternal_keeps {s : State} (hs : s.InfReady) : InfKept s s.infInternal := by
  have hw := hs.widths
  have hself : InfKept s s := ⟨rfl, rfl, hw⟩
  unfold State.infInternal
  split
  · exact withInf_keeps { hw with }
  · split
    · exact drainCode_keeps hs.winCap hw hs.room
    · exact withInf_keeps { hw with }
  · split
    · exact drainCode_keeps hs.winCap hw hs.room
    · split
      · exact finishLengths_keeps hw _
      · exact hself
  · exact answerInf_keeps hw _
  · exact answerInf_keeps hw _
  · exact hself
  · exact hself

/-- A step of the INFLATE engine keeps its registers within their widths, and the other engine's as they are. -/
theorem step_inf_keeps {s t : State} (ht : s.turn = .inf) (hs : s.InfReady) (h : step s = .next t) : InfKept s t := by
  obtain ⟨p, i, used, hp, hd, he⟩ | ⟨p, c, used, hp, hd, rfl⟩ | ⟨-, rfl⟩ := step_inf_cases ht h
  · have hi := decodeAt_isWire hd (pos_inStream hp).1 (pos_inStream hp).2
    split at he
    · exact exec_wire_keeps hi hs he
    · have ha := advance_ready hs (by simpa using decodeAt_used.1 hd)
      exact (withInf_keeps ha.widths).trans (exec_wire_keeps hi ha he)
  · exact withInf_raiseFormat_keeps (advance_ready hs (by simpa using decodeAt_used.2 hd)).widths c
  · exact infInternal_keeps hs

/-- In a session the invariants give what an INFLATE step needs. -/
theorem State.Ok.infReady {s : State} (h : s.Ok) (ht : s.turn = .inf) : s.InfReady := by
  have hlegal := h.cfg
  obtain ⟨hact, hok⟩ := h.inf
  have hi := hok (hact ht)
  obtain ⟨hle, hbit⟩ := hi.cursor
  refine ⟨?_, h.widths.1, ?_, hi.room, fun sym len hsub => ?_⟩
  · simp only [Config.legal, Bool.and_eq_true, decide_eq_true_eq] at hlegal
    omega
  · have hb := s.inf.brBit.isLt
    rw [InfRegs.bitpos]
    rcases Nat.lt_or_eq_of_le hle with hlt | heq
    · omega
    · have h0 : s.inf.brBit.val = 0 := congrArg Fin.val (hbit heq)
      omega
  · have hso := hi.sub
    rw [InfRegs.subOk, hsub] at hso
    exact hso.2.2.2.2.2

end Sys2Proof.Machine
end

section
/-! PROOFS. The host commands keep every register within its width (R12), and so do the emissions of the DEFLATE
engine and the passes that form or end a block. -/

namespace Sys2Proof.Machine

/-! ### the host commands -/

theorem InfRegs.afterReset_widthsOk {c : Config} {r : InfRegs} {len : Nat} (h : r.WidthsOk c) (hl : len < 2 ^ c.xlen)
    (input : Nat) : (r.afterReset input len).WidthsOk c :=
  { h with
    brLen := hl
    brByte := Nat.two_pow_pos _
    pendLen := Nat.two_pow_pos 9
    pendDist := Nat.two_pow_pos 16
    storedRem := Nat.two_pow_pos 16
    winPos := Nat.two_pow_pos _
    outLim := Nat.two_pow_pos _
    thisOut := Nat.two_pow_pos _ }

/-- `TOK_CNT <- 0` keeps the entries of TOK (R385). -/
theorem DefRegs.clearTok_widthsOk {c : Config} {r : DefRegs} (h : r.WidthsOk c) : r.clearTok.WidthsOk c := by
  obtain ⟨hlen, hfit, -⟩ := h.tok
  have hle := length_trimEnd_le Token.zero (r.tok ++ r.tokRest)
  refine { h with tok := ⟨?_, fun t ht => hfit t (mem_of_mem_trimEnd ht), trimEnd_trimEnd ..⟩ }
  simp only [DefRegs.clearTok, List.length_nil, List.length_append] at hle ⊢
  omega

theorem DefRegs.afterReset_widthsOk {c : Config} {r : DefRegs} {len : Nat} (h : r.WidthsOk c) (hl : len < 2 ^ c.xlen)
    (input : Nat) (level : Level) : (r.afterReset input len level).WidthsOk c :=
  { DefRegs.clearTok_widthsOk h with
    inCur := Nat.two_pow_pos _
    inEnd := hl
    bitqCnt := Nat.two_pow_pos 5
    adler := ⟨Nat.one_lt_two_pow (by decide), Nat.two_pow_pos 16⟩
    blk := ⟨Nat.two_pow_pos _, Nat.two_pow_pos 16⟩
    hist := ⟨Nat.zero_le _, nofun⟩
    free := ⟨Nat.zero_le _, nofun, Nat.zero_le _⟩
    evictCur := Nat.two_pow_pos _
    emitIdx := Nat.two_pow_pos _
    outLim := Nat.two_pow_pos _
    thisOut := Nat.two_pow_pos _ }

theorem execInfCreate_widthsOk {s t : State} {ok : Bool} (hs : s.WidthsOk) (h : execInfCreate ok s = .next t) :
    t.WidthsOk := by
  obtain ⟨hi, hd, hc⟩ := hs
  unfold execInfCreate at h
  split at h
  · split at h <;> cases h
    · exact ⟨{ s.freeInfRegs_widthsOk with }, hd, hc⟩
    · exact ⟨{ hi with }, hd, hc⟩
  all_goals cases h

theorem execInfReset_widthsOk {s t : State} {input : Nat} {data : List Byte} (hs : s.WidthsOk)
    (h : execInfReset input data s = .next t) : t.WidthsOk := by
  obtain ⟨-, hd, hc⟩ := hs
  have hreset : capFits s.cfg data.length = true → (s.resetInf input data).WidthsOk := fun hl =>
    ⟨InfRegs.afterReset_widthsOk s.freeInfRegs_widthsOk (of_decide_eq_true hl) input, hd, hc⟩
  unfold execInfReset at h
  split at h
  · cases h
  all_goals
    split at h <;> cases h
    exact hreset ‹_›

theorem execInfStep_widthsOk {s t : State} {out : Buffer} {cap : Nat} (hs : s.WidthsOk)
    (h : execInfStep out cap s = .next t) : t.WidthsOk := by
  obtain ⟨hi, hd, hc⟩ := hs
  unfold execInfStep at h
  split at h
  · cases h
  · cases h
  · split at h <;> cases h
    rename_i hcap
    exact ⟨{ hi with outLim := of_decide_eq_true hcap, thisOut := Nat.two_pow_pos _ }, hd, hc⟩

theorem execInfDestroy_widthsOk {s t : State} (hs : s.WidthsOk) (h : execInfDestroy s = .next t) : t.WidthsOk := by
  obtain ⟨-, hd, hc⟩ := hs
  unfold execInfDestroy at h
  split at h <;> cases h <;> exact ⟨s.freeInfRegs_widthsOk, hd, hc⟩

theorem execDefCreate_widthsOk {s t : State} {ok : Bool} (hs : s.WidthsOk) (h : execDefCreate ok s = .next t) :
    t.WidthsOk := by
  obtain ⟨hi, hd, hc⟩ := hs
  unfold execDefCreate at h
  split at h
  · split at h <;> cases h
    · exact ⟨hi, { s.freeDflRegs_widthsOk with }, s.freeDflRegs_codesOk⟩
    · exact ⟨hi, { hd with }, hc⟩
  all_goals cases h

theorem resetDflWith_widthsOk {s t : State} {input : Nat} {data : List Byte} {level : BitVec 2} (hs : s.WidthsOk)
    (h : s.resetDflWith input data level = .next t) : t.WidthsOk := by
  obtain ⟨hi, -, -⟩ := hs
  unfold State.resetDflWith at h
  split at h
  · cases h
  · split at h <;> cases h
    rename_i l _ hl
    exact ⟨hi, DefRegs.afterReset_widthsOk s.freeDflRegs_widthsOk (of_decide_eq_true hl) input l, s.freeDflRegs_codesOk⟩

theorem execDefReset_widthsOk {s t : State} {input : Nat} {data : List Byte} {level : BitVec 2} (hs : s.WidthsOk)
    (h : execDefReset input data level s = .next t) : t.WidthsOk := by
  unfold execDefReset at h
  split at h
  · cases h
  · exact resetDflWith_widthsOk hs h
  · exact resetDflWith_widthsOk hs h

theorem execDefStep_widthsOk {s t : State} {out : Buffer} {cap : Nat} (hs : s.WidthsOk)
    (h : execDefStep out cap s = .next t) : t.WidthsOk := by
  obtain ⟨hi, hd, hc⟩ := hs
  unfold execDefStep at h
  split at h
  · cases h
  · cases h
  · split at h <;> cases h
    rename_i hcap
    exact ⟨hi, { hd with outLim := of_decide_eq_true hcap, thisOut := Nat.two_pow_pos _ }, hc⟩

theorem execDefDestroy_widthsOk {s t : State} (hs : s.WidthsOk) (h : execDefDestroy s = .next t) : t.WidthsOk := by
  obtain ⟨hi, -, -⟩ := hs
  unfold execDefDestroy at h
  split at h <;> cases h <;> exact ⟨hi, s.freeDflRegs_widthsOk, s.freeDflRegs_codesOk⟩

/-- A step of the host keeps every register within its width. -/
theorem step_host_widthsOk {s t : State} (ht : s.turn = .host) (hs : s.WidthsOk) (h : step s = .next t) :
    t.WidthsOk := by
  obtain ⟨x, rest, -, he⟩ | ⟨-, rfl⟩ := step_host_cases ht h
  · have hs' : ({ s with cmds := rest } : State).WidthsOk := hs
    unfold commandOf at he
    split at he
    · exact execInfCreate_widthsOk hs' he
    · exact execInfReset_widthsOk hs' he
    · exact execInfStep_widthsOk hs' he
    · exact execInfDestroy_widthsOk hs' he
    · exact execDefCreate_widthsOk hs' he
    · exact execDefReset_widthsOk hs' he
    · exact execDefStep_widthsOk hs' he
    · exact execDefDestroy_widthsOk hs' he
  · exact hs

/-! ### emissions (R390) -/

/-- What a DEFLATE step leaves: the parameters, the other engine's registers, the widths. -/
structure DflKept (s t : State) : Prop where
  cfg : t.cfg = s.cfg
  inf : t.inf = s.inf
  widths : t.dfl.WidthsOk s.cfg

/-- Performing an item writes the queue only, and adds the item's width, or fills the queue up to a byte (R390). -/
theorem DefRegs.perform_eq (i : Item) (r : DefRegs) :
    ∃ q n, r.perform i = { r with bitq := q, bitqCnt := n } ∧ n ≤ max 8 (r.bitqCnt + i.width) := by
  cases i with
  | le n v => exact ⟨_, _, rfl, Nat.le_max_right ..⟩
  | be n v => exact ⟨_, _, rfl, Nat.le_max_right ..⟩
  | flush =>
    simp only [DefRegs.perform, DefRegs.flush]
    split
    · exact ⟨_, _, rfl, Nat.le_max_right ..⟩
    · exact ⟨_, _, rfl, Nat.le_max_left ..⟩

/-- What holds while a list is emitted from `s`: the items `l` are left in the state `t`. -/
structure Emitting (s : State) (l : List Item) (t : State) : Prop where
  kept : DflKept s t
  items : ∀ i ∈ l, i.width ≤ 16
  idx : t.dfl.emitIdx + l.length < 2 ^ s.cfg.xlen

theorem Emitting.drain {s t : State} {l : List Item} (h : Emitting s l t) : Emitting s l t.drain := by
  refine State.drain_induct (P := Emitting s l) (fun u _ hroom hu => ?_) h
  obtain ⟨⟨hc, hi, hw⟩, hitems, hidx⟩ := hu
  refine ⟨⟨hc, hi, ?_⟩, hitems, hidx⟩
  exact { hw with
    bitqCnt := Nat.lt_of_le_of_lt (Nat.sub_le _ 8) hw.bitqCnt
    thisOut := Nat.lt_of_le_of_lt hroom hw.outLim }

theorem Emitting.performItem {s t : State} {i : Item} {l : List Item} (hr : t.dfl.writerReady = true)
    (h : Emitting s (i :: l) t) : Emitting s l (t.performItem i) := by
  obtain ⟨⟨hc, hi, hw⟩, hitems, hidx⟩ := h
  obtain ⟨q, n, hp, hn⟩ := t.dfl.perform_eq i
  have hwidth := hitems i List.mem_cons_self
  have hcnt : t.dfl.bitqCnt < 8 := of_decide_eq_true hr
  rw [List.length_cons] at hidx
  have hn' : n < 2 ^ 5 := by omega
  have hidx' : t.dfl.emitIdx + 1 + l.length < 2 ^ s.cfg.xlen := by omega
  refine ⟨⟨hc, hi, ?_⟩, fun j hj => hitems j (List.mem_cons_of_mem _ hj), hidx'⟩
  rw [State.performItem_dfl, hp]
  exact { hw with bitqCnt := hn', emitIdx := Nat.lt_of_le_of_lt (Nat.le_add_right _ _) hidx' }

/-- An emission keeps the widths, where its items are at most 16 bits wide and EMIT_IDX can count them (R44, R78). -/
theorem emitList_keeps {s : State} {l : List Item} {fin : DefRegs → DefRegs} (hw : s.dfl.WidthsOk s.cfg)
    (hitems : ∀ i ∈ l, i.width ≤ 16) (hlen : l.length < 2 ^ s.cfg.xlen)
    (hfin : ∀ r : DefRegs, r.WidthsOk s.cfg → (fin r).WidthsOk s.cfg) : DflKept s (s.emitList l fin) := by
  have hidx := hw.emitIdx
  have h0 : Emitting s (l.drop s.dfl.emitIdx) s :=
    ⟨⟨rfl, rfl, hw⟩, fun i hi => hitems i (List.mem_of_mem_drop hi), by rw [List.length_drop]; omega⟩
  obtain ⟨t, ⟨hk, -, -⟩, ht⟩ | ⟨i, l', t, ⟨hk, -, -⟩, -, -, ht⟩ := emitItems_induct (fin := fin)
    (P := Emitting s) (fun _ _ => Emitting.drain) (fun _ _ _ => Emitting.performItem) h0
  · rw [State.emitList, ht]
    exact ⟨hk.cfg, hk.inf, hfin _ { hk.widths with emitIdx := Nat.two_pow_pos _ }⟩
  · rw [State.emitList, ht]
    exact ⟨hk.cfg, hk.inf, { hk.widths with }⟩

theorem DefRegs.SameButWriter.codesOk {r q : DefRegs} (h : r.SameButWriter q) (hc : r.CodesOk) : q.CodesOk :=
  (congrArg DefRegs.CodesOk h).mpr hc

/-- An emission leaves the code values as they are. -/
theorem emitList_codesOk {s : State} {l : List Item} {fin : DefRegs → DefRegs} (hc : s.dfl.CodesOk)
    (hfin : ∀ r : DefRegs, r.CodesOk → (fin r).CodesOk) : (s.emitList l fin).dfl.CodesOk := by
  obtain ⟨t, hk, ht⟩ | ⟨i, l', t, hk, -, -, ht⟩ := emitItems_induct (fin := fin)
    (P := fun _ t => s.dfl.SameButWriter t.dfl) (fun _ t h => h.trans t.drain_sameButWriter)
    (fun i _ t _ h => h.trans (t.performItem_sameButWriter i)) (l := l.drop s.dfl.emitIdx) (s := s) (.refl _)
  · rw [State.emitList, ht]
    exact hfin _ (hk.codesOk hc)
  · rw [State.emitList, ht]
    exact hk.codesOk hc

/-! ### the emission lists -/

theorem getD_le {l : List Nat} {b : Nat} (h : ∀ x ∈ l, x ≤ b) (k : Nat) : l.getD k 0 ≤ b := by
  rw [List.getD_eq_getElem?_getD]
  cases hk : l[k]? with
  | none => exact Nat.zero_le _
  | some x => exact h x (List.mem_of_getElem? hk)

theorem lenExtra_le (i : Nat) : lenExtra i ≤ 16 := getD_le (by decide) i

theorem distExtra_le (i : Nat) : distExtra i ≤ 16 := getD_le (by decide) i

theorem clExtra_le (s : Nat) : clExtra s ≤ 16 := by
  unfold clExtra
  repeat' split
  all_goals decide

/-- A symbol's code is as wide as its length (R180). -/
theorem CodeTable.item_width {t : CodeTable} {b : Nat} (h : ∀ l ∈ t.len, l ≤ b) (s : Nat) : (t.item s).width ≤ b :=
  getD_le h s

theorem length_tokenItem (ll d : CodeTable) (t : Token) : (tokenItem ll d t).length = 4 := by
  unfold tokenItem
  split <;> rfl

theorem tokenItem_width {ll d : CodeTable} (hl : ∀ l ∈ ll.len, l ≤ 16) (hd : ∀ l ∈ d.len, l ≤ 16) (t : Token) :
    ∀ i ∈ tokenItem ll d t, i.width ≤ 16 := by
  unfold tokenItem
  split <;> simp only [List.forall_mem_cons]
  · exact ⟨CodeTable.item_width hl _, Nat.zero_le _, Nat.zero_le _, Nat.zero_le _, nofun⟩
  · exact ⟨CodeTable.item_width hl _, lenExtra_le _, CodeTable.item_width hd _, distExtra_le _, nofun⟩

theorem length_tokenItems (ll d : CodeTable) (toks : List Token) :
    (tokenItems ll d toks).length = 4 * toks.length + 1 := by
  simp [tokenItems, List.length_flatMap, length_tokenItem, Nat.mul_comm]

theorem tokenItems_width {ll d : CodeTable} (hl : ∀ l ∈ ll.len, l ≤ 16) (hd : ∀ l ∈ d.len, l ≤ 16)
    (toks : List Token) : ∀ i ∈ tokenItems ll d toks, i.width ≤ 16 := by
  simp only [tokenItems, List.forall_mem_append, List.mem_flatMap, List.forall_mem_singleton]
  refine ⟨fun i hi => ?_, CodeTable.item_width hl _⟩
  obtain ⟨t, -, hi⟩ := hi
  exact tokenItem_width hl hd t i hi

theorem headerItems_width (l : Level) : ∀ i ∈ headerItems l, i.width ≤ 16 := by
  simp [headerItems, Item.width]

theorem trailerItems_width (a : BitVec 32) : ∀ i ∈ trailerItems a, i.width ≤ 16 := by
  simp [trailerItems, Item.width]

theorem storedItems_width (m : Memory) (r : DefRegs) : ∀ i ∈ storedItems m r, i.width ≤ 16 := by
  simp [storedItems, Item.width]

theorem length_storedItems (m : Memory) (r : DefRegs) : (storedItems m r).length = r.blkLen + 5 := by
  simp [storedItems]

theorem fixedItems_width (r : DefRegs) : ∀ i ∈ fixedItems r, i.width ≤ 16 := by
  have hl : ∀ l ∈ fixLlTable.len, l ≤ 16 := by decide +kernel
  have hd : ∀ l ∈ fixDTable.len, l ≤ 16 := by decide +kernel
  simp only [fixedItems, List.forall_mem_append, List.forall_mem_cons]
  exact ⟨⟨by simp [Item.width], by simp [Item.width], nofun⟩, tokenItems_width hl hd _⟩

theorem length_fixedItems (r : DefRegs) : (fixedItems r).length = 4 * r.tok.length + 3 := by
  simp [fixedItems, length_tokenItems]

theorem dynamicItems_width {c : Config} {r : DefRegs} (h : r.WidthsOk c) : ∀ i ∈ dynamicItems r, i.width ≤ 16 := by
  have hll : ∀ l ∈ r.llTable.len, l ≤ 16 := fun l hl => (h.llcLen l hl).le
  have hd : ∀ l ∈ r.dTable.len, l ≤ 16 := fun l hl => (h.dcLen l hl).le
  have hcl : ∀ l ∈ r.clTable.len, l ≤ 16 := fun l hl => (h.clcLen l hl).le.trans (by decide)
  have hle : ∀ n v, n ≤ 5 → (Item.le n v).width ≤ 16 := fun _ _ hn => hn.trans (by decide)
  simp only [dynamicItems, List.forall_mem_append, List.forall_mem_cons, List.forall_mem_map, List.mem_flatMap]
  refine ⟨⟨⟨⟨hle 1 _ (by decide), hle 2 _ (by decide), hle 5 _ (by decide), hle 5 _ (by decide), hle 4 _ (by decide),
    nofun⟩, fun k _ => hle 3 _ (by decide)⟩, ?_⟩, tokenItems_width hll hd _⟩
  rintro i ⟨e, -, hi⟩
  obtain rfl | hi := List.mem_cons.1 hi
  · exact CodeTable.item_width hcl _
  · exact List.mem_singleton.1 hi ▸ clExtra_le _

theorem length_dynamicItems (r : DefRegs) :
    (dynamicItems r).length = r.ncl + 2 * r.rle.length + 4 * r.tok.length + 6 := by
  simp [dynamicItems, length_tokenItems, List.length_flatMap]
  omega

end Sys2Proof.Machine
end

section
/-! PROOFS. The LZSS pass and the tables of a Dynamic block keep the DEFLATE engine's registers within their widths
(R12), the code values among them (R40). -/

namespace Sys2Proof.Machine

/-! ### the history arena (R212, R213) -/

/-- While the arena has room, an insertion takes the lowest slot never used. -/
theorem DefRegs.insert_of_room {c : Config} {r : DefRegs} (hs : r.slotsOk c) (h : r.hist.length < c.histCap)
    (m : Memory) (p : Nat) :
    r.insert c m p = { r with fresh := r.fresh + 1, hist := r.hist ++ [⟨r.fresh, hash3 m p, p⟩] } := by
  obtain ⟨hfreed, -⟩ := hs
  have htake : r.takeSlot = (r.fresh, { r with fresh := r.fresh + 1 }) := by rw [DefRegs.takeSlot, hfreed]
  have hne : ¬ r.hist.length = c.histCap := Nat.ne_of_lt h
  simp only [DefRegs.insert, DefRegs.histCnt, hne, if_false, htake]

/-- When the arena is full, an insertion takes the slot of the oldest entry, where the cursor stands. -/
theorem DefRegs.insert_of_full {c : Config} {r : DefRegs} (hs : r.slotsOk c) (h : r.hist.length = c.histCap)
    (m : Memory) (p : Nat) :
    ∃ e tail, r.hist = e :: tail ∧ e.slot = r.evictCur ∧
      r.insert c m p = { r with
        evictCur := (r.evictCur + 1) % c.histCap
        hist := tail ++ [⟨r.evictCur, hash3 m p, p⟩] } := by
  obtain ⟨hfreed, -, -, hcur, -, hslots⟩ := hs
  obtain ⟨n, hn⟩ : ∃ n, c.histCap = n + 1 := ⟨c.histCap - 1, by omega⟩
  obtain ⟨e, tail, he⟩ : ∃ e tail, r.hist = e :: tail := List.exists_cons_of_length_pos (by omega)
  have hslot : e.slot = r.evictCur := by
    rw [h, hn, List.range_succ_eq_map, he] at hslots
    have h0 : e.slot = (r.evictCur + 0) % (n + 1) := (List.cons.inj hslots).1
    rwa [Nat.add_zero, ← hn, Nat.mod_eq_of_lt hcur] at h0
  have hscan : r.scanFrom c c.histCap r.evictCur = r.evictCur := by
    rw [hn, DefRegs.scanFrom, if_pos (by simp [DefRegs.slotUsed, he, hslot])]
  have hevict : r.evict c = { r with
      evictCur := (r.evictCur + 1) % c.histCap, hist := tail, freed := [r.evictCur] } := by
    simp [DefRegs.evict, hscan, he, hslot, hfreed]
  refine ⟨e, tail, he, hslot, ?_⟩
  simp only [DefRegs.insert, DefRegs.histCnt, if_pos h, hevict, DefRegs.takeSlot, hfreed]

@[simp] theorem DefRegs.insert_inEnd (c : Config) (m : Memory) (p : Nat) (r : DefRegs) :
    (r.insert c m p).inEnd = r.inEnd := by
  have h := congrArg DefRegs.inEnd (r.insert_frame c m p)
  exact h

/-- An insertion keeps the slots in age order (R213). -/
theorem DefRegs.insert_slotsOk {c : Config} {r : DefRegs} (hs : r.slotsOk c) (m : Memory) (p : Nat) :
    (r.insert c m p).slotsOk c := by
  have hs' := hs
  obtain ⟨hfreed, hfresh, hle, hcur, hzero, hslots⟩ := hs
  rcases Nat.lt_or_eq_of_le hle with h | h
  · rw [DefRegs.insert_of_room hs' h]
    have h0 := hzero h
    refine ⟨hfreed, by simp [hfresh], by simpa using h, hcur, fun _ => h0, ?_⟩
    simp [hslots, h0, List.range_succ, hfresh, Nat.mod_eq_of_lt h]
  · obtain ⟨e, tail, he, hslot, hins⟩ := DefRegs.insert_of_full hs' h m p
    obtain ⟨n, hn⟩ : ∃ n, c.histCap = n + 1 := ⟨c.histCap - 1, by omega⟩
    have htail : tail.length = n := by rw [he] at h; simp at h; omega
    rw [hins]
    refine ⟨hfreed, by simp [hfresh, he], by simp [htail, hn], Nat.mod_lt _ (by omega), fun hlt => ?_, ?_⟩
    · simp [htail, hn] at hlt
    · rw [h, hn, List.range_succ_eq_map, he] at hslots
      have htl := (List.cons.inj hslots).2
      have hlast : r.evictCur = ((r.evictCur + 1) % (n + 1) + n) % (n + 1) := by
        rw [Nat.mod_add_mod, Nat.add_assoc, Nat.add_comm 1, Nat.add_mod_right, Nat.mod_eq_of_lt (hn ▸ hcur)]
      have hshift : ∀ i, (r.evictCur + (i + 1)) % (n + 1) = ((r.evictCur + 1) % (n + 1) + i) % (n + 1) := fun i => by
        rw [Nat.mod_add_mod, Nat.add_assoc, Nat.add_comm 1]
      simp only [List.map_append, List.map_cons, List.map_nil, List.length_append, List.length_singleton, htail,
        List.range_succ, htl, List.map_map, hn, ← hlast]
      congr 1
      exact List.map_congr_left fun i _ => hshift i

/-- An insertion keeps the widths. -/
theorem DefRegs.insert_widthsOk {c : Config} {r : DefRegs} (hs : r.slotsOk c) (hw : r.WidthsOk c) {p : Nat}
    (hp : p < 2 ^ c.xlen) (m : Memory) : (r.insert c m p).WidthsOk c := by
  have hs' := hs
  obtain ⟨-, hfresh, hle, hcur, -, -⟩ := hs
  obtain ⟨-, hfits⟩ := hw.hist
  obtain ⟨hfl, hfs, -⟩ := hw.free
  rcases Nat.lt_or_eq_of_le hle with h | h
  · rw [DefRegs.insert_of_room hs' h]
    refine { hw with hist := ⟨by simpa using h, ?_⟩, free := ⟨hfl, hfs, by dsimp only; omega⟩ }
    rintro e he
    rcases List.mem_append.1 he with he | he
    · exact hfits e he
    · obtain rfl := List.mem_singleton.1 he
      exact ⟨hfresh ▸ h, hp⟩
  · obtain ⟨e₀, tail, he₀, -, hins⟩ := DefRegs.insert_of_full hs' h m p
    rw [hins]
    have hlen : tail.length + 1 = c.histCap := by rw [← h, he₀, List.length_cons]
    refine { hw with
      hist := ⟨by simp [hlen], ?_⟩
      evictCur := (Nat.mod_lt _ (by omega)).trans_le (le_two_pow_ceilLog2 _) }
    rintro e he
    rcases List.mem_append.1 he with he | he
    · exact hfits e (he₀ ▸ List.mem_cons_of_mem _ he)
    · obtain rfl := List.mem_singleton.1 he
      exact ⟨hcur, hp⟩

theorem DefRegs.adlerUpdate_widthsOk {c : Config} {r : DefRegs} (h : r.WidthsOk c) (b : Byte) :
    (r.adlerUpdate b).WidthsOk c :=
  { h with adler := ⟨(Nat.mod_lt _ (by decide)).trans (by decide), (Nat.mod_lt _ (by decide)).trans (by decide)⟩ }

/-- Consuming input below IN_END keeps the widths and the slots in age order. -/
theorem consume_widthsOk {c : Config} (m : Memory) {k p : Nat} {r : DefRegs} (hw : r.WidthsOk c) (hs : r.slotsOk c)
    (hp : p + k ≤ r.inEnd) : (consume c m k p r).WidthsOk c ∧ (consume c m k p r).slotsOk c := by
  induction k generalizing p r with
  | zero => exact ⟨hw, hs⟩
  | succ k ih =>
    have hpx : p < 2 ^ c.xlen := Nat.lt_trans (by omega) hw.inEnd
    have hend := DefRegs.insert_inEnd c m p r
    unfold consume
    dsimp only
    split
    · exact ih (DefRegs.adlerUpdate_widthsOk (DefRegs.insert_widthsOk hs hw hpx m) _) (DefRegs.insert_slotsOk hs m p)
        (by show p + 1 + k ≤ (r.insert c m p).inEnd; omega)
    · exact ih (DefRegs.adlerUpdate_widthsOk hw _) hs (by show p + 1 + k ≤ r.inEnd; omega)

theorem consume_codesOk {c : Config} (m : Memory) {k p : Nat} {r : DefRegs} (h : r.CodesOk) :
    (consume c m k p r).CodesOk :=
  (congrArg DefRegs.CodesOk (consume_frame c m k p r)).mpr h

/-! ### one token (R386) -/

/-- The best match lies in the input and within the format's bounds (R214). -/
theorem bestMatch_bounds (m : Memory) (n cur : Nat) (ps : List Nat) :
    (bestMatch m n cur ps).len ≤ n - cur ∧ (bestMatch m n cur ps).len ≤ maxMatch ∧
      (bestMatch m n cur ps).dist ≤ maxDist := by
  unfold bestMatch
  refine List.foldlRecOn (motive := fun b : Match => b.len ≤ n - cur ∧ b.len ≤ maxMatch ∧ b.dist ≤ maxDist) ps _
    ⟨Nat.zero_le _, Nat.zero_le _, Nat.zero_le _⟩ fun best hb p _ => ?_
  unfold tryCandidate
  dsimp only
  split
  · exact hb
  · split
    · have := (matchLen_spec m (min (min (cur - p) (n - cur)) maxMatch) p cur).1
      refine ⟨?_, ?_, ?_⟩ <;> dsimp only <;> omega
    · exact hb

theorem DefRegs.searchAt_bounds (c : Config) (m : Memory) (r : DefRegs) :
    (r.searchAt c m).len ≤ r.inEnd - r.inCur ∧ (r.searchAt c m).len ≤ maxMatch ∧ (r.searchAt c m).dist ≤ maxDist := by
  unfold DefRegs.searchAt
  split
  · exact bestMatch_bounds ..
  · exact ⟨Nat.zero_le _, Nat.zero_le _, Nat.zero_le _⟩

theorem getD_find?_range_lt {n : Nat} (p : Nat → Bool) (hn : 0 < n) : ((List.range n).find? p).getD 0 < n := by
  cases h : (List.range n).find? p with
  | none => exact hn
  | some i => exact List.mem_range.1 (List.mem_of_find?_eq_some h)

/-- `lc` numbers the 29 rows of R115. -/
theorem lc_le (l : Nat) : lc l ≤ 28 := by
  unfold lc
  split
  · exact Nat.le_refl _
  · exact (getD_find?_range_lt _ (by decide)).le

/-! ### the frequency tables (R39) -/

theorem mem_setIfInBounds {n : Nat} {t : Vector Nat n} {i v x : Nat} (h : x ∈ (t.setIfInBounds i v).toList) :
    x ∈ t.toList ∨ x = v := by
  rw [Vector.toList_setIfInBounds] at h
  exact List.mem_or_eq_of_mem_set h

/-- Counting a symbol raises the largest count by one at most. -/
theorem bump_le {n b : Nat} {t : Vector Nat n} (h : ∀ f ∈ t.toList, f ≤ b) (i : Nat) :
    ∀ f ∈ (bump t i).toList, f ≤ b + 1 := by
  intro f hf
  rcases mem_setIfInBounds hf with hf | rfl
  · exact (h f hf).trans (Nat.le_succ b)
  · cases hi : t[i]? with
    | none => simp
    | some x => simpa using h x (by simpa using Vector.mem_of_getElem? hi)

theorem mem_replicate_zero {n f : Nat} (h : f ∈ (Vector.replicate n 0).toList) : f = 0 := by
  simp at h
  exact h.2

/-! ### the pass (R385, R386) -/

/-- What holds during the pass with room for `k` more tokens. -/
structure PassOk (c : Config) (k : Nat) (r : DefRegs) : Prop where
  widths : r.WidthsOk c
  slots : r.slotsOk c
  codes : r.CodesOk
  room : r.tok.length + k ≤ c.tokenCap
  freqLl : ∀ f ∈ r.freqLl.toList, f ≤ r.tok.length
  freqD : ∀ f ∈ r.freqD.toList, f ≤ r.tok.length

theorem lt_two_pow_of_le_tokenCap {c : Config} {f : Nat} (h : f ≤ c.tokenCap + 1) :
    f < 2 ^ ceilLog2 (c.tokenCap + 2) :=
  Nat.lt_of_lt_of_le (by omega) (le_two_pow_ceilLog2 _)

/-- Appending a token that fits, and counting it. -/
theorem PassOk.pushTok {c : Config} {k : Nat} {r : DefRegs} (h : PassOk c (k + 1) r) {t : Token} (ht : t.Fits)
    {fl : Vector Nat 286} {fd : Vector Nat 30} (hl : ∀ f ∈ fl.toList, f ≤ r.tok.length + 1)
    (hd : ∀ f ∈ fd.toList, f ≤ r.tok.length + 1) :
    PassOk c k { r.pushTok t with freqLl := fl, freqD := fd } := by
  have hroom := h.room
  obtain ⟨hlen, hfits, htrim⟩ := h.widths.tok
  have hw : ({ r.pushTok t with freqLl := fl, freqD := fd } : DefRegs).WidthsOk c := { h.widths with
    tok := by
      refine ⟨?_, ?_, trimEnd_drop htrim 1⟩
      · simp only [DefRegs.pushTok, List.length_append, List.length_drop, List.length_singleton]
        omega
      · simp only [DefRegs.pushTok, List.forall_mem_append, List.forall_mem_singleton] at hfits ⊢
        exact ⟨⟨hfits.1, ht⟩, fun x hx => hfits.2 x (List.mem_of_mem_drop hx)⟩
    freqLl := fun f hf => lt_two_pow_of_le_tokenCap ((hl f hf).trans (by omega))
    freqD := fun f hf => lt_two_pow_of_le_tokenCap ((hd f hf).trans (by omega)) }
  exact ⟨hw, h.slots, h.codes, by simp [DefRegs.pushTok]; omega, by simpa [DefRegs.pushTok] using hl,
    by simpa [DefRegs.pushTok] using hd⟩

/-- Consuming the input of a token. -/
theorem PassOk.consume {c : Config} {k n : Nat} {r : DefRegs} (h : PassOk c k r) (hn : r.inCur + n ≤ r.inEnd)
    (m : Memory) : PassOk c k { consume c m n r.inCur r with inCur := r.inCur + n } := by
  obtain ⟨hw, hs⟩ := consume_widthsOk m h.widths h.slots hn
  have hcur : r.inCur + n < 2 ^ c.xlen := Nat.lt_of_le_of_lt hn h.widths.inEnd
  exact ⟨{ hw with inCur := hcur }, hs, consume_codesOk m h.codes, by simpa using h.room, by simpa using h.freqLl,
    by simpa using h.freqD⟩

theorem PassOk.passToken {c : Config} {k : Nat} {r : DefRegs} (m : Memory) (hcur : r.inCur < r.inEnd)
    (h : PassOk c (k + 1) r) : PassOk c k (r.passToken c m) := by
  obtain ⟨hend, hlen, hdist⟩ := r.searchAt_bounds c m
  have hlc := lc_le (r.searchAt c m).len
  simp only [maxMatch, maxDist] at hlen hdist
  unfold DefRegs.passToken
  dsimp only
  split
  · have hfits : (⟨257 + lc (r.searchAt c m).len, (r.searchAt c m).len, (r.searchAt c m).dist⟩ : Token).Fits :=
      ⟨by dsimp only; omega, by dsimp only; omega, by dsimp only; omega⟩
    have hend' : r.inCur + (r.searchAt c m).len ≤ r.inEnd := by omega
    exact (h.pushTok hfits (bump_le h.freqLl _) (bump_le h.freqD _)).consume hend' m
  · have hfits : (⟨(m.read r.inCur).toNat, 1, 0⟩ : Token).Fits :=
      ⟨(m.read r.inCur).isLt.trans (by decide), Nat.one_lt_two_pow (by decide), Nat.two_pow_pos 16⟩
    exact (h.pushTok hfits (bump_le h.freqLl _) fun f hf => (h.freqD f hf).trans (Nat.le_succ _)).consume
      (n := 1) hcur m

theorem PassOk.startPass {c : Config} {r : DefRegs} (hw : r.WidthsOk c) (hs : r.slotsOk c) (hc : r.CodesOk) :
    PassOk c c.tokenCap r.startPass := by
  refine ⟨{ DefRegs.clearTok_widthsOk hw with freqLl := ?_, freqD := ?_ }, hs, hc, by simp [DefRegs.startPass], ?_, ?_⟩
  · exact fun f hf => mem_replicate_zero hf ▸ Nat.two_pow_pos _
  · exact fun f hf => mem_replicate_zero hf ▸ Nat.two_pow_pos _
  · exact fun f hf => mem_replicate_zero hf ▸ Nat.zero_le _
  · exact fun f hf => mem_replicate_zero hf ▸ Nat.zero_le _

/-- The whole pass keeps the widths and the code values. -/
theorem DefRegs.runPass_widthsOk {c : Config} {r : DefRegs} (m : Memory) (hw : r.WidthsOk c) (hs : r.slotsOk c)
    (hc : r.CodesOk) : (r.runPass c m).WidthsOk c ∧ (r.runPass c m).CodesOk := by
  obtain ⟨k, h, -⟩ := passLoop_induct (P := PassOk c) (m := m) (fun _ _ hcur h => PassOk.passToken m hcur h)
    (PassOk.startPass hw hs hc)
  have hroom := h.room
  refine ⟨{ h.widths with freqLl := fun f hf => ?_ }, h.codes⟩
  rcases mem_setIfInBounds hf with hf | rfl
  · exact h.widths.freqLl f hf
  · exact lt_two_pow_of_le_tokenCap (by omega)

end Sys2Proof.Machine
end

section
/-! PROOFS. The tables of a Dynamic block (R391 to R394) have the widths of their registers, and with them every step
keeps every register within its width (R12). -/

namespace Sys2Proof.Machine

/-! ### tables made from lists -/

theorem mem_tableOf {α : Type} {n : Nat} {d x : α} {l : List α} (h : x ∈ (tableOf n d l).toList) :
    ∃ i < n, l.getD i d = x := by
  obtain ⟨i, hi, hx⟩ := List.mem_map.1 (show x ∈ (List.range n).map fun i => l.getD i d from h)
  exact ⟨i, List.mem_range.1 hi, hx⟩

/-- A register of code lengths that `buildLengths` fills. -/
theorem tableOf_buildLengths_le {n maxBits : Nat} (freq : List Nat) (hb : 1 ≤ maxBits) :
    ∀ x ∈ (tableOf n 0 (buildLengths freq maxBits)).toList, x ≤ maxBits := by
  intro x hx
  obtain ⟨i, -, rfl⟩ := mem_tableOf hx
  exact getD_le (buildLengths_le hb) i

/-- A register of code values under lengths that `buildLengths` made (R40, R170, R174). -/
theorem tableOf_assignCodes_lt {n maxBits : Nat} {freq : List Nat} (hb : 1 ≤ maxBits) (hb' : maxBits ≤ 15)
    (hk : freq.length ≤ 2 ^ maxBits) :
    ∀ x ∈ (tableOf n 0 (assignCodes (buildLengths freq maxBits))).toList, x < 2 ^ maxBits := by
  intro x hx
  obtain ⟨i, -, rfl⟩ := mem_tableOf hx
  have hle := getD_le (buildLengths_le (freq := freq) hb) i
  exact Nat.lt_of_lt_of_le (assignCodes_lt hb' (buildLengths_le hb) (kraftSum_buildLengths hb hk) i)
    (Nat.pow_le_pow_right (by decide) hle)

/-! ### the code tables and the counts (R391, R392) -/

theorem DefRegs.buildCodes_widthsOk {c : Config} {r : DefRegs} (h : r.WidthsOk c) : r.buildCodes.WidthsOk c :=
  { h with
    llcLen := fun x hx => Nat.lt_of_le_of_lt (tableOf_buildLengths_le (maxBits := 15) _ (by decide) x hx) (by decide)
    dcLen := fun x hx => Nat.lt_of_le_of_lt (tableOf_buildLengths_le (maxBits := 15) _ (by decide) x hx) (by decide) }

theorem DefRegs.buildCodes_codesOk {r : DefRegs} (h : r.CodesOk) : r.buildCodes.CodesOk :=
  ⟨tableOf_assignCodes_lt (by decide) (by decide) (by simp [llMaxBits]),
    tableOf_assignCodes_lt (by decide) (by decide) (by simp [dMaxBits]), h.2.2⟩

/-- The last used index is none above the highest one looked at. -/
theorem lastUsed_le {lo hi : Nat} (h : lo ≤ hi) (l : List Nat) : lastUsed lo hi l ≤ hi := by
  refine List.foldlRecOn (motive := fun b : Nat => b ≤ hi) (List.range (hi + 1)) _ h fun best hb k hk => ?_
  split
  · exact Nat.le_of_lt_succ (List.mem_range.1 hk)
  · exact hb

theorem DefRegs.setCounts_widthsOk {c : Config} {r : DefRegs} (h : r.WidthsOk c) : r.setCounts.WidthsOk c := by
  have hl := lastUsed_le (lo := 256) (hi := 285) (by decide) r.llcLen.toList
  have hd := lastUsed_le (lo := 0) (hi := 29) (by decide) r.dcLen.toList
  exact { h with
    counts := ⟨by simp only [DefRegs.setCounts]; omega, by simp only [DefRegs.setCounts]; omega, h.counts.2.2⟩ }

/-! ### the run-length coding (R393) -/

/-- The runs cover the sequence, and each has a value of it. -/
theorem runsOf_spec (seq : List Nat) :
    ((runsOf seq).map Prod.snd).sum = seq.length ∧ ∀ p ∈ runsOf seq, p.1 ∈ seq ∧ 1 ≤ p.2 := by
  induction seq with
  | nil => exact ⟨rfl, nofun⟩
  | cons v vs ih =>
    obtain ⟨hsum, hmem⟩ := ih
    unfold runsOf
    cases hr : runsOf vs with
    | nil =>
      rw [hr] at hsum
      simp [List.length_eq_zero_iff.1 hsum.symm]
    | cons p rest =>
      obtain ⟨w, n⟩ := p
      rw [hr] at hsum hmem
      simp only [List.map_cons, List.sum_cons, List.length_cons] at hsum ⊢
      have hrest : ∀ q ∈ rest, q.1 ∈ v :: vs ∧ 1 ≤ q.2 := fun q hq =>
        ⟨List.mem_cons_of_mem _ (hmem q (List.mem_cons_of_mem _ hq)).1, (hmem q (List.mem_cons_of_mem _ hq)).2⟩
      obtain ⟨hw, hn⟩ := hmem (w, n) List.mem_cons_self
      dsimp only at hw hn ⊢
      split
      · refine ⟨by simp only [List.map_cons, List.sum_cons]; omega, List.forall_mem_cons.2 ⟨⟨?_, ?_⟩, hrest⟩⟩
        · exact List.mem_cons_of_mem _ hw
        · dsimp only; omega
      · refine ⟨by simp only [List.map_cons, List.sum_cons]; omega, List.forall_mem_cons.2 ⟨⟨?_, Nat.le_refl 1⟩,
          List.forall_mem_cons.2 ⟨⟨?_, hn⟩, hrest⟩⟩⟩
        · exact List.mem_cons_self
        · exact List.mem_cons_of_mem _ hw

/-- A list of items that fit, and no more of them than the run is long. -/
def RunItems (n : Nat) (l : List RleItem) : Prop := l.length ≤ n ∧ ∀ e ∈ l, e.Fits

theorem RunItems.nil (n : Nat) : RunItems n [] := ⟨Nat.zero_le _, nofun⟩

theorem RunItems.cons {n k : Nat} {l : List RleItem} {e : RleItem} (he : e.Fits) (hk : 1 ≤ k) (hn : k ≤ n)
    (h : RunItems (n - k) l) : RunItems n (e :: l) := by
  obtain ⟨hlen, hfits⟩ := h
  exact ⟨by rw [List.length_cons]; omega, List.forall_mem_cons.2 ⟨he, hfits⟩⟩

theorem RunItems.replicate {e : RleItem} (he : e.Fits) (n : Nat) : RunItems n (List.replicate n e) :=
  ⟨by simp, fun _ hx => List.eq_of_mem_replicate hx ▸ he⟩

theorem zeroRun_items (k r : Nat) : RunItems r (zeroRun k r) := by
  induction k generalizing r with
  | zero => exact .nil r
  | succ k ih =>
    unfold zeroRun
    split
    · exact .cons ⟨by dsimp only; omega, by dsimp only; omega⟩ (by omega) (Nat.min_le_left r 138) (ih _)
    · split
      · exact .cons ⟨by dsimp only; omega, by dsimp only; omega⟩ (Nat.le_refl 1) (by omega) (.nil _)
      · exact .replicate ⟨by decide, by decide⟩ r

theorem repeatRun_items {v : Nat} (hv : v < 2 ^ 5) (k r : Nat) : RunItems r (repeatRun v k r) := by
  induction k generalizing r with
  | zero => exact .nil r
  | succ k ih =>
    unfold repeatRun
    split
    · exact .cons ⟨by dsimp only; omega, by dsimp only; omega⟩ (by omega) (Nat.min_le_left r 6) (ih _)
    · exact .replicate ⟨hv, Nat.two_pow_pos 7⟩ r

theorem codeRun_items {p : Nat × Nat} (hv : p.1 < 2 ^ 5) (hn : 1 ≤ p.2) : RunItems p.2 (codeRun p) := by
  unfold codeRun
  split
  · exact zeroRun_items ..
  · exact .cons ⟨hv, Nat.two_pow_pos 7⟩ (Nat.le_refl 1) hn (repeatRun_items hv ..)

/-- The run-length coding of a sequence of code lengths: no longer than the sequence, each item within its widths. -/
theorem rleOf_items {seq : List Nat} (h : ∀ v ∈ seq, v < 2 ^ 5) : RunItems seq.length (rleOf seq) := by
  obtain ⟨hsum, hmem⟩ := runsOf_spec seq
  have hrun : ∀ p ∈ runsOf seq, RunItems p.2 (codeRun p) := fun p hp =>
    codeRun_items (h _ (hmem p hp).1) (hmem p hp).2
  constructor
  · rw [rleOf, List.length_flatMap, ← hsum]
    exact List.sum_le_sum fun p hp => (hrun p hp).1
  · intro e he
    obtain ⟨p, hp, hep⟩ := List.mem_flatMap.1 he
    exact (hrun p hp).2 e hep

/-- Counting the symbols of a list of items, from a table whose counts are at most `b` (R393). -/
theorem foldl_bump_le {n b : Nat} {t : Vector Nat n} (items : List RleItem) (h : ∀ f ∈ t.toList, f ≤ b) :
    ∀ f ∈ (items.foldl (fun t e => bump t e.sym) t).toList, f ≤ b + items.length := by
  induction items generalizing t b with
  | nil => exact h
  | cons e items ih =>
    intro f hf
    have := ih (bump_le h e.sym) f hf
    rw [List.length_cons]
    omega

theorem DefRegs.setRle_widthsOk {c : Config} {r : DefRegs} (h : r.WidthsOk c) : r.setRle.WidthsOk c := by
  have hseq : ∀ v ∈ r.lengthSeq, v < 2 ^ 5 := fun v hv => by
    rcases List.mem_append.1 hv with hv | hv
    · exact (h.llcLen v (List.mem_of_mem_take hv)).trans (by decide)
    · exact (h.dcLen v (List.mem_of_mem_take hv)).trans (by decide)
  have hlen : r.lengthSeq.length ≤ 316 := by
    simp only [DefRegs.lengthSeq, List.length_append, List.length_take, Vector.length_toList]
    omega
  obtain ⟨hitems, hfits⟩ := rleOf_items hseq
  obtain ⟨hrle, hold, -⟩ := h.rle
  have hcount := foldl_bump_le (n := 19) (rleOf r.lengthSeq) (b := 0) fun f hf => (mem_replicate_zero hf).le
  have hrest : (r.setRle).rle.length + (r.setRle).rleRest.length ≤ 316 := by
    have := length_trimEnd_le RleItem.zero ((r.rle ++ r.rleRest).drop (rleOf r.lengthSeq).length)
    simp only [List.length_drop, List.length_append] at this
    simp only [DefRegs.setRle, DefRegs.writeRle]
    omega
  exact { h with
    rle := ⟨hrest, List.forall_mem_append.2 ⟨hfits, fun e he => hold e (List.mem_of_mem_drop (mem_of_mem_trimEnd he))⟩,
      trimEnd_trimEnd ..⟩
    freqCl := fun f hf => Nat.lt_of_le_of_lt (hcount f hf) (by omega) }

/-! ### the code-length code (R394) -/

theorem DefRegs.setClc_widthsOk {c : Config} {r : DefRegs} (h : r.WidthsOk c) : r.setClc.WidthsOk c := by
  have hl := lastUsed_le (lo := 3) (hi := 18) (by decide)
    (hclensOrder.map fun s => (buildLengths r.freqCl.toList clMaxBits).getD s 0)
  exact { h with
    clcLen := fun x hx => Nat.lt_of_le_of_lt (tableOf_buildLengths_le (maxBits := 7) _ (by decide) x hx) (by decide)
    counts := ⟨h.counts.1, h.counts.2.1, by simp only [DefRegs.setClc]; omega⟩ }

theorem DefRegs.setRle_codesOk {r : DefRegs} (h : r.CodesOk) : r.setRle.CodesOk := h

theorem DefRegs.setCounts_codesOk {r : DefRegs} (h : r.CodesOk) : r.setCounts.CodesOk := h

theorem DefRegs.setClc_codesOk {r : DefRegs} (h : r.CodesOk) : r.setClc.CodesOk :=
  ⟨h.1, h.2.1, tableOf_assignCodes_lt (by decide) (by decide) (by simp [clMaxBits])⟩

/-- The tables of a Dynamic block keep the widths and the code values (R391 to R394). -/
theorem DefRegs.buildTables_widthsOk {c : Config} {r : DefRegs} (h : r.WidthsOk c) (hc : r.CodesOk) :
    r.buildTables.WidthsOk c ∧ r.buildTables.CodesOk :=
  ⟨DefRegs.setClc_widthsOk (DefRegs.setRle_widthsOk (DefRegs.setCounts_widthsOk (DefRegs.buildCodes_widthsOk h))),
    DefRegs.setClc_codesOk (DefRegs.setRle_codesOk (DefRegs.setCounts_codesOk (DefRegs.buildCodes_codesOk hc)))⟩

/-- Entering a state that emits a block. -/
theorem DefRegs.startEmission_widthsOk {c : Config} {r : DefRegs} (h : r.WidthsOk c) (hc : r.CodesOk) (d : DState) :
    ({ r with emitIdx := 0, dState := d } : DefRegs).WidthsOk c ∧
      ({ r with emitIdx := 0, dState := d } : DefRegs).CodesOk :=
  ⟨{ h with emitIdx := Nat.two_pow_pos _ }, hc⟩

/-- What follows the pass keeps them too (R387). -/
theorem DefRegs.afterPass_widthsOk {c : Config} {r : DefRegs} (h : r.WidthsOk c) (hc : r.CodesOk) :
    r.afterPass.WidthsOk c ∧ r.afterPass.CodesOk := by
  unfold DefRegs.afterPass
  split
  · obtain ⟨hw, hc'⟩ := DefRegs.buildTables_widthsOk h hc
    exact DefRegs.startEmission_widthsOk hw hc' .dDynamic
  · exact DefRegs.startEmission_widthsOk h hc .dFixed
  · exact DefRegs.startEmission_widthsOk h hc .dFixed

/-! ### the passes of R380's loop -/

theorem adlerRange_widthsOk {c : Config} (m : Memory) {n p : Nat} {r : DefRegs} (h : r.WidthsOk c) :
    (adlerRange m n p r).WidthsOk c := by
  induction n generalizing p r with
  | zero => exact h
  | succ n ih => exact ih (DefRegs.adlerUpdate_widthsOk h _)

/-- Forming a stored block keeps the widths (R383). -/
theorem DefRegs.formStored_widthsOk {c : Config} {r : DefRegs} (h : r.WidthsOk c) (m : Memory) :
    (r.formStored m).WidthsOk c := by
  have hcur := h.inCur
  have hend := h.inEnd
  have hlen : min storedMax (r.inEnd - r.inCur) < 2 ^ 16 := by
    simp only [storedMax]
    omega
  have hnext : r.inCur + min storedMax (r.inEnd - r.inCur) < 2 ^ c.xlen := by omega
  have hblk : ({ r with blkStart := r.inCur, blkLen := min storedMax (r.inEnd - r.inCur) } : DefRegs).WidthsOk c :=
    { h with blk := ⟨hcur, hlen⟩ }
  exact { adlerRange_widthsOk m hblk with inCur := hnext, emitIdx := Nat.two_pow_pos _ }

theorem DefRegs.formStored_codesOk {r : DefRegs} (h : r.CodesOk) (m : Memory) : (r.formStored m).CodesOk := by
  have hf := adlerRange_frame m (min storedMax (r.inEnd - r.inCur)) r.inCur
    { r with blkStart := r.inCur, blkLen := min storedMax (r.inEnd - r.inCur) }
  exact (congrArg DefRegs.CodesOk hf).mpr h

theorem passBlock_keeps {s : State} (h : s.dfl.WidthsOk s.cfg) : DflKept s s.passBlock := by
  unfold State.passBlock
  split
  · exact ⟨rfl, rfl, { DefRegs.formStored_widthsOk h s.dflIn with }⟩
  · exact ⟨rfl, rfl, { h with }⟩
  · exact ⟨rfl, rfl, { h with }⟩

theorem passBlock_codesOk {s : State} (h : s.dfl.CodesOk) : s.passBlock.dfl.CodesOk := by
  unfold State.passBlock
  split
  · exact DefRegs.formStored_codesOk h s.dflIn
  · exact h
  · exact h

theorem passLzss_widthsOk {s : State} (h : s.dfl.WidthsOk s.cfg) (hs : s.dfl.slotsOk s.cfg) (hc : s.dfl.CodesOk) :
    s.passLzss.dfl.WidthsOk s.cfg ∧ s.passLzss.dfl.CodesOk := by
  obtain ⟨hw, hc'⟩ := DefRegs.runPass_widthsOk s.dflIn h hs hc
  exact DefRegs.afterPass_widthsOk hw hc'

theorem endBlock_widthsOk {c : Config} (r : DefRegs) (h : r.WidthsOk c) : r.endBlock.WidthsOk c := { h with }

/-- The history's slots, where the DEFLATE engine moves. -/
theorem State.Ok.slotsOk {s : State} (h : s.Ok) (ht : s.turn = .dfl) : s.dfl.slotsOk s.cfg :=
  (h.dfl.2 (h.dfl.1 ht)).2.slots

/-- A step of the DEFLATE engine keeps its registers within their widths, and the other engine's as they are; XLEN
counts the items of every emission list. -/
theorem step_dfl_keeps {s t : State} (ht : s.turn = .dfl) (hs : s.Ok)
    (hx : 70000 + 4 * s.cfg.tokenCap ≤ 2 ^ s.cfg.xlen) (h : step s = .next t) : DflKept s t := by
  obtain ⟨-, hw, hc⟩ := hs.widths
  have htok := hw.tok.1
  have hrle := hw.rle.1
  obtain ⟨-, -, hncl⟩ := hw.counts
  obtain ⟨-, hblk⟩ := hw.blk
  obtain ⟨-, rfl⟩ | ⟨-, rfl⟩ | ⟨-, -, rfl⟩ | ⟨-, rfl⟩ | ⟨-, rfl⟩ | ⟨-, rfl⟩ | ⟨-, rfl⟩ | ⟨-, rfl⟩ := step_dfl_cases ht h
  · exact emitList_keeps hw (headerItems_width _) (by simp [headerItems]; omega) fun r hr => { hr with }
  · exact passBlock_keeps hw
  · exact emitList_keeps hw (storedItems_width _ _) (by rw [length_storedItems]; omega) endBlock_widthsOk
  · exact ⟨rfl, rfl, (passLzss_widthsOk hw (hs.slotsOk ht) hc).1⟩
  · exact emitList_keeps hw (fixedItems_width _) (by rw [length_fixedItems]; omega) endBlock_widthsOk
  · exact emitList_keeps hw (dynamicItems_width hw) (by rw [length_dynamicItems]; omega) endBlock_widthsOk
  · exact emitList_keeps hw (trailerItems_width _) (by simp [trailerItems]; omega) fun r hr => { hr with }
  · exact ⟨rfl, rfl, { hw with }⟩

/-- A step of the DEFLATE engine keeps the code values within their widths. -/
theorem step_dfl_codesOk {s t : State} (ht : s.turn = .dfl) (hs : s.Ok) (h : step s = .next t) : t.dfl.CodesOk := by
  obtain ⟨-, hw, hc⟩ := hs.widths
  obtain ⟨-, rfl⟩ | ⟨-, rfl⟩ | ⟨-, -, rfl⟩ | ⟨-, rfl⟩ | ⟨-, rfl⟩ | ⟨-, rfl⟩ | ⟨-, rfl⟩ | ⟨-, rfl⟩ := step_dfl_cases ht h
  · exact emitList_codesOk hc fun _ hr => hr
  · exact passBlock_codesOk hc
  · exact emitList_codesOk hc fun _ hr => hr
  · exact (passLzss_widthsOk hw (hs.slotsOk ht) hc).2
  · exact emitList_codesOk hc fun _ hr => hr
  · exact emitList_codesOk hc fun _ hr => hr
  · exact emitList_codesOk hc fun _ hr => hr
  · exact hc

end Sys2Proof.Machine

open Sys2Proof.Machine

/-- Settles O51, agent by agent: a host command writes a fitted free value or a checked operand, an INFLATE step
stays within the input and the room, a DEFLATE step emits items of at most 16 bits or makes one pass. -/
theorem registersKeepTheirWidths : Obligations.RegistersKeepTheirWidths := by
  intro s t hs hx h
  obtain ⟨hi, hd, -⟩ := hs.widths
  cases ht : s.turn with
  | host =>
    obtain ⟨hi', hd', -⟩ := step_host_widthsOk ht hs.widths h
    exact ⟨hi', hd'⟩
  | inf =>
    obtain ⟨hcfg, hdfl, hw⟩ := step_inf_keeps ht (hs.infReady ht) h
    rw [hcfg, hdfl]
    exact ⟨hw, hd⟩
  | dfl =>
    obtain ⟨hcfg, hinf, hw⟩ := step_dfl_keeps ht hs hx h
    rw [hcfg, hinf]
    exact ⟨hi, hw⟩

/-- Settles O52: fitted free values apart, only the tables of a Dynamic block are new code values, and the lengths of
package-merge meet Kraft's inequality, under which every code has the length of its symbol. -/
theorem codesKeepTheirWidths : Obligations.CodesKeepTheirWidths := by
  intro s t hs h
  cases ht : s.turn with
  | host => exact (step_host_widthsOk ht hs.widths h).2.2
  | inf => exact (step_inf_keeps ht (hs.infReady ht) h).dfl ▸ hs.widths.2.2
  | dfl => exact step_dfl_codesOk ht hs h

end

section
/-! PROOFS. What a step of the INFLATE engine is: new registers, then one of five ways to go on, and what both leave in
order. Every step has one, so the engine's steps are never refused. -/

namespace Sys2Proof.Machine

/-! ### the grammar positions, by the registers -/

/-- Where an element stands, by the registers that select it (R100, R320). -/
inductive InfRegs.Stands (r : InfRegs) : Pos → Prop
  | zhdr : r.iState = .iInit → r.Stands .zhdr
  | dictid : r.iState = .iInit → r.Stands .dictid
  | bhdr : r.iState = .iBlock → r.Stands .bhdr
  | pad : r.iState = .iNocomp → r.iPhase = false → r.Stands (.pad r.padWidth)
  | shdr : r.iState = .iNocomp → r.iPhase = false → r.sub = .stored → r.Stands .shdr
  | raw : r.iState = .iNocomp → r.iPhase = true → r.Stands .raw
  | dynhdr : r.iState = .iDynamic → r.iPhase = false → r.Stands .dynhdr
  | cllens {k : Nat} : r.iState = .iDynamic → r.iPhase = false → r.sub = .codeLens k → r.Stands .cllens
  | clsym {seq : List (BitVec 4)} {t : Trie} {first : Bool} : r.iState = .iDynamic → r.iPhase = false →
      r.sub = .lengths seq → seq.length < r.nSeq → r.Stands (.clsym t first)
  | llsym {t : Trie} : r.inBody → (∀ sym len, r.sub ≠ .distance sym len) → r.pendLen = 0 → r.Stands (.llsym t)
  | dsym {t : Trie} {sym : BitVec 9} {len : Nat} : r.inBody → r.sub = .distance sym len → r.Stands (.dsym t)

theorem InfRegs.stands_of_bodyPos {r : InfRegs} {p : Pos} (hb : r.inBody) (h : r.bodyPos = some p) : r.Stands p := by
  unfold InfRegs.bodyPos at h
  split at h
  · cases h
    exact .dsym hb ‹_›
  · rename_i hd
    split at h <;> cases h
    rename_i hf
    exact .llsym hb hd (by simpa [InfRegs.codeInFlight] using hf)

theorem InfRegs.stands_of_pos {r : InfRegs} {p : Pos} (h : r.pos = some p) : r.Stands p := by
  unfold InfRegs.pos at h
  split at h
  case h_1 hi =>
    unfold InfRegs.headerPos at h
    split at h <;> cases h
    · exact .dictid hi
    · exact .zhdr hi
  case h_2 hi => cases h; exact .bhdr hi
  case h_3 hi =>
    unfold InfRegs.storedPos at h
    split at h
    · split at h <;> cases h
      exact .raw hi ‹_›
    · rename_i hp
      have hp' : r.iPhase = false := by simpa using hp
      split at h <;> cases h
      · exact .shdr hi hp' ‹_›
      · exact .pad hi hp'
  case h_4 hi =>
    split at h
    · exact InfRegs.stands_of_bodyPos ⟨.inl hi, ‹_›⟩ h
    · cases h
  case h_5 hi =>
    split at h
    · exact InfRegs.stands_of_bodyPos ⟨.inr hi, ‹_›⟩ h
    · rename_i hp
      have hp' : r.iPhase = false := by simpa using hp
      unfold InfRegs.prologuePos at h
      split at h
      · cases h
        exact .cllens hi hp' ‹_›
      · split at h <;> cases h
        exact .clsym hi hp' ‹_› ‹_›
      · cases h
        exact .dynhdr hi hp'
  all_goals cases h

/-! ### what the decoder answers -/

theorem decodeFixed_ok {n used : Nat} {short : Cause} {bs : Bits} {mk : Bits → Instr} {i : Instr}
    (h : decodeFixed n short bs mk = .ok i used) : used = n ∧ ∃ x, i = mk x := by
  refine ⟨?_, (decodeFixed_used.1 h).2⟩
  unfold decodeFixed at h
  split at h <;> cases h
  rfl

/-- The lit/len elements: a literal, the end of the block, a row of R338's table, a reserved symbol (R551). -/
theorem llOf_cases {s x : Nat} {i : Instr} (h : llOf s x = some i) :
    (∃ b, i = .lit b) ∨ i = .eob ∨ (∃ p, llParts i = some p ∧ 257 ≤ p.1 ∧ p.1 ≤ 285) ∨ i = .ll286 ∨ i = .ll287 := by
  unfold llOf at h
  split at h
  case h_1 => cases h; exact .inr (.inl rfl)
  case h_31 => cases h; exact .inr (.inr (.inr (.inl rfl)))
  case h_32 => cases h; exact .inr (.inr (.inr (.inr rfl)))
  case h_33 =>
    split at h <;> cases h
    exact .inl ⟨_, rfl⟩
  all_goals cases h; exact .inr (.inr (.inl ⟨_, rfl, by simp, by simp⟩))

/-- The distance elements: a row of R340's table, or a reserved symbol (R583). -/
theorem dOf_cases {s y : Nat} {i : Instr} (h : dOf s y = some i) :
    (∃ p, dParts i = some p ∧ p.1 < 30) ∨ i = .dist30 ∨ i = .dist31 := by
  unfold dOf at h
  split at h
  case h_31 => cases h; exact .inr (.inl rfl)
  case h_32 => cases h; exact .inr (.inr rfl)
  case h_33 => cases h
  all_goals cases h; exact .inl ⟨_, rfl, by simp⟩

theorem clOf_cases {s x : Nat} {i : Instr} (h : clOf s x = some i) :
    (∃ v, i = .cl v) ∨ (∃ y, i = .cl16 y) ∨ (∃ y, i = .cl17 y) ∨ ∃ y, i = .cl18 y := by
  unfold clOf at h
  split at h
  case h_1 => cases h; exact .inr (.inl ⟨_, rfl⟩)
  case h_2 => cases h; exact .inr (.inr (.inl ⟨_, rfl⟩))
  case h_3 => cases h; exact .inr (.inr (.inr ⟨_, rfl⟩))
  case h_4 =>
    split at h <;> cases h
    exact .inl ⟨_, rfl⟩

/-- The block headers, by BTYPE (R322). -/
theorem mkBhdr_cases (x : Bits) :
    ∃ f, mkBhdr x = .bhdrStored f ∨ mkBhdr x = .bhdrFixed f ∨ mkBhdr x = .bhdrDynamic f ∨
      mkBhdr x = .bhdrReserved f := by
  refine ⟨decide (field x 0 1 = 1), ?_⟩
  unfold mkBhdr
  dsimp only
  split
  · exact .inl rfl
  · exact .inr (.inl rfl)
  · exact .inr (.inr (.inl rfl))
  · exact .inr (.inr (.inr rfl))

theorem decodeFixed_cause {n used : Nat} {short c : Cause} {bs : Bits} {mk : Bits → Instr}
    (h : decodeFixed n short bs mk = .reject c used) : c = short := by
  unfold decodeFixed at h
  split at h <;> cases h
  rfl

theorem decodeSym_cause {t : Trie} {extra : Nat → Nat} {mk : Nat → Nat → Option Instr} {stop : Nat → Option Cause}
    {bs : Bits} {c : Cause} {used : Nat} (hstop : ∀ s c, stop s = some c → c ≠ .none)
    (h : decodeSym t extra mk stop bs = .reject c used) : c ≠ .none := by
  unfold decodeSym at h
  split at h
  · cases h; decide
  · cases h; decide
  · split at h
    · cases h
      exact hstop _ _ ‹_›
    · split at h
      · cases h; decide
      · split at h <;> cases h
        decide

/-- What the decoder raises is a cause (R451). -/
theorem decodeAt_cause {p : Pos} {bs : Bits} {c : Cause} {used : Nat} (h : decodeAt p bs = .reject c used) :
    c ≠ .none := by
  have hcl : ∀ first s c, clStop first s = some c → c ≠ .none := by
    intro first s c h
    unfold clStop at h
    split at h <;> cases h
    decide
  cases p <;> simp only [decodeAt] at h
  case raw => split at h <;> cases h; decide
  case clsym => exact decodeSym_cause (hcl _) h
  case llsym | dsym => exact decodeSym_cause (stop := fun _ => none) (fun _ _ => nofun) h
  all_goals rw [decodeFixed_cause h]; decide

end Sys2Proof.Machine
end

section
/-! PROOFS. What a step of the INFLATE engine is: it leaves new registers and goes on in one of five ways. No step of
the engine is refused. -/

namespace Sys2Proof.Machine

/-! ### the invariants of the data, and those of the control -/

/-- The invariants of `InfRegs.Ok` that do not depend on where the engine is. -/
structure InfRegs.DataOk (c : Config) (r : InfRegs) : Prop where
  cursor : r.cursorOk
  room : r.thisOut ≤ r.outLim
  counted : r.thisOut ≤ r.totalOut
  winPos : r.winPos = r.totalOut % c.winCap
  pendLen : r.pendLen ≤ 258
  pendDist : r.pendDist ≤ 32768 ∧ r.pendDist ≤ r.totalOut
  storedRem : r.storedRem ≤ 65535

theorem InfRegs.cursorOk_iff (r : InfRegs) : r.cursorOk ↔ r.bitpos ≤ 8 * r.brLen := by
  have hb := r.brBit.isLt
  have hz : r.brBit = 0 ↔ r.brBit.val = 0 := Fin.ext_iff
  rw [InfRegs.cursorOk, InfRegs.bitpos, hz]
  omega

theorem InfRegs.Ok.dataOk {c : Config} {r : InfRegs} (h : r.Ok c) : r.DataOk c := { h with }

/-- The data invariants where the cursor has moved within the input. -/
theorem InfRegs.Ok.dataOk_advance {c : Config} {r : InfRegs} (h : r.Ok c) {n : Nat} (hn : n ≤ r.avail) :
    (r.advance n).DataOk c := by
  have hcur := r.cursorOk_iff.1 h.cursor
  rw [InfRegs.avail_eq] at hn
  have hmoved : (r.advance n).cursorOk := by
    rw [InfRegs.cursorOk_iff, InfRegs.advance_bitpos, InfRegs.advance_brLen]
    omega
  exact { h with cursor := hmoved }

/-- Registers with no code in flight and no cause recorded. -/
theorem InfRegs.DataOk.ok_of_idle {c : Config} {r : InfRegs} (h : r.DataOk c) (hp : r.pendLen = 0)
    (hc : r.errCause = .none) (hst : r.iState ≠ .iError)
    (hphase : r.iState = .iInit ∨ r.iState = .iBlock ∨ r.iState = .iEnd → r.iPhase = false)
    (haligned : r.iState = .iNocomp → r.iPhase = true → r.brBit = 0) (hsub : r.subOk) : r.Ok c :=
  { h with
    cause := iff_of_true hc hst
    inFlight := fun hne => absurd hp hne
    phase := hphase
    aligned := haligned
    sub := hsub }

/-- The same in the prologue of a dynamic block. -/
theorem InfRegs.DataOk.ok_of_prologue {c : Config} {r : InfRegs} (h : r.DataOk c) (hp : r.pendLen = 0)
    (hc : r.errCause = .none) (hst : r.iState = .iDynamic) (hph : r.iPhase = false) (hsub : r.subOk) : r.Ok c :=
  h.ok_of_idle hp hc (by rw [hst]; decide) (fun _ => hph) (fun hn => absurd (hst.symm.trans hn) (by decide)) hsub

/-- Registers in a body, where a code may be in flight. -/
theorem InfRegs.DataOk.ok_of_body {c : Config} {r : InfRegs} (h : r.DataOk c) (hc : r.errCause = .none)
    (hb : r.inBody) (hsub : r.subOk) : r.Ok c := by
  have hst : r.iState = .iFixed ∨ r.iState = .iDynamic := hb.1
  refine { h with cause := iff_of_true hc ?_, inFlight := fun _ => hb, phase := ?_, aligned := ?_, sub := hsub } <;>
    rcases hst with hst | hst <;> simp [hst]

theorem InfRegs.subOk_of_start {r : InfRegs} (h : r.sub = .start) : r.subOk := by
  simp [InfRegs.subOk, h]

/-- No code is in flight outside a body (R338). -/
theorem InfRegs.Ok.pendLen_eq_zero {c : Config} {r : InfRegs} (h : r.Ok c) (hb : ¬ r.inBody) : r.pendLen = 0 :=
  Decidable.byContradiction fun hne => hb (h.inFlight hne)

/-- Where an element stands, no code is in flight and no cause is recorded. -/
theorem InfRegs.Stands.quiet {c : Config} {r : InfRegs} {p : Pos} (hs : r.Stands p) (h : r.Ok c) :
    r.pendLen = 0 ∧ r.errCause = .none := by
  have hsub := h.sub
  unfold InfRegs.subOk at hsub
  refine ⟨?_, ?_⟩
  · cases hs
    case llsym h0 => exact h0
    case dsym hd => rw [hd] at hsub; exact hsub.2.1
    all_goals exact h.pendLen_eq_zero fun hb => by simp_all [InfRegs.inBody]
  · refine h.cause.2 fun he => ?_
    cases hs <;> simp_all [InfRegs.inBody]

/-! ### the ways to go on -/

/-- How a step of the INFLATE engine goes on once it has written its registers. -/
inductive InfEnd where
  /-- the engine keeps its move -/
  | stay
  /-- `raise FormatError` (R455) -/
  | raise (c : Cause)
  /-- `drainCode()` (R342) -/
  | drain
  /-- the STEP ends (R435) -/
  | answer (st : Status)
  /-- `emitByte` (R343) -/
  | store (b : Byte)

def InfEnd.run : InfEnd → State → State
  | .stay, s => s
  | .raise c, s => s.raiseFormat c
  | .drain, s => s.drainCode
  | .answer st, s => s.answerInf st
  | .store b, s => s.emitByte b

/-- What the registers written must meet for the invariants to hold after it. -/
def InfEnd.Ready (c : Config) (q : InfRegs) : InfEnd → Prop
  | .stay => q.Ok c
  | .raise cause => cause ≠ .none ∧ q.DataOk c ∧ q.pendLen = 0
  | .drain => q.Ok c ∧ q.sub = .start
  | .answer _ => q.Ok c
  | .store _ => q.Ok c ∧ q.thisOut < q.outLim

/-- The cursor has not moved back, and the registers of INPUT, OUTPUT and the window are as they were. -/
structure InfRegs.Forward (r q : InfRegs) : Prop where
  bitpos : r.bitpos ≤ q.bitpos
  brLen : q.brLen = r.brLen
  outLim : q.outLim = r.outLim
  thisOut : q.thisOut = r.thisOut
  totalOut : q.totalOut = r.totalOut
  winPos : q.winPos = r.winPos

theorem InfRegs.Forward.refl (r : InfRegs) : r.Forward r := ⟨Nat.le_refl _, rfl, rfl, rfl, rfl, rfl⟩

theorem InfRegs.forward_advance (r : InfRegs) (n : Nat) : r.Forward (r.advance n) :=
  { InfRegs.Forward.refl r with bitpos := by simp }

/-- `f`, applied where the parameters are `c` and the registers `r'`, writes registers `q` and goes on in the way `e`;
`r` are the registers before the element was fetched. -/
def InfEffect (c : Config) (r r' : InfRegs) (f : State → Result) : Prop :=
  ∃ (q : InfRegs) (e : InfEnd), r.Forward q ∧ (r.Ok c → e.Ready c q) ∧
    ∀ s : State, s.cfg = c → s.inf = r' → f s = .next (e.run { s with inf := q })

/-! ### the header -/

theorem headerCause_ne_none {p : FdictPolicy} {r : InfRegs} {c : Cause} (h : r.headerCause p = some c) :
    c ≠ .none := by
  unfold InfRegs.headerCause at h
  repeat' split at h
  all_goals cases h <;> decide

variable {c : Config} {r : InfRegs} {n : Nat}

theorem execZhdr_effect (hst : r.iState = .iInit) (hn : n ≤ r.avail) (cm cinfo : BitVec 4) (fcheck : BitVec 5)
    (fdict : Bool) (flevel : BitVec 2) :
    InfEffect c r (r.advance n) (execZhdr cm cinfo fcheck fdict flevel) := by
  have hf := r.forward_advance n
  have hquiet : r.Ok c → r.pendLen = 0 ∧ r.errCause = .none := (InfRegs.Stands.zhdr hst).quiet
  have hphase : r.Ok c → r.iPhase = false := fun hok => hok.phase (.inl hst)
  let q : InfRegs := { r.advance n with cmf := zhdrCmf cm cinfo, flg := zhdrFlg fcheck fdict flevel }
  cases hc : q.headerCause c.fdictPolicy with
  | some cause =>
    refine ⟨q, .raise cause, { hf with }, fun hok => ⟨headerCause_ne_none hc, { hok.dataOk_advance hn with },
      (hquiet hok).1⟩, ?_⟩
    rintro ⟨⟩ rfl rfl
    simp only [execZhdr, State.withInf]
    rw [show InfRegs.headerCause _ _ = _ from hc]
    rfl
  | none =>
    cases hd : q.fdict with
    | true =>
      refine ⟨{ q with sub := .dictid }, .stay, { hf with }, fun hok => ?_, ?_⟩
      · have hdata := hok.dataOk_advance hn
        exact { hdata with
          cause := hok.cause
          inFlight := hok.inFlight
          phase := hok.phase
          aligned := fun h => absurd (hst.symm.trans h) (by decide)
          sub := hst }
      · rintro ⟨⟩ rfl rfl
        simp only [execZhdr, State.withInf]
        rw [show InfRegs.headerCause _ _ = _ from hc]
        exact if_pos hd
    | false =>
      refine ⟨{ q with iState := .iBlock, sub := .start }, .stay, { hf with }, fun hok => ?_, ?_⟩
      · have hdata : InfRegs.DataOk c { q with iState := .iBlock, sub := .start } := { hok.dataOk_advance hn with }
        exact hdata.ok_of_idle (hquiet hok).1 (hquiet hok).2 nofun (fun _ => hphase hok) nofun trivial
      · rintro ⟨⟩ rfl rfl
        simp only [execZhdr, State.withInf]
        rw [show InfRegs.headerCause _ _ = _ from hc]
        exact if_neg (by rw [hd]; decide)

theorem execDictid_effect (hst : r.iState = .iInit) (hn : n ≤ r.avail) (id : BitVec 32) :
    InfEffect c r (r.advance n) (execDictid id) := by
  refine ⟨{ r.advance n with dictid := id, iState := .iBlock, sub := .start }, .stay,
    { r.forward_advance n with }, fun hok => ?_, ?_⟩
  · obtain ⟨hp, hc⟩ := (InfRegs.Stands.dictid hst).quiet hok
    have hdata : InfRegs.DataOk c { r.advance n with dictid := id, iState := .iBlock, sub := .start } :=
      { hok.dataOk_advance hn with }
    exact hdata.ok_of_idle hp hc nofun (fun _ => hok.phase (.inl hst)) nofun trivial
  · rintro ⟨⟩ rfl rfl
    rfl

/-- A cause raised by an element that writes nothing. -/
theorem raiseFormat_effect {p : Pos} (hs : r.Stands p) (hn : n ≤ r.avail) {cause : Cause} (hc : cause ≠ .none) :
    InfEffect c r (r.advance n) (fun s => .next (s.raiseFormat cause)) := by
  refine ⟨r.advance n, .raise cause, r.forward_advance n, fun hok => ⟨hc, hok.dataOk_advance hn, (hs.quiet hok).1⟩, ?_⟩
  rintro ⟨⟩ rfl rfl
  rfl

/-! ### block headers and stored blocks -/

theorem enterBlock_effect (hst : r.iState = .iBlock) (hn : n ≤ r.avail) (final : Bool) (btype : BitVec 2)
    {st : IState} (hst' : st ≠ .iError) :
    InfEffect c r (r.advance n)
      (fun s => .next (s.withInf fun r => { r.enterBlock final btype with iState := st })) := by
  refine ⟨{ (r.advance n).enterBlock final btype with iState := st }, .stay, { r.forward_advance n with },
    fun hok => ?_, ?_⟩
  · obtain ⟨hp, hc⟩ := (InfRegs.Stands.bhdr hst).quiet hok
    have hdata : InfRegs.DataOk c { (r.advance n).enterBlock final btype with iState := st } :=
      { hok.dataOk_advance hn with }
    exact hdata.ok_of_idle hp hc hst' (fun _ => rfl) (fun _ h => absurd h Bool.false_ne_true) trivial
  · rintro ⟨⟩ rfl rfl
    rfl

theorem execBhdrReserved_effect (hst : r.iState = .iBlock) (hn : n ≤ r.avail) (final : Bool) :
    InfEffect c r (r.advance n) (execBhdrReserved final) := by
  refine ⟨(r.advance n).enterBlock final 3, .raise .blockType, { r.forward_advance n with }, fun hok => ?_, ?_⟩
  · exact ⟨by decide, { hok.dataOk_advance hn with }, ((InfRegs.Stands.bhdr hst).quiet hok).1⟩
  · rintro ⟨⟩ rfl rfl
    rfl

/-- Skipping to the byte boundary moves the cursor past the padding (R144, R330). -/
theorem InfRegs.alignToByte_eq (r : InfRegs) : r.alignToByte = r.advance r.padWidth := by
  have hb := r.brBit.isLt
  unfold InfRegs.alignToByte
  split
  · rename_i h0
    have hw : r.padWidth = 0 := by simp [InfRegs.padWidth, h0]
    rw [hw, InfRegs.advance_zero]
  · rename_i h0
    have h0' : r.brBit.val ≠ 0 := fun h => h0 (Fin.ext h)
    have hpos : r.bitpos + r.padWidth = 8 * (r.brByte + 1) := by
      simp only [InfRegs.bitpos, InfRegs.padWidth]
      omega
    simp only [InfRegs.advance, InfRegs.atBit, hpos]
    congr 1
    · omega
    · exact Fin.ext (by simp)

theorem InfRegs.alignToByte_brBit (r : InfRegs) : r.alignToByte.brBit = 0 := by
  unfold InfRegs.alignToByte
  split
  · assumption
  · rfl

theorem execPad_effect (hst : r.iState = .iNocomp) (hph : r.iPhase = false) (hn : r.padWidth ≤ r.avail) :
    InfEffect c r r execPad := by
  have hf := r.forward_advance r.padWidth
  have heq := r.alignToByte_eq
  refine ⟨{ r.alignToByte with sub := .stored }, .stay, { (heq ▸ hf : r.Forward r.alignToByte) with },
    fun hok => ?_, ?_⟩
  · have hdata : r.alignToByte.DataOk c := heq ▸ hok.dataOk_advance hn
    have hkeep : r.alignToByte = { r with brByte := r.alignToByte.brByte, brBit := r.alignToByte.brBit } := by
      rw [heq]
      rfl
    have hbit := r.alignToByte_brBit
    rw [hkeep] at hdata ⊢
    exact { hdata with
      cause := hok.cause
      inFlight := hok.inFlight
      phase := hok.phase
      aligned := fun _ _ => hbit
      sub := ⟨hst, hph, hbit⟩ }
  · rintro ⟨⟩ rfl rfl
    rfl

theorem execShdr_effect (hst : r.iState = .iNocomp) (hph : r.iPhase = false) (hsub : r.sub = .stored)
    (hn : 32 ≤ r.avail) (len nlen : BitVec 16) : InfEffect c r (r.advance 32) (execShdr len nlen) := by
  have hf := r.forward_advance 32
  have hquiet : r.Ok c → r.pendLen = 0 ∧ r.errCause = .none := (InfRegs.Stands.shdr hst hph hsub).quiet
  cases hl : nlenOk len nlen with
  | true =>
    refine ⟨{ r.advance 32 with storedRem := len.toNat, iPhase := true, sub := .start }, .stay, { hf with },
      fun hok => ?_, ?_⟩
    · have hlen : len.toNat ≤ 65535 := Nat.le_of_lt_succ len.isLt
      have hdata : InfRegs.DataOk c { r.advance 32 with storedRem := len.toNat, iPhase := true, sub := .start } :=
        { hok.dataOk_advance hn with storedRem := hlen }
      have hbit : (r.advance 32).brBit = 0 := by
        have h := hok.sub
        rw [InfRegs.subOk, hsub] at h
        refine Fin.ext ?_
        simp [InfRegs.advance, InfRegs.atBit, InfRegs.bitpos, h.2.2]
      refine hdata.ok_of_idle (hquiet hok).1 (hquiet hok).2 ?_ ?_ (fun _ _ => hbit) trivial
      · exact fun h => absurd (hst.symm.trans h) (by decide)
      · rintro (h | h | h) <;> exact absurd (hst.symm.trans h) (by decide)
    · rintro ⟨⟩ rfl rfl
      exact if_pos hl
  | false =>
    refine ⟨r.advance 32, .raise .storedNlen, hf, fun hok => ⟨by decide, hok.dataOk_advance hn, (hquiet hok).1⟩, ?_⟩
    rintro ⟨⟩ rfl rfl
    exact if_neg (by rw [hl]; decide)

theorem execRaw_effect (hst : r.iState = .iNocomp) (hph : r.iPhase = true) (hn : 8 ≤ r.avail) (b : Byte) :
    InfEffect c r r (execRaw b) := by
  have ha : ¬ r.avail < 8 := Nat.not_lt.2 hn
  cases hfull : r.outFull with
  | true =>
    refine ⟨r, .answer .pending, .refl r, id, ?_⟩
    rintro ⟨⟩ rfl rfl
    exact (if_neg ha).trans (if_pos hfull)
  | false =>
    have hbyte : r.brByte + 1 ≤ r.brLen := by
      rw [InfRegs.avail] at hn
      omega
    have hne : r.thisOut ≠ r.outLim := by simpa [InfRegs.outFull] using hfull
    refine ⟨{ r with brByte := r.brByte + 1, storedRem := r.storedRem - 1 }, .store b, ?_, fun hok => ⟨?_, ?_⟩, ?_⟩
    · exact { InfRegs.Forward.refl r with bitpos := by simp [InfRegs.bitpos] }
    · have hrem : r.storedRem - 1 ≤ 65535 := (Nat.sub_le _ 1).trans hok.storedRem
      exact { hok with
        cursor := ⟨hbyte, fun _ => hok.aligned hst hph⟩
        storedRem := hrem
        sub := hok.sub }
    · exact Nat.lt_of_le_of_ne hok.room hne
    · rintro ⟨⟩ rfl rfl
      exact (if_neg ha).trans (if_neg (by rw [hfull]; decide))

/-! ### the prologue of a dynamic block -/

theorem execDynhdr_effect (hst : r.iState = .iDynamic) (hph : r.iPhase = false) (hn : n ≤ r.avail)
    (hlit hdist : BitVec 5) (hclen : BitVec 4) : InfEffect c r (r.advance n) (execDynhdr hlit hdist hclen) := by
  have hf := r.forward_advance n
  have hquiet : r.Ok c → r.pendLen = 0 ∧ r.errCause = .none := (InfRegs.Stands.dynhdr hst hph).quiet
  by_cases hl : 29 < hlit.toNat
  · refine ⟨{ r.advance n with hlit := hlit, hdist := hdist, hclen := hclen }, .raise .alphabetSize, { hf with },
      fun hok => ⟨by decide, { hok.dataOk_advance hn with }, (hquiet hok).1⟩, ?_⟩
    rintro ⟨⟩ rfl rfl
    exact if_pos hl
  · let q : InfRegs := { r.advance n with
      hlit := hlit, hdist := hdist, hclen := hclen, clLen := Vector.replicate 19 0, sub := .codeLens 0 }
    refine ⟨q, .stay, { hf with }, fun hok => ?_, ?_⟩
    · have hdata : q.DataOk c := { hok.dataOk_advance hn with }
      exact hdata.ok_of_prologue (hquiet hok).1 (hquiet hok).2 hst hph ⟨hst, hph, Nat.succ_pos _⟩
    · rintro ⟨⟩ rfl rfl
      exact if_neg hl

theorem execCllens_effect {k : Nat} (hst : r.iState = .iDynamic) (hph : r.iPhase = false) (hsub : r.sub = .codeLens k)
    (hn : n ≤ r.avail) (len : BitVec 3) : InfEffect c r (r.advance n) (execCllens len) := by
  have hf := r.forward_advance n
  have hquiet : r.Ok c → r.pendLen = 0 ∧ r.errCause = .none := (InfRegs.Stands.cllens hst hph hsub).quiet
  have hsub' : (r.advance n).sub = .codeLens k := hsub
  let q : InfRegs := { r.advance n with clLen := (r.advance n).clLen.setIfInBounds (clOrder k) len }
  by_cases hk : k + 1 < r.nCl
  · refine ⟨{ q with sub := .codeLens (k + 1) }, .stay, { hf with }, fun hok => ?_, ?_⟩
    · have hdata : InfRegs.DataOk c { q with sub := .codeLens (k + 1) } := { hok.dataOk_advance hn with }
      exact hdata.ok_of_prologue (hquiet hok).1 (hquiet hok).2 hst hph ⟨hst, hph, hk⟩
    · rintro ⟨⟩ rfl rfl
      simp only [execCllens, hsub']
      exact if_pos hk
  · have hbuild : ∀ s : State, s.inf = r.advance n → execCllens len s = .next (s.withInf fun _ => q).buildCl := by
      rintro ⟨⟩ rfl
      simp only [execCllens, hsub']
      exact if_neg hk
    cases ht : buildDecodeTree q.clLens with
    | none =>
      refine ⟨q, .raise .codeOversubscribed, { hf with },
        fun hok => ⟨by decide, { hok.dataOk_advance hn with }, (hquiet hok).1⟩, fun s _ hr => ?_⟩
      simp only [hbuild s hr, State.buildCl, State.withInf, ht]
      rfl
    | some t =>
      refine ⟨{ q with treeCl := t, sub := .lengths [] }, .stay, { hf with }, fun hok => ?_, fun s _ hr => ?_⟩
      · have hdata : InfRegs.DataOk c { q with treeCl := t, sub := .lengths [] } := { hok.dataOk_advance hn with }
        exact hdata.ok_of_prologue (hquiet hok).1 (hquiet hok).2 hst hph ⟨hst, hph, Nat.zero_le _⟩
      · simp only [hbuild s hr, State.buildCl, State.withInf, ht]
        rfl

/-- A code-length element that makes the sequence `seq'` (R336). -/
theorem lengths_effect {seq seq' : List (BitVec 4)} (hst : r.iState = .iDynamic) (hph : r.iPhase = false)
    (hsub : r.sub = .lengths seq) (hlt : seq.length < r.nSeq) (hn : n ≤ r.avail) (hle : seq'.length ≤ r.nSeq) :
    InfEffect c r (r.advance n) (fun s => .next (s.withInf fun r => { r with sub := .lengths seq' })) := by
  refine ⟨{ r.advance n with sub := .lengths seq' }, .stay, { r.forward_advance n with }, fun hok => ?_, ?_⟩
  · obtain ⟨hp, hc⟩ := (InfRegs.Stands.clsym (t := .nil) (first := false) hst hph hsub hlt).quiet hok
    have hdata : InfRegs.DataOk c { r.advance n with sub := .lengths seq' } := { hok.dataOk_advance hn with }
    exact hdata.ok_of_prologue hp hc hst hph ⟨hst, hph, hle⟩
  · rintro ⟨⟩ rfl rfl
    rfl

/-- What a function does that agrees with another one on the registers. -/
theorem InfEffect.congr {r' : InfRegs} {f g : State → Result} (h : InfEffect c r r' g)
    (hfg : ∀ s : State, s.cfg = c → s.inf = r' → f s = g s) : InfEffect c r r' f := by
  obtain ⟨q, e, hf, hready, hg⟩ := h
  exact ⟨q, e, hf, hready, fun s hc hr => (hfg s hc hr).trans (hg s hc hr)⟩

theorem appendRun_effect {seq : List (BitVec 4)} (hst : r.iState = .iDynamic) (hph : r.iPhase = false)
    (hsub : r.sub = .lengths seq) (hlt : seq.length < r.nSeq) (hn : n ≤ r.avail) (k : Nat) (v : BitVec 4) :
    InfEffect c r (r.advance n) (fun s => .next (s.appendRun seq k v)) := by
  by_cases hk : r.nSeq < seq.length + k
  · refine (raiseFormat_effect (.clsym (t := .nil) (first := false) hst hph hsub hlt) hn
      (cause := .alphabetSize) (by decide)).congr fun s _ hr => ?_
    rw [State.appendRun, if_pos (by rw [hr]; exact hk)]
  · refine (lengths_effect (seq' := seq ++ List.replicate k v) hst hph hsub hlt hn (by simp; omega)).congr
      fun s _ hr => ?_
    rw [State.appendRun, if_neg (by rw [hr]; exact hk)]

theorem clsym_effect {seq : List (BitVec 4)} (hst : r.iState = .iDynamic) (hph : r.iPhase = false)
    (hsub : r.sub = .lengths seq) (hlt : seq.length < r.nSeq) (hn : n ≤ r.avail) {s x : Nat} {i : Instr}
    (hi : clOf s x = some i) : InfEffect c r (r.advance n) (exec i) := by
  have hseq : ∀ s : State, s.inf = r.advance n → s.inf.seq? = some seq := fun s hr => by
    have hsub' : s.inf.sub = .lengths seq := by rw [hr]; exact hsub
    rw [InfRegs.seq?, hsub']
  obtain ⟨v, rfl⟩ | ⟨y, rfl⟩ | ⟨y, rfl⟩ | ⟨y, rfl⟩ := clOf_cases hi
  · refine (lengths_effect (seq' := seq ++ [v]) hst hph hsub hlt hn (by simpa using hlt)).congr fun s _ hr => ?_
    simp only [exec, execCl, hseq s hr]
  · cases hlast : seq.getLast? with
    | none =>
      refine (raiseFormat_effect (.clsym (t := .nil) (first := false) hst hph hsub hlt) hn
        (cause := .repeatNoPrev) (by decide)).congr fun s _ hr => ?_
      simp only [exec, execCl16, hseq s hr, hlast]
    | some v =>
      refine (appendRun_effect hst hph hsub hlt hn (repeat16 y.toNat) v).congr fun s _ hr => ?_
      simp only [exec, execCl16, hseq s hr, hlast]
  · refine (appendRun_effect hst hph hsub hlt hn (repeat17 y.toNat) 0).congr fun s _ hr => ?_
    simp only [exec, execCl17, hseq s hr]
  · refine (appendRun_effect hst hph hsub hlt hn (repeat18 y.toNat) 0).congr fun s _ hr => ?_
    simp only [exec, execCl18, hseq s hr]

/-! ### the elements of a body -/

/-- A length element carries the extra bits of its symbol (R115). -/
theorem llParts_extra {i : Instr} {p : Nat × Nat × Nat} (h : llParts i = some p) (h₁ : 257 ≤ p.1) :
    p.2.1 = llExtra p.1 ∧ p.2.2 < 2 ^ p.2.1 := by
  cases i
  case lit b => cases h; have := b.isLt; dsimp only at h₁; omega
  case eob | len257 | len258 | len259 | len260 | len261 | len262 | len263 | len264 | len285 | ll286 | ll287 =>
    cases h
    exact ⟨rfl, Nat.one_pos⟩
  all_goals cases h <;> exact ⟨by simp [llExtra, lenExtra, lenExtraTable], BitVec.isLt _⟩

/-- The rows of R338 give the lengths 3 to 258 (R115). -/
theorem matchLength_bounds {i : Instr} {p : Nat × Nat × Nat} (h : llParts i = some p) (h₁ : 257 ≤ p.1)
    (h₂ : p.1 ≤ 285) : 3 ≤ matchLength p.1 p.2.2 ∧ matchLength p.1 p.2.2 ≤ 258 := by
  have hrow : ∀ k < 29, 3 ≤ lenBase k ∧ lenBase k + 2 ^ llExtra (257 + k) ≤ 259 := by decide
  obtain ⟨hw, hv⟩ := llParts_extra h h₁
  obtain ⟨hlo, hhi⟩ := hrow (p.1 - 257) (by omega)
  rw [hw] at hv
  rw [Nat.add_sub_cancel' h₁] at hhi
  rw [matchLength]
  omega

theorem takeLength_effect {t : Trie} (hs : r.Stands (.llsym t)) (hn : n ≤ r.avail) {sym x : Nat} (h₁ : 257 ≤ sym)
    (h₂ : sym ≤ 285) (hlen : 3 ≤ matchLength sym x ∧ matchLength sym x ≤ 258) :
    InfEffect c r (r.advance n) (fun s => .next (s.takeLength sym x)) := by
  cases hs with
  | llsym hb hd hp =>
  refine ⟨{ r.advance n with sub := .distance (BitVec.ofNat 9 sym) (matchLength sym x) }, .stay,
    { r.forward_advance n with }, fun hok => ?_, ?_⟩
  · have hsym : (BitVec.ofNat 9 sym).toNat = sym := Nat.mod_eq_of_lt (by omega)
    have hdata : InfRegs.DataOk c { r.advance n with sub := .distance (BitVec.ofNat 9 sym) (matchLength sym x) } :=
      { hok.dataOk_advance hn with }
    exact hdata.ok_of_body ((InfRegs.Stands.llsym (t := t) hb hd hp).quiet hok).2 hb
      ⟨hb, hp, hsym.symm ▸ h₁, hsym.symm ▸ h₂, hlen⟩
  · rintro ⟨⟩ rfl rfl
    rfl

/-- Where a lit/len element stands nothing is expected inside the transition. -/
theorem InfRegs.Ok.sub_of_llsym (h : r.Ok c) (hb : r.inBody) (hd : ∀ sym len, r.sub ≠ .distance sym len) :
    r.sub = .start := by
  have hsub := h.sub
  obtain ⟨hst, hph⟩ := hb
  unfold InfRegs.subOk at hsub
  cases hc : r.sub <;> simp_all

theorem execLit_effect {t : Trie} (hs : r.Stands (.llsym t)) (hn : n ≤ r.avail) (b : Byte) :
    InfEffect c r (r.advance n) (execLit b) := by
  cases hs with
  | llsym hb hd hp =>
  let q : InfRegs := { r.advance n with pendSym := b.zeroExtend 9, pendLen := 1, pendDist := 0 }
  refine ⟨q, .drain, { r.forward_advance n with }, fun hok => ?_, ?_⟩
  · have hsub : q.sub = .start := hok.sub_of_llsym hb hd
    have hdata : q.DataOk c := { hok.dataOk_advance hn with
      pendLen := (by decide : 1 ≤ 258)
      pendDist := ⟨Nat.zero_le _, Nat.zero_le _⟩ }
    exact ⟨hdata.ok_of_body ((InfRegs.Stands.llsym (t := t) hb hd hp).quiet hok).2 hb (InfRegs.subOk_of_start hsub), hsub⟩
  · rintro ⟨⟩ rfl rfl
    rfl

/-- The end of a block's body (R333, R339). -/
theorem endBody_ok {r : InfRegs} (h : r.DataOk c) (hp : r.pendLen = 0) (hc : r.errCause = .none) : r.endBody.Ok c := by
  have hdata : r.endBody.DataOk c := { h with }
  refine hdata.ok_of_idle hp hc ?_ (fun _ => rfl) (fun _ h => absurd h Bool.false_ne_true) trivial
  simp only [InfRegs.endBody]
  split <;> decide

theorem execEob_effect {t : Trie} (hs : r.Stands (.llsym t)) (hn : n ≤ r.avail) :
    InfEffect c r (r.advance n) execEob := by
  refine ⟨(r.advance n).endBody, .stay, { r.forward_advance n with }, fun hok => ?_, ?_⟩
  · obtain ⟨hp, hc⟩ := hs.quiet hok
    exact endBody_ok (hok.dataOk_advance hn) hp hc
  · rintro ⟨⟩ rfl rfl
    rfl

theorem llsym_effect {t : Trie} (hs : r.Stands (.llsym t)) (hn : n ≤ r.avail) {s x : Nat} {i : Instr}
    (hi : llOf s x = some i) : InfEffect c r (r.advance n) (exec i) := by
  obtain ⟨b, rfl⟩ | rfl | ⟨p, hp, h₁, h₂⟩ | rfl | rfl := llOf_cases hi
  · exact execLit_effect hs hn b
  · exact execEob_effect hs hn
  · exact (takeLength_effect hs hn h₁ h₂ (matchLength_bounds hp h₁ h₂)).congr fun s _ _ => exec_length hp h₁ h₂ s
  · exact raiseFormat_effect hs hn (by decide)
  · exact raiseFormat_effect hs hn (by decide)

theorem takeDistance_effect {t : Trie} (hs : r.Stands (.dsym t)) (hn : n ≤ r.avail) {d : Nat} (hd : d ≤ 32768) :
    InfEffect c r (r.advance n) (fun s => s.takeDistance d) := by
  cases hs with
  | @dsym _ sym len hb hsub =>
  have hsub' : (r.advance n).sub = .distance sym len := hsub
  by_cases htoo : r.totalOut < d
  · refine (raiseFormat_effect (.dsym (t := t) hb hsub) hn (cause := .distTooFar) (by decide)).congr ?_
    rintro ⟨⟩ rfl rfl
    simp only [State.takeDistance, hsub']
    exact if_pos htoo
  · let q : InfRegs := { r.advance n with pendSym := sym, pendLen := len, pendDist := d, sub := .start }
    refine ⟨q, .drain, { r.forward_advance n with }, fun hok => ⟨?_, rfl⟩, ?_⟩
    · have hlen := hok.sub
      rw [InfRegs.subOk, hsub] at hlen
      obtain ⟨-, -, -, -, -, hle⟩ := hlen
      have hdata : q.DataOk c :=
        { hok.dataOk_advance hn with pendLen := hle, pendDist := ⟨hd, Nat.not_lt.1 htoo⟩ }
      exact hdata.ok_of_body ((InfRegs.Stands.dsym (t := t) hb hsub).quiet hok).2 hb trivial
    · rintro ⟨⟩ rfl rfl
      simp only [State.takeDistance, hsub']
      exact if_neg htoo

theorem dsym_effect {t : Trie} (hs : r.Stands (.dsym t)) (hn : n ≤ r.avail) {s y : Nat} {i : Instr}
    (hi : dOf s y = some i) : InfEffect c r (r.advance n) (exec i) := by
  have hres : InfEffect c r (r.advance n) State.takeReservedDistance := by
    refine (raiseFormat_effect hs hn (cause := .symbolInvalid) (by decide)).congr ?_
    cases hs with
    | @dsym _ sym len hb hsub =>
    have hsub' : (r.advance n).sub = .distance sym len := hsub
    rintro ⟨⟩ rfl rfl
    simp only [State.takeReservedDistance, hsub']
  obtain ⟨p, hp, h₁⟩ | rfl | rfl := dOf_cases hi
  · exact (takeDistance_effect hs hn (matchDistance_le hp h₁)).congr fun s _ _ => exec_distance hp h₁ s
  · exact hres
  · exact hres

/-! ### every element, and the transitions that have none -/

/-- The registers an element sees: PAD and RAW move the cursor themselves. -/
def InfRegs.fetched (i : Instr) (n : Nat) (r : InfRegs) : InfRegs := if movesCursor i then r else r.advance n

theorem llOf_movesCursor {s x : Nat} {i : Instr} (h : llOf s x = some i) : movesCursor i = false := by
  unfold llOf at h
  repeat' split at h
  all_goals cases h <;> rfl

theorem dOf_movesCursor {s y : Nat} {i : Instr} (h : dOf s y = some i) : movesCursor i = false := by
  unfold dOf at h
  split at h <;> cases h <;> rfl

theorem clOf_movesCursor {s x : Nat} {i : Instr} (h : clOf s x = some i) : movesCursor i = false := by
  unfold clOf at h
  repeat' split at h
  all_goals cases h <;> rfl

theorem exec_effect {p : Pos} {m : Memory} {i : Instr} (hs : r.Stands p) (hd : decodeAt p (r.restBits m) = .ok i n) :
    InfEffect c r (r.fetched i n) (exec i) := by
  have hn : n ≤ r.avail := by simpa using decodeAt_used.1 hd
  cases hs with
  | zhdr hst =>
    obtain ⟨-, x, rfl⟩ := decodeFixed_ok hd
    exact execZhdr_effect hst hn ..
  | dictid hst =>
    obtain ⟨-, x, rfl⟩ := decodeFixed_ok hd
    exact execDictid_effect hst hn _
  | bhdr hst =>
    obtain ⟨-, x, rfl⟩ := decodeFixed_ok hd
    obtain ⟨f, h | h | h | h⟩ := mkBhdr_cases x <;> rw [h]
    · exact enterBlock_effect hst hn f 0 (by decide)
    · exact enterBlock_effect hst hn f 1 (by decide)
    · exact enterBlock_effect hst hn f 2 (by decide)
    · exact execBhdrReserved_effect hst hn f
  | pad hst hph =>
    obtain ⟨rfl, x, rfl⟩ := decodeFixed_ok hd
    exact execPad_effect hst hph hn
  | shdr hst hph hsub =>
    obtain ⟨rfl, x, rfl⟩ := decodeFixed_ok hd
    exact execShdr_effect hst hph hsub hn ..
  | raw hst hph =>
    simp only [decodeAt] at hd
    split at hd <;> cases hd
    exact execRaw_effect hst hph hn _
  | dynhdr hst hph =>
    obtain ⟨-, x, rfl⟩ := decodeFixed_ok hd
    exact execDynhdr_effect hst hph hn ..
  | cllens hst hph hsub =>
    obtain ⟨-, x, rfl⟩ := decodeFixed_ok hd
    exact execCllens_effect hst hph hsub hn _
  | clsym hst hph hsub hlt =>
    obtain ⟨-, s, x, hi⟩ := decodeSym_used.1 hd
    rw [InfRegs.fetched, clOf_movesCursor hi]
    exact clsym_effect hst hph hsub hlt hn hi
  | @llsym t hb hne hp =>
    obtain ⟨-, s, x, hi⟩ := (decodeSym_used (mk := llOf) (stop := fun _ => none)).1 hd
    rw [InfRegs.fetched, llOf_movesCursor hi]
    exact llsym_effect (t := t) (.llsym hb hne hp) hn hi
  | @dsym t _ _ hb hsub =>
    obtain ⟨-, s, y, hi⟩ := (decodeSym_used (mk := dOf) (stop := fun _ => none)).1 hd
    rw [InfRegs.fetched, dOf_movesCursor hi]
    exact dsym_effect (t := t) (.dsym hb hsub) hn hi

/-- The end of the length sequence (R336, R337). -/
theorem finishLengths_effect (hst : r.iState = .iDynamic) (hph : r.iPhase = false) (seq : List (BitVec 4)) :
    InfEffect c r r (fun s => .next (s.finishLengths seq)) := by
  have hf := InfRegs.Forward.refl r
  have hpend : r.Ok c → r.pendLen = 0 := fun hok => hok.pendLen_eq_zero fun hb => absurd hb.2 (by rw [hph]; decide)
  have hcause : r.Ok c → r.errCause = .none := fun hok => hok.cause.2 (by rw [hst]; decide)
  let q := r.splitLengths seq
  cases hll : buildDecodeTree q.llLens with
  | none =>
    refine ⟨q, .raise .codeOversubscribed, { hf with }, fun hok => ⟨by decide, { hok with }, hpend hok⟩, ?_⟩
    rintro ⟨⟩ rfl rfl
    simp only [State.finishLengths, State.withInf]
    rw [show buildDecodeTree _ = _ from hll]
    rfl
  | some ll =>
    cases hd : buildDecodeTree ({ q with treeLl := ll } : InfRegs).dLens with
    | none =>
      refine ⟨{ q with treeLl := ll }, .raise .codeOversubscribed, { hf with },
        fun hok => ⟨by decide, { hok with }, hpend hok⟩, ?_⟩
      rintro ⟨⟩ rfl rfl
      simp only [State.finishLengths, State.withInf]
      rw [show buildDecodeTree _ = _ from hll]
      simp only
      rw [show buildDecodeTree _ = _ from hd]
      rfl
    | some d =>
      let q' : InfRegs := { q with treeLl := ll, treeD := d, iPhase := true, sub := .start }
      refine ⟨q', .stay, { hf with }, fun hok => ?_, ?_⟩
      · have hdata : q'.DataOk c := { hok with }
        exact hdata.ok_of_body (hcause hok) ⟨.inr hst, rfl⟩ trivial
      · rintro ⟨⟩ rfl rfl
        simp only [State.finishLengths, State.withInf]
        rw [show buildDecodeTree _ = _ from hll]
        simp only
        rw [show buildDecodeTree _ = _ from hd]
        rfl

/-- Registers that stay, and a way to go on that needs no more than they meet. -/
theorem InfEffect.self {r : InfRegs} {f : State → Result} (e : InfEnd) (he : r.Ok c → e.Ready c r)
    (hf : ∀ s : State, s.cfg = c → s.inf = r → f s = .next (e.run s)) : InfEffect c r r f := by
  refine ⟨r, e, .refl r, he, fun s hc hr => (hf s hc hr).trans ?_⟩
  rw [← hr]

/-- In a body no element stands next only while a code is in flight. -/
theorem InfRegs.Ok.sub_of_bodyPos (h : r.Ok c) (hb : r.inBody) (hp : r.bodyPos = none) : r.sub = .start := by
  refine h.sub_of_llsym hb fun sym len hs => ?_
  rw [InfRegs.bodyPos, hs] at hp
  cases hp

/-- The transitions that have no element (R333, R337, R342, R344 to R346). -/
theorem infInternal_effect (hpos : r.pos = none) : InfEffect c r r (fun s => .next s.infInternal) := by
  have hdrain (hb : r.inBody) (hp : r.bodyPos = none) : InfEffect c r r (fun s => .next s.drainCode) :=
    .self .drain (fun hok => ⟨hok, hok.sub_of_bodyPos hb hp⟩) fun _ _ _ => rfl
  have hpend (hb : ¬ r.inBody) (hok : r.Ok c) : r.pendLen = 0 := hok.pendLen_eq_zero hb
  rw [InfRegs.pos] at hpos
  cases hst : r.iState with
  | iInit =>
    rw [hst] at hpos
    simp only [InfRegs.headerPos] at hpos
    split at hpos <;> cases hpos
  | iBlock => rw [hst] at hpos; cases hpos
  | iNocomp =>
    refine ⟨r.endBody, .stay, { InfRegs.Forward.refl r with }, fun hok => ?_, ?_⟩
    · exact endBody_ok hok.dataOk (hpend (by simp [InfRegs.inBody, hst]) hok) (hok.cause.2 (by rw [hst]; decide))
    · rintro s - rfl
      simp only [State.infInternal, hst]
      rfl
  | iFixed =>
    rw [hst] at hpos
    cases hph : r.iPhase with
    | true =>
      refine (hdrain ⟨.inl hst, hph⟩ (by simpa [hph] using hpos)).congr ?_
      rintro s - rfl
      simp only [State.infInternal, hst, hph, if_true]
    | false =>
      refine ⟨{ r with iPhase := true }, .stay, { InfRegs.Forward.refl r with }, fun hok => ?_, ?_⟩
      · have hdata : InfRegs.DataOk c { r with iPhase := true } := { hok with }
        have hsub := hok.sub
        have hstart : r.sub = .start := by
          unfold InfRegs.subOk at hsub
          cases hc : r.sub <;> simp_all [InfRegs.inBody]
        exact hdata.ok_of_body (hok.cause.2 (by rw [hst]; decide)) ⟨.inl hst, rfl⟩ (InfRegs.subOk_of_start hstart)
      · rintro s - rfl
        have heq : s.infInternal = s.withInf fun r => { r with iPhase := true } := by
          simp only [State.infInternal, hst, hph, Bool.false_eq_true, if_false]
        exact congrArg Host.Outcome.next heq
  | iDynamic =>
    rw [hst] at hpos
    cases hph : r.iPhase with
    | true =>
      refine (hdrain ⟨.inr hst, hph⟩ (by simpa [hph] using hpos)).congr ?_
      rintro s - rfl
      simp only [State.infInternal, hst, hph, if_true]
    | false =>
      cases hseq : r.seq? with
      | some seq =>
        refine (finishLengths_effect hst hph seq).congr ?_
        rintro s - rfl
        simp only [State.infInternal, hst, hph, hseq]
        rfl
      | none =>
        refine .self .stay id ?_
        rintro s - rfl
        simp only [State.infInternal, hst, hph, hseq]
        rfl
  | iEnd =>
    refine .self (.answer .ended) id ?_
    rintro s - rfl
    simp only [State.infInternal, hst]
    rfl
  | iError =>
    refine .self (.answer .errorFormat) id ?_
    rintro s - rfl
    simp only [State.infInternal, hst]
    rfl

/-! ### the step -/

theorem step_inf_of_none {s : State} (ht : s.turn = .inf) (hp : s.inf.pos = none) :
    step s = .next s.infInternal := by
  simp only [step, State.nextAction, ht, State.infAction, hp]

theorem step_inf_of_ok {s : State} {p : Pos} {i : Instr} (ht : s.turn = .inf) (hp : s.inf.pos = some p)
    (hd : decodeAt p (s.inf.restBits s.infIn) = .ok i n) : step s = exec i (s.withInf (InfRegs.fetched i n)) := by
  simp only [step, State.nextAction, ht, State.infAction, hp, State.fetchAt, hd]
  cases hm : movesCursor i <;> simp [State.withInf, InfRegs.fetched, hm]

theorem step_inf_of_reject {s : State} {p : Pos} {cause : Cause} (ht : s.turn = .inf) (hp : s.inf.pos = some p)
    (hd : decodeAt p (s.inf.restBits s.infIn) = .reject cause n) :
    step s = .next ((s.withInf fun r => r.advance n).raiseFormat cause) := by
  simp only [step, State.nextAction, ht, State.infAction, hp, State.fetchAt, hd]

/-- A step of the INFLATE engine writes registers and goes on; which ones, and how, depends on the parameters, its
registers and its INPUT alone (R20, R320). -/
theorem step_inf_effect (s : State) :
    ∃ (q : InfRegs) (e : InfEnd), s.inf.Forward q ∧ (s.inf.Ok s.cfg → e.Ready s.cfg q) ∧
      ∀ u : State, u.turn = .inf → u.cfg = s.cfg → u.inf = s.inf → u.infIn = s.infIn →
        step u = .next (e.run { u with inf := q }) := by
  cases hp : s.inf.pos with
  | none =>
    obtain ⟨q, e, hf, hready, he⟩ := infInternal_effect (c := s.cfg) hp
    exact ⟨q, e, hf, hready, fun u hu hc hr _ => (step_inf_of_none hu (hr ▸ hp)).trans (he u hc hr)⟩
  | some p =>
    have hs := InfRegs.stands_of_pos hp
    cases hd : decodeAt p (s.inf.restBits s.infIn) with
    | ok i n =>
      obtain ⟨q, e, hf, hready, he⟩ := exec_effect (c := s.cfg) hs hd
      refine ⟨q, e, hf, hready, fun u hu hc hr hm => ?_⟩
      rw [step_inf_of_ok hu (hr ▸ hp) (hr ▸ hm ▸ hd)]
      exact he (u.withInf _) hc (congrArg (InfRegs.fetched i n) hr)
    | reject cause n =>
      have hn : n ≤ s.inf.avail := by simpa using decodeAt_used.2 hd
      obtain ⟨q, e, hf, hready, he⟩ := raiseFormat_effect (c := s.cfg) hs hn (decodeAt_cause hd)
      refine ⟨q, e, hf, hready, fun u hu hc hr hm => ?_⟩
      rw [step_inf_of_reject hu (hr ▸ hp) (hr ▸ hm ▸ hd)]
      exact he (u.withInf _) hc (congrArg (InfRegs.advance · n) hr)

/-- The same of one step that goes on. -/
theorem step_inf_ends {s t : State} (ht : s.turn = .inf) (h : step s = .next t) :
    ∃ (q : InfRegs) (e : InfEnd), s.inf.Forward q ∧ (s.inf.Ok s.cfg → e.Ready s.cfg q) ∧
      t = e.run { s with inf := q } := by
  obtain ⟨q, e, hf, hready, he⟩ := step_inf_effect s
  rw [he s ht rfl rfl rfl] at h
  exact ⟨q, e, hf, hready, (Host.Outcome.next.inj h).symm⟩

end Sys2Proof.Machine
end

section
/-! PROOFS. What a step leaves on the other side of the interface: the host's commands by engine, and the frame of each
engine's steps. -/

namespace Sys2Proof.Machine

/-! ### the host's commands, as each engine sees them -/

/-- What a step of the host is for the INFLATE engine. -/
inductive HostOnInf (s t : State) : Prop
  /-- a command of the other engine, or none -/
  | kept (turn : t.turn ≠ .inf) (life : t.infLife = s.infLife) (regs : t.inf = s.inf) (out : t.infOut = s.infOut)
      (win : t.win = s.win)
  /-- CREATE, DESTROY -/
  | noSession (turn : t.turn ≠ .inf) (life : t.infLife ≠ .active)
  /-- RESET -/
  | reset (turn : t.turn ≠ .inf) (r : InfRegs) (input len : Nat) (regs : t.inf = r.afterReset input len)
  /-- STEP -/
  | step (before : s.infLife = .active) (after : t.infLife = .active) (name cap : Nat)
      (regs : t.inf = { s.inf with outBase := name, outLim := cap, thisOut := 0 })

/-- What a step of the host is for the DEFLATE engine. -/
inductive HostOnDfl (s t : State) : Prop
  /-- a command of the other engine, or none -/
  | kept (turn : t.turn ≠ .dfl) (life : t.dflLife = s.dflLife) (regs : t.dfl = s.dfl) (input : t.dflIn = s.dflIn)
  /-- CREATE, DESTROY -/
  | noSession (turn : t.turn ≠ .dfl) (life : t.dflLife ≠ .active)
  /-- RESET -/
  | reset (turn : t.turn ≠ .dfl) (r : DefRegs) (input len : Nat) (level : Level)
      (regs : t.dfl = r.afterReset input len level)
  /-- STEP -/
  | step (before : s.dflLife = .active) (after : t.dflLife = .active) (name cap : Nat)
      (regs : t.dfl = { s.dfl with outBase := name, outLim := cap, thisOut := 0 }) (input : t.dflIn = s.dflIn)

structure HostStep (s t : State) : Prop where
  cfg : t.cfg = s.cfg
  inf : HostOnInf s t
  dfl : HostOnDfl s t

section
variable {s t : State} {rest : List Xact}

theorem HostStep.ofInf (ht : s.turn = .host) (hcfg : t.cfg = s.cfg) (hturn : t.turn = s.turn ∨ t.turn = .inf)
    (hlife : t.dflLife = s.dflLife) (hregs : t.dfl = s.dfl) (hinput : t.dflIn = s.dflIn) (h : HostOnInf s t) :
    HostStep s t := by
  refine ⟨hcfg, h, .kept ?_ hlife hregs hinput⟩
  rcases hturn with h | h <;> simp [h, ht]

theorem HostStep.ofDfl (ht : s.turn = .host) (hcfg : t.cfg = s.cfg) (hturn : t.turn = s.turn ∨ t.turn = .dfl)
    (hlife : t.infLife = s.infLife) (hregs : t.inf = s.inf) (hout : t.infOut = s.infOut) (hwin : t.win = s.win)
    (h : HostOnDfl s t) : HostStep s t := by
  refine ⟨hcfg, .kept ?_ hlife hregs hout hwin, h⟩
  rcases hturn with h | h <;> simp [h, ht]

theorem execInfCreate_hostStep {ok : Bool} (ht : s.turn = .host)
    (h : execInfCreate ok { s with cmds := rest } = .next t) : HostStep s t := by
  have hne : s.turn ≠ .inf := by rw [ht]; decide
  unfold execInfCreate at h
  split at h
  case h_1 hl =>
    split at h <;> cases h
    · exact .ofInf ht rfl (.inl rfl) rfl rfl rfl (.noSession hne nofun)
    · exact .ofInf ht rfl (.inl rfl) rfl rfl rfl (.noSession hne (fun h => absurd (hl.symm.trans h) (by decide)))
  all_goals cases h

theorem execInfReset_hostStep {input : Nat} {data : List Byte} (ht : s.turn = .host)
    (h : execInfReset input data { s with cmds := rest } = .next t) : HostStep s t := by
  have hne : s.turn ≠ .inf := by rw [ht]; decide
  unfold execInfReset at h
  split at h
  · cases h
  all_goals
    split at h <;> cases h
    exact .ofInf ht rfl (.inl rfl) rfl rfl rfl (.reset hne _ _ _ rfl)

theorem execInfStep_hostStep {out : Buffer} {cap : Nat} (ht : s.turn = .host)
    (h : execInfStep out cap { s with cmds := rest } = .next t) : HostStep s t := by
  unfold execInfStep at h
  split at h
  case h_3 hl =>
    split at h <;> cases h
    exact .ofInf ht rfl (.inr rfl) rfl rfl rfl (.step hl hl _ _ rfl)
  all_goals cases h

theorem execInfDestroy_hostStep (ht : s.turn = .host) (h : execInfDestroy { s with cmds := rest } = .next t) :
    HostStep s t := by
  have hne : s.turn ≠ .inf := by rw [ht]; decide
  unfold execInfDestroy at h
  split at h <;> cases h <;> exact .ofInf ht rfl (.inl rfl) rfl rfl rfl (.noSession hne nofun)

theorem execDefCreate_hostStep {ok : Bool} (ht : s.turn = .host)
    (h : execDefCreate ok { s with cmds := rest } = .next t) : HostStep s t := by
  have hne : s.turn ≠ .dfl := by rw [ht]; decide
  unfold execDefCreate at h
  split at h
  case h_1 hl =>
    split at h <;> cases h
    · exact .ofDfl ht rfl (.inl rfl) rfl rfl rfl rfl (.noSession hne nofun)
    · exact .ofDfl ht rfl (.inl rfl) rfl rfl rfl rfl
        (.noSession hne (fun h => absurd (hl.symm.trans h) (by decide)))
  all_goals cases h

theorem resetDflWith_hostStep {input : Nat} {data : List Byte} {level : BitVec 2} (ht : s.turn = .host)
    (h : State.resetDflWith input data level { s with cmds := rest } = .next t) : HostStep s t := by
  have hne : s.turn ≠ .dfl := by rw [ht]; decide
  unfold State.resetDflWith at h
  split at h
  · cases h
  · split at h <;> cases h
    exact .ofDfl ht rfl (.inl rfl) rfl rfl rfl rfl (.reset hne _ _ _ _ rfl)

theorem execDefReset_hostStep {input : Nat} {data : List Byte} {level : BitVec 2} (ht : s.turn = .host)
    (h : execDefReset input data level { s with cmds := rest } = .next t) : HostStep s t := by
  unfold execDefReset at h
  split at h
  · cases h
  · exact resetDflWith_hostStep ht h
  · exact resetDflWith_hostStep ht h

theorem execDefStep_hostStep {out : Buffer} {cap : Nat} (ht : s.turn = .host)
    (h : execDefStep out cap { s with cmds := rest } = .next t) : HostStep s t := by
  unfold execDefStep at h
  split at h
  case h_3 hl =>
    split at h <;> cases h
    exact .ofDfl ht rfl (.inr rfl) rfl rfl rfl rfl (.step hl hl _ _ rfl rfl)
  all_goals cases h

theorem execDefDestroy_hostStep (ht : s.turn = .host) (h : execDefDestroy { s with cmds := rest } = .next t) :
    HostStep s t := by
  have hne : s.turn ≠ .dfl := by rw [ht]; decide
  unfold execDefDestroy at h
  split at h <;> cases h <;> exact .ofDfl ht rfl (.inl rfl) rfl rfl rfl rfl (.noSession hne nofun)

/-- What a step of the host is for each engine (R430 to R438). -/
theorem step_hostStep (ht : s.turn = .host) (h : step s = .next t) : HostStep s t := by
  obtain ⟨x, rest, -, he⟩ | ⟨-, rfl⟩ := step_host_cases ht h
  · unfold commandOf at he
    split at he
    · exact execInfCreate_hostStep ht he
    · exact execInfReset_hostStep ht he
    · exact execInfStep_hostStep ht he
    · exact execInfDestroy_hostStep ht he
    · exact execDefCreate_hostStep ht he
    · exact execDefReset_hostStep ht he
    · exact execDefStep_hostStep ht he
    · exact execDefDestroy_hostStep ht he
  · exact ⟨rfl, .kept (by rw [ht]; decide) rfl rfl rfl rfl, .kept (by rw [ht]; decide) rfl rfl rfl⟩

end

/-! ### what the end of an INFLATE step writes -/

/-- What no way to go on writes: the parameters, the other engine, INPUT, the host's side but the response. -/
theorem InfEnd.run_frame (e : InfEnd) (s : State) :
    { e.run s with turn := s.turn, resp := s.resp, inf := s.inf, infOut := s.infOut, win := s.win } = s := by
  cases e with
  | drain => exact (drainLoop_frame ..).1
  | _ => rfl

@[simp] theorem InfEnd.run_cfg (e : InfEnd) (s : State) : (e.run s).cfg = s.cfg := by
  have h := congrArg State.cfg (e.run_frame s)
  exact h
@[simp] theorem InfEnd.run_infLife (e : InfEnd) (s : State) : (e.run s).infLife = s.infLife := by
  have h := congrArg State.infLife (e.run_frame s)
  exact h

/-- The registers no way to go on writes. -/
theorem InfEnd.run_inf_frame (e : InfEnd) (s : State) :
    { (e.run s).inf with
        errCause := s.inf.errCause, iState := s.inf.iState, sub := s.inf.sub, pendLen := s.inf.pendLen,
        winPos := s.inf.winPos, thisOut := s.inf.thisOut, totalOut := s.inf.totalOut,
        lastStatus := s.inf.lastStatus } = s.inf := by
  cases e with
  | drain =>
    exact congrArg (fun r : InfRegs => { r with errCause := s.inf.errCause, iState := s.inf.iState, sub := s.inf.sub })
      (drainLoop_frame s.inf.pendLen s).2
  | _ => rfl

@[simp] theorem InfEnd.run_brLen (e : InfEnd) (s : State) : (e.run s).inf.brLen = s.inf.brLen := by
  have h := congrArg InfRegs.brLen (e.run_inf_frame s)
  exact h
@[simp] theorem InfEnd.run_bitpos (e : InfEnd) (s : State) : (e.run s).inf.bitpos = s.inf.bitpos := by
  have h := congrArg InfRegs.bitpos (e.run_inf_frame s)
  exact h

/-- The engine keeps its move or the host has it. -/
theorem InfEnd.run_turn (e : InfEnd) (s : State) : (e.run s).turn = s.turn ∨ (e.run s).turn = .host := by
  cases e with
  | stay => exact .inl rfl
  | raise c => exact .inr rfl
  | answer st => exact .inr rfl
  | store b => exact .inl rfl
  | drain =>
    obtain h | ⟨n, t, -, -, h⟩ := drainLoop_induct (P := fun _ t => t.turn = s.turn) (fun _ _ _ h => h)
      (n := s.inf.pendLen) (s := s) rfl
    · exact .inl h
    · exact .inr (congrArg State.turn h)

/-! ### an INFLATE step beside another context -/

/-- `o` with what `s` holds of the INFLATE engine's registers, OUTPUT, window and answer. -/
def State.graftInf (o s : State) : State :=
  { o with
    turn := s.turn
    resp := if s.turn = .host then s.resp else o.resp
    inf := s.inf
    infOut := s.infOut
    win := s.win }

section
variable {o s : State}

theorem graftInf_of_agree {s₁ s₂ : State} (h₁ : s₁.turn = .inf) (h₂ : s₂.turn = .inf) (hr : s₁.inf = s₂.inf)
    (ho : s₁.infOut = s₂.infOut) (hw : s₁.win = s₂.win) : s₂.graftInf s₁ = s₂ := by
  rw [State.graftInf, h₁, hr, ho, hw, ← h₂]
  rw [if_neg (by rw [h₂]; decide)]

theorem emitByte_graftInf (hc : o.cfg = s.cfg) (b : Byte) : (o.graftInf s).emitByte b = o.graftInf (s.emitByte b) := by
  cases o
  cases s
  cases hc
  rfl

theorem emitPend_graftInf (hc : o.cfg = s.cfg) (n : Nat) : (o.graftInf s).emitPend n = o.graftInf (s.emitPend n) := by
  cases o
  cases s
  cases hc
  rfl

theorem answerInf_graftInf (hc : o.cfg = s.cfg) (st : Status) :
    (o.graftInf s).answerInf st = o.graftInf (s.answerInf st) := by
  cases o
  cases s
  cases hc
  rfl

theorem drainLoop_graftInf (hc : o.cfg = s.cfg) (n : Nat) :
    drainLoop n (o.graftInf s) = o.graftInf (drainLoop n s) := by
  induction n generalizing s with
  | zero => rfl
  | succ n ih =>
    have hinf : (o.graftInf s).inf = s.inf := rfl
    rw [drainLoop, drainLoop, hinf]
    by_cases hf : s.inf.thisOut = s.inf.outLim
    · rw [if_pos hf, if_pos hf]
      exact answerInf_graftInf hc .pending
    · rw [if_neg hf, if_neg hf, emitPend_graftInf hc]
      exact ih (s := s.emitPend n) hc

/-- A way to go on does the same beside any other context. -/
theorem InfEnd.run_graftInf (e : InfEnd) (hc : o.cfg = s.cfg) : e.run (o.graftInf s) = o.graftInf (e.run s) := by
  cases e with
  | stay => rfl
  | raise c =>
    exact answerInf_graftInf (s := { s with inf := { s.inf with errCause := c, iState := .iError, sub := .start } }) hc _
  | drain => exact drainLoop_graftInf hc _
  | answer st => exact answerInf_graftInf hc st
  | store b => exact emitByte_graftInf hc b

theorem step_inf_graftInf {t : State} (ht : s.turn = .inf) (hc : o.cfg = s.cfg) (hi : o.infIn = s.infIn)
    (h : step s = .next t) : step (o.graftInf s) = .next (o.graftInf t) := by
  obtain ⟨q, e, -, -, he⟩ := step_inf_effect s
  have hrun : t = e.run { s with inf := q } := Host.Outcome.next.inj (h.symm.trans (he s ht rfl rfl rfl))
  rw [he (o.graftInf s) ht hc rfl hi, hrun]
  exact congrArg _ (e.run_graftInf (s := { s with inf := q }) hc)

/-- A step of the INFLATE engine leaves everything but its registers, OUTPUT, the window and the answer. -/
theorem step_inf_frame {t : State} (ht : s.turn = .inf) (h : step s = .next t) : s.graftInf t = t := by
  have h' := step_inf_graftInf (o := s) ht rfl rfl h
  rw [graftInf_of_agree ht ht rfl rfl rfl, h] at h'
  exact (Host.Outcome.next.inj h').symm

end

/-! ### a DEFLATE step beside another context -/

/-- `o` with what `s` holds of the DEFLATE engine, of OUTPUT and of the answer. -/
def State.graftDfl (o s : State) : State :=
  { o with
    turn := s.turn
    resp := if s.turn = .host then s.resp else o.resp
    dfl := s.dfl
    dflOut := s.dflOut }

@[simp] theorem graftDfl_dfl (o s : State) : (o.graftDfl s).dfl = s.dfl := rfl
@[simp] theorem graftDfl_turn (o s : State) : (o.graftDfl s).turn = s.turn := rfl

section
variable {o s : State}

theorem graftDfl_of_agree {s₁ s₂ : State} (h₁ : s₁.turn = .dfl) (h₂ : s₂.turn = .dfl) (hd : s₁.dfl = s₂.dfl)
    (ho : s₁.dflOut = s₂.dflOut) : s₂.graftDfl s₁ = s₂ := by
  rw [State.graftDfl, h₁, hd, ho, ← h₂]
  rw [if_neg (by rw [h₂]; decide)]

theorem drainBytes_graftDfl (k : Nat) : drainBytes k (o.graftDfl s) = o.graftDfl (drainBytes k s) := by
  induction k generalizing s with
  | zero => rfl
  | succ k ih =>
    by_cases hc : 8 ≤ s.dfl.bitqCnt ∧ s.dfl.thisOut < s.dfl.outLim
    · rw [drainBytes, drainBytes, graftDfl_dfl, if_pos hc, if_pos hc]
      exact ih (s := s.drainByte)
    · rw [drainBytes, drainBytes, graftDfl_dfl, if_neg hc, if_neg hc]

theorem drain_graftDfl : (o.graftDfl s).drain = o.graftDfl s.drain := drainBytes_graftDfl _

theorem answerDfl_graftDfl (hc : o.cfg = s.cfg) (st : Status) :
    (o.graftDfl s).answerDfl st = o.graftDfl (s.answerDfl st) := by
  simp [State.graftDfl, State.answerDfl, hc]

theorem drain_cfg (s : State) : s.drain.cfg = s.cfg := by
  have h := congrArg State.cfg s.drain_frame.1
  exact h

theorem drain_turn (s : State) : s.drain.turn = s.turn := by
  have h := congrArg State.turn s.drain_frame.1
  exact h

theorem emitItems_graftDfl (hc : o.cfg = s.cfg) (fin : DefRegs → DefRegs) (l : List Item) :
    emitItems fin l (o.graftDfl s) = o.graftDfl (emitItems fin l s) := by
  induction l generalizing s with
  | nil => rfl
  | cons i l ih =>
    have hcd : o.cfg = s.drain.cfg := hc.trans (drain_cfg s).symm
    simp only [emitItems, drain_graftDfl, graftDfl_dfl]
    by_cases hw : s.drain.dfl.writerReady = true
    · rw [if_pos hw, if_pos hw]
      exact ih (s := s.drain.performItem i) hcd
    · rw [if_neg hw, if_neg hw]
      exact answerDfl_graftDfl hcd .pending

theorem emitList_graftDfl (hc : o.cfg = s.cfg) (l : List Item) (fin : DefRegs → DefRegs) :
    (o.graftDfl s).emitList l fin = o.graftDfl (s.emitList l fin) := emitItems_graftDfl hc fin _

/-- D_BLOCK at level 0 (R382, R383). -/
theorem passBlock_of_stored (h : s.dfl.level = .noCompression) :
    s.passBlock = { s with dfl := { s.dfl.formStored s.dflIn with dState := .dNocomp } } := by
  rw [State.passBlock, h]

/-- D_BLOCK at the other levels (R382). -/
theorem passBlock_of_coded (h : s.dfl.level ≠ .noCompression) :
    s.passBlock = { s with dfl := { s.dfl with dState := .dLzss } } := by
  unfold State.passBlock
  split
  · contradiction
  · rfl
  · rfl

theorem passBlock_graftDfl (hm : o.dflIn = s.dflIn) : (o.graftDfl s).passBlock = o.graftDfl s.passBlock := by
  by_cases hl : s.dfl.level = .noCompression
  · rw [passBlock_of_stored hl, passBlock_of_stored (s := o.graftDfl s) hl]
    exact congrArg (fun m => { o.graftDfl s with dfl := { s.dfl.formStored m with dState := .dNocomp } }) hm
  · rw [passBlock_of_coded hl, passBlock_of_coded (s := o.graftDfl s) hl]
    rfl

theorem passLzss_graftDfl (hc : o.cfg = s.cfg) (hm : o.dflIn = s.dflIn) :
    (o.graftDfl s).passLzss = o.graftDfl s.passLzss :=
  congrArg₂ (fun c m => { o.graftDfl s with dfl := (s.dfl.runPass c m).afterPass }) hc hm

theorem step_dfl_graftDfl {t : State} (ht : s.turn = .dfl) (hc : o.cfg = s.cfg) (hm : o.dflIn = s.dflIn)
    (h : step s = .next t) : step (o.graftDfl s) = .next (o.graftDfl t) := by
  have hm' : (o.graftDfl s).dflIn = s.dflIn := hm
  obtain ⟨hst, rfl⟩ | ⟨hst, rfl⟩ | ⟨hst, hin, rfl⟩ | ⟨hst, rfl⟩ | ⟨hst, rfl⟩ | ⟨hst, rfl⟩ | ⟨hst, rfl⟩ | ⟨hst, rfl⟩ :=
    step_dfl_cases ht h <;>
    simp only [step, State.nextAction, graftDfl_turn, ht, State.dflAction, graftDfl_dfl, hst]
  · exact congrArg _ (emitList_graftDfl hc _ _)
  · exact congrArg _ (passBlock_graftDfl hm)
  · rw [State.passNocomp, graftDfl_dfl, hm', if_neg (Nat.not_lt.2 hin)]
    exact congrArg _ (emitList_graftDfl hc _ _)
  · exact congrArg _ (passLzss_graftDfl hc hm)
  · exact congrArg _ (emitList_graftDfl hc _ _)
  · exact congrArg _ (emitList_graftDfl hc _ _)
  · exact congrArg _ (emitList_graftDfl hc _ _)
  · exact congrArg _ (answerDfl_graftDfl hc _)

/-- A step of the DEFLATE engine leaves everything but its registers, OUTPUT and the answer. -/
theorem step_dfl_frame {t : State} (ht : s.turn = .dfl) (h : step s = .next t) : s.graftDfl t = t := by
  have h' := step_dfl_graftDfl (o := s) ht rfl rfl h
  rw [graftDfl_of_agree ht ht rfl rfl, h] at h'
  exact (Host.Outcome.next.inj h').symm

theorem emitList_turn (s : State) (l : List Item) (fin : DefRegs → DefRegs) :
    (s.emitList l fin).turn = s.turn ∨ (s.emitList l fin).turn = .host := by
  obtain ⟨t, ht, h⟩ | ⟨i, l', t, -, -, -, h⟩ := emitItems_induct (fin := fin) (P := fun _ t => t.turn = s.turn)
    (fun _ t h => (drain_turn t).trans h) (fun _ _ _ _ h => h)
    (l := l.drop s.dfl.emitIdx) (s := s) rfl
  · exact .inl ((congrArg State.turn h).trans ht)
  · exact .inr (congrArg State.turn h)

/-- The engine keeps its move or the host has it. -/
theorem step_dfl_turn {t : State} (ht : s.turn = .dfl) (h : step s = .next t) : t.turn = .dfl ∨ t.turn = .host := by
  rw [← ht]
  obtain ⟨-, rfl⟩ | ⟨-, rfl⟩ | ⟨-, -, rfl⟩ | ⟨-, rfl⟩ | ⟨-, rfl⟩ | ⟨-, rfl⟩ | ⟨-, rfl⟩ | ⟨-, rfl⟩ := step_dfl_cases ht h
  case inr.inl =>
    left
    unfold State.passBlock
    split <;> rfl
  case inr.inr.inr.inl => exact .inl rfl
  case inr.inr.inr.inr.inr.inr.inr => exact .inr rfl
  all_goals exact emitList_turn ..

end

end Sys2Proof.Machine
end

section
/-! PROOFS. The invariants of the INFLATE engine: its registers (R22 to R32, R50) and the window as the mirror of the
output (R29, R343). -/

namespace Sys2Proof.Machine

/-! ### the registers -/

/-- `emitByte` where the output has room (R343). -/
theorem emitByte_ok {s : State} (h : s.inf.Ok s.cfg) (hr : s.inf.thisOut < s.inf.outLim) (b : Byte) :
    (s.emitByte b).inf.Ok s.cfg :=
  { h with
    room := hr
    counted := Nat.succ_le_succ h.counted
    winPos := by
      show (s.inf.winPos + 1) % s.cfg.winCap = (s.inf.totalOut + 1) % s.cfg.winCap
      rw [h.winPos, Nat.mod_add_mod]
    pendDist := ⟨h.pendDist.1, h.pendDist.2.trans (Nat.le_succ _)⟩
    sub := h.sub }

/-- One pass of R342's loop. -/
theorem emitPend_ok {s : State} {n : Nat} (h : s.inf.Ok s.cfg) (hsub : s.inf.sub = .start)
    (hr : s.inf.thisOut < s.inf.outLim) (hp : s.inf.pendLen = n + 1) : (s.emitPend n).inf.Ok s.cfg := by
  have he := emitByte_ok h hr s.pendByte
  have hle : n ≤ 258 := by
    have := h.pendLen
    omega
  have hb : s.inf.inBody := h.inFlight (by rw [hp]; exact Nat.succ_ne_zero n)
  exact { he with pendLen := hle, inFlight := fun _ => hb, sub := InfRegs.subOk_of_start hsub }

theorem answerInf_ok {s : State} {c : Config} (h : s.inf.Ok c) (st : Status) : (s.answerInf st).inf.Ok c :=
  { h with sub := h.sub }

theorem drainCode_ok {s : State} (h : s.inf.Ok s.cfg) (hsub : s.inf.sub = .start) : s.drainCode.inf.Ok s.cfg := by
  have hpass : ∀ n (t : State), t.inf.thisOut ≠ t.inf.outLim →
      (t.cfg = s.cfg ∧ t.inf.Ok s.cfg ∧ t.inf.sub = .start ∧ t.inf.pendLen = n + 1) →
      (t.emitPend n).cfg = s.cfg ∧ (t.emitPend n).inf.Ok s.cfg ∧ (t.emitPend n).inf.sub = .start ∧
        (t.emitPend n).inf.pendLen = n := by
    rintro n t hne ⟨hc, hok, hs, hp⟩
    have hr := Nat.lt_of_le_of_ne hok.room hne
    rw [← hc] at hok ⊢
    exact ⟨rfl, emitPend_ok hok hs hr hp, hs, rfl⟩
  obtain ⟨-, hok, -⟩ | ⟨n, t, ⟨-, hok, -⟩, -, ht⟩ := drainLoop_induct
    (P := fun n t => t.cfg = s.cfg ∧ t.inf.Ok s.cfg ∧ t.inf.sub = .start ∧ t.inf.pendLen = n) hpass
    (n := s.inf.pendLen) (s := s) ⟨rfl, h, hsub, rfl⟩
  · exact hok
  · rw [State.drainCode, ht]
    exact answerInf_ok hok .pending

/-- Every way to go on leaves the registers in order, from registers it is ready for. -/
theorem InfEnd.run_ok {e : InfEnd} {s : State} (h : e.Ready s.cfg s.inf) : (e.run s).inf.Ok s.cfg := by
  cases e with
  | stay => exact h
  | raise cause =>
    obtain ⟨hc, hdata, hp⟩ := h
    exact { hdata with
      cause := iff_of_false hc fun hne => hne rfl
      inFlight := fun hne => absurd hp hne
      phase := nofun
      aligned := nofun
      sub := trivial }
  | drain => exact drainCode_ok h.1 h.2
  | answer st => exact answerInf_ok h st
  | store b => exact emitByte_ok h.1 h.2 b

theorem InfRegs.afterReset_ok (c : Config) (r : InfRegs) (input len : Nat) : (r.afterReset input len).Ok c where
  cursor := ⟨Nat.zero_le _, fun _ => rfl⟩
  room := Nat.le_refl _
  counted := Nat.le_refl _
  winPos := (Nat.zero_mod _).symm
  pendLen := Nat.zero_le _
  pendDist := ⟨Nat.zero_le _, Nat.zero_le _⟩
  storedRem := Nat.zero_le _
  cause := iff_of_true rfl nofun
  inFlight := fun h => absurd rfl h
  phase := fun _ => rfl
  aligned := nofun
  sub := trivial

theorem step_host_infOk {s t : State} (ht : s.turn = .host) (hs : s.infOk) (h : step s = .next t) : t.infOk := by
  obtain ⟨-, hok⟩ := hs
  obtain ⟨hcfg, hinf, -⟩ := step_hostStep ht h
  cases hinf with
  | kept turn life regs out win =>
    rw [State.infOk, life, regs, hcfg]
    exact ⟨fun h => absurd h turn, hok⟩
  | noSession turn life => exact ⟨fun h => absurd h turn, fun h => absurd h life⟩
  | reset turn r input len regs => exact ⟨fun h => absurd h turn, fun _ => regs ▸ r.afterReset_ok ..⟩
  | step before after name cap regs =>
    refine ⟨fun _ => after, fun _ => ?_⟩
    rw [regs, hcfg]
    exact { hok before with room := Nat.zero_le _, counted := Nat.zero_le _, sub := (hok before).sub }

/-- A step of the INFLATE engine in a session. -/
theorem step_inf_infOk {s t : State} (ht : s.turn = .inf) (hs : s.infOk) (h : step s = .next t) : t.infOk := by
  obtain ⟨hact, hok⟩ := hs
  obtain ⟨q, e, -, hready, rfl⟩ := step_inf_ends ht h
  have hlife := hact ht
  rw [State.infOk, InfEnd.run_infLife, InfEnd.run_cfg]
  exact ⟨fun _ => hlife, fun _ => InfEnd.run_ok (hready (hok hlife))⟩

/-- What a step of the DEFLATE engine leaves of the INFLATE engine's side. -/
theorem step_dfl_inf {s t : State} (ht : s.turn = .dfl) (h : step s = .next t) :
    t.turn ≠ .inf ∧ t.cfg = s.cfg ∧ t.infLife = s.infLife ∧ t.inf = s.inf ∧ t.infOut = s.infOut ∧ t.win = s.win := by
  refine ⟨?_, ?_⟩
  · rcases step_dfl_turn ht h with h | h <;> rw [h] <;> decide
  · rw [← step_dfl_frame ht h]
    exact ⟨rfl, rfl, rfl, rfl, rfl⟩

/-! ### the window (R29, R343) -/

/-- What `emitByte` needs to keep the window the mirror of the output, with the mirror itself. -/
structure State.MirrorOk (s : State) : Prop where
  out : s.infOut.wf = true
  win : s.win.wf = true
  counted : s.inf.thisOut ≤ s.inf.totalOut
  winPos : s.inf.winPos = s.inf.totalOut % s.cfg.winCap
  mirror : ∀ k, k < s.inf.thisOut → k < s.cfg.winCap →
    s.infOut.read (s.inf.thisOut - 1 - k) = s.win.read ((s.inf.totalOut - 1 - k) % s.cfg.winCap)

/-- Two counts less than a window apart have different window positions. -/
theorem sub_mod_ne {a k c : Nat} (hk : 0 < k) (hc : k < c) (ha : k ≤ a) : (a - k) % c ≠ a % c := by
  intro h
  have hd : c ∣ a - (a - k) := (Nat.modEq_iff_dvd' (Nat.sub_le a k)).1 h
  rw [Nat.sub_sub_self ha] at hd
  exact absurd (Nat.le_of_dvd hk hd) (by omega)

/-- The byte stored goes to both ends of the mirror. -/
theorem emitByte_mirrorOk {s : State} (h : s.MirrorOk) (b : Byte) : (s.emitByte b).MirrorOk := by
  refine ⟨Memory.wf_write h.out _ _, Memory.wf_write h.win _ _, Nat.succ_le_succ h.counted, ?_, fun k hk hc => ?_⟩
  · show (s.inf.winPos + 1) % s.cfg.winCap = (s.inf.totalOut + 1) % s.cfg.winCap
    rw [h.winPos, Nat.mod_add_mod]
  · simp only [State.emitByte_inf, State.emitByte_cfg, State.emitByte_infOut, State.emitByte_win,
      Nat.add_sub_cancel, Memory.read_write h.out, Memory.read_write h.win, h.winPos] at hk hc ⊢
    cases k with
    | zero => simp
    | succ k =>
      have hcount := h.counted
      rw [if_neg (by omega), if_neg (sub_mod_ne (Nat.succ_pos k) hc (by omega))]
      have hm := h.mirror k (by omega) (by omega)
      rwa [Nat.sub_right_comm, Nat.sub_sub, Nat.sub_right_comm, Nat.sub_sub] at hm

theorem InfEnd.run_mirrorOk {s : State} (e : InfEnd) (h : s.MirrorOk) : (e.run s).MirrorOk := by
  cases e with
  | stay => exact h
  | raise cause => exact { h with }
  | answer st => exact { h with }
  | store b => exact emitByte_mirrorOk h b
  | drain =>
    obtain h' | ⟨n, t, h', -, ht⟩ := drainLoop_induct (P := fun _ t => t.MirrorOk)
      (fun n t _ h => { emitByte_mirrorOk h t.pendByte with }) (n := s.inf.pendLen) h
    · exact h'
    · rw [InfEnd.run, State.drainCode, ht]
      exact { h' with }

theorem step_host_winOk {s t : State} (ht : s.turn = .host) (hs : s.winOk) (h : step s = .next t) : t.winOk := by
  obtain ⟨hcfg, hinf, -⟩ := step_hostStep ht h
  cases hinf with
  | kept turn life regs out win => rwa [State.winOk, life, regs, out, win, hcfg]
  | noSession turn life => exact fun h => absurd h life
  | reset turn r input len regs =>
    have h0 : t.inf.thisOut = 0 := congrArg InfRegs.thisOut regs
    exact fun _ k hk => absurd (h0 ▸ hk) (Nat.not_lt_zero k)
  | step before after name cap regs =>
    have h0 : t.inf.thisOut = 0 := congrArg InfRegs.thisOut regs
    exact fun _ k hk => absurd (h0 ▸ hk) (Nat.not_lt_zero k)

theorem step_inf_winOk {s t : State} (ht : s.turn = .inf) (hm : s.memOk) (hi : s.infOk) (hs : s.winOk)
    (h : step s = .next t) : t.winOk := by
  obtain ⟨-, hout, hwin, -, -⟩ := hm
  have hlife := hi.1 ht
  have hok := hi.2 hlife
  obtain ⟨q, e, hf, -, rfl⟩ := step_inf_ends ht h
  have hmirror : State.MirrorOk { s with inf := q } := by
    refine ⟨hout, hwin, ?_, ?_, ?_⟩ <;> dsimp only <;> simp only [hf.thisOut, hf.totalOut, hf.winPos]
    · exact hok.counted
    · exact hok.winPos
    · exact hs hlife
  exact fun _ => (InfEnd.run_mirrorOk e hmirror).mirror

end Sys2Proof.Machine

open Sys2Proof.Machine

/-- Settles O54, agent by agent: a command starts a session or a STEP with registers in order, every way an INFLATE
step goes on leaves them so, and a DEFLATE step leaves them alone. -/
theorem inflateStaysInOrder : Obligations.InflateStaysInOrder := by
  intro s t hs h
  cases ht : s.turn with
  | host => exact step_host_infOk ht hs h
  | inf => exact step_inf_infOk ht hs h
  | dfl =>
    obtain ⟨hturn, hcfg, hlife, hregs, -⟩ := step_dfl_inf ht h
    rw [State.infOk, hlife, hregs, hcfg]
    exact ⟨fun h => absurd h hturn, hs.2⟩

/-- Settles O55: a session and a STEP begin with no byte stored, and each byte an INFLATE step stores goes to the end
of OUTPUT and to the window's position of TOTAL_OUT. -/
theorem windowMirrorsOutput : Obligations.WindowMirrorsOutput := by
  intro s t _ hm hi hs h
  cases ht : s.turn with
  | host => exact step_host_winOk ht hs h
  | inf => exact step_inf_winOk ht hm hi hs h
  | dfl =>
    obtain ⟨-, hcfg, hlife, hregs, hout, hwin⟩ := step_dfl_inf ht h
    rwa [State.winOk, hcfg, hlife, hregs, hout, hwin]

/-- Settles O29: an INFLATE step fetches forward and no way to go on writes the cursor; that it stays in INPUT is the
cursor's invariant. -/
theorem cursorNeverMovesBack : Obligations.CursorNeverMovesBack := by
  intro s t ht h
  obtain ⟨q, e, hf, -, hrun⟩ := step_inf_ends ht h
  have hpos : t.inf.bitpos = q.bitpos := by rw [hrun, InfEnd.run_bitpos]
  have hlen : t.inf.brLen = q.brLen := by rw [hrun, InfEnd.run_brLen]
  refine ⟨hpos ▸ hf.bitpos, hlen.trans hf.brLen, fun hs => ?_⟩
  have hlife : t.infLife = .active := by rw [hrun, InfEnd.run_infLife]; exact hs.1 ht
  exact t.inf.cursorOk_iff.1 ((step_inf_infOk ht hs h).2 hlife).cursor

namespace Sys2Proof.Machine

/-- The DEFLATE engine faults in D_NOCOMP only, where the block passes the end of INPUT (log 24). -/
theorem step_dfl_fault_iff {s : State} {f : Fault} (ht : s.turn = .dfl) :
    step s = .fault f ↔ s.dfl.dState = .dNocomp ∧ s.dfl.inEnd < s.dfl.blkStart + s.dfl.blkLen := by
  simp only [step, State.nextAction, ht, State.dflAction]
  cases hd : s.dfl.dState <;> simp [exec, execTrailer, State.passNocomp]

end Sys2Proof.Machine

/-- Settles O32. An INFLATE step is registers and a way to go on, both given by its own context; a DEFLATE step goes
on in the same way with any other context around its own. -/
theorem enginesShareNothing : Obligations.EnginesShareNothing := by
  refine ⟨fun s t ht h => ?_, fun s t ht h => ?_, fun s₁ s₂ t₁ h₁ h₂ hc hr hi ho hw h => ?_,
    fun s₁ s₂ h₁ h₂ hc hr hi ho => ⟨fun t₁ h => ?_, fun f h => ?_⟩⟩
  · rw [← step_inf_frame ht h]
    exact ⟨rfl, rfl, rfl, rfl, rfl, rfl, rfl, rfl⟩
  · rw [← step_dfl_frame ht h]
    exact ⟨rfl, rfl, rfl, rfl, rfl, rfl, rfl, rfl, rfl⟩
  · have hstep := step_inf_graftInf (o := s₂) h₁ hc.symm hi.symm h
    rw [graftInf_of_agree h₁ h₂ hr ho hw] at hstep
    have hin : t₁.infIn = s₁.infIn := by rw [← step_inf_frame h₁ h]; rfl
    exact ⟨s₂.graftInf t₁, hstep, rfl, hin.trans hi, rfl, rfl, rfl, fun hh => (if_pos hh).symm⟩
  · have hstep := step_dfl_graftDfl (o := s₂) h₁ hc.symm hi.symm h
    rw [graftDfl_of_agree h₁ h₂ hr ho] at hstep
    have hin : t₁.dflIn = s₁.dflIn := by rw [← step_dfl_frame h₁ h]; rfl
    exact ⟨s₂.graftDfl t₁, hstep, rfl, hin.trans hi, rfl, rfl, fun hh => (if_pos hh).symm⟩
  · rw [step_dfl_fault_iff h₁] at h
    rwa [step_dfl_fault_iff h₂, ← hr]

end

section
/-! PROOFS. The invariants of the DEFLATE engine's writer (R36, R50, R154, R398): each item of an emission list keeps
them, and the trailer ends with an empty queue. -/

namespace Sys2Proof.Machine

/-! ### the queue -/

/-- The invariants of `DefRegs.WriterOk` that hold in every state of the engine. -/
structure DefRegs.QueueOk (r : DefRegs) : Prop where
  count : r.bitqCnt ≤ 23
  clean : r.bitq.toNat < 2 ^ r.bitqCnt
  room : r.thisOut ≤ r.outLim
  counted : r.thisOut ≤ r.totalOut

theorem DefRegs.WriterOk.queueOk {r : DefRegs} (h : r.WriterOk) : r.QueueOk := { h with }

/-- One pass of `drain()`'s loop (R150). -/
theorem drainByte_queueOk {s : State} (h8 : 8 ≤ s.dfl.bitqCnt) (hr : s.dfl.thisOut < s.dfl.outLim)
    (h : s.dfl.QueueOk) : s.drainByte.dfl.QueueOk where
  count := (Nat.sub_le _ 8).trans h.count
  clean := by
    have hq := h.clean
    simp only [State.drainByte_dfl, BitVec.toNat_ushiftRight, Nat.shiftRight_eq_div_pow]
    rw [Nat.div_lt_iff_lt_mul (Nat.two_pow_pos 8), ← Nat.pow_add, Nat.sub_add_cancel h8]
    exact hq
  room := hr
  counted := Nat.succ_le_succ h.counted

/-- Bits written above the queue's (R151). -/
theorem writeBitsLE_queueOk {r : DefRegs} {n : Nat} (h : r.QueueOk) (hn : r.bitqCnt + n ≤ 23) (v : Nat) :
    (r.writeBitsLE n v).QueueOk := by
  have hclean : (r.bitq ||| (BitVec.ofNat 23 (v % 2 ^ n) <<< r.bitqCnt)).toNat < 2 ^ (r.bitqCnt + n) := by
    rw [BitVec.toNat_or]
    refine Nat.or_lt_two_pow (h.clean.trans_le (Nat.pow_le_pow_right (by decide) (Nat.le_add_right ..))) ?_
    rw [BitVec.toNat_shiftLeft, BitVec.toNat_ofNat, Nat.shiftLeft_eq]
    calc _ ≤ (v % 2 ^ n) % 2 ^ 23 * 2 ^ r.bitqCnt := Nat.mod_le ..
      _ ≤ v % 2 ^ n * 2 ^ r.bitqCnt := Nat.mul_le_mul_right _ (Nat.mod_le ..)
      _ < 2 ^ n * 2 ^ r.bitqCnt := Nat.mul_lt_mul_of_pos_right (Nat.mod_lt _ (Nat.two_pow_pos n)) (Nat.two_pow_pos _)
      _ = 2 ^ (r.bitqCnt + n) := by rw [Nat.pow_add, Nat.mul_comm]
  exact { h with count := hn, clean := hclean }

/-- Performing an item of at most 16 bits where the writer is ready (R390). -/
theorem performItem_queueOk {s : State} {i : Item} (hw : s.dfl.writerReady = true) (hi : i.width ≤ 16)
    (h : s.dfl.QueueOk) : (s.performItem i).dfl.QueueOk := by
  have hcnt : s.dfl.bitqCnt < 8 := of_decide_eq_true hw
  have hperform : (s.dfl.perform i).QueueOk := by
    cases i with
    | le n v => exact writeBitsLE_queueOk h (by simp only [Item.width] at hi; omega) v
    | be n v => exact writeBitsLE_queueOk h (by simp only [Item.width] at hi; omega) _
    | flush =>
      simp only [DefRegs.perform, DefRegs.flush]
      split
      · exact h
      · have hclean : s.dfl.bitq.toNat < 2 ^ 8 := h.clean.trans_le (Nat.pow_le_pow_right (by decide) hcnt.le)
        exact { h with count := (by decide : 8 ≤ 23), clean := hclean }
  exact { hperform with }

/-- What holds of the queue while a list is emitted from `s`. -/
structure Writing (s : State) (l : List Item) (t : State) : Prop where
  queue : t.dfl.QueueOk
  same : s.dfl.SameButWriter t.dfl
  items : ∀ i ∈ l, i.width ≤ 16

theorem Writing.drain {s t : State} {l : List Item} (h : Writing s l t) : Writing s l t.drain :=
  State.drain_induct (P := Writing s l) (fun _ h8 hr h => ⟨drainByte_queueOk h8 hr h.queue, h.same, h.items⟩) h

theorem Writing.performItem {s t : State} {i : Item} {l : List Item} (hw : t.dfl.writerReady = true)
    (h : Writing s (i :: l) t) : Writing s l (t.performItem i) :=
  ⟨performItem_queueOk hw (h.items i List.mem_cons_self) h.queue, h.same.trans (t.performItem_sameButWriter i),
    fun j hj => h.items j (List.mem_cons_of_mem _ hj)⟩

/-- An emission ends with the registers `fin`, from EMIT_IDX 0, or suspends where items are left (R390, R437); a
property that draining and performing an item keep holds there too. -/
theorem emitList_cases {s : State} {l : List Item} {fin : DefRegs → DefRegs} {P : List Item → State → Prop}
    (drain : ∀ l t, P l t → P l t.drain)
    (item : ∀ i l t, t.dfl.writerReady = true → P (i :: l) t → P l (t.performItem i))
    (h : s.dfl.QueueOk) (hl : ∀ i ∈ l, i.width ≤ 16) (hP : P (l.drop s.dfl.emitIdx) s) :
    ∃ (l' : List Item) (t : State), Writing s l' t ∧ P l' t ∧
      (l' = [] ∧ (s.emitList l fin).dfl = fin { t.dfl with emitIdx := 0 } ∨
        l' ≠ [] ∧ (s.emitList l fin).dfl = { t.dfl with lastStatus := .pending }) := by
  have h0 : Writing s (l.drop s.dfl.emitIdx) s := ⟨h, .refl _, fun i hi => hl i (List.mem_of_mem_drop hi)⟩
  obtain ⟨t, ⟨ht, hp⟩, he⟩ | ⟨i, l', t, ⟨ht, hp⟩, -, -, he⟩ := emitItems_induct (fin := fin)
    (P := fun l t => Writing s l t ∧ P l t) (fun l t h => ⟨h.1.drain, drain l t h.2⟩)
    (fun i l t hw h => ⟨h.1.performItem hw, item i l t hw h.2⟩) ⟨h0, hP⟩
  · exact ⟨[], t, ht, hp, .inl ⟨rfl, congrArg State.dfl he⟩⟩
  · exact ⟨i :: l', t, ht, hp, .inr ⟨List.cons_ne_nil _ _, congrArg State.dfl he⟩⟩

/-! ### the trailer (R309, R398) -/

/-- The items of the trailer by EMIT_IDX: a flush first and last, a byte between. -/
theorem trailerItems_drop {a : BitVec 32} {i : Item} {l : List Item} {k : Nat} (h : i :: l = (trailerItems a).drop k) :
    l = (trailerItems a).drop (k + 1) ∧ k ≤ 5 ∧
      (i = .flush ∧ (k = 0 ∨ k = 5) ∨ (∃ v, i = .le 8 v) ∧ k ≠ 0 ∧ k ≠ 5) := by
  have hk : k < (trailerItems a).length := List.length_lt_of_drop_ne_nil (h ▸ List.cons_ne_nil i l)
  rw [List.drop_eq_getElem_cons hk, List.cons.injEq] at h
  obtain ⟨hi, hl⟩ := h
  refine ⟨hl, Nat.le_of_lt_succ hk, ?_⟩
  subst hi
  match k, hk with
  | 0, _ | 5, _ => simp [trailerItems]
  | 1, _ | 2, _ | 3, _ | 4, _ => simp [trailerItems]

/-- What holds while the trailer is emitted, beside `Writing`: EMIT_IDX counts the items done, the queue holds whole
bytes after the first flush and nothing after the last. -/
structure EndingStream (a : BitVec 32) (l : List Item) (t : State) : Prop where
  left : l = (trailerItems a).drop t.dfl.emitIdx
  bytes : t.dfl.emitIdx ≠ 0 → t.dfl.bitqCnt % 8 = 0
  empty : 6 ≤ t.dfl.emitIdx → t.dfl.bitqCnt = 0

theorem EndingStream.drain {a : BitVec 32} {l : List Item} {t : State} (h : EndingStream a l t) :
    EndingStream a l t.drain := by
  refine State.drain_induct (P := EndingStream a l) (fun u h8 _ hu => ?_) h
  obtain ⟨hleft, hbytes, hempty⟩ := hu
  refine ⟨hleft, fun h0 => ?_, fun h6 => ?_⟩
  · have := hbytes h0
    simp only [State.drainByte_dfl]
    omega
  · have := hempty h6
    omega

theorem EndingStream.performItem {a : BitVec 32} {i : Item} {l : List Item} {t : State}
    (hw : t.dfl.writerReady = true) (h : EndingStream a (i :: l) t) : EndingStream a l (t.performItem i) := by
  obtain ⟨hleft, hbytes, -⟩ := h
  have hcnt : t.dfl.bitqCnt < 8 := of_decide_eq_true hw
  obtain ⟨hl, hk, ⟨rfl, hi⟩ | ⟨⟨v, rfl⟩, h0, h5⟩⟩ := trailerItems_drop hleft
  · have hflush : t.dfl.flush.bitqCnt = if t.dfl.bitqCnt % 8 = 0 then t.dfl.bitqCnt else 8 := by
      unfold DefRegs.flush
      split <;> rfl
    refine ⟨hl, fun _ => ?_, fun h6 => ?_⟩
    · show t.dfl.flush.bitqCnt % 8 = 0
      rw [hflush]
      split <;> omega
    · have h5 : t.dfl.emitIdx ≠ 0 := fun h0 => absurd (h0 ▸ h6 : 6 ≤ 0 + 1) (by decide)
      have h8 := hbytes h5
      show t.dfl.flush.bitqCnt = 0
      rw [hflush, if_pos h8]
      omega
  · refine ⟨hl, fun _ => ?_, fun h6 => ?_⟩
    · have h8 := hbytes h0
      show (t.dfl.bitqCnt + 8) % 8 = 0
      omega
    · have h6' : 6 ≤ t.dfl.emitIdx + 1 := h6
      omega

/-- The trailer ends with an empty queue; where it suspends, EMIT_IDX is at an item and the queue holds whole bytes
once the first flush is done. -/
theorem emitTrailer_cases {s : State} {fin : DefRegs → DefRegs} (a : BitVec 32) (h : s.dfl.WriterOk)
    (hd : s.dfl.dState = .dEnd) :
    ∃ t : State, t.dfl.QueueOk ∧ s.dfl.SameButWriter t.dfl ∧
      (t.dfl.bitqCnt = 0 ∧ (s.emitList (trailerItems a) fin).dfl = fin { t.dfl with emitIdx := 0 } ∨
        (t.dfl.emitIdx ≤ 5 ∧ (t.dfl.emitIdx ≠ 0 → t.dfl.bitqCnt % 8 = 0)) ∧
          (s.emitList (trailerItems a) fin).dfl = { t.dfl with lastStatus := .pending }) := by
  obtain ⟨hidx, hbytes⟩ := h.ending hd
  have h0 : EndingStream a ((trailerItems a).drop s.dfl.emitIdx) s := ⟨rfl, hbytes, fun h6 => by omega⟩
  obtain ⟨l', t, ht, he, ⟨rfl, hdone⟩ | ⟨hne, hdone⟩⟩ := emitList_cases (fin := fin) (P := EndingStream a)
    (fun _ _ => EndingStream.drain) (fun _ _ _ => EndingStream.performItem) h.queueOk (trailerItems_width a) h0
  · exact ⟨t, ht.queue, ht.same, .inl ⟨he.empty (List.drop_eq_nil_iff.1 he.left.symm), hdone⟩⟩
  · have hlt : t.dfl.emitIdx < 6 := List.length_lt_of_drop_ne_nil (he.left ▸ hne)
    exact ⟨t, ht.queue, ht.same, .inr ⟨⟨Nat.le_of_lt_succ hlt, he.bytes⟩, hdone⟩⟩

/-! ### the list of a Dynamic block -/

/-- The items of a Dynamic block are at most 16 bits wide by the lengths of its codes (R40). -/
theorem DefRegs.WriterOk.dynamicItems_width {r : DefRegs} (h : r.WriterOk) (hd : r.dState = .dDynamic) :
    ∀ i ∈ dynamicItems r, i.width ≤ 16 := by
  obtain ⟨hll, hdc, hcl⟩ := h.widths hd
  have hll' : ∀ l ∈ r.llTable.len, l ≤ 16 := fun l hl => (hll l hl).trans (by decide)
  have hdc' : ∀ l ∈ r.dTable.len, l ≤ 16 := fun l hl => (hdc l hl).trans (by decide)
  have hcl' : ∀ l ∈ r.clTable.len, l ≤ 16 := fun l hl => (hcl l hl).trans (by decide)
  have hle : ∀ n v, n ≤ 5 → (Item.le n v).width ≤ 16 := fun _ _ hn => hn.trans (by decide)
  simp only [dynamicItems, List.forall_mem_append, List.forall_mem_cons, List.forall_mem_map, List.mem_flatMap]
  refine ⟨⟨⟨⟨hle 1 _ (by decide), hle 2 _ (by decide), hle 5 _ (by decide), hle 5 _ (by decide), hle 4 _ (by decide),
    nofun⟩, fun k _ => hle 3 _ (by decide)⟩, ?_⟩, tokenItems_width hll' hdc' _⟩
  rintro i ⟨e, -, hi⟩
  obtain rfl | hi := List.mem_cons.1 hi
  · exact CodeTable.item_width hcl' _
  · exact List.mem_singleton.1 hi ▸ clExtra_le _

end Sys2Proof.Machine
end

section
/-! PROOFS. The invariants of the DEFLATE engine: the input consumed (R35, R37), the tokens (R38), the history (R210 to
R213), the block and the end of the stream (R42, R383, R398). -/

namespace Sys2Proof.Machine

/-! ### the checksum and the history -/

/-- A byte consumed extends the sums (R308). -/
theorem adlerSums_bytes_succ (m : Memory) (p : Nat) :
    adlerSums (m.bytes 0 (p + 1)) =
      (((adlerSums (m.bytes 0 p)).1 + (m.read p).toNat) % 65521,
        ((adlerSums (m.bytes 0 p)).2 + ((adlerSums (m.bytes 0 p)).1 + (m.read p).toNat) % 65521) % 65521) := by
  rw [Memory.bytes_append, adlerSums, List.foldl_append, Nat.zero_add]
  rfl

/-- The sums are those of the first `p` bytes of INPUT (R37). -/
def DefRegs.SumsAt (m : Memory) (p : Nat) (r : DefRegs) : Prop := (r.adlerS1, r.adlerS2) = adlerSums (m.bytes 0 p)

theorem DefRegs.SumsAt.adlerUpdate {m : Memory} {p : Nat} {r : DefRegs} (h : r.SumsAt m p) :
    (r.adlerUpdate (m.read p)).SumsAt m (p + 1) := by
  unfold DefRegs.SumsAt at *
  rw [adlerSums_bytes_succ, ← h]
  rfl

/-- Over a range of INPUT the sums only change, to those of the bytes up to its end (R383). -/
theorem DefRegs.SumsAt.adlerRange {m : Memory} {n p : Nat} {r : DefRegs} (h : r.SumsAt m p) :
    ∃ s₁ s₂, adlerRange m n p r = { r with adlerS1 := s₁, adlerS2 := s₂ } ∧
      (s₁, s₂) = adlerSums (m.bytes 0 (p + n)) := by
  induction n generalizing p r with
  | zero => exact ⟨r.adlerS1, r.adlerS2, rfl, h⟩
  | succ n ih =>
    rw [← Nat.succ_add_eq_add_succ p n]
    exact ih h.adlerUpdate

/-- The history of the input before `p` (R210 to R213). -/
structure DefRegs.HistOk (c : Config) (m : Memory) (p : Nat) (r : DefRegs) : Prop where
  slots : r.slotsOk c
  entries : ∀ e ∈ r.hist, e.hash = hash3 m e.pos ∧ e.pos < p ∧ e.pos + 3 ≤ r.inEnd
  rising : r.live.Pairwise (· < ·)

theorem DefRegs.HistOk.mono {c : Config} {m : Memory} {p q : Nat} {r : DefRegs} (hpq : p ≤ q) (h : r.HistOk c m p) :
    r.HistOk c m q :=
  { h with
    entries := fun e he =>
      have ⟨hhash, hpos, hend⟩ := h.entries e he
      ⟨hhash, hpos.trans_le hpq, hend⟩ }

/-- An insertion drops old entries and appends one for `p` (R212, R213). -/
theorem DefRegs.insert_hist {c : Config} {r : DefRegs} (hs : r.slotsOk c) (m : Memory) (p : Nat) :
    ∃ old slot, old.Sublist r.hist ∧ (r.insert c m p).hist = old ++ [⟨slot, hash3 m p, p⟩] := by
  obtain ⟨-, -, hle, -⟩ := id hs
  rcases Nat.lt_or_eq_of_le hle with h | h
  · exact ⟨r.hist, r.fresh, .refl _, by rw [DefRegs.insert_of_room hs h]⟩
  · obtain ⟨e, tail, he, -, hins⟩ := DefRegs.insert_of_full hs h m p
    exact ⟨tail, r.evictCur, he ▸ List.sublist_cons_self e tail, by rw [hins]⟩

/-- An insertion at the position reached. -/
theorem DefRegs.HistOk.insert {c : Config} {m : Memory} {p : Nat} {r : DefRegs} (h : r.HistOk c m p)
    (hp : p + 3 ≤ r.inEnd) : (r.insert c m p).HistOk c m (p + 1) := by
  obtain ⟨old, slot, hold, hins⟩ := DefRegs.insert_hist h.slots m p
  refine ⟨DefRegs.insert_slotsOk h.slots m p, ?_, ?_⟩
  · rw [hins, DefRegs.insert_inEnd]
    simp only [List.forall_mem_append, List.forall_mem_singleton]
    refine ⟨fun e he => ?_, trivial, Nat.lt_succ_self p, hp⟩
    obtain ⟨hhash, hpos, hend⟩ := h.entries e (hold.subset he)
    exact ⟨hhash, hpos.trans (Nat.lt_succ_self p), hend⟩
  · rw [DefRegs.live, hins, List.map_append, List.pairwise_append]
    refine ⟨h.rising.sublist (hold.map _), List.pairwise_singleton _ _, ?_⟩
    simp only [List.forall_mem_map, List.map_singleton, List.forall_mem_singleton]
    exact fun e he => (h.entries e (hold.subset he)).2.1

/-- Consuming input keeps the checksum and the history those of the input before IN_CUR (R386). -/
theorem consume_consumed {c : Config} {m : Memory} {k p : Nat} {r : DefRegs} (hsum : r.SumsAt m p)
    (hhist : r.HistOk c m p) :
    (consume c m k p r).SumsAt m (p + k) ∧ (consume c m k p r).HistOk c m (p + k) := by
  induction k generalizing p r with
  | zero => exact ⟨hsum, hhist⟩
  | succ k ih =>
    rw [← Nat.succ_add_eq_add_succ]
    unfold consume
    dsimp only
    split
    next h3 =>
      have hs : (r.insert c m p).SumsAt m p :=
        (congrArg (DefRegs.SumsAt m p) (r.insert_frame c m p)).mpr hsum
      have hh := hhist.insert (Nat.add_le_of_le_sub' (by omega) h3)
      exact ih hs.adlerUpdate { hh with }
    · exact ih hsum.adlerUpdate { hhist.mono (Nat.le_succ p) with }

/-! ### what holds in every D_STATE -/

/-- The registers of a session are in order. -/
def DefRegs.InOrder (c : Config) (m : Memory) (r : DefRegs) : Prop := r.WriterOk ∧ r.InputOk c m

/-- The invariants that hold in every D_STATE, with room for `k` more tokens. -/
structure DefRegs.StreamOk (c : Config) (m : Memory) (k : Nat) (r : DefRegs) : Prop
    extends QueueOk r, HistOk c m r.inCur r where
  cursor : r.inCur ≤ r.inEnd
  sums : r.SumsAt m r.inCur
  tokens : r.tok.length + k ≤ c.tokenCap

section
variable {c : Config} {m : Memory} {k : Nat} {r : DefRegs}

theorem DefRegs.InOrder.streamOk (h : r.InOrder c m) : r.StreamOk c m 0 := by
  obtain ⟨hw, hi⟩ := h
  exact { hw.queueOk, hi with sums := hi.adler }

theorem DefRegs.StreamOk.of_sameButWriter {q : DefRegs} (h : r.StreamOk c m k) (hs : r.SameButWriter q)
    (hq : q.QueueOk) : q.StreamOk c m k := by
  have h' := (congrArg (DefRegs.StreamOk c m k) hs).mpr h
  exact { hq, h' with }

/-- The lengths a Dynamic block is written with (R40). -/
def DefRegs.LengthsOk (r : DefRegs) : Prop :=
  (∀ l ∈ r.llcLen.toList, l ≤ 15) ∧ (∀ l ∈ r.dcLen.toList, l ≤ 15) ∧ (∀ l ∈ r.clcLen.toList, l ≤ 7)

/-- Between blocks, and in the pass, nothing else is required. -/
theorem DefRegs.StreamOk.betweenBlocks (h : r.StreamOk c m k)
    (hd : r.dState = .dInit ∨ r.dState = .dBlock ∨ r.dState = .dLzss) : r.InOrder c m where
  left := { h with
    widths := fun hs => by simp [hs] at hd
    ending := fun hs => by simp [hs] at hd
    done := fun hs => by simp [hs] at hd }
  right := { h with
    adler := h.sums
    tokens := (Nat.le_add_right _ k).trans h.tokens
    stored := fun hs => by simp [hs] at hd
    final := fun hs => by rcases hs with hs | hs | hs <;> simp [hs] at hd
    ended := fun hs => by rcases hs with hs | hs <;> simp [hs] at hd }

/-- In a block: BLK_FINAL, the bytes of a stored one and the tables of a Dynamic one (R383, R386, R40). -/
theorem DefRegs.StreamOk.inBlock (h : r.StreamOk c m k)
    (hd : r.dState = .dNocomp ∨ r.dState = .dFixed ∨ r.dState = .dDynamic)
    (hf : r.blkFinal = true ↔ r.inCur = r.inEnd)
    (hs : r.dState = .dNocomp → r.blkStart + r.blkLen ≤ r.inEnd ∧ r.blkLen ≤ 65535)
    (hw : r.dState = .dDynamic → r.LengthsOk) : r.InOrder c m where
  left := { h with
    widths := hw
    ending := fun hs => by simp [hs] at hd
    done := fun hs => by simp [hs] at hd }
  right := { h with
    adler := h.sums
    tokens := (Nat.le_add_right _ k).trans h.tokens
    stored := hs
    final := fun _ => hf
    ended := fun hs => by rcases hs with hs | hs <;> simp [hs] at hd }

/-- At the end of the input (R309, R398). -/
theorem DefRegs.StreamOk.atEnd (h : r.StreamOk c m k) (hd : r.dState = .dEnd ∨ r.dState = .dDone)
    (hend : r.inCur = r.inEnd) (he : r.dState = .dEnd → r.emitIdx ≤ 5 ∧ (r.emitIdx ≠ 0 → r.bitqCnt % 8 = 0))
    (hdone : r.dState = .dDone → r.bitqCnt = 0) : r.InOrder c m where
  left := { h with
    widths := fun hs => by simp [hs] at hd
    ending := he
    done := hdone }
  right := { h with
    adler := h.sums
    tokens := (Nat.le_add_right _ k).trans h.tokens
    stored := fun hs => by simp [hs] at hd
    final := fun hs => by rcases hs with hs | hs | hs <;> simp [hs] at hd
    ended := fun _ => hend }

/-! ### the LZSS pass (R385, R386) -/

/-- Consuming the input of a token. -/
theorem DefRegs.StreamOk.consume {n : Nat} (h : r.StreamOk c m k) (hn : r.inCur + n ≤ r.inEnd) :
    DefRegs.StreamOk c m k { consume c m n r.inCur r with inCur := r.inCur + n } := by
  obtain ⟨hsum, hhist⟩ := consume_consumed (k := n) h.sums h.toHistOk
  have hqueue := (congrArg DefRegs.QueueOk (consume_frame c m n r.inCur r)).mpr h.toQueueOk
  exact { hqueue, hhist with
    cursor := by simpa using hn
    sums := hsum
    tokens := by simpa using h.tokens }

/-- Appending a token and counting it. -/
theorem DefRegs.StreamOk.pushTok (h : r.StreamOk c m (k + 1)) (t : Token) (fl : Vector Nat 286) (fd : Vector Nat 30) :
    DefRegs.StreamOk c m k { r.pushTok t with freqLl := fl, freqD := fd } := by
  have htok : (r.tok ++ [t]).length + k ≤ c.tokenCap := by
    have := h.tokens
    rw [List.length_append, List.length_singleton]
    omega
  exact { h with tokens := htok }

theorem DefRegs.StreamOk.passToken (hcur : r.inCur < r.inEnd) (h : r.StreamOk c m (k + 1)) :
    (r.passToken c m).StreamOk c m k := by
  obtain ⟨hend, -, -⟩ := r.searchAt_bounds c m
  unfold DefRegs.passToken
  dsimp only
  split
  · exact (h.pushTok _ _ _).consume (Nat.add_le_of_le_sub' hcur.le hend)
  · exact (h.pushTok _ _ _).consume (n := 1) hcur

/-- What holds once the pass is done: BLK_FINAL says that the input is consumed (R386). -/
structure DefRegs.PassOver (c : Config) (m : Memory) (k : Nat) (r : DefRegs) : Prop extends StreamOk c m k r where
  final : r.blkFinal = true ↔ r.inCur = r.inEnd

theorem DefRegs.StreamOk.runPass (h : r.StreamOk c m k) : ∃ k, (r.runPass c m).PassOver c m k := by
  have h0 : r.startPass.StreamOk c m c.tokenCap := { h with tokens := (Nat.zero_add _).le }
  obtain ⟨k, hk, -⟩ := passLoop_induct (P := DefRegs.StreamOk c m) (fun _ _ => DefRegs.StreamOk.passToken) h0
  exact ⟨k, { hk with final := decide_eq_true_iff }⟩

/-- The lengths of the tables of a Dynamic block (R170, R391, R394). -/
theorem buildTables_lengthsOk (r : DefRegs) : r.buildTables.LengthsOk :=
  ⟨tableOf_buildLengths_le _ (by decide), tableOf_buildLengths_le _ (by decide),
    tableOf_buildLengths_le _ (by decide)⟩

/-! The tables are built over the registers the pass leaves, part by part. -/

theorem DefRegs.PassOver.buildCodes (h : r.PassOver c m k) : r.buildCodes.PassOver c m k := { h with }

theorem DefRegs.PassOver.setCounts (h : r.PassOver c m k) : r.setCounts.PassOver c m k := { h with }

theorem DefRegs.PassOver.setRle (h : r.PassOver c m k) : r.setRle.PassOver c m k := { h with }

theorem DefRegs.PassOver.setClc (h : r.PassOver c m k) : r.setClc.PassOver c m k := { h with }

theorem DefRegs.PassOver.buildTables (h : r.PassOver c m k) : r.buildTables.PassOver c m k :=
  h.buildCodes.setCounts.setRle.setClc

/-- Where a Huffman-coded block starts (R387). -/
theorem DefRegs.PassOver.startBlock (h : r.PassOver c m k) {d : DState} (hd : d = .dFixed ∨ d = .dDynamic)
    (hw : d = .dDynamic → r.LengthsOk) :
    DefRegs.InOrder c m { r with emitIdx := 0, dState := d } :=
  DefRegs.StreamOk.inBlock (k := k) { h with } (.inr hd) h.final (by rintro rfl; exact absurd hd (by decide)) hw

/-- D_LZSS (R385 to R387). -/
theorem DefRegs.InOrder.lzss (h : r.InOrder c m) : (r.runPass c m).afterPass.InOrder c m := by
  obtain ⟨k, hk⟩ := h.streamOk.runPass
  unfold DefRegs.afterPass
  split
  · exact hk.buildTables.startBlock (.inr rfl) fun _ => buildTables_lengthsOk _
  · exact hk.startBlock (.inl rfl) nofun
  · exact hk.startBlock (.inl rfl) nofun

/-- D_BLOCK at level 0 (R383). -/
theorem DefRegs.InOrder.formStored (h : r.InOrder c m) :
    DefRegs.InOrder c m { r.formStored m with dState := .dNocomp } := by
  have hk := h.streamOk
  have hlen : min storedMax (r.inEnd - r.inCur) ≤ 65535 := Nat.min_le_left ..
  have hend : r.inCur + min storedMax (r.inEnd - r.inCur) ≤ r.inEnd :=
    Nat.add_le_of_le_sub' hk.cursor (Nat.min_le_right ..)
  unfold DefRegs.formStored
  dsimp only
  generalize min storedMax (r.inEnd - r.inCur) = n at hlen hend
  have hsum : DefRegs.SumsAt m r.inCur { r with blkStart := r.inCur, blkLen := n } := hk.sums
  obtain ⟨s₁, s₂, hrange, hsums⟩ := hsum.adlerRange (n := n)
  rw [hrange]
  have hhist := hk.toHistOk.mono (Nat.le_add_right r.inCur n)
  exact DefRegs.StreamOk.inBlock (k := 0)
    { hk.toQueueOk, hhist with cursor := hend, sums := hsums, tokens := hk.tokens }
    (.inl rfl) decide_eq_true_iff (fun _ => ⟨hend, hlen⟩) nofun

/-! ### the emissions -/

theorem DefRegs.SameButWriter.dState {q : DefRegs} (h : r.SameButWriter q) : q.dState = r.dState := by
  have h' := congrArg DefRegs.dState h
  exact h'

theorem DefRegs.SameButWriter.blkFinal {q : DefRegs} (h : r.SameButWriter q) : q.blkFinal = r.blkFinal := by
  have h' := congrArg DefRegs.blkFinal h
  exact h'

theorem DefRegs.SameButWriter.inCur {q : DefRegs} (h : r.SameButWriter q) : q.inCur = r.inCur := by
  have h' := congrArg DefRegs.inCur h
  exact h'

theorem DefRegs.SameButWriter.inEnd {q : DefRegs} (h : r.SameButWriter q) : q.inEnd = r.inEnd := by
  have h' := congrArg DefRegs.inEnd h
  exact h'

/-- A suspension inside a block, or inside the header. -/
theorem DefRegs.InOrder.of_sameButWriter {q : DefRegs} (h : r.InOrder c m) (hs : r.SameButWriter q) (hq : q.QueueOk)
    (hend : r.dState ≠ .dEnd) (hdone : r.dState ≠ .dDone) : q.InOrder c m := by
  have hd := hs.dState
  obtain ⟨hw, hi⟩ := (congrArg (DefRegs.InOrder c m) hs).mpr h
  exact ⟨{ hq with
    widths := hw.widths
    ending := fun he => absurd (hd.symm.trans he) hend
    done := fun he => absurd (hd.symm.trans he) hdone }, { hi with }⟩

/-- After a block (R397). -/
theorem DefRegs.StreamOk.endBlock (h : r.StreamOk c m k) (hf : r.blkFinal = true → r.inCur = r.inEnd)
    (he : r.emitIdx = 0) : r.endBlock.InOrder c m := by
  unfold DefRegs.endBlock
  split
  next hb =>
    exact DefRegs.StreamOk.atEnd (k := k) { h with } (.inl rfl) (hf hb)
      (fun _ => ⟨he ▸ Nat.zero_le 5, fun h0 => absurd he h0⟩) nofun
  · exact DefRegs.StreamOk.betweenBlocks (k := k) { h with } (.inr (.inl rfl))

/-- DEF.RESET (R56) meets the invariants. -/
theorem afterReset_inOrder (hc : c.legal = true) (r : DefRegs) (input len : Nat) (level : Level) :
    (r.afterReset input len level).InOrder c m := by
  have hcap : 0 < c.histCap := by
    simp only [Config.legal, Bool.and_eq_true, decide_eq_true_iff] at hc
    omega
  exact DefRegs.StreamOk.betweenBlocks (k := c.tokenCap)
    { count := Nat.zero_le 23
      clean := Nat.one_pos
      room := Nat.le_refl 0
      counted := Nat.le_refl 0
      slots := ⟨rfl, rfl, Nat.zero_le _, hcap, fun _ => rfl, rfl⟩
      entries := nofun
      rising := .nil
      cursor := Nat.zero_le _
      sums := rfl
      tokens := (Nat.zero_add _).le } (.inl rfl)

/-- DEF.STEP starts with an empty OUTPUT (R435). -/
theorem DefRegs.InOrder.startStep (h : r.InOrder c m) (name cap : Nat) :
    DefRegs.InOrder c m { r with outBase := name, outLim := cap, thisOut := 0 } :=
  ⟨{ h.1 with room := Nat.zero_le _, counted := Nat.zero_le _ }, { h.2 with }⟩

end

section
variable {s t : State}

/-- An emission that ends with `fin` outside the trailer. -/
theorem emitList_inOrder {l : List Item} {fin : DefRegs → DefRegs} (h : s.dfl.InOrder s.cfg s.dflIn)
    (hl : ∀ i ∈ l, i.width ≤ 16) (hend : s.dfl.dState ≠ .dEnd) (hdone : s.dfl.dState ≠ .dDone)
    (hfin : ∀ q : DefRegs, s.dfl.SameButWriter q → q.StreamOk s.cfg s.dflIn 0 → q.emitIdx = 0 →
      (fin q).InOrder s.cfg s.dflIn) : (s.emitList l fin).dfl.InOrder s.cfg s.dflIn := by
  obtain ⟨l', t, ht, -, ⟨-, he⟩ | ⟨-, he⟩⟩ := emitList_cases (fin := fin) (P := fun _ _ => True) (fun _ _ _ => trivial)
    (fun _ _ _ _ _ => trivial) h.1.queueOk hl trivial
  · have hsame : s.dfl.SameButWriter { t.dfl with emitIdx := 0 } := ht.same
    rw [he]
    exact hfin _ hsame (h.streamOk.of_sameButWriter hsame { ht.queue with }) rfl
  · rw [he]
    obtain ⟨hw, hi⟩ := h.of_sameButWriter ht.same ht.queue hend hdone
    exact ⟨{ hw with }, { hi with }⟩

/-- The emission of a block. -/
theorem emitBlock_inOrder {l : List Item} (h : s.dfl.InOrder s.cfg s.dflIn) (hl : ∀ i ∈ l, i.width ≤ 16)
    (hd : s.dfl.dState = .dNocomp ∨ s.dfl.dState = .dFixed ∨ s.dfl.dState = .dDynamic) :
    (s.emitList l DefRegs.endBlock).dfl.InOrder s.cfg s.dflIn := by
  refine emitList_inOrder h hl ?_ ?_ fun q hq hk he => hk.endBlock ?_ he
  · rcases hd with hd | hd | hd <;> rw [hd] <;> decide
  · rcases hd with hd | hd | hd <;> rw [hd] <;> decide
  · rw [hq.blkFinal, hq.inCur, hq.inEnd]
    exact (h.2.final hd).1

/-- D_END (R309, R398). -/
theorem emitTrailer_inOrder (h : s.dfl.InOrder s.cfg s.dflIn) (hd : s.dfl.dState = .dEnd) (a : BitVec 32) :
    (s.emitList (trailerItems a) fun r => { r with dState := .dDone }).dfl.InOrder s.cfg s.dflIn := by
  obtain ⟨t, hq, hs, hcase⟩ := emitTrailer_cases (fin := fun r => { r with dState := .dDone }) a h.1 hd
  have hk := h.streamOk.of_sameButWriter hs hq
  have ht : t.dfl.dState = .dEnd := hs.dState.trans hd
  have hend : t.dfl.inCur = t.dfl.inEnd := by rw [hs.inCur, hs.inEnd]; exact h.2.ended (.inl hd)
  obtain ⟨hempty, he⟩ | ⟨hending, he⟩ := hcase
  · rw [he]
    exact DefRegs.StreamOk.atEnd (k := 0) { hk with } (.inr rfl) hend nofun fun _ => hempty
  · rw [he]
    exact DefRegs.StreamOk.atEnd (k := 0) { hk with } (.inl ht) hend (fun _ => hending)
      fun hdone => absurd (ht.symm.trans hdone) (by decide)

/-! ### the step, agent by agent -/

theorem step_dfl_inOrder (ht : s.turn = .dfl) (h : s.dfl.InOrder s.cfg s.dflIn) (hstep : step s = .next t) :
    t.dfl.InOrder s.cfg s.dflIn := by
  obtain ⟨hd, rfl⟩ | ⟨hd, rfl⟩ | ⟨hd, -, rfl⟩ | ⟨hd, rfl⟩ | ⟨hd, rfl⟩ | ⟨hd, rfl⟩ | ⟨hd, rfl⟩ | ⟨hd, rfl⟩ :=
    step_dfl_cases ht hstep
  · exact emitList_inOrder h (headerItems_width _) (by rw [hd]; decide) (by rw [hd]; decide) fun q _ hk _ =>
      DefRegs.StreamOk.betweenBlocks (k := 0) { hk with } (.inr (.inl rfl))
  · by_cases hl : s.dfl.level = .noCompression
    · rw [passBlock_of_stored hl]
      exact h.formStored
    · rw [passBlock_of_coded hl]
      exact DefRegs.StreamOk.betweenBlocks (k := 0) { h.streamOk with } (.inr (.inr rfl))
  · exact emitBlock_inOrder h (storedItems_width _ _) (.inl hd)
  · exact h.lzss
  · exact emitBlock_inOrder h (fixedItems_width _) (.inr (.inl hd))
  · exact emitBlock_inOrder h (h.1.dynamicItems_width hd) (.inr (.inr hd))
  · exact emitTrailer_inOrder h hd _
  · exact ⟨{ h.1 with }, { h.2 with }⟩

/-- What a step of the INFLATE engine leaves of the DEFLATE engine's side. -/
theorem step_inf_dfl (ht : s.turn = .inf) (h : step s = .next t) :
    t.turn ≠ .dfl ∧ t.cfg = s.cfg ∧ t.dflLife = s.dflLife ∧ t.dfl = s.dfl ∧ t.dflIn = s.dflIn := by
  constructor
  · obtain ⟨q, e, -, -, rfl⟩ := step_inf_ends ht h
    rcases e.run_turn { s with inf := q } with he | he <;> rw [he]
    · exact ht ▸ nofun
    · exact nofun
  · rw [← step_inf_frame ht h]
    exact ⟨rfl, rfl, rfl, rfl⟩

theorem step_dfl_dflOk (ht : s.turn = .dfl) (hs : s.dflOk) (h : step s = .next t) : t.dflOk := by
  have hlife := hs.1 ht
  have hregs := step_dfl_inOrder ht (hs.2 hlife) h
  rw [← step_dfl_frame ht h]
  exact ⟨fun _ => hlife, fun _ => hregs⟩

theorem step_host_dflOk (ht : s.turn = .host) (hc : s.cfg.legal = true) (hs : s.dflOk) (h : step s = .next t) :
    t.dflOk := by
  obtain ⟨hcfg, -, hdfl⟩ := step_hostStep ht h
  cases hdfl with
  | kept turn life regs input =>
    rw [State.dflOk, life, regs, input, hcfg]
    exact ⟨fun h => absurd h turn, hs.2⟩
  | noSession turn life => exact ⟨fun h => absurd h turn, fun h => absurd h life⟩
  | reset turn r input len level regs =>
    refine ⟨fun h => absurd h turn, fun _ => ?_⟩
    rw [regs, hcfg]
    exact afterReset_inOrder hc r input len level
  | step before after name cap regs input =>
    refine ⟨fun _ => after, fun _ => ?_⟩
    rw [regs, input, hcfg]
    exact DefRegs.InOrder.startStep (hs.2 before) name cap

end

end Sys2Proof.Machine

open Sys2Proof.Machine

/-- Settles O56, agent by agent: DEF.RESET and DEF.STEP start in order, an INFLATE step leaves the engine alone, and
each pass of the DEFLATE engine keeps the writer, the input consumed, the tokens, the history and the block in order. -/
theorem deflateStaysInOrder : Obligations.DeflateStaysInOrder := by
  intro s t hc hs h
  cases ht : s.turn with
  | host => exact step_host_dflOk ht hc hs h
  | inf =>
    obtain ⟨hturn, hcfg, hlife, hregs, hinput⟩ := step_inf_dfl ht h
    rw [State.dflOk, hcfg, hlife, hregs, hinput]
    exact ⟨fun h => absurd h hturn, hs.2⟩
  | dfl => exact step_dfl_dflOk ht hs h

end

section
/-! PROOFS. The memories: every step keeps them in canonical form (R70), and an engine's step stores to OUTPUT upwards
from THIS_OUT only, each byte once and below OUT_LIM (R72). -/

namespace Sys2Proof.Machine

/-! ### a buffer being filled -/

/-- What an engine has of its OUTPUT: the space, THIS_OUT, TOTAL_OUT and OUT_LIM (R50, R72). -/
structure Output where
  mem : Memory
  stored : Nat
  total : Nat
  lim : Nat

/-- A byte is stored at THIS_OUT and counted (R150, R343). -/
def Output.store (b : Byte) (o : Output) : Output :=
  { o with mem := o.mem.write o.stored b, stored := o.stored + 1, total := o.total + 1 }

/-- From `o`, bytes have been stored one after another, each where there was room. -/
inductive Output.Fills (o : Output) : Output → Prop
  | refl : o.Fills o
  | store {p : Output} (b : Byte) (h : o.Fills p) (room : p.stored < p.lim) : o.Fills (p.store b)

section
variable {o p q : Output}

theorem Output.Fills.trans (h₁ : o.Fills p) (h₂ : p.Fills q) : o.Fills q := by
  induction h₂ with
  | refl => exact h₁
  | store b _ room ih => exact ih.store b room

theorem Output.Fills.lim_eq (h : o.Fills p) : p.lim = o.lim := by
  induction h with
  | refl => rfl
  | store _ _ _ ih => exact ih

theorem Output.Fills.wf (h : o.Fills p) (hm : o.mem.wf = true) : p.mem.wf = true := by
  induction h with
  | refl => exact hm
  | store _ _ _ ih => exact Memory.wf_write ih _ _

theorem Output.Fills.stored_le (h : o.Fills p) : o.stored ≤ p.stored := by
  induction h with
  | refl => exact Nat.le_refl _
  | store _ _ _ ih => exact Nat.le_succ_of_le ih

theorem Output.Fills.stored_le_lim (h : o.Fills p) (ho : o.stored ≤ o.lim) : p.stored ≤ o.lim := by
  cases h with
  | refl => exact ho
  | store _ h room => exact h.lim_eq ▸ room

theorem Output.Fills.counted (h : o.Fills p) : p.total + o.stored = o.total + p.stored := by
  induction h with
  | refl => rfl
  | store _ _ _ ih =>
    simp only [Output.store]
    omega

/-- The bytes below the old THIS_OUT and from the new one up are as they were. -/
theorem Output.Fills.read_outside (h : o.Fills p) (hm : o.mem.wf = true) {a : Nat}
    (ha : a < o.stored ∨ p.stored ≤ a) : p.mem.read a = o.mem.read a := by
  induction h with
  | refl => rfl
  | @store p b h _ ih =>
    have hle := h.stored_le
    simp only [Output.store] at ha ⊢
    rw [Memory.read_write (h.wf hm), if_neg (by omega)]
    exact ih (by omega)

end

/-- OUTPUT as the INFLATE engine has it. -/
def State.infOutput (s : State) : Output := ⟨s.infOut, s.inf.thisOut, s.inf.totalOut, s.inf.outLim⟩

/-- A space with what the DEFLATE engine's registers say of it. -/
def DefRegs.output (m : Memory) (r : DefRegs) : Output := ⟨m, r.thisOut, r.totalOut, r.outLim⟩

/-- OUTPUT as the DEFLATE engine has it. -/
def State.dflOutput (s : State) : Output := s.dfl.output s.dflOut

/-! ### the INFLATE engine's OUTPUT -/

/-- `drainCode()` stores where there is room only (R342). -/
theorem drainCode_fills {s : State} (hr : s.inf.thisOut ≤ s.inf.outLim) :
    s.infOutput.Fills s.drainCode.infOutput := by
  obtain hf | ⟨n, t, hf, -, ht⟩ := drainLoop_induct (P := fun _ t => s.infOutput.Fills t.infOutput)
    (fun n t hne h =>
      have hle : t.inf.thisOut ≤ t.inf.outLim := (h.stored_le_lim hr).trans_eq h.lim_eq.symm
      h.store t.pendByte (Nat.lt_of_le_of_ne hle hne))
    (n := s.inf.pendLen) (s := s) .refl
  · exact hf
  · rw [State.drainCode, ht]
    exact hf

/-- Every way to go on stores where there is room only, from registers it is ready for. -/
theorem InfEnd.run_fills {e : InfEnd} {s : State} (h : e.Ready s.cfg s.inf) :
    s.infOutput.Fills (e.run s).infOutput := by
  cases e with
  | stay => exact .refl
  | raise c => exact .refl
  | drain => exact drainCode_fills h.1.room
  | answer st => exact .refl
  | store b => exact Output.Fills.refl.store b h.2

/-- A step of the INFLATE engine in a session (R72, R343). -/
theorem step_inf_fills {s t : State} (ht : s.turn = .inf) (hs : s.infOk) (h : step s = .next t) :
    s.infOutput.Fills t.infOutput := by
  obtain ⟨q, e, hf, hready, rfl⟩ := step_inf_ends ht h
  have hq : s.infOutput = State.infOutput { s with inf := q } := by
    simp only [State.infOutput, hf.thisOut, hf.totalOut, hf.outLim]
  rw [hq]
  exact InfEnd.run_fills (hready (hs.2 (hs.1 ht)))

/-! ### the DEFLATE engine's OUTPUT -/

theorem drain_fills (s : State) : s.dflOutput.Fills s.drain.dflOutput :=
  State.drain_induct (P := fun t => s.dflOutput.Fills t.dflOutput) (fun _ _ hroom h => h.store _ hroom) .refl

theorem performItem_dflOutput (i : Item) (s : State) : (s.performItem i).dflOutput = s.dflOutput := by
  obtain ⟨q, n, hp, -⟩ := s.dfl.perform_eq i
  simp only [State.dflOutput, DefRegs.output, State.performItem_dfl, State.performItem_dflOut, hp]

/-- An emission stores where there is room only (R150, R390). -/
theorem emitList_fills {s : State} {l : List Item} {fin : DefRegs → DefRegs}
    (hfin : ∀ m r, (fin r).output m = r.output m) : s.dflOutput.Fills (s.emitList l fin).dflOutput := by
  obtain ⟨t, hf, ht⟩ | ⟨i, l', t, hf, -, -, ht⟩ := emitItems_induct (fin := fin)
    (P := fun _ t => s.dflOutput.Fills t.dflOutput) (fun _ t h => h.trans (drain_fills t))
    (fun i _ t _ h => (performItem_dflOutput i t).symm ▸ h) (l := l.drop s.dfl.emitIdx) (s := s) .refl
  · have hout : (s.emitList l fin).dflOutput = t.dflOutput := by
      rw [State.emitList, ht]
      exact hfin _ _
    rwa [hout]
  · rw [State.emitList, ht]
    exact hf

section
variable (o m : Memory) (c : Config) (r : DefRegs)

theorem consume_output (k p : Nat) : (consume c m k p r).output o = r.output o := by
  have h := congrArg (DefRegs.output o) (consume_frame c m k p r)
  exact h

theorem passToken_output : (r.passToken c m).output o = r.output o := by
  unfold DefRegs.passToken
  dsimp only
  split
  · exact consume_output o m c (r.addMatch _ _) _ _
  · exact consume_output o m c (r.addLiteral _) _ _

theorem runPass_output : (r.runPass c m).output o = r.output o := by
  obtain ⟨k, hk, -⟩ := passLoop_induct (c := c) (m := m) (P := fun _ q => q.output o = r.output o)
    (fun _ q _ h => (passToken_output o m c q).trans h) (k := c.tokenCap) (r := r.startPass) rfl
  exact hk

theorem buildTables_output : r.buildTables.output o = r.output o := by
  have hcl (q : DefRegs) : q.setClc.output o = q.output o := rfl
  have hrle (q : DefRegs) : q.setRle.output o = q.output o := rfl
  have hcounts (q : DefRegs) : q.setCounts.output o = q.output o := rfl
  have hcodes (q : DefRegs) : q.buildCodes.output o = q.output o := rfl
  rw [DefRegs.buildTables, hcl, hrle, hcounts, hcodes]

theorem afterPass_output : r.afterPass.output o = r.output o := by
  unfold DefRegs.afterPass
  split
  · exact buildTables_output o r
  · rfl
  · rfl

theorem formStored_output : (r.formStored m).output o = r.output o := by
  have h := congrArg (DefRegs.output o) (adlerRange_frame m (min storedMax (r.inEnd - r.inCur)) r.inCur
    { r with blkStart := r.inCur, blkLen := min storedMax (r.inEnd - r.inCur) })
  exact h

end

/-- Forming a block stores nothing (R382, R383). -/
theorem passBlock_dflOutput (s : State) : s.passBlock.dflOutput = s.dflOutput := by
  by_cases hl : s.dfl.level = .noCompression
  · rw [passBlock_of_stored hl]
    exact formStored_output ..
  · rw [passBlock_of_coded hl]
    rfl

/-- The pass over INPUT stores nothing (R385 to R387). -/
theorem passLzss_dflOutput (s : State) : s.passLzss.dflOutput = s.dflOutput :=
  (afterPass_output ..).trans (runPass_output ..)

/-- A step of the DEFLATE engine (R72, R150). -/
theorem step_dfl_fills {s t : State} (ht : s.turn = .dfl) (h : step s = .next t) :
    s.dflOutput.Fills t.dflOutput := by
  obtain ⟨-, rfl⟩ | ⟨-, rfl⟩ | ⟨-, -, rfl⟩ | ⟨-, rfl⟩ | ⟨-, rfl⟩ | ⟨-, rfl⟩ | ⟨-, rfl⟩ | ⟨-, rfl⟩ := step_dfl_cases ht h
  case inr.inl => rw [passBlock_dflOutput]; exact .refl
  case inr.inr.inr.inl => rw [passLzss_dflOutput]; exact .refl
  case inr.inr.inr.inr.inr.inr.inr => exact .refl
  all_goals exact emitList_fills fun _ _ => rfl

/-! ### whole STEPs -/

/-- The induction of a command run to its end (R435): a property that the engines' steps keep. -/
theorem Ends.induct {P : State → Prop} (pass : ∀ s t, s.turn ≠ .host → step s = .next t → P s → P t) {s t : State}
    (h : Ends s t) (hs : P s) : P t := by
  obtain ⟨k, hk⟩ := h
  induction k generalizing s with
  | zero =>
    unfold runCommand at hk
    split at hk <;> cases hk
    exact hs
  | succ k ih =>
    unfold runCommand at hk
    split at hk
    · cases hk
      exact hs
    · next hturn =>
      split at hk
      next u hu => exact ih (pass s u hturn hu hs) hk
      all_goals cases hk

theorem Ends.inf_fills {u t : State} (h : Ends u t) (hu : u.turn = .inf) (hi : u.infOk) :
    u.infOutput.Fills t.infOutput := by
  have hpass : ∀ v w : State, v.turn ≠ .host → step v = .next w →
      (v.turn ≠ .dfl ∧ v.infOk ∧ u.infOutput.Fills v.infOutput) →
      w.turn ≠ .dfl ∧ w.infOk ∧ u.infOutput.Fills w.infOutput := by
    rintro v w hhost hw ⟨hdfl, hok, hf⟩
    have hv : v.turn = .inf := by cases hv : v.turn <;> simp_all
    exact ⟨(step_inf_dfl hv hw).1, step_inf_infOk hv hok hw, hf.trans (step_inf_fills hv hok hw)⟩
  obtain ⟨-, -, hf⟩ := h.induct hpass ⟨by rw [hu]; decide, hi, .refl⟩
  exact hf

theorem Ends.dfl_fills {u t : State} (h : Ends u t) (hu : u.turn = .dfl) : u.dflOutput.Fills t.dflOutput := by
  have hpass : ∀ v w : State, v.turn ≠ .host → step v = .next w →
      (v.turn ≠ .inf ∧ u.dflOutput.Fills v.dflOutput) → w.turn ≠ .inf ∧ u.dflOutput.Fills w.dflOutput := by
    rintro v w hhost hw ⟨hinf, hf⟩
    have hv : v.turn = .dfl := by cases hv : v.turn <;> simp_all
    exact ⟨(step_dfl_inf hv hw).1, hf.trans (step_dfl_fills hv hw)⟩
  obtain ⟨-, hf⟩ := h.induct hpass ⟨by rw [hu]; decide, .refl⟩
  exact hf

/-- INF.STEP goes on in a session only, with the buffer of the host as OUTPUT and nothing stored (R435). -/
theorem exec_infStep_next {out : Buffer} {cap : Nat} {s u : State} (h : exec (.infStep out cap) s = .next u) :
    s.infLife = .active ∧ u = { s with
      turn := .inf
      resp := none
      inf := { s.inf with outBase := out.name, outLim := cap, thisOut := 0 }
      infOut := outputOf cap out.bytes } := by
  simp only [exec, execInfStep] at h
  split at h
  case h_3 hlife =>
    split at h <;> cases h
    exact ⟨hlife, rfl⟩
  all_goals cases h

/-- DEF.STEP, as INF.STEP. -/
theorem exec_defStep_next {out : Buffer} {cap : Nat} {s u : State} (h : exec (.defStep out cap) s = .next u) :
    s.dflLife = .active ∧ u = { s with
      turn := .dfl
      resp := none
      dfl := { s.dfl with outBase := out.name, outLim := cap, thisOut := 0 }
      dflOut := outputOf cap out.bytes } := by
  simp only [exec, execDefStep] at h
  split at h
  case h_3 hlife =>
    split at h <;> cases h
    exact ⟨hlife, rfl⟩
  all_goals cases h

/-- The registers INF.STEP starts with are in order (R50, R435). -/
theorem InfRegs.Ok.startStep {c : Config} {r : InfRegs} (h : r.Ok c) (name cap : Nat) :
    InfRegs.Ok c { r with outBase := name, outLim := cap, thisOut := 0 } :=
  { h with room := Nat.zero_le _, counted := Nat.zero_le _, sub := h.sub }

/-- A buffer of `cap` bytes filled from offset 0: what is stored stays below `cap`, and above it are the host's
bytes (R435). -/
theorem Output.Fills.of_buffer {p : Output} {cap total : Nat} {buf : List Byte}
    (h : Output.Fills ⟨outputOf cap buf, 0, total, cap⟩ p) :
    p.stored ≤ cap ∧ ∀ a, p.stored ≤ a → a < cap → p.mem.read a = buf.getD a 0 :=
  ⟨h.stored_le_lim (Nat.zero_le cap), fun _ hle hlt =>
    (h.read_outside (outputOf_wf ..) (.inr hle)).trans (outputOf_read hlt buf)⟩

/-! ### the canonical form, agent by agent -/

section
variable {s t : State}

theorem execInfCreate_memOk {ok : Bool} (hs : s.memOk) (h : execInfCreate ok s = .next t) : t.memOk := by
  have ⟨_, _, _, hin, hout⟩ := hs
  unfold execInfCreate at h
  split at h
  · split at h <;> cases h
    · exact ⟨rfl, rfl, rfl, hin, hout⟩
    · exact hs
  all_goals cases h

theorem execInfReset_memOk {input : Nat} {data : List Byte} (hs : s.memOk)
    (h : execInfReset input data s = .next t) : t.memOk := by
  obtain ⟨-, -, -, hin, hout⟩ := hs
  unfold execInfReset at h
  split at h
  · cases h
  all_goals
    split at h <;> cases h
    exact ⟨Memory.wf_ofBytes data, rfl, rfl, hin, hout⟩

theorem exec_infStep_memOk {out : Buffer} {cap : Nat} (hs : s.memOk) (h : exec (.infStep out cap) s = .next t) :
    t.memOk := by
  obtain ⟨hinf, -, hwin, hin, hout⟩ := hs
  obtain ⟨-, rfl⟩ := exec_infStep_next h
  exact ⟨hinf, outputOf_wf .., hwin, hin, hout⟩

theorem execInfDestroy_memOk (hs : s.memOk) (h : execInfDestroy s = .next t) : t.memOk := by
  obtain ⟨-, -, -, hin, hout⟩ := hs
  unfold execInfDestroy at h
  split at h <;> cases h <;> exact ⟨rfl, rfl, rfl, hin, hout⟩

theorem execDefCreate_memOk {ok : Bool} (hs : s.memOk) (h : execDefCreate ok s = .next t) : t.memOk := by
  have ⟨hin, hout, hwin, _, _⟩ := hs
  unfold execDefCreate at h
  split at h
  · split at h <;> cases h
    · exact ⟨hin, hout, hwin, rfl, rfl⟩
    · exact hs
  all_goals cases h

theorem execDefReset_memOk {input : Nat} {data : List Byte} {level : BitVec 2} (hs : s.memOk)
    (h : execDefReset input data level s = .next t) : t.memOk := by
  obtain ⟨hin, hout, hwin, -, -⟩ := hs
  have hreset (h : s.resetDflWith input data level = .next t) : t.memOk := by
    unfold State.resetDflWith at h
    split at h
    · cases h
    · split at h <;> cases h
      exact ⟨hin, hout, hwin, Memory.wf_ofBytes data, rfl⟩
  unfold execDefReset at h
  split at h
  · cases h
  · exact hreset h
  · exact hreset h

theorem exec_defStep_memOk {out : Buffer} {cap : Nat} (hs : s.memOk) (h : exec (.defStep out cap) s = .next t) :
    t.memOk := by
  obtain ⟨hinf, hout, hwin, hin, -⟩ := hs
  obtain ⟨-, rfl⟩ := exec_defStep_next h
  exact ⟨hinf, hout, hwin, hin, outputOf_wf ..⟩

theorem execDefDestroy_memOk (hs : s.memOk) (h : execDefDestroy s = .next t) : t.memOk := by
  obtain ⟨hin, hout, hwin, -, -⟩ := hs
  unfold execDefDestroy at h
  split at h <;> cases h <;> exact ⟨hin, hout, hwin, rfl, rfl⟩

/-- A host command loads, empties or leaves each memory. -/
theorem step_host_memOk (ht : s.turn = .host) (hs : s.memOk) (h : step s = .next t) : t.memOk := by
  obtain ⟨x, rest, -, he⟩ | ⟨-, rfl⟩ := step_host_cases ht h
  · have hrest : State.memOk { s with cmds := rest } := hs
    unfold commandOf at he
    split at he
    · exact execInfCreate_memOk hrest he
    · exact execInfReset_memOk hrest he
    · exact exec_infStep_memOk hrest he
    · exact execInfDestroy_memOk hrest he
    · exact execDefCreate_memOk hrest he
    · exact execDefReset_memOk hrest he
    · exact exec_defStep_memOk hrest he
    · exact execDefDestroy_memOk hrest he
  · exact hs

theorem emitByte_memOk (hs : s.memOk) (b : Byte) : (s.emitByte b).memOk := by
  obtain ⟨hin, hout, hwin, hdfl⟩ := hs
  exact ⟨hin, Memory.wf_write hout _ _, Memory.wf_write hwin _ _, hdfl⟩

/-- `emitByte` is the only way an INFLATE step writes a memory (R343). -/
theorem InfEnd.run_memOk (e : InfEnd) (hs : s.memOk) : (e.run s).memOk := by
  cases e with
  | stay => exact hs
  | raise c => exact hs
  | drain =>
    obtain h | ⟨n, t, h, -, ht⟩ := drainLoop_induct (P := fun _ t => t.memOk)
      (fun _ t _ h => emitByte_memOk h t.pendByte) (n := s.inf.pendLen) hs
    · exact h
    · rw [InfEnd.run, State.drainCode, ht]
      exact h
  | answer st => exact hs
  | store b => exact emitByte_memOk hs b

theorem step_dfl_memOk (ht : s.turn = .dfl) (hs : s.memOk) (h : step s = .next t) : t.memOk := by
  obtain ⟨hinf, hout, hwin, hin, hdfl⟩ := hs
  have hwf : t.dflOut.wf = true := (step_dfl_fills ht h).wf hdfl
  rw [← step_dfl_frame ht h]
  exact ⟨hinf, hout, hwin, hin, hwf⟩

end

end Sys2Proof.Machine

open Sys2Proof.Machine

/-- Settles O53, agent by agent: a command loads or empties a memory, an INFLATE step writes OUTPUT and the window by
`emitByte` and a DEFLATE step OUTPUT by `drain`, and a write keeps the canonical form. -/
theorem memoriesStayCanonical : Obligations.MemoriesStayCanonical := by
  intro s t hs h
  cases ht : s.turn with
  | host => exact step_host_memOk ht hs h
  | inf =>
    obtain ⟨q, e, -, -, rfl⟩ := step_inf_ends ht h
    exact InfEnd.run_memOk (s := { s with inf := q }) e hs
  | dfl => exact step_dfl_memOk ht hs h

/-- Settles O30: each step of an engine, and so a whole STEP, fills its OUTPUT byte by byte from THIS_OUT up. -/
theorem outputIsWrittenOnce : Obligations.OutputIsWrittenOnce := by
  refine ⟨fun s t hm hi ht h => ?_, fun s t hm hd ht h => ?_, fun s u t out cap buf hs hu ht => ?_,
    fun s u t out cap buf _ hu ht => ?_⟩
  · obtain ⟨-, hout, -⟩ := hm
    have hf := step_inf_fills ht hi h
    have hin : t.infIn = s.infIn := by rw [← step_inf_frame ht h]; rfl
    have hroom := (hi.2 (hi.1 ht)).room
    exact ⟨hin, hf.stored_le, hf.stored_le_lim hroom, hf.counted, fun _ => hf.read_outside hout⟩
  · obtain ⟨-, -, -, -, hout⟩ := hm
    have hf := step_dfl_fills ht h
    have hin : t.dflIn = s.dflIn := by rw [← step_dfl_frame ht h]; rfl
    have hroom := (hd.2 (hd.1 ht)).1.room
    exact ⟨hin, hf.stored_le, hf.stored_le_lim hroom, hf.counted, fun _ => hf.read_outside hout⟩
  · obtain ⟨hlife, rfl⟩ := exec_infStep_next hu
    exact (ht.inf_fills rfl ⟨fun _ => hlife, fun _ => (hs.inf.2 hlife).startStep out cap⟩).of_buffer
  · obtain ⟨-, rfl⟩ := exec_defStep_next hu
    exact (ht.dfl_fills rfl).of_buffer

end

section
/-! PROOFS. The decoder and the encoder undo each other, element by element (R100 to R111). -/

namespace Sys2Proof

open Machine

/-! ### fields of an element -/

theorem field_lt (x : Bits) (lo n : Nat) : field x lo n < 2 ^ n :=
  (ofBitsLE_lt _).trans_le (Nat.pow_le_pow_right (by decide) (List.length_take_le ..))

/-- Bits start with a packed value where their first field is that value. -/
theorem drop_eq_bitsLE_append_iff {x y : Bits} {lo n v : Nat} (h : lo + n ≤ x.length) :
    x.drop lo = bitsLE n v ++ y ↔ field x lo n = v % 2 ^ n ∧ x.drop (lo + n) = y := by
  have hn : ((x.drop lo).take n).length = n := by simp; omega
  have hx : x.drop lo = bitsLE n (field x lo n) ++ x.drop (lo + n) := by
    have := bitsLE_ofBitsLE ((x.drop lo).take n)
    rw [hn] at this
    rw [field, this, ← List.drop_drop, List.take_append_drop]
  constructor
  · intro h'
    have hf : field x lo n = v % 2 ^ n := by
      rw [field, h', List.take_left' (length_bitsLE n v), ofBitsLE_bitsLE]
    refine ⟨hf, ?_⟩
    rw [hx, hf, bitsLE_mod] at h'
    exact List.append_cancel_left h'
  · rintro ⟨hf, rfl⟩
    rw [hx, hf, bitsLE_mod]

theorem drop_eq_bitsLE_iff {x : Bits} {lo n v : Nat} (h : lo + n = x.length) :
    x.drop lo = bitsLE n v ↔ field x lo n = v % 2 ^ n := by
  rw [← List.append_nil (bitsLE n v), drop_eq_bitsLE_append_iff h.le]
  simp [h]

theorem ofNat_field_eq_iff {x : Bits} {lo n : Nat} {v : BitVec n} :
    BitVec.ofNat n (field x lo n) = v ↔ field x lo n = v.toNat % 2 ^ n := by
  rw [← BitVec.toNat_inj, BitVec.toNat_ofNat, Nat.mod_eq_of_lt (field_lt ..), Nat.mod_eq_of_lt v.isLt]

theorem decide_field_eq_iff {x : Bits} {lo : Nat} {b : Bool} :
    decide (field x lo 1 = 1) = b ↔ field x lo 1 = b.toNat % 2 ^ 1 := by
  have := field_lt x lo 1
  cases b
  · simp
    omega
  · simp

/-! ### elements of fixed width -/

/-- Of the `n`-bit strings exactly `e` is read as `i` (`x.drop 0`, as the fields of `x` are split off from bit 0 on). -/
def ReadsOnly (n : Nat) (mk : Bits → Instr) (i : Instr) (e : Bits) : Prop :=
  e.length = n ∧ ∀ x : Bits, x.length = n → (mk x = i ↔ x.drop 0 = e)

theorem decodeFixed_ok_iff {n used : Nat} {short : Cause} {bs : Bits} {mk : Bits → Instr} {i : Instr} :
    decodeFixed n short bs mk = .ok i used ↔ n ≤ bs.length ∧ used = n ∧ mk (bs.take n) = i := by
  unfold decodeFixed
  by_cases h : n ≤ bs.length
  · rw [takeBits_eq h]
    simp [h, and_comm, eq_comm]
  · rw [takeBits_short (by omega)]
    simp [h]

/-- An element of fixed width is read exactly where its encoding stands. -/
theorem ReadsOnly.decodeFixed_iff {n used : Nat} {mk : Bits → Instr} {i : Instr} {e bs : Bits} {short : Cause}
    (h : ReadsOnly n mk i e) : decodeFixed n short bs mk = .ok i used ↔ used = e.length ∧ e <+: bs := by
  obtain ⟨rfl, he⟩ := h
  rw [decodeFixed_ok_iff, List.prefix_iff_eq_take]
  constructor
  · rintro ⟨hl, rfl, hm⟩
    exact ⟨rfl, ((he _ (by simpa using hl)).1 hm).symm⟩
  · rintro ⟨rfl, hp⟩
    have hl : e.length ≤ bs.length := by rw [hp]; exact List.length_take_le' ..
    exact ⟨hl, rfl, (he _ (by simpa using hl)).2 hp.symm⟩

theorem readsOnly_zhdr (ctx : EncCtx) (cm cinfo : BitVec 4) (fcheck : BitVec 5) (fdict : Bool) (flevel : BitVec 2) :
    ReadsOnly 16 mkZhdr (.zhdr cm cinfo fcheck fdict flevel) (encode ctx (.zhdr cm cinfo fcheck fdict flevel)) := by
  have he : encode ctx (.zhdr cm cinfo fcheck fdict flevel) = bitsLE 4 cm.toNat ++ (bitsLE 4 cinfo.toNat ++
    (bitsLE 5 fcheck.toNat ++ (bitsLE 1 fdict.toNat ++ bitsLE 2 flevel.toNat))) := by
    simp only [← List.append_assoc]
    rfl
  refine ⟨by simp [he], fun x hx => ?_⟩
  rw [he]
  rw [drop_eq_bitsLE_append_iff (by omega), drop_eq_bitsLE_append_iff (by omega), drop_eq_bitsLE_append_iff (by omega),
    drop_eq_bitsLE_append_iff (by omega), drop_eq_bitsLE_iff (by omega)]
  simp only [mkZhdr, Instr.zhdr.injEq, ofNat_field_eq_iff, decide_field_eq_iff]

theorem field32BE_eq_iff {x : Bits} (hx : x.length = 32) (v : BitVec 32) :
    field32BE x = v ↔ x.drop 0 = bits32BE v := by
  simp only [bits32BE, List.append_assoc]
  rw [drop_eq_bitsLE_append_iff (by omega), drop_eq_bitsLE_append_iff (by omega), drop_eq_bitsLE_append_iff (by omega),
    drop_eq_bitsLE_iff (by omega), ← BitVec.toNat_inj, field32BE, BitVec.toNat_ofNat]
  have h0 := field_lt x 0 8
  have h1 := field_lt x 8 8
  have h2 := field_lt x 16 8
  have h3 := field_lt x 24 8
  have := v.isLt
  simp only [Nat.zero_add, Nat.reduceAdd]
  omega

theorem length_bits32BE (v : BitVec 32) : (bits32BE v).length = 32 := by simp [bits32BE]

/-- The block header of each BTYPE (R322). -/
theorem readsOnly_bhdr (f : Bool) :
    ReadsOnly 3 mkBhdr (.bhdrStored f) (bitsBhdr f 0) ∧ ReadsOnly 3 mkBhdr (.bhdrFixed f) (bitsBhdr f 1) ∧
    ReadsOnly 3 mkBhdr (.bhdrDynamic f) (bitsBhdr f 2) ∧ ReadsOnly 3 mkBhdr (.bhdrReserved f) (bitsBhdr f 3) := by
  have hb (b : Nat) {x : Bits} (hx : x.length = 3) :
      x.drop 0 = bitsBhdr f b ↔ decide (field x 0 1 = 1) = f ∧ field x 1 2 = b % 2 ^ 2 := by
    rw [bitsBhdr, drop_eq_bitsLE_append_iff (by omega), drop_eq_bitsLE_iff (by omega), decide_field_eq_iff]
  have ht (x : Bits) : field x 1 2 = 0 ∨ field x 1 2 = 1 ∨ field x 1 2 = 2 ∨ field x 1 2 = 3 := by
    have := field_lt x 1 2
    omega
  refine ⟨⟨by simp [bitsBhdr], fun x hx => ?_⟩, ⟨by simp [bitsBhdr], fun x hx => ?_⟩,
    ⟨by simp [bitsBhdr], fun x hx => ?_⟩, ⟨by simp [bitsBhdr], fun x hx => ?_⟩⟩
  all_goals
    rw [hb _ hx]
    obtain h | h | h | h := ht x <;> simp [mkBhdr, h]

theorem readsOnly_shdr (ctx : EncCtx) (len nlen : BitVec 16) :
    ReadsOnly 32 mkShdr (.shdr len nlen) (encode ctx (.shdr len nlen)) := by
  have he : encode ctx (.shdr len nlen) = bitsLE 16 len.toNat ++ bitsLE 16 nlen.toNat := rfl
  refine ⟨by simp [he], fun x hx => ?_⟩
  rw [he, drop_eq_bitsLE_append_iff (by omega), drop_eq_bitsLE_iff (by omega)]
  simp only [mkShdr, Instr.shdr.injEq, ofNat_field_eq_iff]

theorem readsOnly_raw (ctx : EncCtx) (b : Byte) : ReadsOnly 8 mkRaw (.raw b) (encode ctx (.raw b)) := by
  refine ⟨length_bitsLE .., fun x hx => ?_⟩
  rw [show encode ctx (.raw b) = bitsLE 8 b.toNat from rfl, drop_eq_bitsLE_iff (by omega)]
  simp only [mkRaw, Instr.raw.injEq, ofNat_field_eq_iff]

theorem readsOnly_dynhdr (ctx : EncCtx) (hlit hdist : BitVec 5) (hclen : BitVec 4) :
    ReadsOnly 14 mkDynhdr (.dynhdr hlit hdist hclen) (encode ctx (.dynhdr hlit hdist hclen)) := by
  have he : encode ctx (.dynhdr hlit hdist hclen) =
      bitsLE 5 hlit.toNat ++ (bitsLE 5 hdist.toNat ++ bitsLE 4 hclen.toNat) := List.append_assoc ..
  refine ⟨by simp [he], fun x hx => ?_⟩
  rw [he, drop_eq_bitsLE_append_iff (by omega), drop_eq_bitsLE_append_iff (by omega), drop_eq_bitsLE_iff (by omega)]
  simp only [mkDynhdr, Instr.dynhdr.injEq, ofNat_field_eq_iff]

theorem readsOnly_cllens (ctx : EncCtx) (len : BitVec 3) :
    ReadsOnly 3 mkCllens (.cllens len) (encode ctx (.cllens len)) := by
  refine ⟨length_bitsLE .., fun x hx => ?_⟩
  rw [show encode ctx (.cllens len) = bitsLE 3 len.toNat from rfl, drop_eq_bitsLE_iff (by omega)]
  simp only [mkCllens, Instr.cllens.injEq, ofNat_field_eq_iff]

/-- The command codes and the commands (R109). -/
theorem commandOf_eq_iff {c d : Nat} {i : Instr} (hc : c < 8) (hi : commandCode i = some d) :
    commandOf c (opsOf i) = i ↔ c = d := by
  constructor
  · intro h
    have hcode : ∀ c < 8, commandCode (commandOf c (opsOf i)) = some c := by
      intro c hc
      interval_cases c <;> rfl
    rw [← h, hcode c hc] at hi
    exact Option.some.inj hi
  · rintro rfl
    cases i <;> cases hi <;> rfl

theorem commandCode_lt {i : Instr} {c : Nat} (h : commandCode i = some c) : c < 8 := by
  cases i <;> cases h <;> decide

theorem readsOnly_command {i : Instr} {c : Nat} (h : commandCode i = some c) :
    ReadsOnly 3 (fun x => commandOf (field x 0 3) (opsOf i)) i (bitsLE 3 c) := by
  refine ⟨length_bitsLE .., fun x hx => ?_⟩
  rw [drop_eq_bitsLE_iff (by omega), commandOf_eq_iff (field_lt x 0 3) h,
    Nat.mod_eq_of_lt (b := 2 ^ 3) (commandCode_lt h)]

/-! ### Huffman-coded elements -/

/-- The elements of an alphabet are its symbols with their extra bits (R110): `mk` and `parts` undo each other. -/
structure Alphabet (mk : Nat → Nat → Option Instr) (extra : Nat → Nat) (parts : Instr → Option (Nat × Nat × Nat)) :
    Prop where
  mk_parts {i : Instr} {s n x : Nat} : parts i = some (s, n, x) → n = extra s ∧ x < 2 ^ n ∧ mk s x = some i
  parts_mk {s x : Nat} {i : Instr} : x < 2 ^ extra s → mk s x = some i → parts i = some (s, extra s, x)

theorem parts_of_noExtra {s x : Nat} (h : x < 2 ^ 0) : some (s, 0, 0) = some (s, 0, x) := by
  obtain rfl : x = 0 := by omega
  rfl

theorem parts_of_extra {s n x : Nat} (h : x < 2 ^ n) : some (s, n, (BitVec.ofNat n x).toNat) = some (s, n, x) := by
  rw [BitVec.toNat_ofNat, Nat.mod_eq_of_lt h]

theorem llOf_of_lt {s : Nat} (h : s < 256) (x : Nat) : llOf s x = some (.lit (BitVec.ofNat 8 s)) := by
  unfold llOf
  split
  case h_33 => rw [if_pos h]
  all_goals omega

/-- The lit/len alphabet (R520 to R551). -/
theorem alphabet_ll : Alphabet llOf llExtra llParts where
  mk_parts {i s n x} h := by
    cases i
    case lit b =>
      cases h
      refine ⟨?_, by decide, by simp [llOf_of_lt b.isLt]⟩
      have := b.isLt
      rw [llExtra, if_neg (by omega)]
    all_goals cases h <;> exact ⟨rfl, by omega, by simp [llOf]⟩
  parts_mk {s x i} hx h := by
    unfold llOf at h
    split at h
    case h_33 =>
      split at h <;> cases h
      have h0 : llExtra s = 0 := by rw [llExtra, if_neg (by omega)]
      rw [h0] at hx ⊢
      obtain rfl : x = 0 := by omega
      exact congrArg (fun v => some (v, 0, 0)) (Nat.mod_eq_of_lt (b := 2 ^ 8) ‹_›)
    case h_1 | h_2 | h_3 | h_4 | h_5 | h_6 | h_7 | h_8 | h_9 | h_30 | h_31 | h_32 =>
      cases h
      exact parts_of_noExtra hx
    all_goals
      cases h
      exact parts_of_extra hx

/-- The distance alphabet (R553 to R583). -/
theorem alphabet_d : Alphabet dOf dExtra dParts where
  mk_parts {i s n x} h := by
    cases i <;> cases h <;> exact ⟨rfl, by omega, by simp [dOf]⟩
  parts_mk {s x i} hx h := by
    unfold dOf at h
    split at h <;> cases h
    case h_1 | h_2 | h_3 | h_4 | h_31 | h_32 => exact parts_of_noExtra hx
    all_goals exact parts_of_extra hx

/-- The code-length alphabet (R584 to R587). -/
theorem alphabet_cl : Alphabet clOf clExtra clParts where
  mk_parts {i s n x} h := by
    cases i
    case cl v =>
      cases h
      have := v.isLt
      refine ⟨?_, by decide, ?_⟩
      · simp only [clExtra]
        split_ifs <;> omega
      · unfold clOf
        split
        case h_4 => rw [if_pos (by omega), BitVec.ofNat_toNat, BitVec.setWidth_eq]
        all_goals omega
    all_goals cases h <;> exact ⟨rfl, by omega, by simp [clOf]⟩
  parts_mk {s x i} hx h := by
    unfold clOf at h
    split at h
    case h_4 =>
      split at h <;> cases h
      have h0 : clExtra s = 0 := by
        simp only [clExtra]
        split_ifs <;> omega
      rw [h0] at hx ⊢
      obtain rfl : x = 0 := by omega
      exact congrArg (fun v => some (v, 0, 0)) (Nat.mod_eq_of_lt (b := 2 ^ 4) ‹_›)
    all_goals
      cases h
      exact parts_of_extra hx

/-- A used symbol's code leads to it (R181). -/
theorem walk_symbolBits {len : List Nat} {t : Trie} {s : Nat} (rest : Bits) (ht : buildDecodeTree len = some t)
    (hs : len.getD s 0 ≠ 0) : t.walk (symbolBits len s ++ rest) = .found s (len.getD s 0) rest := by
  have hl : (symbolBits len s).length = len.getD s 0 := length_bitsBE ..
  have hn : symbolBits len s ≠ [] := List.ne_nil_of_length_pos (by omega)
  rw [Trie.walk, Trie.walkFrom_of_lookup hn ((lookup_buildDecodeTree ht _ s).2 ⟨hs, rfl⟩), hl, Nat.zero_add]

/-- What the walk finds under a built trie is the symbol whose code the bits start with (R177, R178). -/
theorem walk_eq_found_iff {len : List Nat} {t : Trie} {bs rest : Bits} {s used : Nat}
    (ht : buildDecodeTree len = some t) :
    t.walk bs = .found s used rest ↔
      len.getD s 0 ≠ 0 ∧ used = len.getD s 0 ∧ bs = symbolBits len s ++ rest := by
  constructor
  · intro h
    obtain ⟨p, -, rfl, rfl, hp⟩ := Trie.lookup_of_walkFrom h
    obtain ⟨hs, rfl⟩ := (lookup_buildDecodeTree ht p s).1 hp
    exact ⟨hs, by simp [symbolBits], rfl⟩
  · rintro ⟨hs, rfl, rfl⟩
    exact walk_symbolBits rest ht hs

/-- Without a cause between the two, a symbol's element is read where its code and its extra bits stand. -/
theorem decodeSym_ok_iff {t : Trie} {extra : Nat → Nat} {mk : Nat → Nat → Option Instr} {bs : Bits} {i : Instr}
    {used : Nat} :
    decodeSym t extra mk (fun _ => none) bs = .ok i used ↔
      ∃ s k rest, t.walk bs = .found s k rest ∧ extra s ≤ rest.length ∧
        mk s (ofBitsLE (rest.take (extra s))) = some i ∧ used = k + extra s := by
  unfold decodeSym
  cases t.walk bs with
  | exhausted k => simp
  | walkOff k => simp
  | found s k rest =>
    by_cases hr : extra s ≤ rest.length
    · simp only [takeBits_eq hr, Walk.found.injEq]
      cases hm : mk s (ofBitsLE (rest.take (extra s))) with
      | none =>
        simp only [reduceCtorEq, false_iff]
        rintro ⟨_, _, _, ⟨rfl, rfl, rfl⟩, -, h, -⟩
        simp [hm] at h
      | some j =>
        simp only [Decoded.ok.injEq]
        constructor
        · rintro ⟨rfl, rfl⟩
          exact ⟨s, k, rest, ⟨rfl, rfl, rfl⟩, hr, hm, rfl⟩
        · rintro ⟨_, _, _, ⟨rfl, rfl, rfl⟩, -, h, rfl⟩
          exact ⟨Option.some.inj (hm.symm.trans h), rfl⟩
    · simp only [takeBits_short (not_le.1 hr), Walk.found.injEq, reduceCtorEq, false_iff]
      rintro ⟨_, _, _, ⟨rfl, rfl, rfl⟩, h, -⟩
      exact hr h

theorem length_bitsSym (len : List Nat) (p : Nat × Nat × Nat) : (bitsSym len p).length = len.getD p.1 0 + p.2.1 := by
  simp [bitsSym, symbolBits]

/-- A Huffman-coded element is read exactly where its encoding stands and its symbol has a code. -/
theorem Alphabet.decodeSym_iff {mk : Nat → Nat → Option Instr} {extra : Nat → Nat}
    {parts : Instr → Option (Nat × Nat × Nat)} (ha : Alphabet mk extra parts) {len : List Nat} {t : Trie}
    (ht : buildDecodeTree len = some t) {i : Instr} {p : Nat × Nat × Nat} (hp : parts i = some p) {bs : Bits}
    {used : Nat} :
    decodeSym t extra mk (fun _ => none) bs = .ok i used ↔
      used = (bitsSym len p).length ∧ bitsSym len p <+: bs ∧ len.getD p.1 0 ≠ 0 := by
  rw [decodeSym_ok_iff, length_bitsSym]
  constructor
  · rintro ⟨s, k, rest, hw, hr, hm, rfl⟩
    obtain ⟨hs, rfl, rfl⟩ := (walk_eq_found_iff ht).1 hw
    have hl : (rest.take (extra s)).length = extra s := by simpa using hr
    have hx : ofBitsLE (rest.take (extra s)) < 2 ^ extra s := by simpa only [hl] using ofBitsLE_lt (rest.take (extra s))
    cases hp.symm.trans (ha.parts_mk hx hm)
    have hb := bitsLE_ofBitsLE (rest.take (extra s))
    rw [hl] at hb
    refine ⟨rfl, ?_, hs⟩
    rw [bitsSym, hb]
    exact (List.prefix_append_right_inj _).2 (List.take_prefix ..)
  · rintro ⟨rfl, ⟨rest, rfl⟩, hs⟩
    obtain ⟨s, n, x⟩ := p
    obtain ⟨rfl, hx, hm⟩ := ha.mk_parts hp
    refine ⟨s, len.getD s 0, bitsLE (extra s) x ++ rest, ?_, by simp, ?_, rfl⟩
    · rw [bitsSym, List.append_assoc, walk_symbolBits _ ht hs]
    · rw [List.take_left' (length_bitsLE ..), ofBitsLE_bitsLE, Nat.mod_eq_of_lt hx, hm]

/-! ### every element -/

theorem clStop_false : clStop false = fun _ => none := by
  funext s
  simp [clStop]

theorem decodeRaw_iff {bs : Bits} {i : Instr} {used : Nat} {short : Cause} :
    decodeAt .raw bs = .ok i used ↔ decodeFixed 8 short bs mkRaw = .ok i used := by
  simp only [decodeAt, decodeFixed]
  cases takeBits 8 bs <;> simp

theorem otherParts_of_llParts {i : Instr} {p : Nat × Nat × Nat} (h : llParts i = some p) :
    dParts i = none ∧ clParts i = none := by
  cases i <;> cases h <;> exact ⟨rfl, rfl⟩

theorem clParts_of_dParts {i : Instr} {p : Nat × Nat × Nat} (h : dParts i = some p) : clParts i = none := by
  cases i <;> cases h <;> rfl

theorem otherParts_of_clParts {i : Instr} {p : Nat × Nat × Nat} (h : clParts i = some p) :
    llParts i = none ∧ dParts i = none := by
  cases i <;> cases h <;> exact ⟨rfl, rfl⟩

theorem decodeAt_of_llParts {ctx : EncCtx} {t : Trees} {i : Instr} {p : Nat × Nat × Nat} (h : llParts i = some p) :
    decodeAt (posOf ctx t i) = decodeSym t.ll llExtra llOf (fun _ => none) ∧ encode ctx i = bitsSym ctx.llLen p := by
  cases i <;> cases h <;> exact ⟨rfl, rfl⟩

theorem decodeAt_of_dParts {ctx : EncCtx} {t : Trees} {i : Instr} {p : Nat × Nat × Nat} (h : dParts i = some p) :
    decodeAt (posOf ctx t i) = decodeSym t.d dExtra dOf (fun _ => none) ∧ encode ctx i = bitsSym ctx.dLen p := by
  cases i <;> cases h <;> exact ⟨rfl, rfl⟩

theorem decodeAt_of_clParts {ctx : EncCtx} {t : Trees} {i : Instr} {p : Nat × Nat × Nat} (h : clParts i = some p) :
    decodeAt (posOf ctx t i) = decodeSym t.cl clExtra clOf (fun _ => none) ∧ encode ctx i = bitsSym ctx.clLen p := by
  rw [← clStop_false]
  cases i <;> cases h <;> exact ⟨rfl, rfl⟩

theorem decodeAt_of_commandCode {ctx : EncCtx} {t : Trees} {i : Instr} {c : Nat} (h : commandCode i = some c) :
    decodeAt (posOf ctx t i) = (decodeFixed 3 .inputExhausted · fun x => commandOf (field x 0 3) (opsOf i)) ∧
    encode ctx i = bitsLE 3 c := by
  cases i <;> cases h <;> exact ⟨rfl, rfl⟩

/-- An element that is no symbol and no padding is read exactly where its encoding stands. -/
theorem decodeAt_fixed_iff {ctx : EncCtx} {t : Trees} {i : Instr} (hi : i ≠ .pad) (hl : llParts i = none)
    (hd : dParts i = none) (hc : clParts i = none) {bs : Bits} {used : Nat} :
    decodeAt (posOf ctx t i) bs = .ok i used ↔ used = (encode ctx i).length ∧ encode ctx i <+: bs := by
  cases hcode : commandCode i with
  | some c =>
    obtain ⟨hdec, henc⟩ := decodeAt_of_commandCode (ctx := ctx) (t := t) hcode
    rw [hdec, henc]
    exact (readsOnly_command hcode).decodeFixed_iff
  | none =>
    cases i
    case zhdr => exact (readsOnly_zhdr ..).decodeFixed_iff
    case dictid id =>
      exact ReadsOnly.decodeFixed_iff ⟨length_bits32BE id, fun x hx => by
        rw [mkDictid, Instr.dictid.injEq, field32BE_eq_iff hx]
        rfl⟩
    case trailer a =>
      exact ReadsOnly.decodeFixed_iff ⟨length_bits32BE a, fun x hx => by
        rw [mkTrailer, Instr.trailer.injEq, field32BE_eq_iff hx]
        rfl⟩
    case bhdrStored f => exact (readsOnly_bhdr f).1.decodeFixed_iff
    case bhdrFixed f => exact (readsOnly_bhdr f).2.1.decodeFixed_iff
    case bhdrDynamic f => exact (readsOnly_bhdr f).2.2.1.decodeFixed_iff
    case bhdrReserved f => exact (readsOnly_bhdr f).2.2.2.decodeFixed_iff
    case pad => exact absurd rfl hi
    case shdr => exact (readsOnly_shdr ..).decodeFixed_iff
    case raw b => exact decodeRaw_iff.trans ((readsOnly_raw ctx b).decodeFixed_iff (short := .inputExhausted))
    case dynhdr => exact (readsOnly_dynhdr ..).decodeFixed_iff
    case cllens => exact (readsOnly_cllens ..).decodeFixed_iff
    all_goals exact nomatch hl, hd, hc, hcode

/-- An element other than PAD is read at its position exactly where its encoding stands and, if it is a symbol, the
table gives it a code. -/
theorem decodeAt_posOf_iff {ctx : EncCtx} {t : Trees} {i : Instr} (ht : treesOf ctx t) (hi : i ≠ .pad) {bs : Bits}
    {used : Nat} :
    decodeAt (posOf ctx t i) bs = .ok i used ↔ used = (encode ctx i).length ∧ encode ctx i <+: bs ∧ hasCode ctx i := by
  obtain ⟨hll, hd, hcl⟩ := ht
  cases hlp : llParts i with
  | some p =>
    have hcode : hasCode ctx i ↔ ctx.llLen.getD p.1 0 ≠ 0 := by simp [hasCode, hlp, otherParts_of_llParts hlp]
    obtain ⟨hdec, henc⟩ := decodeAt_of_llParts (ctx := ctx) (t := t) hlp
    rw [hdec, henc, hcode]
    exact alphabet_ll.decodeSym_iff hll hlp
  | none =>
    cases hdp : dParts i with
    | some p =>
      have hcode : hasCode ctx i ↔ ctx.dLen.getD p.1 0 ≠ 0 := by simp [hasCode, hlp, hdp, clParts_of_dParts hdp]
      obtain ⟨hdec, henc⟩ := decodeAt_of_dParts (ctx := ctx) (t := t) hdp
      rw [hdec, henc, hcode]
      exact alphabet_d.decodeSym_iff hd hdp
    | none =>
      cases hcp : clParts i with
      | some p =>
        have hcode : hasCode ctx i ↔ ctx.clLen.getD p.1 0 ≠ 0 := by simp [hasCode, hlp, hdp, hcp]
        obtain ⟨hdec, henc⟩ := decodeAt_of_clParts (ctx := ctx) (t := t) hcp
        rw [hdec, henc, hcode]
        exact alphabet_cl.decodeSym_iff hcl hcp
      | none =>
        rw [decodeAt_fixed_iff hi hlp hdp hcp]
        simp [hasCode, hlp, hdp, hcp]

/-! ### what is rejected (R143, R178, R453) -/

theorem decodeFixed_short {n : Nat} {short : Cause} {bs : Bits} {mk : Bits → Instr} (h : bs.length < n) :
    decodeFixed n short bs mk = .reject short bs.length := by
  rw [decodeFixed, takeBits_short h]

/-- The rejections of a Huffman-coded element are those of its walk, and of extra bits cut short. -/
theorem rejectsSymbols {p : Pos} {t : Trie} {extra : Nat → Nat} {mk : Nat → Nat → Option Instr}
    {stop : Nat → Option Cause} {stops : Nat → Prop} (hp : decodeAt p = decodeSym t extra mk stop)
    (hs : ∀ s, ¬ stops s → stop s = none) : RejectsSymbols p t extra stops := by
  refine ⟨fun pre b rest hgo hnil => ?_, fun bs hgo => ?_, fun pre rest s hend hns hr => ?_⟩
  · have hc : (pre.foldl Trie.child t).child b = .nil := by simpa using hnil
    rw [hp, decodeSym, Trie.walk, walkFrom_of_goesOn _ _ hgo, Trie.walkFrom, hc]
    simp
  · have hw := walkFrom_of_goesOn [] 0 hgo
    rw [List.append_nil] at hw
    rw [hp, decodeSym, Trie.walk, hw, Trie.walkFrom]
    simp
  · rw [hp, decodeSym, walk_of_endsAt rest hend]
    simp [hs s hns, takeBits_short hr]

end Sys2Proof

open Sys2Proof Sys2Proof.Machine

/-- Settles O1: an element is read exactly where its encoding stands; padding is read whatever its bits. -/
theorem decodeOfEncode : Obligations.DecodeOfEncode := by
  intro ctx t i rest ht hc
  by_cases hi : i = .pad
  · subst hi
    have he : encode ctx .pad = bitsLE ctx.padWidth 0 := rfl
    exact decodeFixed_ok_iff.2 ⟨by simp [he], length_bitsLE .., rfl⟩
  · exact (decodeAt_posOf_iff ht hi).2 ⟨rfl, List.prefix_append .., hc⟩

/-- Settles O2: what is read stands there as its encoding; a short element, and each way a walk can end without a
symbol, is rejected. -/
theorem encodeOfDecode : Obligations.EncodeOfDecode := by
  refine ⟨fun ctx t i bs used ht hi h => ?_, fun bs => ⟨?_, fun hl => ?_⟩,
    fun t => ⟨?_, ?_, ?_, ?_, fun pre rest h => ?_⟩⟩
  · obtain ⟨rfl, hp, -⟩ := (decodeAt_posOf_iff ht hi).1 h
    exact (List.prefix_iff_eq_take.1 hp).symm
  · intro p n c hmem hl
    simp only [List.mem_cons, Prod.mk.injEq, List.not_mem_nil, or_false] at hmem
    obtain ⟨rfl, rfl, rfl⟩ | ⟨rfl, rfl, rfl⟩ | ⟨rfl, rfl, rfl⟩ | ⟨rfl, rfl, rfl⟩ | ⟨rfl, rfl, rfl⟩ |
      ⟨rfl, rfl, rfl⟩ := hmem <;> exact decodeFixed_short hl
  · simp only [decodeAt, takeBits_short hl]
  · exact rejectsSymbols (stop := fun _ => none) rfl fun _ _ => rfl
  · exact rejectsSymbols (stop := fun _ => none) rfl fun _ _ => rfl
  · exact rejectsSymbols (stop := clStop false) rfl fun _ _ => by rw [clStop_false]
  · exact rejectsSymbols (stop := clStop true) rfl fun s hs => by simp [clStop, hs]
  · simp only [decodeAt, decodeSym, walk_of_endsAt rest h, clStop, and_self, if_true]

end

section
/-! PROOFS. The fixed tries (R122, R179): their codes by range, and that no walk on them walks off. -/

namespace Sys2Proof

open Machine

/-! ### complete tries -/

/-- Every path of the trie goes on to a leaf. -/
def Trie.Complete : Trie → Prop
  | .nil => False
  | .leaf _ => True
  | .node z o => z.Complete ∧ o.Complete

theorem Trie.Complete.walkFrom_ne_walkOff {z o : Trie} (h : (Trie.node z o).Complete) (bs : Bits) (u v : Nat) :
    (Trie.node z o).walkFrom bs u ≠ .walkOff v := by
  induction bs generalizing z o u with
  | nil => simp [Trie.walkFrom]
  | cons b bs ih =>
    have hc : ((Trie.node z o).child b).Complete := by
      obtain ⟨hz, ho⟩ := h
      cases b
      · exact hz
      · exact ho
    rw [Trie.walkFrom]
    cases hb : (Trie.node z o).child b with
    | nil => rw [hb] at hc; exact hc.elim
    | leaf s => simp
    | node z' o' => rw [hb] at hc; exact ih hc (u + 1)

theorem complete_fullTrie (d s : Nat) : (fullTrie d s).Complete := by
  induction d generalizing s with
  | zero => trivial
  | succ d ih => exact ⟨ih s, ih _⟩

theorem complete_ftreeLl : ftreeLl.Complete := by
  simp [ftreeLl, Trie.Complete, complete_fullTrie]

/-! ### the codes of the fixed lit/len table by range (R113, R122) -/

/-- The length and the value of the fixed code of a lit/len symbol. -/
def fixedCode (s : Nat) : Nat × Nat :=
  if s < 144 then (8, 48 + s) else if s < 256 then (9, 256 + s) else if s < 280 then (7, s - 256) else (8, s - 88)

theorem zip_assignCodes_fixLlLen : fixLlLen.zip (assignCodes fixLlLen) = (List.range 288).map fixedCode := by
  decide +kernel

theorem fixedCode_spec {s : Nat} (h : s < 288) :
    fixLlLen.getD s 0 = (fixedCode s).1 ∧ (assignCodes fixLlLen).getD s 0 = (fixedCode s).2 := by
  have hl : fixLlLen.length = 288 := by decide +kernel
  have hz := congrArg (·[s]?) zip_assignCodes_fixLlLen
  have hs : s < fixLlLen.length := by omega
  simp [hs, h] at hz
  simp [List.getD_eq_getElem?_getD, hs, ← hz]

theorem ofBitsBE_bitsBE (n v : Nat) : ofBitsBE (bitsBE n v) = v % 2 ^ n := by
  simp [ofBitsBE, bitsBE, ofBitsLE_bitsLE]

theorem bitsBE_ofBitsBE (c : Bits) : bitsBE c.length (ofBitsBE c) = c := by
  have := bitsLE_ofBitsLE c.reverse
  rw [List.length_reverse] at this
  rw [bitsBE, ofBitsBE, this, List.reverse_reverse]

theorem ofBitsBE_concat (c : Bits) (b : Bool) : ofBitsBE (c ++ [b]) = 2 * ofBitsBE c + b.toNat := by
  simp [ofBitsBE, ofBitsLE, Nat.add_comm]

theorem ofBitsBE_lt (c : Bits) : ofBitsBE c < 2 ^ c.length := by
  simpa [ofBitsBE] using ofBitsLE_lt c.reverse

/-- The bits of a fixed lit/len symbol are those of its length that have its value. -/
theorem symbolBits_fixLlLen_iff {s : Nat} (h : s < 288) (c : Bits) :
    c = symbolBits fixLlLen s ↔ fixedCode s = (c.length, ofBitsBE c) := by
  obtain ⟨hl, hv⟩ := fixedCode_spec h
  rw [symbolBits, hl, hv]
  constructor
  · rintro rfl
    have hlt : (fixedCode s).2 < 2 ^ (fixedCode s).1 := by
      unfold fixedCode
      split_ifs <;> simp <;> omega
    rw [length_bitsBE, ofBitsBE_bitsBE, Nat.mod_eq_of_lt hlt]
  · intro hc
    rw [hc, bitsBE_ofBitsBE]

/-- A fixed code stands at the head of the bits. -/
def StartsWithCode (bs : Bits) (s used : Nat) : Prop :=
  ∃ c rest, bs = c ++ rest ∧ used = c.length ∧ s < 288 ∧ fixedCode s = (c.length, ofBitsBE c)

theorem walk_ftreeLl_iff {bs : Bits} {s used : Nat} :
    (∃ rest, ftreeLl.walk bs = .found s used rest) ↔ StartsWithCode bs s used := by
  have hl : fixLlLen.length = 288 := by decide +kernel
  simp only [walk_eq_found_iff ftreeLl_eq]
  constructor
  · rintro ⟨rest, hs, rfl, rfl⟩
    have h : s < 288 := by
      by_contra hc
      simp [List.getD_eq_getElem?_getD, List.getElem?_eq_none (by omega : fixLlLen.length ≤ s)] at hs
    exact ⟨_, rest, rfl, by simp [symbolBits], h, (symbolBits_fixLlLen_iff h _).1 rfl⟩
  · rintro ⟨c, rest, rfl, rfl, h, hc⟩
    obtain ⟨hn, -⟩ := fixedCode_spec h
    have hpos : (fixedCode s).1 ≠ 0 := by
      unfold fixedCode
      split_ifs <;> simp
    rw [hn, ← (symbolBits_fixLlLen_iff h c).2 hc]
    exact ⟨rest, hpos, by rw [hc], rfl⟩

/-- The comparisons of R122 on the first seven bits, and on the bits that follow. -/
theorem fixedPrefixDecode_append {h : Bits} (hl : h.length = 7) (r : Bits) :
    fixedPrefixDecode (h ++ r) =
      if ofBitsBE h ≤ 23 then some (256 + ofBitsBE h, 7)
      else match r with
        | [] => none
        | b8 :: r8 =>
          if 48 ≤ ofBitsBE (h ++ [b8]) ∧ ofBitsBE (h ++ [b8]) ≤ 191 then some (ofBitsBE (h ++ [b8]) - 48, 8)
          else if 192 ≤ ofBitsBE (h ++ [b8]) ∧ ofBitsBE (h ++ [b8]) ≤ 199 then
            some (280 + (ofBitsBE (h ++ [b8]) - 192), 8)
          else match r8 with
            | [] => none
            | b9 :: _ => some (144 + (ofBitsBE (h ++ [b8] ++ [b9]) - 400), 9) := by
  have ht : takeBits 7 (h ++ r) = some (h, r) := by rw [← hl, takeBits_append]
  rw [fixedPrefixDecode, ht]
  match r with
  | [] => rfl
  | [b8] => simp only [ofBitsBE_concat]
  | b8 :: b9 :: r9 => simp only [ofBitsBE_concat]

/-- The code ranges of R122. -/
theorem fixedCode_eq_iff {s n v : Nat} :
    s < 288 ∧ fixedCode s = (n, v) ↔
      (n = 7 ∧ v ≤ 23 ∧ s = 256 + v) ∨ (n = 8 ∧ 48 ≤ v ∧ v ≤ 191 ∧ s = v - 48) ∨
      (n = 8 ∧ 192 ≤ v ∧ v ≤ 199 ∧ s = 280 + (v - 192)) ∨ (n = 9 ∧ 400 ≤ v ∧ v < 512 ∧ s = 144 + (v - 400)) := by
  unfold fixedCode
  split_ifs <;> rw [Prod.mk.injEq] <;> omega

/-- What R122's decoding gives is the symbol whose code stands at the head of the bits. -/
theorem startsWithCode_of_fixedPrefixDecode {bs : Bits} {s used : Nat} (hd : fixedPrefixDecode bs = some (s, used)) :
    StartsWithCode bs s used := by
  simp only [StartsWithCode, fixedCode_eq_iff]
  by_cases hb : bs.length < 7
  · simp [fixedPrefixDecode, takeBits_short hb] at hd
  obtain ⟨h, r, rfl, hl⟩ : ∃ h r, bs = h ++ r ∧ h.length = 7 :=
    ⟨bs.take 7, bs.drop 7, (List.take_append_drop ..).symm, by simp; omega⟩
  rw [fixedPrefixDecode_append hl] at hd
  split_ifs at hd with hv
  · simp only [Option.some.injEq, Prod.mk.injEq] at hd
    exact ⟨h, r, rfl, by omega, by omega⟩
  · cases r with
    | nil => cases hd
    | cons b8 r8 =>
      have h8 := ofBitsBE_concat h b8
      have hl8 : (h ++ [b8]).length = 8 := by simp [hl]
      dsimp only at hd
      split_ifs at hd with h1 h2
      · simp only [Option.some.injEq, Prod.mk.injEq] at hd
        exact ⟨h ++ [b8], r8, by simp, by omega, by omega⟩
      · simp only [Option.some.injEq, Prod.mk.injEq] at hd
        exact ⟨h ++ [b8], r8, by simp, by omega, by omega⟩
      · cases r8 with
        | nil => cases hd
        | cons b9 r9 =>
          have h9 := ofBitsBE_concat (h ++ [b8]) b9
          have hl9 : (h ++ [b8] ++ [b9]).length = 9 := by simp [hl]
          have hlt := ofBitsBE_lt (h ++ [b8] ++ [b9])
          rw [hl9] at hlt
          simp only [Option.some.injEq, Prod.mk.injEq] at hd
          exact ⟨h ++ [b8] ++ [b9], r9, by simp, by omega, by omega⟩

/-- R122's decoding reads the code that stands at the head of the bits. -/
theorem fixedPrefixDecode_of_startsWithCode {bs : Bits} {s used : Nat} (hc : StartsWithCode bs s used) :
    fixedPrefixDecode bs = some (s, used) := by
  simp only [StartsWithCode, fixedCode_eq_iff] at hc
  obtain ⟨c, rest, rfl, rfl, hc⟩ := hc
  obtain ⟨h, r, rfl, hl⟩ : ∃ h r, c = h ++ r ∧ h.length = 7 :=
    ⟨c.take 7, c.drop 7, (List.take_append_drop ..).symm, by simp; omega⟩
  rw [List.append_assoc, fixedPrefixDecode_append hl]
  rw [List.length_append, hl] at hc ⊢
  match r with
  | [] =>
    rw [List.append_nil, List.length_nil] at hc
    rw [if_pos (by omega), Option.some.injEq, Prod.mk.injEq, List.length_nil]
    omega
  | [b8] =>
    have h8 := ofBitsBE_concat h b8
    have hb := b8.toNat_lt
    rw [List.length_singleton] at hc
    rw [if_neg (by omega), List.singleton_append, List.length_singleton]
    dsimp only
    split_ifs
    · rw [Option.some.injEq, Prod.mk.injEq]
      omega
    · rw [Option.some.injEq, Prod.mk.injEq]
      omega
    · omega
  | [b8, b9] =>
    have h8 := ofBitsBE_concat h b8
    have h9 := ofBitsBE_concat (h ++ [b8]) b9
    have hb := b8.toNat_lt
    have hb' := b9.toNat_lt
    rw [List.append_assoc, List.singleton_append] at h9
    simp only [List.length_cons, List.length_nil] at hc
    simp only [List.length_cons, List.length_nil, List.cons_append, List.nil_append, List.append_assoc]
    rw [if_neg (by omega), if_neg (by omega), if_neg (by omega), Option.some.injEq, Prod.mk.injEq]
    omega
  | _ :: _ :: _ :: r' =>
    simp only [List.length_cons] at hc
    omega

end Sys2Proof

open Sys2Proof

/-- Settles O4: both decodings give the symbol whose code stands at the head of the bits; the fixed tries are
complete. -/
theorem fixedPrefixIsTrieWalk : Obligations.FixedPrefixIsTrieWalk := by
  refine ⟨fun bs => ?_, ftreeLl_eq, ftreeD_eq, by decide +kernel, by decide +kernel, fun bs used => ⟨?_, ?_⟩, ?_⟩
  · ext ⟨s, used⟩
    have hd : fixedPrefixDecode bs = some (s, used) ↔ ∃ rest, ftreeLl.walk bs = .found s used rest :=
      ⟨fun h => walk_ftreeLl_iff.2 (startsWithCode_of_fixedPrefixDecode h),
        fun h => fixedPrefixDecode_of_startsWithCode (walk_ftreeLl_iff.1 h)⟩
    rw [hd]
    cases ftreeLl.walk bs <;> simp
  · exact complete_ftreeLl.walkFrom_ne_walkOff bs 0 used
  · exact Trie.Complete.walkFrom_ne_walkOff (complete_fullTrie 5 0) bs 0 used
  · exact ⟨symbolBits fixLlLen 286, symbolBits fixLlLen 287, symbolBits fixDLen 30, symbolBits fixDLen 31,
      by decide +kernel⟩

end

section
/-! PROOFS. CLLENS (R335), and the step as the run of what is decoded at the grammar position (R100, R320). -/

namespace Sys2Proof.Machine

/-! ### CLLENS -/

/-- A CLLENS field goes to the length its index names; the next field, or the end of the table, follows (R335). -/
theorem execCllens_eq {s : State} {k : Nat} (v : BitVec 3) (h : s.inf.sub = .codeLens k) :
    execCllens v s =
      let t := s.withInf fun r => { r with clLen := r.clLen.setIfInBounds (clOrder k) v }
      if k + 1 < s.inf.nCl then .next (t.withInf fun r => { r with sub := .codeLens (k + 1) }) else .next t.buildCl := by
  simp only [execCllens, h]

theorem buildCl_of_some {s : State} {t : Trie} (h : buildDecodeTree s.inf.clLens = some t) :
    s.buildCl = s.withInf fun r => { r with treeCl := t, sub := .lengths [] } := by
  simp only [State.buildCl, h]

theorem buildCl_of_none {s : State} (h : buildDecodeTree s.inf.clLens = none) :
    s.buildCl = s.raiseFormat .codeOversubscribed := by
  simp only [State.buildCl, h]

/-! ### the grammar position -/

theorem InfRegs.headerPos_eq (r : InfRegs) : r.headerPos = some (if r.sub = .dictid then .dictid else .zhdr) := by
  unfold InfRegs.headerPos
  cases r.sub <;> simp

theorem InfRegs.storedPos_eq (r : InfRegs) :
    (r.iPhase = false → r.storedPos = some (if r.sub = .stored then .shdr else .pad ((8 - r.brBit.val) % 8))) ∧
    (r.iPhase = true → r.storedPos = if r.storedRem = 0 then none else some .raw) := by
  unfold InfRegs.storedPos InfRegs.padWidth
  constructor <;> intro h
  · cases r.sub <;> simp [h]
  · simp [h]

theorem InfRegs.prologuePos_eq (r : InfRegs) :
    (∀ k, r.sub = .codeLens k → r.prologuePos = some .cllens) ∧
    (∀ seq, r.sub = .lengths seq → r.prologuePos =
      if seq.length < (r.hlit.toNat + 257) + (r.hdist.toNat + 1) then some (.clsym r.treeCl (decide (seq = [])))
      else none) ∧
    ((∀ k, r.sub ≠ .codeLens k) → (∀ seq, r.sub ≠ .lengths seq) → r.prologuePos = some .dynhdr) := by
  unfold InfRegs.prologuePos
  refine ⟨fun k h => ?_, fun seq h => ?_, fun hk hseq => ?_⟩
  · simp only [h]
  · have he : seq.isEmpty = decide (seq = []) := by cases seq <;> simp
    simp only [h, he]
    rfl
  · cases hs : r.sub
    case codeLens k => exact absurd hs (hk k)
    case lengths seq => exact absurd hs (hseq seq)
    all_goals rfl

/-- In a body a distance follows a length, and a lit/len symbol stands where no code is in flight (R338, R340). -/
theorem InfRegs.bodyPos_eq (r : InfRegs) :
    (∀ sym len, r.sub = .distance sym len → r.bodyPos = some (.dsym r.dTree)) ∧
    ((∀ sym len, r.sub ≠ .distance sym len) → r.bodyPos = if r.pendLen = 0 then some (.llsym r.llTree) else none) := by
  have hc : r.codeInFlight = true ↔ ¬ r.pendLen = 0 := by simp [InfRegs.codeInFlight]
  unfold InfRegs.bodyPos
  refine ⟨fun sym len h => by simp only [h], fun h => ?_⟩
  cases hs : r.sub
  case distance sym len => exact absurd hs (h sym len)
  all_goals simp only [hc, ite_not]

theorem positionFollowsTheGrammar (r : InfRegs) : PositionFollowsTheGrammar r := by
  refine ⟨fun h => ?_, fun h => ?_, fun h => ?_, fun h hp => ?_, fun h hp => ?_, fun hp ll d h => ?_, ?_⟩
  · rw [InfRegs.pos, h]
    exact r.headerPos_eq
  · rw [InfRegs.pos, h]
  · rw [InfRegs.pos, h]
    exact r.storedPos_eq
  · rw [InfRegs.pos, h, hp]
    exact r.prologuePos_eq
  · rw [InfRegs.pos, h, hp]
    rfl
  · obtain ⟨hi, rfl, rfl⟩ | ⟨hi, rfl, rfl⟩ := h
    · have hb := r.bodyPos_eq
      rw [InfRegs.llTree, InfRegs.dTree, hi] at hb
      rw [InfRegs.pos, hi, hp]
      exact hb
    · have hb := r.bodyPos_eq
      rw [InfRegs.llTree, InfRegs.dTree, hi] at hb
      rw [InfRegs.pos, hi, hp]
      exact hb
  · rintro (h | h) <;> rw [InfRegs.pos, h]

/-! ### one step -/

theorem step_of_run {s t : State} {i : Instr} (h : s.nextAction = .run i t) : step s = exec i t := by
  simp only [step, h]

theorem step_of_raise {s t : State} {c : Cause} (h : s.nextAction = .raise c t) : step s = .next (t.raiseFormat c) := by
  simp only [step, h]

theorem step_of_outcome {s : State} {r : Result} (h : s.nextAction = .outcome r) : step s = r := by
  simp only [step, h]

theorem nextAction_of_pos {s : State} {p : Pos} (ht : s.turn = .inf) (hp : s.inf.pos = some p) :
    s.nextAction = s.fetchAt p := by
  simp only [State.nextAction, ht, State.infAction, hp]

theorem nextAction_of_noPos {s : State} (ht : s.turn = .inf) (hp : s.inf.pos = none) :
    s.nextAction = .outcome (.next s.infInternal) := by
  simp only [State.nextAction, ht, State.infAction, hp]

theorem fetchAt_of_ok {s : State} {p : Pos} {i : Instr} {used : Nat}
    (h : decodeAt p (s.inf.restBits s.infIn) = .ok i used) :
    s.fetchAt p = .run i (if movesCursor i then s else s.withInf fun r => r.advance used) := by
  simp only [State.fetchAt, h]

theorem fetchAt_of_reject {s : State} {p : Pos} {c : Cause} {used : Nat}
    (h : decodeAt p (s.inf.restBits s.infIn) = .reject c used) :
    s.fetchAt p = .raise c (s.withInf fun r => r.advance used) := by
  simp only [State.fetchAt, h]

theorem nextAction_of_dEnd {s : State} (ht : s.turn = .dfl) (hd : s.dfl.dState = .dEnd) :
    s.nextAction = .run (.trailer s.dfl.adler) s := by
  simp only [State.nextAction, ht, State.dflAction, hd]

theorem nextAction_of_host {s : State} (ht : s.turn = .host) : s.nextAction = s.hostAction := by
  simp only [State.nextAction, ht]

end Sys2Proof.Machine

open Sys2Proof Sys2Proof.Machine

/-- Settles O14: the model's index table is R117's, and the last field builds the tree or raises. -/
theorem cllensFillsTheTable : Obligations.CllensFillsTheTable := by
  intro s k v hs hk order cl
  have he := execCllens_eq v hs
  refine ⟨fun hlt => ?_, fun heq => ⟨fun t ht => ?_, fun hn => ?_⟩⟩
  · exact he.trans (if_pos hlt)
  · exact (he.trans (if_neg (Nat.not_lt.2 heq.ge))).trans (congrArg Host.Outcome.next (buildCl_of_some ht))
  · exact (he.trans (if_neg (Nat.not_lt.2 heq.ge))).trans (congrArg Host.Outcome.next (buildCl_of_none hn))

/-- Settles O33, agent by agent: the position is read off the registers, and the step runs what the next move names. -/
theorem stepRunsTheDecodedInstruction : Obligations.StepRunsTheDecodedInstruction := by
  refine ⟨positionFollowsTheGrammar, fun s ht hi hp => ?_, fun s p i used ht hp hd => ?_, fun s p c used ht hp hd => ?_,
    fun s ht hd => ?_, fun s x rest ht hc => ?_, fun s ht hc => ?_⟩
  · have hpos : s.inf.pos = none := by
      rw [InfRegs.pos, hi, hp]
      rfl
    have hin : s.infInternal = s.withInf fun r => { r with iPhase := true } := by
      rw [State.infInternal, hi, hp]
      rfl
    exact (step_of_outcome (nextAction_of_noPos ht hpos)).trans (congrArg Host.Outcome.next hin)
  · rw [step_of_run ((nextAction_of_pos ht hp).trans (fetchAt_of_ok hd))]
    cases i <;> rfl
  · exact step_of_raise ((nextAction_of_pos ht hp).trans (fetchAt_of_reject hd))
  · exact step_of_run (nextAction_of_dEnd ht hd)
  · exact step_of_run ((nextAction_of_host ht).trans (by rw [State.hostAction, hc]))
  · exact step_of_outcome ((nextAction_of_host ht).trans (by rw [State.hostAction, hc]))

end

section
/-! PROOFS. The bit reader delivers the stream from the cursor on (R140 to R145), and draining the writer's queue
keeps what is written (R150). -/

namespace Sys2Proof

/-- Bit `i` of a packed value stands at place `i` (R8, R10). -/
theorem getElem?_bitsLE {n v i : Nat} (h : i < n) : (bitsLE n v)[i]? = some (v.testBit i) := by
  induction n generalizing v i with
  | zero => omega
  | succ n ih =>
    cases i with
    | zero => simp [bitsLE, Nat.testBit_zero, beq_eq_decide]
    | succ i =>
      rw [bitsLE, List.getElem?_cons_succ, ih (Nat.lt_of_succ_lt_succ h), Nat.testBit_succ]

/-- Packing the byte read from eight bits gives the bits back. -/
theorem bitsLE_ofNat_ofBitsLE {bs : Bits} (h : bs.length = 8) :
    bitsLE 8 (BitVec.ofNat 8 (ofBitsLE bs)).toNat = bs := by
  rw [BitVec.toNat_ofNat, bitsLE_mod, ← h, bitsLE_ofBitsLE]

/-- Reading bits from the other end reverses the value (R11, R142). -/
theorem ofBitsBE_eq_revBits (bs : Bits) : ofBitsBE bs = revBits bs.length (ofBitsLE bs) := by
  rw [revBits, bitsBE, bitsLE_ofBitsLE, ofBitsBE]

end Sys2Proof

namespace Sys2Proof.Machine

/-! ### the bit reader -/

/-- The unread bits begin with those of the byte the cursor stands in. -/
theorem InfRegs.restBits_eq_of_lt {r : InfRegs} (m : Memory) (h : r.brByte < r.brLen) :
    r.restBits m = (bitsLE 8 (m.read r.brByte).toNat ++
      m.streamBits (r.brByte + 1) (r.brLen - (r.brByte + 1))).drop r.brBit.val := by
  have hlen : r.brLen - r.brByte = r.brLen - (r.brByte + 1) + 1 := by omega
  rw [InfRegs.restBits, hlen]
  rfl

theorem InfRegs.brByte_lt_of_avail {r : InfRegs} (h : 0 < r.avail) : r.brByte < r.brLen := by
  rw [InfRegs.avail] at h
  omega

/-- A cursor `n` bits further on, with every other register as it was, has moved past `n` bits. -/
theorem InfRegs.eq_advance {r q : InfRegs} {n : Nat} (hregs : { r with brByte := q.brByte, brBit := q.brBit } = q)
    (hpos : q.bitpos = r.bitpos + n) : q = r.advance n := by
  calc q = q.atBit q.bitpos := q.atBit_self.symm
    _ = q.atBit (r.bitpos + n) := by rw [hpos]
    _ = r.atBit (r.bitpos + n) := by rw [← hregs]; rfl

/-- `nextBit()` moves the cursor on by one bit (R26, R140). -/
theorem nextBit_snd (m : Memory) (r : InfRegs) : (nextBit m r).2 = r.advance 1 := by
  have hb := r.brBit.isLt
  unfold nextBit
  split
  · rename_i h7
    have h7' : r.brBit.val = 7 := congrArg Fin.val h7
    refine InfRegs.eq_advance rfl ?_
    simp only [InfRegs.bitpos, Fin.val_zero]
    omega
  · rename_i h7
    have h7' : r.brBit.val ≠ 7 := fun h => h7 (Fin.ext h)
    have hsucc : (r.brBit + 1).val = r.brBit.val + 1 := by
      rw [Fin.val_add, Fin.val_one, Nat.mod_eq_of_lt (by omega)]
    refine InfRegs.eq_advance rfl ?_
    simp only [InfRegs.bitpos, hsucc, Nat.add_assoc]

/-- `nextBit()` gives the first unread bit (R140). -/
theorem restBits_eq_nextBit_cons {r : InfRegs} (m : Memory) (h : 0 < r.avail) :
    r.restBits m = (nextBit m r).1 :: (r.advance 1).restBits m := by
  have hfst : (nextBit m r).1 = (m.read r.brByte).getLsbD r.brBit.val := by
    unfold nextBit
    split <;> rfl
  have hhead : (r.restBits m)[0]? = some (nextBit m r).1 := by
    rw [InfRegs.restBits_eq_of_lt m (InfRegs.brByte_lt_of_avail h), List.getElem?_drop,
      List.getElem?_append_left (by simp), Nat.add_zero, getElem?_bitsLE r.brBit.isLt, hfst]
    rfl
  rw [InfRegs.restBits_advance r m 1 h]
  cases hr : r.restBits m with
  | nil => simp [hr] at hhead
  | cons b bs => simpa [hr] using hhead

/-- Reading `c` of the unread bits gives the next `c` and moves the cursor past them (R140). -/
theorem nextBits_eq (m : Memory) {c : Nat} {r : InfRegs} (h : c ≤ r.avail) :
    nextBits m c r = ((r.restBits m).take c, r.advance c) := by
  induction c generalizing r with
  | zero => simp [nextBits]
  | succ c ih =>
    have hrest : c ≤ (r.advance 1).avail := by rw [InfRegs.avail_advance]; omega
    have hcons : (r.restBits m).take (c + 1) = (nextBit m r).1 :: ((r.advance 1).restBits m).take c := by
      rw [restBits_eq_nextBit_cons m (Nat.zero_lt_of_lt h), List.take_succ_cons]
    simp only [nextBits, nextBit_snd, ih hrest, InfRegs.advance_advance, Nat.add_comm 1 c, hcons]

/-- `readBits(n)` in any register set: what is unread after the cursor bounds the read (R141). -/
theorem readBits_eq (m : Memory) (n : Nat) (r : InfRegs) :
    readBits m n r = ((ofBitsLE ((r.restBits m).take n), min n r.avail), r.advance (min n r.avail)) := by
  have htake : (r.restBits m).take (min n r.avail) = (r.restBits m).take n := by
    rw [← r.length_restBits m, ← List.take_take, List.take_length]
  rw [readBits, nextBits_eq m (Nat.min_le_right ..), htake]

/-- `readBitsBE(n)` is `readBits(n)` with its value reversed over the bits read (R142). -/
theorem readBitsBE_eq (m : Memory) (n : Nat) (r : InfRegs) :
    readBitsBE m n r =
      ((revBits (readBits m n r).1.2 (readBits m n r).1.1, (readBits m n r).1.2), (readBits m n r).2) := by
  simp only [readBitsBE, readBits, nextBits_eq m (Nat.min_le_right n r.avail), ofBitsBE_eq_revBits]
  simp

/-- Past all the unread bits the cursor stands at the end of the input (R25, R141). -/
theorem InfRegs.advance_avail {r : InfRegs} (h : r.cursorOk) : r.advance r.avail = r.atBit (8 * r.brLen) := by
  have hpos := r.cursorOk_iff.1 h
  have hend : r.bitpos + r.avail = 8 * r.brLen := by rw [InfRegs.avail_eq]; omega
  rw [InfRegs.advance, hend]

/-! ### whole bytes -/

/-- The next byte, from an aligned cursor or not (R145). -/
theorem readBytesLoop_succ {m : Memory} {r : InfRegs} (k : Nat) (h : 8 ≤ r.avail) :
    readBytesLoop m (k + 1) r =
      (BitVec.ofNat 8 (ofBitsLE ((r.restBits m).take 8)) :: (readBytesLoop m k (r.advance 8)).1,
        (readBytesLoop m k (r.advance 8)).2) := by
  by_cases hb : r.brBit = 0
  · have hbyte : BitVec.ofNat 8 (ofBitsLE ((r.restBits m).take 8)) = m.read r.brByte := by
      rw [InfRegs.restBits_eq_of_lt m (InfRegs.brByte_lt_of_avail (by omega)), hb, Fin.val_zero, List.drop_zero,
        List.take_left' (length_bitsLE ..), ofBitsLE_bitsLE,
        Nat.mod_eq_of_lt (m.read r.brByte).isLt, BitVec.ofNat_toNat, BitVec.setWidth_eq]
    have hcur : { r with brByte := r.brByte + 1 } = r.advance 8 :=
      InfRegs.eq_advance rfl (by simp only [InfRegs.bitpos]; omega)
    rw [readBytesLoop]
    simp only [if_pos hb, hbyte, hcur]
  · rw [readBytesLoop]
    simp only [if_neg hb, readBits_eq, Nat.min_eq_left h]

/-- Delivering `k` bytes takes their bits off the stream, whether the cursor is aligned or not (R145). -/
theorem readBytesLoop_spec (m : Memory) {k : Nat} {r : InfRegs} (h : 8 * k ≤ r.avail) :
    (readBytesLoop m k r).1.length = k ∧
    bitsOfBytes (readBytesLoop m k r).1 = (r.restBits m).take (8 * k) ∧
    (readBytesLoop m k r).2 = r.advance (8 * k) := by
  induction k generalizing r with
  | zero => simp [readBytesLoop, bitsOfBytes]
  | succ k ih =>
    have hrest : 8 * k ≤ (r.advance 8).avail := by rw [InfRegs.avail_advance]; omega
    obtain ⟨hlen, hbits, hcur⟩ := ih hrest
    have hbyte : ((r.restBits m).take 8).length = 8 := by simp; omega
    rw [readBytesLoop_succ k (by omega)]
    refine ⟨congrArg Nat.succ hlen, ?_, ?_⟩
    · rw [bitsOfBytes, bitsLE_ofNat_ofBitsLE hbyte, hbits, InfRegs.restBits_advance r m 8 (by omega),
        ← List.take_add, Nat.mul_succ, Nat.add_comm]
    · rw [hcur, InfRegs.advance_advance, Nat.mul_succ, Nat.add_comm]

/-! ### the writer's queue -/

/-- The byte stored and the bits left in the queue are the bits queued before (R150). -/
theorem drainByte_written {s : State} (hm : s.dflOut.wf = true) (h8 : 8 ≤ s.dfl.bitqCnt) :
    s.drainByte.written = s.written := by
  have hbyte : bitsLE 8 (s.dfl.bitq.truncate 8).toNat = bitsLE 8 s.dfl.bitq.toNat := by
    rw [BitVec.truncate_eq_setWidth, BitVec.toNat_setWidth, bitsLE_mod]
  have hsplit := bitsLE_add 8 (s.dfl.bitqCnt - 8) s.dfl.bitq.toNat
  rw [Nat.add_sub_cancel' h8] at hsplit
  simp only [State.written, State.drainByte_dfl, State.drainByte_dflOut, Memory.bytes_write_end hm, hsplit,
    bitsOfBytes_append, bitsOfBytes, hbyte, List.append_nil, List.append_assoc, BitVec.toNat_ushiftRight,
    Nat.shiftRight_eq_div_pow]

/-- `drain()` keeps the sequence of written bits (R150). -/
theorem drain_written {s : State} (hm : s.dflOut.wf = true) : s.drain.written = s.written := by
  have h : s.drain.dflOut.wf = true ∧ s.drain.written = s.written :=
    State.drain_induct (P := fun t => t.dflOut.wf = true ∧ t.written = s.written)
      (fun _ h8 _ h => ⟨Memory.wf_write h.1 _ _, (drainByte_written h.1 h8).trans h.2⟩) ⟨hm, rfl⟩
  exact h.2

end Sys2Proof.Machine

open Sys2Proof Sys2Proof.Machine

/-- Settles O6: the cursor's place fixes the bits read, and a short read moves past all of them. -/
theorem readBitsTakesNextBits : Obligations.ReadBitsTakesNextBits := by
  intro m r n hcur _
  refine ⟨readBits_eq m n r, fun hshort => ?_, by simp [readBits_eq, ofBitsLE], readBitsBE_eq m n r⟩
  rw [readBits_eq, Nat.min_eq_right hshort.le, InfRegs.advance_avail hcur]
  simp [InfRegs.atBit]

/-- Settles O8, by induction on the bytes delivered. -/
theorem readBytesDeliversWholeBytes : Obligations.ReadBytesDeliversWholeBytes := by
  intro m r n _
  exact readBytesLoop_spec m (by omega)

/-- Settles O9: `drain()` fills OUTPUT byte by byte from the queue. -/
theorem drainKeepsTheWrittenBits : Obligations.DrainKeepsTheWrittenBits := by
  intro s hm hw
  have hfill := drain_fills s
  have hlim : s.drain.dfl.outLim = s.dfl.outLim := hfill.lim_eq
  have hroom : s.drain.dfl.thisOut ≤ s.dfl.outLim := hfill.stored_le_lim hw.room
  obtain ⟨hstate, hregs⟩ := s.drain_frame
  refine ⟨drain_written hm, ?_, hroom, hfill.stored_le, hfill.counted, fun a ha => hfill.read_outside hm ha, ?_⟩
  · have hstops := s.drain_stops
    simp only [DefRegs.writerReady, decide_eq_true_eq]
    omega
  · rw [hregs]
    exact hstate

/-- Settles O7: aligning moves the cursor past the padding, which lies within the byte. -/
theorem alignMovesToByteBoundary : Obligations.AlignMovesToByteBoundary := by
  intro r
  have hb := r.brBit.isLt
  have hpos : r.alignToByte.bitpos = 8 * ((r.bitpos + 7) / 8) := by
    rw [InfRegs.alignToByte_eq, InfRegs.advance_bitpos, InfRegs.bitpos, InfRegs.padWidth]
    omega
  have hlen : r.alignToByte.brLen = r.brLen := by rw [InfRegs.alignToByte_eq, InfRegs.advance_brLen]
  refine ⟨r.alignToByte_brBit, hpos, fun h0 => if_pos h0, fun hcur => ?_, ?_⟩
  · rw [InfRegs.cursorOk_iff] at hcur ⊢
    omega
  · rw [InfRegs.alignToByte_eq]
    rfl

end

section
/-! PROOFS. Decode tries and the Kraft sum (R174 to R181): no canonical code begins another one, so a table within
Kraft's inequality has a trie; and a trie has no room for the leaves of a table above it. -/

namespace Sys2Proof

open Machine

/-! ### the width of a trie's leaves -/

/-- The width of the leaves, in units of a path of `d` bits; what lies deeper does not count. -/
def Trie.width : Nat → Trie → Nat
  | _, .nil => 0
  | d, .leaf _ => 2 ^ d
  | 0, .node _ _ => 0
  | d + 1, .node z o => z.width d + o.width d

@[simp] theorem Trie.width_nil (d : Nat) : Trie.nil.width d = 0 := by cases d <;> rfl

@[simp] theorem Trie.width_leaf (d s : Nat) : (Trie.leaf s).width d = 2 ^ d := by cases d <;> rfl

@[simp] theorem Trie.width_node_succ (d : Nat) (z o : Trie) :
    (Trie.node z o).width (d + 1) = z.width d + o.width d := rfl

theorem Trie.width_le (d : Nat) (t : Trie) : t.width d ≤ 2 ^ d := by
  induction t generalizing d with
  | nil => simp
  | leaf s => simp
  | node z o hz ho =>
    cases d with
    | zero => exact Nat.zero_le _
    | succ d =>
      rw [width_node_succ, Nat.pow_succ]
      have := hz d
      have := ho d
      omega

/-- A new leaf adds its width. -/
theorem Trie.width_insert {d s : Nat} {t t' : Trie} {p : Bits} (hp : p.length ≤ d) (h : t.insert p s = some t') :
    t'.width d = t.width d + 2 ^ (d - p.length) := by
  induction p generalizing d t t' with
  | nil =>
    cases t with
    | nil =>
      cases h
      simp
    | leaf _ => cases h
    | node _ _ => cases h
  | cons b p ih =>
    obtain ⟨d, rfl⟩ : ∃ e, d = e + 1 := ⟨d - 1, by simp at hp; omega⟩
    have hp' : p.length ≤ d := by simpa using hp
    rw [List.length_cons, Nat.add_sub_add_right]
    cases t with
    | leaf _ => cases h
    | nil =>
      obtain ⟨u, hu, rfl⟩ := Option.map_eq_some_iff.1 h
      cases b <;> simp [ih hp' hu]
    | node z o =>
      cases b with
      | false =>
        obtain ⟨u, hu, rfl⟩ := Option.map_eq_some_iff.1 h
        simp only [width_node_succ, ih hp' hu]
        omega
      | true =>
        obtain ⟨u, hu, rfl⟩ := Option.map_eq_some_iff.1 h
        simp only [width_node_succ, ih hp' hu]
        omega

theorem kraftSum_cons (d l : Nat) (len : List Nat) :
    kraftSum d (l :: len) = (if l = 0 then 0 else 2 ^ (d - l)) + kraftSum d len := by
  simp [kraftSum]

theorem width_buildFrom {d k : Nat} {l : List (Nat × Nat)} {t t' : Trie} (hl : ∀ x ∈ l, x.1 ≤ d)
    (h : buildFrom k l t = some t') : t'.width d = t.width d + kraftSum d (l.map Prod.fst) := by
  induction l generalizing k t with
  | nil =>
    cases h
    simp [kraftSum]
  | cons x l ih =>
    obtain ⟨n, c⟩ := x
    obtain ⟨hn, hl'⟩ := List.forall_mem_cons.1 hl
    rw [List.map_cons, kraftSum_cons]
    unfold buildFrom at h
    split_ifs at h ⊢
    · rw [ih hl' h, Nat.zero_add]
    · split at h
      · cases h
      · next u hu =>
        rw [ih hl' h, Trie.width_insert (by simpa using hn) hu, length_bitsBE, Nat.add_assoc]

/-- A table that has a trie meets Kraft's inequality (R176). -/
theorem kraftSum_le_of_buildDecodeTree {d : Nat} {len : List Nat} {t : Trie} (hl : ∀ x ∈ len, x ≤ d)
    (h : buildDecodeTree len = some t) : kraftSum d len ≤ 2 ^ d := by
  have hw := width_buildFrom (d := d) (fun x hx => hl x.1 (List.of_mem_zip hx).1) h
  rw [List.map_fst_zip (by simp), Trie.width_nil, Nat.zero_add] at hw
  exact hw ▸ t.width_le d

/-! ### where an insertion succeeds -/

/-- Every node has a leaf below it. -/
def Trie.Grown : Trie → Prop
  | .nil => True
  | .leaf _ => True
  | .node z o => (z ≠ .nil ∨ o ≠ .nil) ∧ z.Grown ∧ o.Grown

theorem Trie.Grown.exists_lookup {t : Trie} (h : t.Grown) (hn : t ≠ .nil) : ∃ q x, t.lookup q = some x := by
  induction t with
  | nil => exact absurd rfl hn
  | leaf s => exact ⟨[], s, rfl⟩
  | node z o hz ho =>
    obtain ⟨hzn | hon, hzg, hog⟩ := h
    · obtain ⟨q, x, hq⟩ := hz hzg hzn
      exact ⟨false :: q, x, hq⟩
    · obtain ⟨q, x, hq⟩ := ho hog hon
      exact ⟨true :: q, x, hq⟩

/-- One path is the beginning of the other. -/
def Clash (p q : Bits) : Prop := p <+: q ∨ q <+: p

theorem clash_cons_iff (b : Bool) (p q : Bits) : Clash (b :: p) (b :: q) ↔ Clash p q := by
  simp [Clash, List.cons_prefix_cons]

/-- A path that clashes with no symbol's path has room in the trie. -/
theorem Trie.exists_insert {t : Trie} {p : Bits} (s : Nat) (hg : t.Grown)
    (hc : ∀ q x, t.lookup q = some x → ¬ Clash q p) : ∃ t', t.insert p s = some t' ∧ t'.Grown ∧ t' ≠ .nil := by
  induction p generalizing t with
  | nil =>
    by_cases hn : t = .nil
    · subst hn
      exact ⟨.leaf s, rfl, trivial, nofun⟩
    · obtain ⟨q, x, hq⟩ := hg.exists_lookup hn
      exact absurd (.inr List.nil_prefix) (hc q x hq)
  | cons b p ih =>
    cases t with
    | leaf x => exact absurd (.inl List.nil_prefix) (hc [] x rfl)
    | nil =>
      obtain ⟨u, hu, hug, hun⟩ := ih (t := .nil) trivial (by simp)
      cases b with
      | false => exact ⟨.node u .nil, by simp [Trie.insert, hu], ⟨.inl hun, hug, trivial⟩, nofun⟩
      | true => exact ⟨.node .nil u, by simp [Trie.insert, hu], ⟨.inr hun, trivial, hug⟩, nofun⟩
    | node z o =>
      obtain ⟨-, hzg, hog⟩ := hg
      cases b with
      | false =>
        obtain ⟨u, hu, hug, hun⟩ := ih hzg fun q x hq hcl =>
          hc (false :: q) x hq ((clash_cons_iff ..).2 hcl)
        exact ⟨.node u o, by simp [Trie.insert, hu], ⟨.inl hun, hug, hog⟩, nofun⟩
      | true =>
        obtain ⟨u, hu, hug, hun⟩ := ih hog fun q x hq hcl =>
          hc (true :: q) x hq ((clash_cons_iff ..).2 hcl)
        exact ⟨.node z u, by simp [Trie.insert, hu], ⟨.inr hun, hzg, hug⟩, nofun⟩

/-- Both pairs are codes in use, and their paths clash. -/
def CodesClash (x y : Nat × Nat) : Prop := x.1 ≠ 0 ∧ y.1 ≠ 0 ∧ Clash (bitsBE x.1 x.2) (bitsBE y.1 y.2)

/-- Codes that have their lengths and do not clash all go into the trie (R176). -/
theorem exists_buildFrom {k : Nat} {l : List (Nat × Nat)} {t : Trie} (hg : t.Grown)
    (hlt : ∀ x ∈ l, x.1 ≠ 0 → x.2 < 2 ^ x.1) (hp : l.Pairwise fun x y => ¬ CodesClash x y)
    (ht : ∀ x ∈ l, x.1 ≠ 0 → ∀ q v, t.lookup q = some v → ¬ Clash q (bitsBE x.1 x.2)) :
    ∃ t', buildFrom k l t = some t' := by
  induction l generalizing k t with
  | nil => exact ⟨t, rfl⟩
  | cons x l ih =>
    obtain ⟨n, c⟩ := x
    obtain ⟨hx, hp'⟩ := List.pairwise_cons.1 hp
    obtain ⟨hc, hlt'⟩ := List.forall_mem_cons.1 hlt
    obtain ⟨hnew, ht'⟩ := List.forall_mem_cons.1 ht
    by_cases hn : n = 0
    · obtain ⟨t', h⟩ := ih (k := k + 1) hg hlt' hp' ht'
      exact ⟨t', by simpa only [buildFrom, if_pos hn] using h⟩
    · obtain ⟨u, hu, hug, -⟩ := Trie.exists_insert k hg (hnew hn)
      obtain ⟨t', h⟩ := ih (k := k + 1) hug hlt' hp' fun y hy hy0 q v hq hcl => by
        rw [(Trie.lookup_insert hu).2] at hq
        split_ifs at hq with hqe
        · exact hx y hy ⟨hn, hy0, hqe ▸ hcl⟩
        · exact ht' y hy hy0 q v hq hcl
      exact ⟨t', by simpa only [buildFrom, if_neg hn, if_neg (Nat.not_le.2 (hc hn)), hu] using h⟩

/-! ### no canonical code begins another one (R175) -/

theorem length_nextCodesFrom (len : List Nat) (fuel b code : Nat) :
    (nextCodesFrom len fuel b code).length = fuel := by
  induction fuel generalizing b code with
  | zero => rfl
  | succ fuel ih => simp [nextCodesFrom, ih]

/-- A symbol's code is the first of its length, and one more for each symbol of that length before it. -/
theorem assignFrom_getD {tbl ls : List Nat} {s : Nat} (h0 : ls.getD s 0 ≠ 0) (hl : ls.getD s 0 < tbl.length) :
    (assignFrom tbl ls).getD s 0 = tbl.getD (ls.getD s 0) 0 + (ls.take s).count (ls.getD s 0) := by
  induction ls generalizing tbl s with
  | nil => simp at h0
  | cons l ls ih =>
    unfold assignFrom
    cases s with
    | zero =>
      rw [List.getD_cons_zero] at h0 ⊢
      simp [h0]
    | succ s =>
      rw [List.getD_cons_succ] at h0 hl ⊢
      rw [List.take_succ_cons]
      by_cases hz : l = 0
      · rw [if_pos hz, List.getD_cons_succ, ih h0 hl, List.count_cons_of_ne (by omega)]
      · rw [if_neg hz, List.getD_cons_succ, ih h0 (by rwa [List.length_set]), List.getD_eq_getElem?_getD]
        by_cases he : l = ls.getD s 0
        · rw [← he] at hl ⊢
          rw [List.getElem?_set_self hl, Option.getD_some, List.count_cons_self]
          omega
        · rw [List.getElem?_set_ne he, ← List.getD_eq_getElem?_getD, List.count_cons_of_ne he]

theorem assignCodes_getD {len : List Nat} {s : Nat} (h0 : len.getD s 0 ≠ 0) (hl : len.getD s 0 ≤ 15) :
    (assignCodes len).getD s 0 = (nextCodes len 15).getD (len.getD s 0) 0 + (len.take s).count (len.getD s 0) :=
  assignFrom_getD h0 (by rw [nextCodes, List.length_cons, length_nextCodesFrom]; omega)

/-- A used symbol counts from its place on. -/
theorem count_take_lt {ls : List Nat} {s n : Nat} (h0 : ls.getD s 0 ≠ 0) (hn : s < n) :
    (ls.take s).count (ls.getD s 0) < (ls.take n).count (ls.getD s 0) := by
  have hs : s < ls.length := by
    by_contra hc
    exact h0 (List.getD_eq_default _ _ (Nat.not_lt.1 hc))
  have hg : ls.getD s 0 = ls[s] := List.getD_eq_getElem _ _ hs
  calc _ < (ls.take (s + 1)).count (ls.getD s 0) := by
        rw [List.take_succ_eq_append_getElem hs, List.count_append, hg]
        simp
    _ ≤ _ := (List.take_sublist_take_left hn).count_le _

theorem count_take_lt_count {ls : List Nat} {s : Nat} (h0 : ls.getD s 0 ≠ 0) :
    (ls.take s).count (ls.getD s 0) < ls.count (ls.getD s 0) :=
  (count_take_lt h0 (Nat.lt_succ_self s)).trans_le ((List.take_sublist ..).count_le _)

/-- The codes of a length stand below those of a greater one, bit for bit from the front (R175). -/
theorem nextCodes_add_count_mul_le (len : List Nat) {n m : Nat} (h0 : n ≠ 0) (hnm : n < m) (hm : m ≤ 15) :
    ((nextCodes len 15).getD n 0 + len.count n) * 2 ^ (m - n) ≤ (nextCodes len 15).getD m 0 := by
  induction m, hnm using Nat.le_induction with
  | base => rw [nextCodes_succ len hm, countLen, if_neg h0, Nat.succ_sub (Nat.le_refl n), Nat.sub_self, Nat.pow_one]
  | succ m hnm ih =>
    rw [nextCodes_succ len hm, Nat.succ_sub (Nat.le_of_lt hnm), Nat.pow_succ, ← Nat.mul_assoc]
    exact Nat.mul_le_mul_right 2 ((ih (by omega)).trans (Nat.le_add_right ..))

theorem ofBitsBE_append (p q : Bits) : ofBitsBE (p ++ q) = ofBitsBE p * 2 ^ q.length + ofBitsBE q := by
  induction q using List.reverseRecOn with
  | nil => simp [ofBitsBE, ofBitsLE]
  | append_singleton q b ih =>
    rw [← List.append_assoc, ofBitsBE_concat, ofBitsBE_concat, ih, List.length_append, List.length_singleton,
      Nat.pow_succ]
    ring

/-- A value whose bits go on from those of another lies in the other's range. -/
theorem range_of_bitsBE_prefix {n m a b : Nat} (ha : a < 2 ^ n) (hb : b < 2 ^ m) (h : bitsBE n a <+: bitsBE m b) :
    n ≤ m ∧ a * 2 ^ (m - n) ≤ b ∧ b < (a + 1) * 2 ^ (m - n) := by
  have hnm : n ≤ m := by simpa using h.length_le
  obtain ⟨r, hr⟩ := h
  have hl : n + r.length = m := by simpa using congrArg List.length hr
  have hv := congrArg ofBitsBE hr
  rw [ofBitsBE_append, ofBitsBE_bitsBE, ofBitsBE_bitsBE, Nat.mod_eq_of_lt ha, Nat.mod_eq_of_lt hb,
    show r.length = m - n by omega] at hv
  have hlt := ofBitsBE_lt r
  rw [show r.length = m - n by omega] at hlt
  rw [Nat.add_mul, Nat.one_mul]
  omega

/-- No code begins another one's (R175). -/
theorem eq_of_symbolBits_prefix {len : List Nat} {s u : Nat} (hl : ∀ x ∈ len, x ≤ 15)
    (hk : kraftSum 15 len ≤ 2 ^ 15) (hs : len.getD s 0 ≠ 0) (hu : len.getD u 0 ≠ 0)
    (h : symbolBits len s <+: symbolBits len u) : s = u := by
  have hsl := getD_le hl s
  have hul := getD_le hl u
  have hlt := assignCodes_lt (Nat.le_refl 15) hl hk
  obtain ⟨hle, hlo, hhi⟩ := range_of_bitsBE_prefix (hlt s) (hlt u) h
  rw [assignCodes_getD hs hsl] at hlo hhi
  rw [assignCodes_getD hu hul] at hlo hhi
  obtain hlen | hlen := Nat.lt_or_eq_of_le hle
  · have hend := nextCodes_add_count_mul_le len hs hlen hul
    have hnext := (Nat.mul_le_mul_right _ (Nat.add_le_add_left (count_take_lt_count hs) _)).trans hend
    exact (Nat.not_lt.2 (Nat.le_add_right ..) (hhi.trans_le hnext)).elim
  · rw [← hlen, Nat.sub_self, Nat.pow_zero, Nat.mul_one] at hlo hhi
    obtain hsu | hsu | hsu := Nat.lt_trichotomy s u
    · have := count_take_lt hs hsu
      omega
    · exact hsu
    · have := count_take_lt hu hsu
      rw [← hlen] at this
      omega

/-- A table within Kraft's inequality has a trie (R176). -/
theorem exists_buildDecodeTree {len : List Nat} (hl : ∀ x ∈ len, x ≤ 15) (hk : kraftSum 15 len ≤ 2 ^ 15) :
    ∃ t, buildDecodeTree len = some t := by
  have hi : ∀ i (h : i < (len.zip (assignCodes len)).length),
      (len.zip (assignCodes len))[i] = (len.getD i 0, (assignCodes len).getD i 0) := fun i h => by
    rw [List.getElem_zip, List.getD_eq_getElem, List.getD_eq_getElem]
  refine exists_buildFrom (t := .nil) trivial (fun x hx _ => ?_) (List.pairwise_iff_getElem.2 ?_) (by simp)
  · obtain ⟨i, h, rfl⟩ := List.mem_iff_getElem.1 hx
    rw [hi]
    exact assignCodes_lt (Nat.le_refl 15) hl hk i
  · intro i j h h' hij hc
    rw [hi, hi] at hc
    obtain ⟨hi0, hj0, hp | hp⟩ := hc
    · exact absurd (eq_of_symbolBits_prefix hl hk hi0 hj0 hp) (Nat.ne_of_lt hij)
    · exact absurd (eq_of_symbolBits_prefix hl hk hj0 hi0 hp) (Nat.ne_of_gt hij)

end Sys2Proof

open Sys2Proof Sys2Proof.Machine

/-- Settles O5: the walk follows the code; a built trie has no room for a Kraft sum above 1, and within that sum no
canonical code begins another one. -/
theorem codeDecodesToItsSymbol : Obligations.CodeDecodesToItsSymbol := by
  refine ⟨fun len t s rest ht hs => walk_symbolBits rest ht hs, fun len hl => ⟨⟨fun hn => ?_, fun hk => ?_⟩, ?_⟩⟩
  · by_contra hk
    obtain ⟨t, ht⟩ := exists_buildDecodeTree hl (Nat.not_lt.1 hk)
    rw [hn] at ht
    cases ht
  · rw [Option.eq_none_iff_forall_ne_some]
    exact fun t ht => Nat.not_lt.2 (kraftSum_le_of_buildDecodeTree hl ht) hk
  · exact fun hk s _ => assignCodes_lt (Nat.le_refl 15) hl hk s

end

section
/-! PROOFS. Package-merge fills the bound (R170, R172): the items taken at every round hold a symbol's leaf wherever
they hold the symbol, so that the counting argument for Kraft's inequality gives an equality. -/

namespace Sys2Proof

open Machine

/-! ### the order of the items -/

/-- Items by ascending weight. -/
def PmSorted (l : List PmItem) : Prop := l.Pairwise fun x y => x.weight ≤ y.weight

/-- An item goes behind those of its weight or less and before the others. -/
theorem exists_pmInsert_eq {x : PmItem} {l : List PmItem} (hl : PmSorted l) :
    ∃ p q, l = p ++ q ∧ pmInsert x l = p ++ x :: q ∧ (∀ y ∈ p, y.weight ≤ x.weight) ∧ ∀ y ∈ q, x.weight < y.weight := by
  induction l with
  | nil => exact ⟨[], [], rfl, rfl, by simp, by simp⟩
  | cons y l ih =>
    obtain ⟨hy, hl'⟩ := List.pairwise_cons.1 hl
    by_cases hxy : x.weight < y.weight
    · refine ⟨[], y :: l, rfl, by simp [pmInsert, hxy], by simp, List.forall_mem_cons.2 ⟨hxy, fun z hz => ?_⟩⟩
      exact hxy.trans_le (hy z hz)
    · obtain ⟨p, q, rfl, hi, hp, hq⟩ := ih hl'
      exact ⟨y :: p, q, rfl, by simp [pmInsert, hxy, hi], List.forall_mem_cons.2 ⟨Nat.not_lt.1 hxy, hp⟩, hq⟩

theorem pmSorted_pmInsert {x : PmItem} {l : List PmItem} (hl : PmSorted l) : PmSorted (pmInsert x l) := by
  obtain ⟨p, q, rfl, hi, hp, hq⟩ := exists_pmInsert_eq (x := x) hl
  obtain ⟨hpp, hqq, hpq⟩ := List.pairwise_append.1 hl
  rw [hi]
  refine List.pairwise_append.2 ⟨hpp, List.pairwise_cons.2 ⟨fun y hy => (hq y hy).le, hqq⟩, fun y hy z hz => ?_⟩
  obtain rfl | hz := List.mem_cons.1 hz
  · exact hp y hy
  · exact hpq y hy z hz

theorem pmSorted_pmMerge {leaves : List PmItem} (hl : PmSorted leaves) (pk : List PmItem) :
    PmSorted (pmMerge leaves pk) := by
  induction pk generalizing leaves with
  | nil => exact hl
  | cons x pk ih => exact ih (pmSorted_pmInsert hl)

theorem pmSorted_pmLeaves (freq : List Nat) : PmSorted (pmLeaves freq) := pmSorted_pmMerge .nil _

/-- A package is made of two items of the list. -/
theorem weight_of_mem_pmPackage {y : PmItem} {l : List PmItem} (h : y ∈ pmPackage l) :
    ∃ a ∈ l, ∃ b ∈ l, y.weight = a.weight + b.weight := by
  induction l using pmPackage.induct with
  | case1 a b rest ih =>
    obtain rfl | h := List.mem_cons.1 h
    · exact ⟨a, by simp, b, by simp, rfl⟩
    · obtain ⟨c, hc, d, hd, hy⟩ := ih h
      exact ⟨c, by simp [hc], d, by simp [hd], hy⟩
  | case2 x => cases h
  | case3 => cases h

theorem pmSorted_pmPackage {l : List PmItem} (hl : PmSorted l) : PmSorted (pmPackage l) := by
  induction l using pmPackage.induct with
  | case1 a b rest ih =>
    obtain ⟨ha, hl⟩ := List.pairwise_cons.1 hl
    obtain ⟨hb, hl⟩ := List.pairwise_cons.1 hl
    refine List.pairwise_cons.2 ⟨fun y hy => ?_, ih hl⟩
    obtain ⟨c, hc, d, hd, hy⟩ := weight_of_mem_pmPackage hy
    rw [hy]
    exact Nat.add_le_add (ha c (List.mem_cons_of_mem _ hc)) (hb d hd)
  | case2 x => exact .nil
  | case3 => exact .nil

/-! ### where a cut of a round's list cuts the lists it comes from -/

/-- The first packages come from the first items, twice as many, with the same members; an item's package weighs no
less than the item. -/
theorem exists_prefix_of_pmPackage {B l : List PmItem} (h : B <+: pmPackage l) :
    ∃ Q, Q <+: l ∧ Q.length = 2 * B.length ∧ (∀ s, pmCount s Q = pmCount s B) ∧
      ∀ x ∈ Q, ∃ y ∈ B, x.weight ≤ y.weight := by
  induction l using pmPackage.induct generalizing B with
  | case1 a b rest ih =>
    cases B with
    | nil => exact ⟨[], List.nil_prefix, rfl, fun _ => rfl, by simp⟩
    | cons y B =>
      obtain ⟨rfl, hB⟩ := List.cons_prefix_cons.1 h
      obtain ⟨Q, hQ, hl, hc, hw⟩ := ih hB
      refine ⟨a :: b :: Q, by simpa [List.cons_prefix_cons] using hQ, by simp [hl]; omega, fun s => ?_, ?_⟩
      · have := hc s
        simp only [pmCount, List.flatMap_cons, List.count_append] at this ⊢
        omega
      · refine List.forall_mem_cons.2 ⟨⟨_, List.mem_cons_self, Nat.le_add_right ..⟩, List.forall_mem_cons.2
          ⟨⟨_, List.mem_cons_self, Nat.le_add_left ..⟩, fun x hx => ?_⟩⟩
        obtain ⟨y, hy, hxy⟩ := hw x hx
        exact ⟨y, List.mem_cons_of_mem _ hy, hxy⟩
  | case2 x => exact ⟨[], List.nil_prefix, by simp [List.prefix_nil.1 h], by simp [List.prefix_nil.1 h], by simp⟩
  | case3 => exact ⟨[], List.nil_prefix, by simp [List.prefix_nil.1 h], by simp [List.prefix_nil.1 h], by simp⟩

/-- The items `T` and `R` are those before and behind a cut of both lists, and the packages before it weigh less than
the leaves behind it. -/
def PmCut (leaves pk T R : List PmItem) : Prop :=
  ∃ A A' B B', leaves = A ++ A' ∧ pk = B ++ B' ∧ T.Perm (A ++ B) ∧ R.Perm (A' ++ B') ∧
    ∀ y ∈ B, ∀ x ∈ A', y.weight < x.weight

/-- The next package goes behind the cut. -/
theorem PmCut.concat_right {leaves pk T R R' : List PmItem} {x : PmItem} (h : PmCut leaves pk T R)
    (hR : R'.Perm (R ++ [x])) : PmCut leaves (pk ++ [x]) T R' := by
  obtain ⟨A, A', B, B', rfl, rfl, hT, hR', hw⟩ := h
  refine ⟨A, A', B, B' ++ [x], rfl, List.append_assoc .., hT, ?_, hw⟩
  rw [← List.append_assoc]
  exact hR.trans (hR'.append_right _)

/-- The next package goes before the cut, where all behind it weighs more; so no package is behind it. -/
theorem PmCut.concat_left {leaves pk T T' R : List PmItem} {x : PmItem} (h : PmCut leaves pk T R)
    (hT' : T'.Perm (T ++ [x])) (hpk : ∀ y ∈ pk, y.weight ≤ x.weight) (hR' : ∀ y ∈ R, x.weight < y.weight) :
    PmCut leaves (pk ++ [x]) T' R := by
  obtain ⟨A, A', B, B', rfl, rfl, hT, hR, hw⟩ := h
  have hB : B' = [] := List.eq_nil_iff_forall_not_mem.2 fun y hy =>
    Nat.not_lt.2 (hpk y (by simp [hy])) (hR' y (hR.mem_iff.2 (by simp [hy])))
  subst hB
  refine ⟨A, A', B ++ [x], [], rfl, by simp, ?_, hR, fun y hy z hz => ?_⟩
  · rw [← List.append_assoc]
    exact hT'.trans (hT.append_right _)
  · obtain hy | hy := List.mem_append.1 hy
    · exact hw y hy z hz
    · rw [List.mem_singleton.1 hy]
      exact hR' z (hR.mem_iff.2 (by simp [hz]))

theorem pmMerge_concat (leaves pk : List PmItem) (x : PmItem) :
    pmMerge leaves (pk ++ [x]) = pmInsert x (pmMerge leaves pk) := by
  simp [pmMerge]

/-- A cut of the merged list cuts both lists (R172). -/
theorem pmCut_of_pmMerge {leaves pk T R : List PmItem} (hl : PmSorted leaves) (hpk : PmSorted pk)
    (h : pmMerge leaves pk = T ++ R) : PmCut leaves pk T R := by
  induction pk using List.reverseRecOn generalizing T R with
  | nil => exact ⟨T, R, [], [], h, rfl, by simp, by simp, by simp⟩
  | append_singleton pk x ih =>
    obtain ⟨hpk, -, hx⟩ := List.pairwise_append.1 hpk
    obtain ⟨p, q, hm, hi, -, hq⟩ := exists_pmInsert_eq (x := x) (pmSorted_pmMerge hl pk)
    rw [pmMerge_concat, hi] at h
    obtain ⟨c, rfl, hc⟩ | ⟨c, rfl, rfl⟩ := List.append_eq_append_iff.1 h
    · cases c with
      | nil =>
        rw [List.nil_append] at hc
        subst hc
        rw [List.append_nil]
        exact (ih hpk hm).concat_right (by simpa using (List.perm_append_singleton x q).symm)
      | cons z c =>
        obtain ⟨rfl, rfl⟩ := List.cons.inj hc
        exact (ih hpk (hm.trans (List.append_assoc ..).symm)).concat_left
          (by simpa using List.perm_middle.trans (List.perm_append_singleton ..).symm)
          (fun y hy => hx y hy x (by simp)) fun y hy => hq y (by simp [hy])
    · exact (ih hpk (hm.trans (List.append_assoc ..))).concat_right
        (by simpa using List.perm_middle.trans (List.perm_append_singleton ..).symm)

/-! ### the counting invariant of the rounds, as an equality -/

theorem pmCount_pos_iff {s : Nat} {l : List PmItem} : 0 < pmCount s l ↔ ∃ x ∈ l, s ∈ x.members := by
  rw [pmCount, List.count_pos_iff, List.mem_flatMap]

/-- The items hold the leaf of every symbol they hold. -/
def PmRooted (leaves T : List PmItem) : Prop := ∀ s, 0 < pmCount s T → ∃ x ∈ T, x ∈ leaves ∧ x.members = [s]

/-- The bound of `PmBounded` is met exactly. -/
def PmTight (used : Finset Nat) (j : Nat) (T : List PmItem) : Prop :=
  T.length * 2 ^ j + ∑ s ∈ used, 2 ^ (j + 1 - pmCount s T) = used.card * 2 ^ (j + 1)

theorem pmRooted_of_subset {leaves T : List PmItem} (hm : ∀ x ∈ leaves, ∃ s, x.members = [s]) (hT : T ⊆ leaves) :
    PmRooted leaves T := by
  intro s hs
  obtain ⟨x, hx, hsx⟩ := pmCount_pos_iff.1 hs
  obtain ⟨u, hu⟩ := hm x (hT hx)
  rw [hu, List.mem_singleton] at hsx
  exact ⟨x, hx, hT hx, hsx ▸ hu⟩

/-- One more coin of a symbol, of twice the width of the coins before it, if there are such. -/
theorem coin_width_eq {a q j : Nat} (ha : a ≤ 1) (hq : 0 < q → 0 < a) :
    a * 2 ^ (j + 1) + 2 ^ (j + 2 - (a + q)) = 2 ^ (j + 1 - q) + 2 ^ (j + 1) := by
  obtain rfl | rfl : a = 0 ∨ a = 1 := by omega
  · obtain rfl : q = 0 := by omega
    rw [Nat.zero_mul, Nat.zero_add, Nat.sub_zero, Nat.sub_zero, Nat.pow_succ 2 (j + 1), Nat.mul_two]
  · rw [show j + 2 - (1 + q) = j + 1 - q by omega]
    omega

theorem pmTight_singles {used : Finset Nat} {leaves T : List PmItem} (h : PmSingles used leaves)
    (hT : T.Sublist leaves) : PmTight used 0 T := by
  obtain ⟨hl, hc⟩ := h T hT
  have hp : ∀ s ∈ used, pmCount s T + 2 ^ (1 - pmCount s T) = 2 := fun s hs => by
    have := hc s
    rw [if_pos hs] at this
    obtain h | h : pmCount s T = 0 ∨ pmCount s T = 1 := by omega
    all_goals simp [h]
  rw [PmTight, hl, Nat.pow_zero, Nat.mul_one, ← Finset.sum_add_distrib, Nat.zero_add, Nat.pow_one,
    Finset.sum_congr rfl hp, Finset.sum_const, smul_eq_mul]

/-- Leaves `A` join the items `Q` of the round before, packed two by two, and cover their symbols. -/
theorem PmTight.merge {used : Finset Nat} {leaves A B Q T : List PmItem} {j : Nat} (h : PmSingles used leaves)
    (hA : A.Sublist leaves) (hT : T.Perm (A ++ B)) (hlen : Q.length = 2 * B.length)
    (hcnt : ∀ s, pmCount s Q = pmCount s B) (hQA : ∀ s, 0 < pmCount s Q → 0 < pmCount s A)
    (hQ : PmTight used j Q) : PmTight used (j + 1) T := by
  obtain ⟨hAl, hAc⟩ := h A hA
  have hTl : T.length * 2 ^ (j + 1) = A.length * 2 ^ (j + 1) + Q.length * 2 ^ j := by
    rw [hT.length_eq, List.length_append, hlen, Nat.pow_succ]
    ring
  have hp : ∀ s ∈ used, pmCount s A * 2 ^ (j + 1) + 2 ^ (j + 2 - pmCount s T) =
      2 ^ (j + 1 - pmCount s Q) + 2 ^ (j + 1) := fun s hs => by
    have ha := hAc s
    rw [if_pos hs] at ha
    rw [pmCount_perm hT, pmCount_append, ← hcnt]
    exact coin_width_eq ha (hQA s)
  have hsum := Finset.sum_congr rfl hp
  simp only [Finset.sum_add_distrib, ← Finset.sum_mul, ← hAl, Finset.sum_const, smul_eq_mul] at hsum
  have h2 : used.card * 2 ^ (j + 2) = used.card * 2 ^ (j + 1) + used.card * 2 ^ (j + 1) := by ring
  simp only [PmTight, show j + 1 + 1 = j + 2 from rfl] at hQ ⊢
  omega

/-- Every cut of a round's list leaves items before it that are rooted and meet the bound exactly. -/
def PmExact (used : Finset Nat) (leaves : List PmItem) (j : Nat) (l : List PmItem) : Prop :=
  ∀ T, T <+: l → PmRooted leaves T ∧ PmTight used j T

/-- A leaf goes before every package that weighs no less, so where a package is taken the leaves in it are. -/
theorem pmExact_merge {used : Finset Nat} {leaves cur : List PmItem} {j : Nat} (h : PmSingles used leaves)
    (hm : ∀ x ∈ leaves, ∃ s, x.members = [s]) (hl : PmSorted leaves) (hs : PmSorted cur)
    (hc : PmExact used leaves j cur) : PmExact used leaves (j + 1) (pmMerge leaves (pmPackage cur)) := by
  rintro T ⟨R, hR⟩
  obtain ⟨A, A', B, B', hA, hB, hT, -, hw⟩ := pmCut_of_pmMerge hl (pmSorted_pmPackage hs) hR.symm
  obtain ⟨Q, hQ, hlen, hcnt, hle⟩ := exists_prefix_of_pmPackage ⟨B', hB.symm⟩
  obtain ⟨hroot, htight⟩ := hc Q hQ
  have hAs : A.Sublist leaves := hA ▸ List.sublist_append_left A A'
  have hQA : ∀ s, 0 < pmCount s Q → ∃ x ∈ A, x ∈ leaves ∧ x.members = [s] := fun s hq => by
    obtain ⟨x, hx, hxl, hxs⟩ := hroot s hq
    obtain ⟨y, hy, hxy⟩ := hle x hx
    have hx' : x ∉ A' := fun hx' => Nat.not_lt.2 hxy (hw y hy x hx')
    exact ⟨x, (List.mem_append.1 (hA ▸ hxl)).resolve_right hx', hxl, hxs⟩
  refine ⟨fun s hsT => ?_, htight.merge h hAs hT hlen hcnt fun s hq => ?_⟩
  · have hAQ : 0 < pmCount s A ∨ 0 < pmCount s Q := by
      rw [pmCount_perm hT, pmCount_append, ← hcnt] at hsT
      omega
    obtain ⟨x, hx, hxl⟩ := hAQ.elim (pmRooted_of_subset hm hAs.subset s) (hQA s)
    exact ⟨x, hT.mem_iff.2 (List.mem_append_left _ hx), hxl⟩
  · obtain ⟨x, hx, -, hxs⟩ := hQA s hq
    exact pmCount_pos_iff.2 ⟨x, hx, by simp [hxs]⟩

theorem pmExact_rounds {used : Finset Nat} {leaves cur : List PmItem} {j n : Nat} (h : PmSingles used leaves)
    (hm : ∀ x ∈ leaves, ∃ s, x.members = [s]) (hl : PmSorted leaves) (hs : PmSorted cur)
    (hc : PmExact used leaves j cur) : PmExact used leaves (j + n) (pmRounds leaves n cur) := by
  induction n generalizing j cur with
  | zero => exact hc
  | succ n ih =>
    have := ih (pmSorted_pmMerge hl _) (pmExact_merge h hm hl hs hc)
    rwa [Nat.add_assoc, Nat.add_comm 1] at this

/-! ### the lengths -/

theorem mem_pmItems_iff {k s : Nat} {freq : List Nat} :
    s ∈ (pmItems k freq).flatMap PmItem.members ↔ k ≤ s ∧ freq.getD (s - k) 0 ≠ 0 := by
  induction freq generalizing k with
  | nil => simp [pmItems]
  | cons f fs ih =>
    unfold pmItems
    obtain hs | rfl | hs := Nat.lt_trichotomy s k
    · split <;> simp [ih] <;> omega
    · split <;> simp [*]
    · obtain ⟨d, rfl⟩ := Nat.exists_eq_add_of_lt hs
      have hd : k + d + 1 - k = d + 1 := by omega
      have hd' : k + d + 1 - (k + 1) = d := by omega
      split <;> simp [ih, hd, hd'] <;> omega

/-- The symbols of the leaves are those in use. -/
theorem mem_pmUsed_iff {freq : List Nat} {s : Nat} : s ∈ pmUsed freq ↔ freq.getD s 0 ≠ 0 := by
  rw [pmUsed, List.mem_toFinset, ((pmLeaves_perm freq).flatMap_right _).mem_iff, mem_pmItems_iff, Nat.sub_zero]
  simp

/-- The items of the last round suffice for the lengths, where the bound can tell the used symbols apart (R172). -/
theorem length_pmTaken {freq : List Nat} {maxBits : Nat} (hb : 1 ≤ maxBits)
    (hk : (pmLeaves freq).length ≤ 2 ^ maxBits) : (pmTaken freq maxBits).length = 2 * (pmLeaves freq).length - 2 := by
  have := length_pmRounds (leaves := pmLeaves freq) (cur := pmLeaves freq) (n := maxBits - 1)
    (by rw [Nat.sub_add_cancel hb]; omega)
  rw [pmTaken, List.length_take]
  omega

/-- The lengths of the used symbols fill the bound (R170, item 4). -/
theorem sum_pmTaken {freq : List Nat} {maxBits : Nat} (hb : 1 ≤ maxBits) (h2 : 2 ≤ (pmLeaves freq).length)
    (hk : (pmLeaves freq).length ≤ 2 ^ maxBits) :
    ∑ s ∈ pmUsed freq, 2 ^ (maxBits - pmCount s (pmTaken freq maxBits)) = 2 ^ maxBits := by
  have hs := pmSingles_pmLeaves freq
  have hm : ∀ x ∈ pmLeaves freq, ∃ s, x.members = [s] := fun _ => pmLeaves_members
  have hl := pmSorted_pmLeaves freq
  obtain ⟨-, ht⟩ := pmExact_rounds (n := maxBits - 1) hs hm hl hl
    (fun T hT => ⟨pmRooted_of_subset hm hT.subset, pmTight_singles hs hT.sublist⟩)
    (pmTaken freq maxBits) (List.take_prefix ..)
  rw [PmTight, Nat.zero_add, Nat.sub_add_cancel hb, card_pmUsed, length_pmTaken hb hk] at ht
  obtain ⟨k, hk⟩ : ∃ k, (pmLeaves freq).length = k + 1 := ⟨_, (Nat.sub_add_cancel (by omega)).symm⟩
  have hpow : 2 ^ maxBits = 2 * 2 ^ (maxBits - 1) := by
    rw [← Nat.pow_succ', Nat.succ_eq_add_one, Nat.sub_add_cancel hb]
  have hw : (2 * (k + 1) - 2) * 2 ^ (maxBits - 1) = k * 2 ^ maxBits := by
    rw [hpow, show 2 * (k + 1) - 2 = k * 2 by omega, Nat.mul_assoc]
  rw [hk, hw, Nat.succ_mul] at ht
  omega

/-- No used symbol is left out: its share would be the whole bound, and there is another one (R170, item 2). -/
theorem pmCount_pmTaken_pos {freq : List Nat} {maxBits s : Nat} (hb : 1 ≤ maxBits) (h2 : 2 ≤ (pmLeaves freq).length)
    (hk : (pmLeaves freq).length ≤ 2 ^ maxBits) (hs : s ∈ pmUsed freq) : 0 < pmCount s (pmTaken freq maxBits) := by
  by_contra h0
  obtain ⟨u, hu, hus⟩ := Finset.exists_mem_ne (Nat.lt_of_lt_of_eq h2 (card_pmUsed freq).symm) s
  have hlt := Finset.single_lt_sum (f := fun s => 2 ^ (maxBits - pmCount s (pmTaken freq maxBits))) hus hs hu
    (Nat.two_pow_pos _) fun _ _ _ => Nat.zero_le _
  rw [sum_pmTaken hb h2 hk] at hlt
  simp [Nat.eq_zero_of_not_pos h0] at hlt

theorem pmCount_pmTaken_eq_zero {freq : List Nat} {maxBits s : Nat} (hb : 1 ≤ maxBits) (hs : freq.getD s 0 = 0) :
    pmCount s (pmTaken freq maxBits) = 0 := by
  have h := (pmTaken_bounded freq hb).1 s
  rwa [if_neg fun hu => mem_pmUsed_iff.1 hu hs, Nat.le_zero] at h

theorem buildLengths_of_two_le {freq : List Nat} (maxBits : Nat) (h2 : 2 ≤ (pmLeaves freq).length) :
    buildLengths freq maxBits = (List.range freq.length).map fun s => pmCount s (pmTaken freq maxBits) := by
  obtain ⟨h, -⟩ | ⟨h, -⟩ | ⟨-, h⟩ := buildLengths_cases freq maxBits
  · omega
  · omega
  · exact h

theorem buildLengths_getD {freq : List Nat} {maxBits : Nat} (hb : 1 ≤ maxBits) (h2 : 2 ≤ (pmLeaves freq).length)
    (s : Nat) : (buildLengths freq maxBits).getD s 0 = pmCount s (pmTaken freq maxBits) := by
  rw [buildLengths_of_two_le maxBits h2]
  by_cases hs : s < freq.length
  · simp [List.getD_eq_getElem?_getD, hs]
  · rw [pmCount_pmTaken_eq_zero hb (List.getD_eq_default _ _ (Nat.not_lt.1 hs)),
      List.getD_eq_default _ _ (by simpa using hs)]

theorem length_buildLengths (freq : List Nat) (maxBits : Nat) :
    (buildLengths freq maxBits).length = freq.length := by
  obtain ⟨-, h⟩ | ⟨-, h⟩ | ⟨-, h⟩ := buildLengths_cases freq maxBits <;> simp [h]

theorem buildLengths_single {freq : List Nat} (maxBits : Nat) (h1 : (pmLeaves freq).length = 1) (s : Nat) :
    (buildLengths freq maxBits).getD s 0 = if freq.getD s 0 = 0 then 0 else 1 := by
  obtain ⟨h, -⟩ | ⟨-, h⟩ | ⟨h, -⟩ := buildLengths_cases freq maxBits
  · omega
  · rw [h]
    exact List.getD_map (f := fun f => if f = 0 then 0 else 1) (d := 0) ..
  · omega

/-- An unused symbol has length 0 (R170, items 1 and 6). -/
theorem buildLengths_unused {freq : List Nat} {maxBits s : Nat} (hb : 1 ≤ maxBits) (hs : freq.getD s 0 = 0) :
    (buildLengths freq maxBits).getD s 0 = 0 := by
  obtain ⟨-, h⟩ | ⟨h1, -⟩ | ⟨h2, -⟩ := buildLengths_cases freq maxBits
  · rw [h]
    exact List.getD_map (f := fun _ => 0) (d := 0) ..
  · rw [buildLengths_single maxBits h1, if_pos hs]
  · rw [buildLengths_getD hb h2, pmCount_pmTaken_eq_zero hb hs]

/-- With two used symbols and more, as many as the bound can tell apart, the table is complete (R170, item 4). -/
theorem kraftSum_buildLengths_eq {freq : List Nat} {maxBits : Nat} (hb : 1 ≤ maxBits)
    (h2 : 2 ≤ (pmLeaves freq).length) (hk : (pmLeaves freq).length ≤ 2 ^ maxBits) :
    kraftSum maxBits (buildLengths freq maxBits) = 2 ^ maxBits := by
  have hsub : pmUsed freq ⊆ Finset.range freq.length := fun s hs => by
    by_contra hn
    exact mem_pmUsed_iff.1 hs (List.getD_eq_default _ _ (by simpa using hn))
  rw [buildLengths_of_two_le maxBits h2, kraftSum, List.map_map]
  calc _ = ∑ s ∈ Finset.range freq.length, if pmCount s (pmTaken freq maxBits) = 0 then 0
          else 2 ^ (maxBits - pmCount s (pmTaken freq maxBits)) := rfl
    _ = ∑ s ∈ pmUsed freq, if pmCount s (pmTaken freq maxBits) = 0 then 0
          else 2 ^ (maxBits - pmCount s (pmTaken freq maxBits)) :=
        (Finset.sum_subset hsub fun s _ hs =>
          if_pos (pmCount_pmTaken_eq_zero hb (not_not.1 (mt mem_pmUsed_iff.2 hs)))).symm
    _ = ∑ s ∈ pmUsed freq, 2 ^ (maxBits - pmCount s (pmTaken freq maxBits)) :=
        Finset.sum_congr rfl fun s hs => if_neg (Nat.ne_of_gt (pmCount_pmTaken_pos hb h2 hk hs))
    _ = 2 ^ maxBits := sum_pmTaken hb h2 hk

end Sys2Proof

open Sys2Proof Sys2Proof.Machine

/-- Settles O49: by the cases of `buildLengths`; from two used symbols up, the items taken at every round hold a
symbol's leaf wherever they hold the symbol, so the lengths fill the bound exactly and leave no used symbol out. -/
theorem builtLengthsAreBounded : Obligations.BuiltLengthsAreBounded := by
  intro freq maxBits hb len used
  have hused : (pmLeaves freq).length = used := length_pmLeaves freq
  refine ⟨length_buildLengths freq maxBits, fun s hs => buildLengths_unused hb hs,
    fun s => getD_le (buildLengths_le hb) s, fun h1 s hs => ?_, fun h2 hk => ?_⟩
  · exact (buildLengths_single maxBits (hused.trans h1) s).trans (if_neg hs)
  · rw [← hused] at h2 hk
    refine ⟨fun s hs => ?_, kraftSum_buildLengths_eq hb h2 hk⟩
    exact (pmCount_pmTaken_pos hb h2 hk (mem_pmUsed_iff.2 hs)).trans_eq (buildLengths_getD hb h2 s).symm

end

section
/-! PROOFS. The match finder (R214 to R218): what the loop over a list of candidates finds, that the hash bucket leaves
out no candidate that could be taken, and what an insertion does to LIVE (R212, R213). -/

namespace Sys2Proof.Machine

/-! ### the agreeing run of a candidate (R214) -/

/-- A run that agrees is no longer than the match length, up to the limit. -/
theorem le_matchLen {m : Memory} {lim l p q : Nat} (hl : l ≤ lim) (h : ∀ i, i < l → m.read (p + i) = m.read (q + i)) :
    l ≤ matchLen m lim p q := by
  induction lim generalizing l p q with
  | zero => exact hl
  | succ lim ih =>
    cases l with
    | zero => exact Nat.zero_le _
    | succ l =>
      have htail : ∀ i, i < l → m.read (p + 1 + i) = m.read (q + 1 + i) := fun i hi => by
        rw [Nat.add_right_comm p, Nat.add_right_comm q]
        exact h (i + 1) (Nat.succ_lt_succ hi)
      have hhead : m.read p = m.read q := h 0 l.succ_pos
      rw [matchLen, if_pos hhead]
      exact Nat.succ_le_succ (ih (Nat.le_of_succ_le_succ hl) htail)

/-- The length R214's loop finds for the candidate at `p`: 0 where it is too far away. -/
def candidateLen (m : Memory) (n cur p : Nat) : Nat :=
  if maxDist < cur - p then 0 else matchLen m (min (min (cur - p) (n - cur)) maxMatch) p cur

/-- A candidate is taken where its length is a match's and longer than the best so far. -/
theorem tryCandidate_eq (m : Memory) (n cur : Nat) (best : Match) (p : Nat) :
    tryCandidate m n cur best p =
      if 3 ≤ candidateLen m n cur p ∧ best.len < candidateLen m n cur p then ⟨candidateLen m n cur p, cur - p⟩
      else best := by
  unfold tryCandidate candidateLen
  by_cases hfar : maxDist < cur - p <;> simp [hfar, minMatch]

theorem candidateLen_bounds (m : Memory) (n cur p : Nat) :
    candidateLen m n cur p ≤ cur - p ∧ candidateLen m n cur p ≤ n - cur ∧ candidateLen m n cur p ≤ 258 := by
  unfold candidateLen
  split
  · exact ⟨Nat.zero_le _, Nat.zero_le _, Nat.zero_le _⟩
  · have h := (matchLen_spec m (min (min (cur - p) (n - cur)) maxMatch) p cur).1
    simp only [maxMatch] at h ⊢
    omega

theorem candidateLen_agrees (m : Memory) (n cur p : Nat) :
    ∀ i, i < candidateLen m n cur p → m.read (p + i) = m.read (cur + i) := by
  unfold candidateLen
  split
  · nofun
  · exact (matchLen_spec m _ p cur).2

/-- A candidate too far away has no length. -/
theorem dist_le_of_candidateLen_ne_zero {m : Memory} {n cur p : Nat} (h : candidateLen m n cur p ≠ 0) :
    cur - p ≤ 32768 := by
  by_contra hfar
  exact h (if_pos (Nat.not_le.1 hfar))

/-- A run that agrees is no longer than the candidate's length, where the candidate is in reach. -/
theorem le_candidateLen {m : Memory} {n cur p l : Nat} (hfar : cur - p ≤ 32768) (hd : l ≤ cur - p) (hn : l ≤ n - cur)
    (hmax : l ≤ 258) (h : ∀ i, i < l → m.read (p + i) = m.read (cur + i)) : l ≤ candidateLen m n cur p := by
  have hnear : ¬ maxDist < cur - p := Nat.not_lt.2 hfar
  rw [candidateLen, if_neg hnear]
  exact le_matchLen (Nat.le_min.2 ⟨Nat.le_min.2 ⟨hd, hn⟩, hmax⟩) h

/-! ### the loop over the candidates (R214) -/

/-- The match `b` is that of the first longest candidate of `ps`, and is long enough to be one. -/
def FirstLongest (m : Memory) (n cur : Nat) (ps : List Nat) (b : Match) : Prop :=
  ∃ before p after, ps = before ++ p :: after ∧ b = ⟨candidateLen m n cur p, cur - p⟩ ∧
    3 ≤ candidateLen m n cur p ∧ (∀ q ∈ before, candidateLen m n cur q < candidateLen m n cur p) ∧
    ∀ q ∈ after, candidateLen m n cur q ≤ candidateLen m n cur p

/-- The loop finds the first of the longest candidates, or nothing where none is long enough. -/
theorem bestMatch_cases (m : Memory) (n cur : Nat) (ps : List Nat) :
    (bestMatch m n cur ps = ⟨0, 0⟩ ∧ ∀ p ∈ ps, candidateLen m n cur p < 3) ∨
      FirstLongest m n cur ps (bestMatch m n cur ps) := by
  induction ps using List.reverseRecOn with
  | nil => exact .inl ⟨rfl, nofun⟩
  | append_singleton ps x ih =>
    have hstep : bestMatch m n cur (ps ++ [x]) = tryCandidate m n cur (bestMatch m n cur ps) x := by
      simp [bestMatch, List.foldl_append]
    rw [hstep, tryCandidate_eq]
    obtain ⟨hnone, hshort⟩ | ⟨before, p, after, hps, hbest, hlong, hlt, hle⟩ := ih
    · rw [hnone]
      split
      next htake => exact .inr ⟨ps, x, [], rfl, rfl, htake.1, fun q hq => (hshort q hq).trans_le htake.1, nofun⟩
      next hskip =>
        refine .inl ⟨rfl, List.forall_mem_append.2 ⟨hshort, List.forall_mem_singleton.2 ?_⟩⟩
        dsimp only at hskip
        omega
    · rw [hbest]
      split
      next htake =>
        refine .inr ⟨ps, x, [], rfl, rfl, htake.1, ?_, nofun⟩
        rw [hps]
        exact List.forall_mem_append.2 ⟨fun q hq => (hlt q hq).trans htake.2,
          List.forall_mem_cons.2 ⟨htake.2, fun q hq => (hle q hq).trans_lt htake.2⟩⟩
      next hskip =>
        refine .inr ⟨before, p, after ++ [x], by simp [hps], rfl, hlong, hlt,
          List.forall_mem_append.2 ⟨hle, List.forall_mem_singleton.2 ?_⟩⟩
        dsimp only at hskip
        omega

/-- A match found is the first of the longest candidates. -/
theorem firstLongest_of_len_ne_zero {m : Memory} {n cur : Nat} {ps : List Nat} (h : (bestMatch m n cur ps).len ≠ 0) :
    FirstLongest m n cur ps (bestMatch m n cur ps) :=
  (bestMatch_cases m n cur ps).resolve_left fun hnone => h (congrArg Match.len hnone.1)

/-- No candidate that could be a match is longer than the match found. -/
theorem candidateLen_le_bestMatch {m : Memory} {n cur p : Nat} {ps : List Nat} (hp : p ∈ ps)
    (h3 : 3 ≤ candidateLen m n cur p) : candidateLen m n cur p ≤ (bestMatch m n cur ps).len := by
  obtain ⟨-, hshort⟩ | ⟨before, q, after, hps, hbest, -, hlt, hle⟩ := bestMatch_cases m n cur ps
  · exact absurd (hshort p hp) (Nat.not_lt.2 h3)
  · rw [hbest]
    rw [hps, List.mem_append, List.mem_cons] at hp
    obtain hp | rfl | hp := hp
    · exact (hlt p hp).le
    · exact Nat.le_refl _
    · exact hle p hp

/-- Of the candidates as long as the match found, the one taken comes first in the order the list is in. -/
theorem FirstLongest.rel_of_pairwise {m : Memory} {n cur p : Nat} {ps : List Nat} {b : Match} {R : Nat → Nat → Prop}
    (h : FirstLongest m n cur ps b) (hps : ps.Pairwise R) (hp : p ∈ ps) (hlen : b.len ≤ candidateLen m n cur p) :
    ∃ q, b.dist = cur - q ∧ (q = p ∨ R q p) := by
  obtain ⟨before, q, after, rfl, rfl, -, hlt, -⟩ := h
  refine ⟨q, rfl, ?_⟩
  obtain hp | hp := List.mem_append.1 hp
  · exact absurd (hlt p hp) (Nat.not_lt.2 hlen)
  · obtain rfl | hp := List.mem_cons.1 hp
    · exact .inl rfl
    · exact .inr (List.rel_of_pairwise_cons (List.pairwise_append.1 hps).2.1 hp)

/-! ### the walk order (R218) -/

theorem mem_walked {α : Type} {o : WalkOrder} {l : List α} {a : α} : a ∈ walked o l ↔ a ∈ l := by
  cases o with
  | newestFirst => exact List.mem_reverse
  | oldestFirst => exact Iff.rfl

theorem walked_map {α β : Type} (o : WalkOrder) (f : α → β) (l : List α) : walked o (l.map f) = (walked o l).map f := by
  cases o with
  | newestFirst => exact List.map_reverse.symm
  | oldestFirst => rfl

theorem walked_filter {α : Type} (o : WalkOrder) (p : α → Bool) (l : List α) :
    walked o (l.filter p) = (walked o l).filter p := by
  cases o with
  | newestFirst => exact List.filter_reverse.symm
  | oldestFirst => rfl

/-! ### the hash bucket (R211, R215) -/

/-- Positions that agree on three bytes have the same hash (R211). -/
theorem hash3_eq_of_agrees {m : Memory} {p q : Nat} (h : ∀ i, i < 3 → m.read (p + i) = m.read (q + i)) :
    hash3 m p = hash3 m q := by
  have h0 : m.read p = m.read q := h 0 (by decide)
  rw [hash3, hash3, h0, h 1 (by decide), h 2 (by decide)]

/-- A candidate whose hash is not that of the position searched is never taken (R215). -/
theorem tryCandidate_of_hash3_ne {m : Memory} {cur p : Nat} (h : hash3 m p ≠ hash3 m cur) (n : Nat) (best : Match) :
    tryCandidate m n cur best p = best := by
  rw [tryCandidate_eq, if_neg]
  exact fun htake => h (hash3_eq_of_agrees fun i hi => candidateLen_agrees m n cur p i (hi.trans_le htake.1))

/-- Candidates that are never taken can be left out of a search. -/
theorem bestMatch_filter {m : Memory} {n cur : Nat} {keep : HistEntry → Bool} {es : List HistEntry}
    (h : ∀ e ∈ es, keep e = false → ∀ best, tryCandidate m n cur best e.pos = best) :
    bestMatch m n cur ((es.filter keep).map HistEntry.pos) = bestMatch m n cur (es.map HistEntry.pos) := by
  rw [bestMatch, bestMatch, List.foldl_map, List.foldl_map, List.foldl_filter]
  refine List.foldl_ext _ _ _ fun best e he => ?_
  split
  · rfl
  next hk => exact (h e he (Bool.eq_false_iff.2 hk) best).symm

/-- The search over the bucket is the search over all of LIVE (R215). -/
theorem DefRegs.findLongestMatch_eq_live {c : Config} {m : Memory} {r : DefRegs} (cur : Nat)
    (h : ∀ e ∈ r.hist, e.hash = hash3 m e.pos) :
    r.findLongestMatch c m cur = bestMatch m r.inEnd cur (walked c.walkOrder r.live) := by
  rw [DefRegs.findLongestMatch, DefRegs.live, DefRegs.bucketEntries, walked_map, walked_map, walked_filter]
  refine bestMatch_filter fun e he hout => tryCandidate_of_hash3_ne (fun heq => ?_) r.inEnd
  have hin : (bucketOf c e.hash == bucketOf c (hash3 m cur)) = true := by
    rw [h e (mem_walked.1 he), heq, beq_self_eq_true]
  exact Bool.false_ne_true (hout.symm.trans hin)

/-- The candidates of a search are live positions. -/
theorem DefRegs.mem_live_of_mem_walked_bucket {c : Config} {r : DefRegs} {b p : Nat}
    (h : p ∈ walked c.walkOrder ((r.bucketEntries c b).map HistEntry.pos)) : p ∈ r.live := by
  obtain ⟨e, he, rfl⟩ := List.mem_map.1 (mem_walked.1 h)
  exact List.mem_map_of_mem (List.mem_of_mem_filter he)

/-- A match found is at a live position, of which it is the agreeing run (R214, R216). -/
theorem DefRegs.findLongestMatch_found {c : Config} {m : Memory} {r : DefRegs} {cur : Nat}
    (h : (r.findLongestMatch c m cur).len ≠ 0) :
    ∃ p ∈ r.live, r.findLongestMatch c m cur = ⟨candidateLen m r.inEnd cur p, cur - p⟩ ∧
      3 ≤ candidateLen m r.inEnd cur p := by
  obtain ⟨before, p, after, hps, hbest, hlong, -⟩ := firstLongest_of_len_ne_zero h
  exact ⟨p, DefRegs.mem_live_of_mem_walked_bucket (hps ▸ List.mem_append_right before List.mem_cons_self), hbest, hlong⟩

/-- A match found is within its bounds and agrees (R216). -/
theorem DefRegs.findLongestMatch_bounds {c : Config} {m : Memory} {r : DefRegs} {cur : Nat}
    (h : (r.findLongestMatch c m cur).len ≠ 0) :
    let f := r.findLongestMatch c m cur
    3 ≤ f.len ∧ f.len ≤ 258 ∧ 1 ≤ f.dist ∧ f.dist ≤ 32768 ∧ f.len ≤ f.dist ∧ f.len ≤ r.inEnd - cur ∧
      f.dist ≤ cur ∧ cur - f.dist ∈ r.live ∧ ∀ k, k < f.len → m.read (cur - f.dist + k) = m.read (cur + k) := by
  obtain ⟨p, hp, hf, h3⟩ := DefRegs.findLongestMatch_found h
  obtain ⟨hd, hn, hmax⟩ := candidateLen_bounds m r.inEnd cur p
  have hne : candidateLen m r.inEnd cur p ≠ 0 := by omega
  have hpos : cur - (cur - p) = p := by omega
  simp only [hf, hpos]
  exact ⟨h3, hmax, by omega, dist_le_of_candidateLen_ne_zero hne, hd, hn, Nat.sub_le cur p, hp,
    candidateLen_agrees m r.inEnd cur p⟩

/-- Of the live positions that agree as far, the nearest is taken, or the farthest under oldest-first (R218). -/
theorem DefRegs.findLongestMatch_tie {c : Config} {m : Memory} {r : DefRegs} {cur p : Nat}
    (hash : ∀ e ∈ r.hist, e.hash = hash3 m e.pos) (hf : (r.findLongestMatch c m cur).len ≠ 0)
    (hrise : r.live.Pairwise (· < ·)) (hp : p ∈ r.live)
    (hlen : (r.findLongestMatch c m cur).len ≤ candidateLen m r.inEnd cur p) :
    (c.walkOrder = .newestFirst → (r.findLongestMatch c m cur).dist ≤ cur - p) ∧
      (c.walkOrder = .oldestFirst → cur - p ≤ (r.findLongestMatch c m cur).dist) := by
  rw [DefRegs.findLongestMatch_eq_live cur hash] at hf hlen ⊢
  have hfirst := firstLongest_of_len_ne_zero hf
  constructor <;> intro ho <;> rw [ho] at hfirst hlen ⊢
  · obtain ⟨q, hq, hrel⟩ := hfirst.rel_of_pairwise (List.pairwise_reverse.2 hrise) (List.mem_reverse.2 hp) hlen
    omega
  · obtain ⟨q, hq, hrel⟩ := hfirst.rel_of_pairwise hrise hp hlen
    omega

/-! ### insertion on LIVE (R212, R213) -/

/-- An insertion appends the position to LIVE, without the oldest entry when the arena is full. -/
theorem DefRegs.live_insert {c : Config} {r : DefRegs} (hs : r.slotsOk c) (m : Memory) (p : Nat) :
    (r.insert c m p).live = (if r.live.length = c.histCap then r.live.drop 1 else r.live) ++ [p] := by
  obtain ⟨-, -, hle, -⟩ := id hs
  rw [DefRegs.live, DefRegs.live, List.length_map]
  rcases Nat.lt_or_eq_of_le hle with h | h
  · rw [DefRegs.insert_of_room hs h, if_neg (Nat.ne_of_lt h), List.map_append, List.map_singleton]
  · obtain ⟨e, tail, he, -, hins⟩ := DefRegs.insert_of_full hs h m p
    rw [hins, if_pos h, he, List.map_append, List.map_singleton, List.map_cons, List.drop_one, List.tail_cons]

end Sys2Proof.Machine

open Sys2Proof.Machine

/-- Settles O44: the loop keeps the first longest candidate, and the bucket leaves out none that could be taken. -/
theorem matchBounds : Obligations.MatchBounds := by
  intro c m r cur f agrees
  refine ⟨DefRegs.findLongestMatch_bounds, fun hash => ⟨fun p hp _ hfar l h3 hd hn hmax hag => ?_,
    fun hf hrise p hp hd hfar hag => ?_⟩⟩
  · have hl : l ≤ candidateLen m r.inEnd cur p := le_candidateLen hfar hd hn hmax hag
    have hfound : f = bestMatch m r.inEnd cur (walked c.walkOrder r.live) := DefRegs.findLongestMatch_eq_live cur hash
    rw [hfound]
    exact hl.trans (candidateLen_le_bestMatch (mem_walked.2 hp) (h3.trans hl))
  · obtain ⟨-, hmax, -, -, -, hn, -⟩ := DefRegs.findLongestMatch_bounds hf
    exact DefRegs.findLongestMatch_tie hash hf hrise hp (le_candidateLen hfar hd hn hmax hag)

/-- Settles O45: an entry outside the bucket differs from the position searched within three bytes. -/
theorem bucketChangesNothing : Obligations.BucketChangesNothing :=
  fun _ _ _ cur h => DefRegs.findLongestMatch_eq_live cur h

/-- Settles O46: the entry under the rotating cursor is the oldest (R213). -/
theorem insertDropsTheOldest : Obligations.InsertDropsTheOldest :=
  fun _ m _ p _ hs => ⟨DefRegs.live_insert hs m p, DefRegs.insert_slotsOk hs m p⟩

end

section
/-! PROOFS. Length and distance quantisation (R220 to R222): the rows of R115 and R116 tile their ranges, so a value's
row is the only one that holds it. -/

namespace Sys2Proof.Machine

/-! ### rows that follow one another -/

/-- Each of the `n` rows begins where the one before ends. -/
def RowsTile (base extra : Nat → Nat) (n : Nat) : Prop := ∀ i, i + 1 < n → base i + 2 ^ extra i = base (i + 1)

/-- R220's and R221's search: the first of the `n` rows that holds the value. -/
def rowOf (base extra : Nat → Nat) (n v : Nat) : Nat :=
  ((List.range n).find? fun i => decide (base i ≤ v ∧ v ≤ base i + 2 ^ extra i - 1)).getD 0

section
variable {base extra : Nat → Nat} {n : Nat}

theorem RowsTile.end_le_base (h : RowsTile base extra n) {i j : Nat} (hij : i < j) (hj : j < n) :
    base i + 2 ^ extra i ≤ base j := by
  induction j, hij using Nat.le_induction with
  | base => exact (h i hj).le
  | succ j _ ih =>
    calc base i + 2 ^ extra i ≤ base j := ih (Nat.lt_of_succ_lt hj)
      _ ≤ base j + 2 ^ extra j := Nat.le_add_right _ _
      _ = base (j + 1) := h j hj

/-- Every value from the first row's base up to the last row's end is in a row. -/
theorem RowsTile.exists_row (h : RowsTile base extra (n + 1)) {v : Nat} (h0 : base 0 ≤ v)
    (hn : v < base n + 2 ^ extra n) : ∃ i x, i ≤ n ∧ x < 2 ^ extra i ∧ v = base i + x := by
  induction n with
  | zero => exact ⟨0, v - base 0, Nat.le_refl 0, by omega, by omega⟩
  | succ n ih =>
    by_cases hv : base (n + 1) ≤ v
    · exact ⟨n + 1, v - base (n + 1), Nat.le_refl _, by omega, by omega⟩
    · have hend := h n (Nat.lt_succ_self _)
      obtain ⟨i, x, hi, hx⟩ := ih (fun i hi => h i (Nat.lt_succ_of_lt hi)) (by omega)
      exact ⟨i, x, Nat.le_succ_of_le hi, hx⟩

/-- The search finds the row a value is in. -/
theorem RowsTile.rowOf_eq (h : RowsTile base extra n) {i x : Nat} (hi : i < n) (hx : x < 2 ^ extra i) :
    rowOf base extra n (base i + x) = i := by
  have hfind : ((List.range n).find? fun i' => decide (base i' ≤ base i + x ∧ base i + x ≤ base i' + 2 ^ extra i' - 1))
      = some i := by
    refine List.find?_range_eq_some.2 ⟨decide_eq_true (by omega), List.mem_range.2 hi, fun j hj => ?_⟩
    have hend := h.end_le_base hj hi
    have hpos := Nat.two_pow_pos (extra j)
    rw [Bool.not_eq_true', decide_eq_false_iff_not]
    omega
  rw [rowOf, hfind, Option.getD_some]

end

/-! ### the rows of R115 -/

theorem lenRows_tile : RowsTile lenBase lenExtra 28 := by
  have h : ∀ i < 27, lenBase i + 2 ^ lenExtra i = lenBase (i + 1) := by decide
  exact fun i hi => h i (Nat.lt_of_succ_lt_succ hi)

theorem lc_258 : lc 258 = 28 := if_pos rfl

theorem lc_lenBase_add {i x : Nat} (hi : i < 28) (hx : x < 2 ^ lenExtra i) (h : lenBase i + x ≠ 258) :
    lc (lenBase i + x) = i :=
  (if_neg h).trans (lenRows_tile.rowOf_eq hi hx)

/-- The rows of R115 lie in 3 to 258. -/
theorem lenRow_bounds {i x : Nat} (hi : i ≤ 28) (hx : x < 2 ^ lenExtra i) :
    3 ≤ lenBase i + x ∧ lenBase i + x ≤ 258 := by
  have h : ∀ i < 29, 3 ≤ lenBase i ∧ lenBase i + 2 ^ lenExtra i ≤ 259 := by decide
  have hrow := h i (Nat.lt_succ_of_le hi)
  omega

/-- Only the last rows reach 258, the length covered twice. -/
theorem lenRow_lt_258 {i x : Nat} (hi : i < 27) (hx : x < 2 ^ lenExtra i) : lenBase i + x ≠ 258 := by
  have h : ∀ i < 27, lenBase i + 2 ^ lenExtra i ≤ 258 := by decide
  have hrow := h i hi
  omega

/-- A length below 258 is in one of the rows 0 to 27. -/
theorem exists_lenRow {l : Nat} (h3 : 3 ≤ l) (h : l < 258) : ∃ i x, i ≤ 27 ∧ x < 2 ^ lenExtra i ∧ l = lenBase i + x :=
  lenRows_tile.exists_row (n := 27) h3 (h.trans (by decide))

/-- The code of a length is a row that holds it, the last one for 258 only (R220, R222). -/
theorem lc_spec {l : Nat} (h3 : 3 ≤ l) (h : l ≤ 258) :
    lc l ≤ 28 ∧ l - lenBase (lc l) < 2 ^ lenExtra (lc l) ∧ matchLength (257 + lc l) (l - lenBase (lc l)) = l ∧
      (lc l = 28 ↔ l = 258) := by
  rcases Nat.lt_or_eq_of_le h with hlt | rfl
  · obtain ⟨i, x, hi, hx, rfl⟩ := exists_lenRow h3 hlt
    rw [lc_lenBase_add (Nat.lt_succ_of_le hi) hx hlt.ne, matchLength, Nat.add_sub_cancel_left, Nat.add_sub_cancel_left]
    exact ⟨by omega, hx, rfl, by omega⟩
  · rw [lc_258]
    decide

/-- A row's lengths have its code; 258 is in row 27 also (R222). -/
theorem lc_lenRow {i x : Nat} (hi : i ≤ 28) (hx : x < 2 ^ lenExtra i) :
    lc (lenBase i + x) = i ∨ (i = 27 ∧ lenBase i + x = 258) := by
  obtain hi | rfl | rfl : i < 27 ∨ i = 27 ∨ i = 28 := by omega
  · exact .inl (lc_lenBase_add (hi.trans (by decide)) hx (lenRow_lt_258 hi hx))
  · by_cases h : lenBase 27 + x = 258
    · exact .inr ⟨rfl, h⟩
    · exact .inl (lc_lenBase_add (by decide) hx h)
  · obtain rfl : x = 0 := Nat.lt_one_iff.1 hx
    exact .inl lc_258

/-! ### the rows of R116 -/

theorem distRows_tile : RowsTile distBase distExtra 30 := by
  have h : ∀ j < 29, distBase j + 2 ^ distExtra j = distBase (j + 1) := by decide
  exact fun j hj => h j (Nat.lt_of_succ_lt_succ hj)

theorem dc_distBase_add {j y : Nat} (hj : j ≤ 29) (hy : y < 2 ^ distExtra j) : dc (distBase j + y) = j :=
  distRows_tile.rowOf_eq (Nat.lt_succ_of_le hj) hy

/-- The rows of R116 lie in 1 to 32768. -/
theorem distRow_bounds {j y : Nat} (hj : j ≤ 29) (hy : y < 2 ^ distExtra j) :
    1 ≤ distBase j + y ∧ distBase j + y ≤ 32768 := by
  have h : ∀ j < 30, 1 ≤ distBase j ∧ distBase j + 2 ^ distExtra j ≤ 32769 := by decide
  have hrow := h j (Nat.lt_succ_of_le hj)
  omega

/-- The code of a distance is a row that holds it (R221, R222). -/
theorem dc_spec {d : Nat} (h1 : 1 ≤ d) (h : d ≤ 32768) :
    dc d ≤ 29 ∧ d - distBase (dc d) < 2 ^ distExtra (dc d) ∧ matchDistance (dc d) (d - distBase (dc d)) = d := by
  obtain ⟨j, y, hj, hy, rfl⟩ := distRows_tile.exists_row (n := 29) h1 (Nat.lt_succ_of_le h)
  rw [dc_distBase_add hj hy, Nat.add_sub_cancel_left]
  exact ⟨hj, hy, rfl⟩

end Sys2Proof.Machine

open Sys2Proof.Machine

/-- Settles O47: the rows tile, so each value is in one row, and the search finds that row; 258 is set apart. -/
theorem quantisationInverts : Obligations.QuantisationInverts := by
  refine ⟨fun l => lc_spec, fun d => dc_spec, fun i x hi hx => ?_, fun j y hj hy => ?_⟩
  · obtain ⟨hlo, hhi⟩ := lenRow_bounds hi hx
    exact ⟨hlo, hhi, lc_lenRow hi hx⟩
  · obtain ⟨hlo, hhi⟩ := distRow_bounds hj hy
    exact ⟨hlo, hhi, dc_distBase_add hj hy⟩

end

section
/-! PROOFS. What an emission writes (R151 to R155, R390): each item adds its bits, and where the buffer has room for all
but the last item the list ends. With it the header (R306) and the trailer (R309) of the DEFLATE engine. -/

namespace Sys2Proof

theorem bitsLE_zero (n : Nat) : bitsLE n 0 = List.replicate n false := by
  induction n with
  | zero => rfl
  | succ n ih => exact congrArg (List.cons false) ih

end Sys2Proof

namespace Sys2Proof.Machine

/-! ### one item -/

theorem State.length_written (s : State) : s.written.length = 8 * s.dfl.thisOut + s.dfl.bitqCnt := by
  simp [State.written]

/-- Bits written above a clean queue follow the queued ones (R151). -/
theorem bitsLE_writeBitsLE {r : DefRegs} {n : Nat} (h : r.bitq.toNat < 2 ^ r.bitqCnt) (hn : r.bitqCnt + n ≤ 23)
    (v : Nat) :
    bitsLE (r.writeBitsLE n v).bitqCnt (r.writeBitsLE n v).bitq.toNat =
      bitsLE r.bitqCnt r.bitq.toNat ++ bitsLE n v := by
  have hx : v % 2 ^ n < 2 ^ n := Nat.mod_lt _ (Nat.two_pow_pos n)
  have hx23 : v % 2 ^ n < 2 ^ 23 := hx.trans_le (Nat.pow_le_pow_right (by decide) (by omega))
  have hshift : v % 2 ^ n * 2 ^ r.bitqCnt < 2 ^ 23 :=
    calc v % 2 ^ n * 2 ^ r.bitqCnt < 2 ^ n * 2 ^ r.bitqCnt := Nat.mul_lt_mul_of_pos_right hx (Nat.two_pow_pos _)
      _ = 2 ^ (r.bitqCnt + n) := by rw [Nat.pow_add, Nat.mul_comm]
      _ ≤ 2 ^ 23 := Nat.pow_le_pow_right (by decide) hn
  have hq : (r.writeBitsLE n v).bitq.toNat = v % 2 ^ n * 2 ^ r.bitqCnt + r.bitq.toNat := by
    simp only [DefRegs.writeBitsLE, BitVec.toNat_or, BitVec.toNat_shiftLeft, BitVec.toNat_ofNat]
    rw [Nat.mod_eq_of_lt hx23, Nat.shiftLeft_eq, Nat.mod_eq_of_lt hshift, Nat.or_comm, ← Nat.shiftLeft_eq,
      Nat.shiftLeft_add_eq_or_of_lt h]
  have hlow : (v % 2 ^ n * 2 ^ r.bitqCnt + r.bitq.toNat) % 2 ^ r.bitqCnt = r.bitq.toNat :=
    Nat.mul_add_mod_of_lt h
  have hhigh : (v % 2 ^ n * 2 ^ r.bitqCnt + r.bitq.toNat) / 2 ^ r.bitqCnt = v % 2 ^ n := by
    rw [Nat.mul_comm, Nat.mul_add_div (Nat.two_pow_pos _), Nat.div_eq_of_lt h, Nat.add_zero]
  rw [hq, show (r.writeBitsLE n v).bitqCnt = r.bitqCnt + n from rfl, bitsLE_add, hhigh, bitsLE_mod,
    ← bitsLE_mod r.bitqCnt, hlow]

/-- The flush of a queue of less than a byte fills it up with zeros (R154). -/
theorem bitsLE_flush {r : DefRegs} (h : r.bitq.toNat < 2 ^ r.bitqCnt) (hc : r.bitqCnt < 8) :
    bitsLE r.flush.bitqCnt r.flush.bitq.toNat =
      bitsLE r.bitqCnt r.bitq.toNat ++ List.replicate ((8 - r.bitqCnt % 8) % 8) false := by
  unfold DefRegs.flush
  split
  next h0 => simp [h0]
  next h0 =>
    have hpad : (8 - r.bitqCnt % 8) % 8 = 8 - r.bitqCnt := by omega
    have hsplit := bitsLE_add r.bitqCnt (8 - r.bitqCnt) r.bitq.toNat
    rw [Nat.add_sub_cancel' hc.le, Nat.div_eq_of_lt h, bitsLE_zero] at hsplit
    rw [hpad]
    exact hsplit

/-- An item adds its bits to what is written (R155, R390). -/
theorem performItem_written {s : State} {i : Item} (hw : s.dfl.writerReady = true) (hi : i.width ≤ 16)
    (h : s.dfl.QueueOk) : (s.performItem i).written = appendItem s.written i := by
  have hcnt : s.dfl.bitqCnt < 8 := of_decide_eq_true hw
  have hmod : s.written.length % 8 = s.dfl.bitqCnt % 8 := by
    rw [State.length_written]
    omega
  have hout : (s.dfl.perform i).thisOut = s.dfl.thisOut := by
    obtain ⟨q, n, hp, -⟩ := s.dfl.perform_eq i
    rw [hp]
  have hwritten : (s.performItem i).written = bitsOfBytes (s.dflOut.bytes 0 s.dfl.thisOut) ++
      bitsLE (s.dfl.perform i).bitqCnt (s.dfl.perform i).bitq.toNat := by
    rw [← hout]
    rfl
  rw [hwritten]
  cases i with
  | le n v =>
    simp only [Item.width] at hi
    rw [DefRegs.perform, bitsLE_writeBitsLE h.clean (by omega), ← List.append_assoc]
    rfl
  | be n v =>
    simp only [Item.width] at hi
    rw [DefRegs.perform, DefRegs.writeBitsBE, bitsLE_writeBitsLE h.clean (by omega), bitsLE_revBits,
      ← List.append_assoc]
    rfl
  | flush =>
    rw [DefRegs.perform, bitsLE_flush h.clean hcnt, ← List.append_assoc, appendItem, hmod]
    rfl

/-! ### a list of items -/

theorem length_appendItem_ge (w : Bits) (i : Item) : w.length ≤ (appendItem w i).length := by
  cases i <;> simp [appendItem]

theorem length_foldl_appendItem_ge (l : List Item) (w : Bits) : w.length ≤ (l.foldl appendItem w).length := by
  induction l generalizing w with
  | nil => exact Nat.le_refl _
  | cons i l ih => exact (length_appendItem_ge w i).trans (ih _)

/-- The item that writes a byte. -/
def byteItem (b : Byte) : Item := .le 8 b.toNat

theorem foldl_byteItem (bs : List Byte) (w : Bits) : (bs.map byteItem).foldl appendItem w = w ++ bitsOfBytes bs := by
  induction bs generalizing w with
  | nil => exact (List.append_nil w).symm
  | cons b bs ih =>
    rw [List.map_cons, List.foldl_cons, ih]
    exact List.append_assoc ..

/-- From `s` the items `l` are being emitted: in `t` the items `l'` are left, the others are written, and nothing but
the writer and EMIT_IDX has changed (R390). -/
structure Emission (s : State) (l l' : List Item) (t : State) : Prop extends Writing s l' t where
  done : ∃ p, l = p ++ l' ∧ t.written = p.foldl appendItem s.written
  fills : s.dflOutput.Fills t.dflOutput
  rest : { t with dflOut := s.dflOut, dfl := s.dfl } = s

section
variable {s t : State} {l l' : List Item}

theorem Emission.drain (hm : s.dflOut.wf = true) (h : Emission s l l' t) : Emission s l l' t.drain := by
  obtain ⟨p, hp, hwritten⟩ := h.done
  have hrest := congrArg (fun u : State => { u with dflOut := s.dflOut, dfl := s.dfl }) t.drain_frame.1
  exact { h.toWriting.drain with
    done := ⟨p, hp, (drain_written (h.fills.wf hm)).trans hwritten⟩
    fills := h.fills.trans (drain_fills t)
    rest := hrest.trans h.rest }

theorem Emission.performItem {i : Item} (hw : t.dfl.writerReady = true) (h : Emission s l (i :: l') t) :
    Emission s l l' (t.performItem i) := by
  obtain ⟨p, hp, hwritten⟩ := h.done
  have hadd := performItem_written hw (h.items i List.mem_cons_self) h.queue
  exact { h.toWriting.performItem hw with
    done := ⟨p ++ [i], by rw [hp, List.append_assoc, List.singleton_append],
      by rw [hadd, hwritten, List.foldl_append]; rfl⟩
    fills := performItem_dflOutput i t ▸ h.fills
    rest := h.rest }

theorem Emission.outLim_eq (h : Emission s l l' t) : t.dfl.outLim = s.dfl.outLim := h.fills.lim_eq

/-- Where the writer is not ready after draining, the buffer is full, so what is written before the last item passes
it by a byte at least. -/
theorem Emission.length_of_blocked {i : Item} (hm : s.dflOut.wf = true) (h : Emission s l (i :: l') t)
    (hb : t.drain.dfl.writerReady = false) :
    8 * s.dfl.outLim + 8 ≤ (l.dropLast.foldl appendItem s.written).length := by
  have hd := h.drain hm
  have hq : 8 ≤ t.drain.dfl.bitqCnt := Nat.not_lt.1 (of_decide_eq_false hb)
  have hfull : s.dfl.outLim ≤ t.drain.dfl.thisOut := by
    rw [← hd.outLim_eq]
    exact Nat.not_lt.1 fun hlt => t.drain_stops ⟨hq, hlt⟩
  obtain ⟨p, rfl, hwritten⟩ := hd.done
  have hlen := t.drain.length_written
  rw [hwritten] at hlen
  rw [List.dropLast_append_cons, List.foldl_append]
  have hge := length_foldl_appendItem_ge (i :: l').dropLast (p.foldl appendItem s.written)
  omega

/-- With room for all but the last item of what is left, an emission ends: every item is written, and what follows is
done from EMIT_IDX 0 (R390). A property that draining and performing an item keep holds there too. -/
theorem emitList_fits {fin : DefRegs → DefRegs} {P : List Item → State → Prop}
    (drain : ∀ l t, P l t → P l t.drain)
    (item : ∀ i l t, t.dfl.writerReady = true → P (i :: l) t → P l (t.performItem i))
    (hm : s.dflOut.wf = true) (hq : s.dfl.QueueOk) (hl : ∀ i ∈ l, i.width ≤ 16) (hP : P (l.drop s.dfl.emitIdx) s)
    (hroom : ((l.drop s.dfl.emitIdx).dropLast.foldl appendItem s.written).length < 8 * s.dfl.outLim + 8) :
    ∃ t, Emission s (l.drop s.dfl.emitIdx) [] t ∧ P [] t ∧
      s.emitList l fin = { t with dfl := fin { t.dfl with emitIdx := 0 } } := by
  have h0 : Emission s (l.drop s.dfl.emitIdx) (l.drop s.dfl.emitIdx) s :=
    { queue := hq
      same := .refl _
      items := fun i hi => hl i (List.mem_of_mem_drop hi)
      done := ⟨[], rfl, rfl⟩
      fills := .refl
      rest := rfl }
  obtain ⟨t, ⟨ht, hp⟩, he⟩ | ⟨i, l', t, ⟨ht, -⟩, -, hb, -⟩ := emitItems_induct (fin := fin)
    (P := fun l' t => Emission s (l.drop s.dfl.emitIdx) l' t ∧ P l' t) (fun l t h => ⟨h.1.drain hm, drain l t h.2⟩)
    (fun i l t hw h => ⟨h.1.performItem hw, item i l t hw h.2⟩) ⟨h0, hP⟩
  · exact ⟨t, ht, hp, he⟩
  · exact absurd (ht.length_of_blocked hm hb) (Nat.not_le.2 hroom)

theorem Emission.written_eq (h : Emission s l [] t) : t.written = l.foldl appendItem s.written := by
  obtain ⟨p, rfl, hwritten⟩ := h.done
  rw [hwritten, List.append_nil]

end

/-! ### an emission's next item -/

/-- Draining where no byte can be stored does nothing (R150). -/
theorem drain_of_stopped {s : State} (h : ¬ (8 ≤ s.dfl.bitqCnt ∧ s.dfl.thisOut < s.dfl.outLim)) : s.drain = s := by
  unfold State.drain
  cases s.dfl.bitqCnt / 8 with
  | zero => rfl
  | succ k => rw [drainBytes, if_neg h]

/-- An item is performed at once where less than a byte is queued (R390). -/
theorem emitItems_of_ready {s : State} {fin : DefRegs → DefRegs} {i : Item} {l : List Item} (h : s.dfl.bitqCnt < 8) :
    emitItems fin (i :: l) s = emitItems fin l (s.performItem i) := by
  have hd : s.drain = s := drain_of_stopped fun h' => Nat.not_lt.2 h'.1 h
  simp only [emitItems, hd]
  exact if_pos (decide_eq_true h)

/-- An emission suspends where a byte is queued and the buffer is full (R390, R437). -/
theorem emitItems_of_full {s : State} {fin : DefRegs → DefRegs} {i : Item} {l : List Item} (h : 8 ≤ s.dfl.bitqCnt)
    (hf : s.dfl.thisOut = s.dfl.outLim) : emitItems fin (i :: l) s = s.suspendDfl := by
  have hd : s.drain = s := drain_of_stopped fun h' => Nat.ne_of_lt h'.2 hf
  simp only [emitItems, hd]
  exact if_neg fun hw => Nat.not_lt.2 h (of_decide_eq_true hw)

/-! ### the trailer (R309) -/

theorem appendItem_flush_of_aligned {w : Bits} (h : w.length % 8 = 0) : appendItem w .flush = w := by
  simp [appendItem, h]

/-- A flush fills the last byte up (R154). -/
theorem length_appendItem_flush (w : Bits) :
    (appendItem w .flush).length % 8 = 0 ∧ (appendItem w .flush).length ≤ w.length + 7 := by
  simp only [appendItem, List.length_append, List.length_replicate]
  omega

/-- The checksum's bytes, the most significant first (R309). -/
def trailerBytes (a : BitVec 32) : List Byte :=
  [BitVec.ofNat 8 (a.toNat / 2 ^ 24), BitVec.ofNat 8 (a.toNat / 2 ^ 16), BitVec.ofNat 8 (a.toNat / 2 ^ 8),
    BitVec.ofNat 8 a.toNat]

theorem trailerItems_eq (a : BitVec 32) : trailerItems a = .flush :: (trailerBytes a).map byteItem ++ [.flush] := by
  simp [trailerItems, trailerBytes, byteItem]

/-- The trailer is padding and the checksum's bytes; the second flush finds whole bytes (R309). -/
theorem foldl_trailerItems (a : BitVec 32) (w : Bits) :
    (trailerItems a).dropLast.foldl appendItem w = appendItem w .flush ++ bitsOfBytes (trailerBytes a) ∧
    (trailerItems a).foldl appendItem w = appendItem w .flush ++ bitsOfBytes (trailerBytes a) := by
  have halign : (appendItem w .flush ++ bitsOfBytes (trailerBytes a)).length % 8 = 0 := by
    have := (length_appendItem_flush w).1
    rw [List.length_append, length_bitsOfBytes]
    omega
  rw [trailerItems_eq, List.dropLast_concat, List.foldl_append, List.foldl_cons, foldl_byteItem]
  exact ⟨rfl, appendItem_flush_of_aligned halign⟩

/-! ### the header (R306) -/

/-- The header's two bytes at a level (R306). -/
def headerBytes (l : Level) : List Byte := [0x78, BitVec.ofNat 8 (levelFlg l)]

theorem headerItems_eq (l : Level) : headerItems l = (headerBytes l).map byteItem := by
  cases l <;> rfl

theorem nextAction_of_dInit {s : State} (ht : s.turn = .dfl) (hd : s.dfl.dState = .dInit) :
    s.nextAction = .outcome (.next s.passInit) := by
  simp only [State.nextAction, ht, State.dflAction, hd]

end Sys2Proof.Machine

open Sys2Proof Sys2Proof.Machine

/-- Settles O22: there is room for the whole list, and it ends with an empty queue. -/
theorem trailerIsWritten : Obligations.TrailerIsWritten := by
  intro s a hm hw hidx hroom
  obtain ⟨hbits, hall⟩ := foldl_trailerItems a s.written
  have hlen := (length_appendItem_flush s.written).2
  have hfits : (((trailerItems a).drop s.dfl.emitIdx).dropLast.foldl appendItem s.written).length <
      8 * s.dfl.outLim + 8 := by
    have hbytes : (bitsOfBytes (trailerBytes a)).length = 32 := length_bitsOfBytes _
    have hcount := hw.count
    rw [s.length_written] at hlen
    rw [hidx, List.drop_zero, hbits, List.length_append, hbytes]
    omega
  obtain ⟨t, ht, hend, he⟩ := emitList_fits (fin := fun r => { r with dState := .dDone }) (P := EndingStream a)
    (fun _ _ => EndingStream.drain) (fun _ _ _ => EndingStream.performItem) hm hw.queueOk (trailerItems_width a)
    ⟨rfl, fun h0 => absurd hidx h0, fun h6 => by omega⟩ hfits
  have hempty : t.dfl.bitqCnt = 0 := hend.empty (List.drop_eq_nil_iff.1 hend.left.symm)
  have hturn := congrArg State.turn ht.rest
  have hresp := congrArg State.resp ht.rest
  have hwritten := ht.written_eq
  rw [hidx, List.drop_zero, hall] at hwritten
  refine ⟨_, congrArg Host.Outcome.next he, rfl, hempty, rfl, hturn, hresp, hwritten,
    ht.fills.counted, fun x hx => ht.fills.read_outside hm hx, ?_⟩
  have hregs := ht.same
  rw [DefRegs.SameButWriter, hidx] at hregs
  calc _ = { t with dflOut := s.dflOut, dfl := { t.dfl with
        bitq := s.dfl.bitq, bitqCnt := s.dfl.bitqCnt, thisOut := s.dfl.thisOut, totalOut := s.dfl.totalOut
        emitIdx := 0 } } := by rw [← ht.same.dState]
    _ = { t with dflOut := s.dflOut, dfl := s.dfl } := by rw [hregs]
    _ = s := ht.rest

/-- Settles O37: the list is the two bytes of the level; with the buffer full the first is queued and the second
waits. -/
theorem headerOfTheLevelIsWritten : Obligations.HeaderOfTheLevelIsWritten := by
  intro s ht hd flg suspended
  obtain ⟨hbytes, hmult⟩ : headerBytes s.dfl.level = [0x78, flg] ∧ (0x78 * 256 + flg.toNat) % 31 = 0 := by
    dsimp only [flg]
    cases s.dfl.level <;> exact ⟨rfl, rfl⟩
  have hitems : (headerItems s.dfl.level).drop s.dfl.emitIdx = ([0x78, flg].drop s.dfl.emitIdx).map byteItem := by
    rw [headerItems_eq, hbytes, List.map_drop]
  have hstep : step s = .next s.passInit := step_of_outcome (nextAction_of_dInit ht hd)
  refine ⟨hmult, fun hm hw _ hroom => ?_, fun hidx hcnt hq hfull => ?_, fun hidx hcnt hfull => ?_⟩
  · have hfits : (((headerItems s.dfl.level).drop s.dfl.emitIdx).dropLast.foldl appendItem s.written).length <
        8 * s.dfl.outLim + 8 := by
      rw [hitems, ← List.map_dropLast, foldl_byteItem, List.length_append, length_bitsOfBytes, List.length_dropLast,
        List.length_drop, List.length_cons, List.length_singleton]
      omega
    obtain ⟨t, hem, -, he⟩ := emitList_fits (fin := fun r => { r with dState := .dBlock }) (P := fun _ _ => True)
      (fun _ _ _ => trivial) (fun _ _ _ _ _ => trivial) hm hw.queueOk (headerItems_width _) trivial hfits
    have hwritten := hem.written_eq
    rw [hitems, foldl_byteItem] at hwritten
    refine ⟨_, hstep.trans (congrArg Host.Outcome.next he), rfl, rfl, hwritten, hem.fills.counted,
      fun a ha => hem.fills.read_outside hm ha, ?_, hem.rest⟩
    rw [← hem.same.dState]
    exact hem.same
  · have hqueued : s.performItem (byteItem 0x78) =
        { s with dfl := { s.dfl with bitq := 0x78, bitqCnt := 8, emitIdx := 1 } } := by
      simp [State.performItem, byteItem, DefRegs.perform, DefRegs.writeBitsLE, hidx, hcnt, hq]
    rw [hstep, State.passInit, State.emitList, hitems, hidx, List.drop_zero, List.map_cons, List.map_cons,
      emitItems_of_ready (by omega), hqueued]
    exact congrArg Host.Outcome.next (emitItems_of_full (Nat.le_refl 8) hfull)
  · rw [hstep, State.passInit, State.emitList, hitems, hidx]
    exact congrArg Host.Outcome.next (emitItems_of_full hcnt.ge hfull)

end

section
/-! PROOFS. The header elements of both containers (R301 to R305, R330 to R335): ZHDR as the checks of its two bytes,
and the step that reads them. -/

namespace Sys2Proof

/-! ### fields -/

theorem ofBitsLE_append (p q : Bits) : ofBitsLE (p ++ q) = ofBitsLE p + 2 ^ p.length * ofBitsLE q := by
  simpa [ofBitsBE, Nat.add_comm, Nat.mul_comm] using ofBitsBE_append q.reverse p.reverse

/-- Two fields side by side are one, the first less significant (R74). -/
theorem field_add (x : Bits) (lo n k : Nat) : field x lo (n + k) = field x lo n + 2 ^ n * field x (lo + n) k := by
  have htake : (x.drop lo).take (n + k) = (x.drop lo).take n ++ (x.drop (lo + n)).take k := by
    rw [List.take_add, List.drop_drop]
  by_cases hn : n ≤ (x.drop lo).length
  · rw [field, htake, ofBitsLE_append, List.length_take_of_le hn]
    rfl
  · have hnil : x.drop (lo + n) = [] := by
      rw [List.length_drop] at hn
      exact List.drop_eq_nil_of_le (by omega)
    simp [field, htake, hnil, ofBitsLE]

/-- A field of a stream's first bits is the stream's. -/
theorem field_take {x : Bits} {lo n m : Nat} (h : lo + n ≤ m) : field (x.take m) lo n = field x lo n := by
  rw [field, field, List.drop_take, List.take_take, Nat.min_eq_left (by omega)]

/-! ### the header's bytes (R101) -/

theorem zhdrCmf_toNat (cm cinfo : BitVec 4) : (zhdrCmf cm cinfo).toNat = cinfo.toNat * 16 + cm.toNat := by
  rw [zhdrCmf, BitVec.toNat_append, ← Nat.shiftLeft_add_eq_or_of_lt cm.isLt, Nat.shiftLeft_eq]

theorem zhdrFlg_toNat (fcheck : BitVec 5) (fdict : Bool) (flevel : BitVec 2) :
    (zhdrFlg fcheck fdict flevel).toNat = flevel.toNat * 64 + fdict.toNat * 32 + fcheck.toNat := by
  have hlow : (BitVec.ofBool fdict ++ fcheck).toNat = fdict.toNat * 32 + fcheck.toNat := by
    rw [BitVec.toNat_append, ← Nat.shiftLeft_add_eq_or_of_lt fcheck.isLt, Nat.shiftLeft_eq, BitVec.toNat_ofBool]
  rw [zhdrFlg, BitVec.toNat_append, ← Nat.shiftLeft_add_eq_or_of_lt (BitVec.isLt _), Nat.shiftLeft_eq, hlow]
  omega

/-- FDICT is bit 5 of FLG (R23, R101). -/
theorem zhdrFlg_fdict (fcheck : BitVec 5) (fdict : Bool) (flevel : BitVec 2) :
    (zhdrFlg fcheck fdict flevel).toNat / 32 % 2 = fdict.toNat := by
  have hfcheck := fcheck.isLt
  have hfdict := fdict.toNat_lt
  rw [zhdrFlg_toNat]
  omega

/-- The fields of ZHDR make up the stream's two bytes (R101). -/
theorem mkZhdr_bytes (x : Bits) :
    ∃ cm cinfo fcheck fdict flevel, mkZhdr x = .zhdr cm cinfo fcheck fdict flevel ∧
      zhdrCmf cm cinfo = BitVec.ofNat 8 (field x 0 8) ∧
      zhdrFlg fcheck fdict flevel = BitVec.ofNat 8 (field x 8 8) := by
  refine ⟨_, _, _, _, _, rfl, ?_, ?_⟩
  · have hsplit : field x 0 8 = field x 0 4 + 2 ^ 4 * field x 4 4 := field_add x 0 4 4
    have hcm := field_lt x 0 4
    have hcinfo := field_lt x 4 4
    rw [← BitVec.toNat_inj, zhdrCmf_toNat]
    simp only [BitVec.toNat_ofNat]
    omega
  · have hsplit : field x 8 8 = field x 8 5 + 2 ^ 5 * field x 13 3 := field_add x 8 5 3
    have hsplit' : field x 13 3 = field x 13 1 + 2 ^ 1 * field x 14 2 := field_add x 13 1 2
    have hfcheck := field_lt x 8 5
    have hflevel := field_lt x 14 2
    have hfdict : field x 13 1 = (decide (field x 13 1 = 1)).toNat % 2 ^ 1 := decide_field_eq_iff.1 rfl
    have hbool := (decide (field x 13 1 = 1)).toNat_lt
    rw [← BitVec.toNat_inj, zhdrFlg_toNat]
    simp only [BitVec.toNat_ofNat]
    omega

end Sys2Proof

namespace Sys2Proof.Machine

/-! ### ZHDR (R301 to R305) -/

theorem InfRegs.fdict_eq (r : InfRegs) : r.fdict = decide (r.flg.toNat / 32 % 2 = 1) := by
  rw [InfRegs.fdict, BitVec.getLsbD, Nat.testBit_eq_decide_div_mod_eq]

/-- The checks of the bytes `c` and `f` in the order of R304, and where the engine goes if none fails (R302 to R305). -/
def State.checkHeader (c f : Nat) (t : State) : State :=
  if c % 16 ≠ 8 then t.raiseFormat .hdrMethod
  else if 7 < c / 16 then t.raiseFormat .hdrCinfo
  else if (c * 256 + f) % 31 ≠ 0 then t.raiseFormat .hdrFcheck
  else if f / 32 % 2 = 0 then t.withInf fun r => { r with iState := .iBlock, sub := .start }
  else if t.cfg.fdictPolicy = .error then t.raiseFormat .hdrFdict
  else t.withInf fun r => { r with sub := .dictid }

/-- ZHDR loads its two bytes, then makes the checks (R301). -/
theorem execZhdr_eq (cm cinfo : BitVec 4) (fcheck : BitVec 5) (fdict : Bool) (flevel : BitVec 2) (s : State) :
    execZhdr cm cinfo fcheck fdict flevel s =
      .next (State.checkHeader (zhdrCmf cm cinfo).toNat (zhdrFlg fcheck fdict flevel).toNat
        (s.withInf fun r => { r with cmf := zhdrCmf cm cinfo, flg := zhdrFlg fcheck fdict flevel })) := by
  unfold execZhdr
  extract_lets t
  change _ = Host.Outcome.next (State.checkHeader t.inf.cmf.toNat t.inf.flg.toNat t)
  have hfdict := t.inf.fdict_eq
  clear_value t
  unfold State.checkHeader InfRegs.headerCause InfRegs.cm InfRegs.cinfo InfRegs.fcheckOk
  simp only [hfdict, decide_eq_false_iff_not, decide_eq_true_eq]
  by_cases hcm : t.inf.cmf.toNat % 16 ≠ 8
  · simp only [if_pos hcm]
  by_cases hcinfo : 7 < t.inf.cmf.toNat / 16
  · simp only [if_neg hcm, if_pos hcinfo]
  by_cases hfcheck : (t.inf.cmf.toNat * 256 + t.inf.flg.toNat) % 31 ≠ 0
  · simp only [if_neg hcm, if_neg hcinfo, if_pos hfcheck]
  simp only [if_neg hcm, if_neg hcinfo, if_neg hfcheck]
  obtain h0 | h1 := Nat.mod_two_eq_zero_or_one (t.inf.flg.toNat / 32)
  · simp [h0]
  · by_cases hp : t.cfg.fdictPolicy = .error <;> simp [h1, hp]

/-! ### the header's steps -/

theorem InfRegs.pos_of_iInit {r : InfRegs} (h : r.iState = .iInit) :
    r.pos = some (if r.sub = .dictid then .dictid else .zhdr) := (positionFollowsTheGrammar r).1 h

/-- A header element cut short (R304, R305): what is left is consumed. -/
theorem step_of_headerShort {s : State} {p : Pos} {n : Nat} {mk : Bits → Instr} (ht : s.turn = .inf)
    (hp : s.inf.pos = some p) (hd : decodeAt p = (decodeFixed n .hdrTruncated · mk))
    (hn : (s.inf.restBits s.infIn).length < n) :
    step s = .next (State.raiseFormat .hdrTruncated
      (s.withInf fun r => r.advance (s.inf.restBits s.infIn).length)) := by
  have hrej : decodeAt p (s.inf.restBits s.infIn) = .reject .hdrTruncated (s.inf.restBits s.infIn).length := by
    rw [hd]
    exact decodeFixed_short hn
  exact step_of_raise ((nextAction_of_pos ht hp).trans (fetchAt_of_reject hrej))

/-- A header element whose bits are all there is run past them (R301, R305). -/
theorem step_of_headerRead {s : State} {p : Pos} {n : Nat} {mk : Bits → Instr} (ht : s.turn = .inf)
    (hp : s.inf.pos = some p) (hd : decodeAt p = (decodeFixed n .hdrTruncated · mk))
    (hn : n ≤ (s.inf.restBits s.infIn).length) {i : Instr} (hi : mk ((s.inf.restBits s.infIn).take n) = i)
    (hm : movesCursor i = false) : step s = exec i (s.withInf fun r => r.advance n) := by
  have hok : decodeAt p (s.inf.restBits s.infIn) = .ok i n := by
    rw [hd]
    exact decodeFixed_ok_iff.2 ⟨hn, rfl, hi⟩
  rw [step_of_run ((nextAction_of_pos ht hp).trans (fetchAt_of_ok hok)), hm]
  rfl

/-! ### the other header elements -/

/-- The byte boundary PAD moves to (R144, R330). -/
theorem InfRegs.alignToByte_eq_byte (r : InfRegs) :
    r.alignToByte = { r with brByte := (r.bitpos + 7) / 8, brBit := 0 } := by
  obtain ⟨hbit, hpos, -, -, hrest⟩ := alignMovesToByteBoundary r
  have hbyte : r.alignToByte.brByte = (r.bitpos + 7) / 8 := by
    rw [InfRegs.bitpos, hbit] at hpos
    simp only [Fin.val_zero] at hpos
    omega
  have hboth := congrArg (fun q : InfRegs =>
    { q with brByte := r.alignToByte.brByte, brBit := r.alignToByte.brBit }) hrest
  rw [← hbyte, ← hbit]
  exact hboth

theorem nlenOk_iff {len nlen : BitVec 16} : nlenOk len nlen = true ↔ len.toNat + nlen.toNat = 65535 := by
  have hlen := len.isLt
  rw [nlenOk, decide_eq_true_iff]
  omega

end Sys2Proof.Machine

open Sys2Proof Sys2Proof.Machine

/-- Settles O23: the step reads the two bytes, or the four of DICTID, and ZHDR checks them in order. -/
theorem headerChecksInOrder : Obligations.HeaderChecksInOrder := by
  intro s ht hst bs byte truncated
  have hzhdr : s.inf.sub = .start → s.inf.pos = some .zhdr := fun h => by rw [InfRegs.pos_of_iInit hst, h]; rfl
  have hdictid : s.inf.sub = .dictid → s.inf.pos = some .dictid := fun h => by rw [InfRegs.pos_of_iInit hst, h]; rfl
  have hbyte : ∀ k, byte k = field bs (8 * k) 8 := fun _ => rfl
  refine ⟨fun hsub hlen => step_of_headerShort ht (hzhdr hsub) rfl hlen, fun hsub hlen => ?_,
    fun hsub hlen => step_of_headerShort ht (hdictid hsub) rfl hlen, fun hsub hlen => ?_⟩
  · intro c f t
    obtain ⟨cm, cinfo, fcheck, fdict, flevel, hi, hcmf, hflg⟩ := mkZhdr_bytes (bs.take 16)
    rw [field_take (by decide)] at hcmf hflg
    have hread : step s = .next (t.checkHeader c f) := by
      have hexec := execZhdr_eq cm cinfo fcheck fdict flevel (s.withInf fun r => r.advance 16)
      rw [hcmf, hflg, BitVec.toNat_ofNat, BitVec.toNat_ofNat, Nat.mod_eq_of_lt (field_lt bs 0 8),
        Nat.mod_eq_of_lt (field_lt bs 8 8)] at hexec
      exact (step_of_headerRead ht (hzhdr hsub) rfl hlen hi rfl).trans hexec
    have hblock : (t.withInf fun r => { r with iState := .iBlock, sub := .start }) =
        { t with inf := { t.inf with iState := .iBlock } } :=
      congrArg (fun b => t.withInf fun r => { r with iState := .iBlock, sub := b }) hsub.symm
    rw [hread, State.checkHeader, hblock]
    rfl
  · have hi : mkDictid (bs.take 32) =
        .dictid (BitVec.ofNat 32 (byte 0 * 2 ^ 24 + byte 1 * 2 ^ 16 + byte 2 * 2 ^ 8 + byte 3)) := by
      simp only [mkDictid, field32BE, hbyte]
      rw [field_take (by decide), field_take (by decide), field_take (by decide), field_take (by decide)]
    exact step_of_headerRead ht (hdictid hsub) rfl hlen hi rfl

/-- Settles O11, element by element. -/
theorem headerElementsComplete : Obligations.HeaderElementsComplete := by
  intro s
  refine ⟨fun cinfo fcheck flevel hcinfo hcheck => ?_, fun id => rfl, ?_, fun len nlen h => ?_,
    fun hlit hdist hclen h => ?_, fun len nlen h => ?_, fun hlit hdist hclen h => ?_⟩
  · have hc : (zhdrCmf 8 cinfo).toNat = cinfo.toNat * 16 + 8 := zhdrCmf_toNat 8 cinfo
    have hf : (zhdrFlg fcheck false flevel).toNat = flevel.toNat * 64 + fcheck.toNat := zhdrFlg_toNat _ false _
    have hfdict : (flevel.toNat * 64 + fcheck.toNat) / 32 % 2 = 0 := hf ▸ zhdrFlg_fdict fcheck false flevel
    refine (execZhdr_eq 8 cinfo fcheck false flevel s).trans (congrArg Host.Outcome.next ?_)
    rw [hc, hf, State.checkHeader, if_neg (by omega), if_neg (by omega), if_neg (not_not.2 hcheck), if_pos hfdict,
      ← hc, ← hf, BitVec.ofNat_toNat, BitVec.ofNat_toNat, BitVec.setWidth_eq, BitVec.setWidth_eq]
    rfl
  · exact congrArg (fun r : InfRegs => Host.Outcome.next { s with inf := { r with sub := .stored } })
      s.inf.alignToByte_eq_byte
  · exact if_pos (nlenOk_iff.2 h)
  · exact if_neg (Nat.not_lt.2 h)
  · exact if_neg (mt nlenOk_iff.1 h)
  · exact if_pos h

/-- Settles O3: the decoder is run on each word. -/
theorem writtenWordsDecode : Obligations.WrittenWordsDecode := by
  unfold Obligations.WrittenWordsDecode
  decide +kernel

end

section
/-! PROOFS. What a step of the INFLATE engine does, whatever the buffer of its STEP: the registers it writes, the way it
goes on, where that leads (R355), and that it uses up input or takes one of the few transitions without an element. -/

namespace Sys2Proof.Machine

/-! ### a context apart from its STEP's buffer -/

/-- The registers `q`, with those of the STEP (OUT_BASE, OUT_LIM, THIS_OUT, LAST_STATUS) as in `w` (R32, R50). -/
def InfRegs.onBuffer (w q : InfRegs) : InfRegs :=
  { q with outBase := w.outBase, outLim := w.outLim, thisOut := w.thisOut, lastStatus := w.lastStatus }

/-- What a STEP leaves to the next one whatever its buffer: the state without OUTPUT, the response and the registers
of the STEP. -/
def State.bufferless (s : State) : State :=
  { s with turn := .inf, resp := none, infOut := [], inf := InfRegs.powerOn.onBuffer s.inf }

theorem State.inf_of_bufferless_eq {s v : State} (h : v.bufferless = s.bufferless) : v.inf = v.inf.onBuffer s.inf := by
  have hregs := congrArg (fun u : State => v.inf.onBuffer u.inf) h
  exact hregs

/-! ### the work left -/

/-- A bound on the transitions without an element that can come before the next element is read (R330, R333, R337,
R342, R344). -/
def InfRegs.idle (r : InfRegs) : Nat :=
  if r.iState = .iNocomp then (if r.sub = .stored then 1 else 2)
  else if r.iState = .iFixed ∨ r.iState = .iDynamic then
    (if r.iPhase = false then 2 else if r.pendLen = 0 then 0 else 1)
  else 0

/-- What falls with every step: the bits left, then the transitions without an element. -/
def InfRegs.work (r : InfRegs) : Nat := 3 * r.avail + r.idle

theorem InfRegs.idle_le (r : InfRegs) : r.idle ≤ 2 := by
  unfold InfRegs.idle
  split_ifs <;> decide

theorem InfRegs.work_lt_of_avail {q r : InfRegs} (h : q.avail < r.avail) : q.work < r.work := by
  have := q.idle_le
  simp only [InfRegs.work]
  omega

theorem InfRegs.work_lt_of_idle {q r : InfRegs} (ha : q.avail = r.avail) (h : q.idle < r.idle) : q.work < r.work := by
  simp only [InfRegs.work]
  omega

/-! ### what every step keeps to -/

/-- The transitions of I_STATE other than those into I_ERROR (R355). -/
def infTransitions : List (IState × IState) :=
  [(.iInit, .iBlock), (.iBlock, .iNocomp), (.iBlock, .iFixed), (.iBlock, .iDynamic), (.iNocomp, .iBlock),
    (.iFixed, .iBlock), (.iDynamic, .iBlock), (.iNocomp, .iEnd), (.iFixed, .iEnd), (.iDynamic, .iEnd)]

/-- What a step from the registers `r` that writes `q` keeps to, by the way it goes on. A code is drained in a body,
where the engine goes on with it in the next STEP (R338); an answer without a suspension is given in a terminal state
(R345, R346). -/
def InfEnd.Follows (r q : InfRegs) : InfEnd → Prop
  | .stay => q.work < r.work ∧ (q.iState = r.iState ∨ (r.iState, q.iState) ∈ infTransitions)
  | .raise _ => r.iState ≠ .iEnd
  | .drain => 3 * q.avail < r.work ∧ q.iState = r.iState ∧ q.inBody ∧ ∀ sym len, q.sub ≠ .distance sym len
  | .answer st => q = r ∧ (r.iState = .iEnd ∧ st = .ended ∨ r.iState = .iError ∧ st = .errorFormat)
  | .store _ => False

/-- `f`, applied where the parameters are `c` and the registers `r'` up to the buffer, writes registers and goes on
whatever the buffer; `r` are the registers before the element was fetched. -/
def InfActs (c : Config) (r r' : InfRegs) (f : State → Result) : Prop :=
  ∃ (q : InfRegs) (e : InfEnd), e.Follows r q ∧
    ∀ (s : State) (w : InfRegs), s.cfg = c → s.inf = w.onBuffer r' →
      f s = .next (e.run { s with inf := w.onBuffer q })

theorem InfActs.congr {c : Config} {r r' : InfRegs} {f g : State → Result} (h : InfActs c r r' g)
    (hfg : ∀ (s : State) (w : InfRegs), s.cfg = c → s.inf = w.onBuffer r' → f s = g s) : InfActs c r r' f := by
  obtain ⟨q, e, hq, hg⟩ := h
  exact ⟨q, e, hq, fun s w hc hr => (hfg s w hc hr).trans (hg s w hc hr)⟩

variable {c : Config} {r : InfRegs} {n : Nat}

/-- An element of `n` bits has been read. -/
def InfRegs.Reads (r : InfRegs) (n : Nat) : Prop := 0 < n ∧ n ≤ r.avail

theorem InfRegs.Reads.avail_lt (hn : r.Reads n) : (r.advance n).avail < r.avail := by
  obtain ⟨h0, hle⟩ := hn
  rw [InfRegs.avail_advance]
  omega

/-- An element has been read, and the registers written go with it or into a state that R355 lists. -/
theorem InfRegs.Reads.stay (hn : r.Reads n) {q : InfRegs} (ha : q.avail = (r.advance n).avail)
    (hst : q.iState = r.iState ∨ (r.iState, q.iState) ∈ infTransitions) : InfEnd.stay.Follows r q :=
  ⟨InfRegs.work_lt_of_avail (ha ▸ hn.avail_lt), hst⟩

theorem InfRegs.Reads.moves (hn : r.Reads n) {q : InfRegs} (ha : q.avail = (r.advance n).avail) {a b : IState}
    (hr : r.iState = a) (hq : q.iState = b) (h : (a, b) ∈ infTransitions) : InfEnd.stay.Follows r q :=
  hn.stay ha (.inr (hr ▸ hq ▸ h))

theorem raiseFormat_acts (r' : InfRegs) (hst : r.iState ≠ .iEnd) (cause : Cause) :
    InfActs c r r' (fun s => .next (s.raiseFormat cause)) := by
  refine ⟨r', .raise cause, hst, ?_⟩
  rintro ⟨⟩ w rfl rfl
  rfl

/-! ### the header, the block headers and the stored blocks -/

/-- The checks of the header, and where the engine goes if none fails (R302 to R305). -/
theorem checkHeader_acts (hn : r.Reads n) (hst : r.iState = .iInit) {q : InfRegs} (ha : q.avail = (r.advance n).avail)
    (hq : q.iState = r.iState) (x f : Nat) : InfActs c r q (fun s => .next (State.checkHeader x f s)) := by
  have hraise := fun cause => raiseFormat_acts (c := c) q (r := r) (by rw [hst]; decide) cause
  by_cases hcm : x % 16 ≠ 8
  · exact (hraise .hdrMethod).congr fun s w _ _ => by rw [State.checkHeader, if_pos hcm]
  by_cases hcinfo : 7 < x / 16
  · exact (hraise .hdrCinfo).congr fun s w _ _ => by rw [State.checkHeader, if_neg hcm, if_pos hcinfo]
  by_cases hfcheck : (x * 256 + f) % 31 ≠ 0
  · exact (hraise .hdrFcheck).congr fun s w _ _ => by
      rw [State.checkHeader, if_neg hcm, if_neg hcinfo, if_pos hfcheck]
  by_cases hfdict : f / 32 % 2 = 0
  · refine ⟨{ q with iState := .iBlock, sub := .start }, .stay, hn.moves (b := .iBlock) ha hst rfl (by decide), ?_⟩
    rintro ⟨⟩ w rfl rfl
    beta_reduce
    rw [State.checkHeader, if_neg hcm, if_neg hcinfo, if_neg hfcheck, if_pos hfdict]
    rfl
  by_cases hp : c.fdictPolicy = .error
  · exact (hraise .hdrFdict).congr fun s w hc _ => by
      rw [State.checkHeader, if_neg hcm, if_neg hcinfo, if_neg hfcheck, if_neg hfdict, if_pos (hc ▸ hp)]
  · refine ⟨{ q with sub := .dictid }, .stay, hn.stay ha (.inl hq), ?_⟩
    rintro ⟨⟩ w rfl rfl
    beta_reduce
    rw [State.checkHeader, if_neg hcm, if_neg hcinfo, if_neg hfcheck, if_neg hfdict, if_neg hp]
    rfl

theorem execZhdr_acts (hn : r.Reads n) (hst : r.iState = .iInit) (cm cinfo : BitVec 4) (fcheck : BitVec 5)
    (fdict : Bool) (flevel : BitVec 2) : InfActs c r (r.advance n) (execZhdr cm cinfo fcheck fdict flevel) := by
  obtain ⟨q, e, hq, hrun⟩ := checkHeader_acts (c := c) hn hst
    (q := { r.advance n with cmf := zhdrCmf cm cinfo, flg := zhdrFlg fcheck fdict flevel }) rfl rfl
    (zhdrCmf cm cinfo).toNat (zhdrFlg fcheck fdict flevel).toNat
  refine ⟨q, e, hq, fun s w hc hr => (execZhdr_eq cm cinfo fcheck fdict flevel s).trans ?_⟩
  exact hrun (s.withInf _) w hc (by rw [State.withInf_inf, hr]; rfl)

theorem execDictid_acts (hn : r.Reads n) (hst : r.iState = .iInit) (id : BitVec 32) :
    InfActs c r (r.advance n) (execDictid id) := by
  refine ⟨{ r.advance n with dictid := id, iState := .iBlock, sub := .start }, .stay,
    hn.moves (b := .iBlock) rfl hst rfl (by decide), ?_⟩
  rintro ⟨⟩ w rfl rfl
  rfl

theorem enterBlock_acts (hn : r.Reads n) (hst : r.iState = .iBlock) (final : Bool) (btype : BitVec 2) {st : IState}
    (hst' : (IState.iBlock, st) ∈ infTransitions) :
    InfActs c r (r.advance n)
      (fun s => .next (s.withInf fun r => { r.enterBlock final btype with iState := st })) := by
  refine ⟨{ (r.advance n).enterBlock final btype with iState := st }, .stay,
    hn.moves rfl hst rfl hst', ?_⟩
  rintro ⟨⟩ w rfl rfl
  rfl

theorem execBhdrReserved_acts (hst : r.iState = .iBlock) (r' : InfRegs) (final : Bool) :
    InfActs c r r' (execBhdrReserved final) := by
  refine ⟨r'.enterBlock final 3, .raise .blockType, by rw [InfEnd.Follows, hst]; decide, ?_⟩
  rintro ⟨⟩ w rfl rfl
  rfl

theorem alignToByte_onBuffer (w r : InfRegs) : (w.onBuffer r).alignToByte = w.onBuffer r.alignToByte := by
  rw [InfRegs.alignToByte_eq, InfRegs.alignToByte_eq]
  rfl

/-- PAD may take no bit; SHDR is then next (R330, R331). -/
theorem execPad_acts (hst : r.iState = .iNocomp) (hsub : r.sub ≠ .stored) : InfActs c r r execPad := by
  have hlt : InfRegs.work { r.alignToByte with sub := .stored } < r.work := by
    have ha : (r.advance r.padWidth).avail ≤ r.avail := by rw [InfRegs.avail_advance]; exact Nat.sub_le _ _
    have ha' : InfRegs.avail { r.advance r.padWidth with sub := .stored } ≤ r.avail := ha
    rw [r.alignToByte_eq]
    simp only [InfRegs.work, InfRegs.idle, InfRegs.advance, InfRegs.atBit, hst, hsub, if_true, if_false] at ha' ⊢
    omega
  refine ⟨{ r.alignToByte with sub := .stored }, .stay, ⟨hlt, .inl (by rw [r.alignToByte_eq]; rfl)⟩, ?_⟩
  rintro ⟨⟩ w rfl rfl
  simp only [execPad, State.withInf, alignToByte_onBuffer]
  rfl

theorem execShdr_acts (hn : r.Reads n) (hst : r.iState = .iNocomp) (len nlen : BitVec 16) :
    InfActs c r (r.advance n) (execShdr len nlen) := by
  by_cases hl : nlenOk len nlen = true
  · refine ⟨{ r.advance n with storedRem := len.toNat, iPhase := true, sub := .start }, .stay,
      hn.stay rfl (.inl rfl), ?_⟩
    rintro ⟨⟩ w rfl rfl
    exact if_pos hl
  · refine (raiseFormat_acts (r.advance n) (by rw [hst]; decide) .storedNlen).congr fun s w _ _ => ?_
    exact if_neg hl

/-! ### the prologue of a dynamic block -/

theorem execDynhdr_acts (hn : r.Reads n) (hst : r.iState = .iDynamic) (hlit hdist : BitVec 5) (hclen : BitVec 4) :
    InfActs c r (r.advance n) (execDynhdr hlit hdist hclen) := by
  by_cases hl : 29 < hlit.toNat
  · refine ⟨{ r.advance n with hlit := hlit, hdist := hdist, hclen := hclen }, .raise .alphabetSize,
      by rw [InfEnd.Follows, hst]; decide, ?_⟩
    rintro ⟨⟩ w rfl rfl
    exact if_pos hl
  · refine ⟨{ r.advance n with
      hlit := hlit, hdist := hdist, hclen := hclen, clLen := Vector.replicate 19 0, sub := .codeLens 0 }, .stay,
      hn.stay rfl (.inl rfl), ?_⟩
    rintro ⟨⟩ w rfl rfl
    exact if_neg hl

theorem execCllens_acts {k : Nat} (hn : r.Reads n) (hst : r.iState = .iDynamic) (hsub : r.sub = .codeLens k)
    (len : BitVec 3) : InfActs c r (r.advance n) (execCllens len) := by
  let q : InfRegs := { r.advance n with clLen := (r.advance n).clLen.setIfInBounds (clOrder k) len }
  have heq : ∀ (s : State) (w : InfRegs), s.inf = w.onBuffer (r.advance n) → execCllens len s =
      if k + 1 < r.nCl then .next { s with inf := w.onBuffer { q with sub := .codeLens (k + 1) } }
      else .next (State.buildCl { s with inf := w.onBuffer q }) := by
    rintro ⟨⟩ w rfl
    exact execCllens_eq len hsub
  by_cases hk : k + 1 < r.nCl
  · exact ⟨{ q with sub := .codeLens (k + 1) }, .stay, hn.stay rfl (.inl rfl),
      fun s w _ hr => (heq s w hr).trans (if_pos hk)⟩
  · cases ht : buildDecodeTree q.clLens with
    | none =>
      refine ⟨q, .raise .codeOversubscribed, by rw [InfEnd.Follows, hst]; decide, fun s w _ hr => ?_⟩
      rw [heq s w hr, if_neg hk, buildCl_of_none ht]
      rfl
    | some t =>
      refine ⟨{ q with treeCl := t, sub := .lengths [] }, .stay, hn.stay rfl (.inl rfl), fun s w _ hr => ?_⟩
      rw [heq s w hr, if_neg hk, buildCl_of_some ht]
      rfl

/-- A code-length element that makes the sequence `seq` (R336). -/
theorem lengths_acts (hn : r.Reads n) (seq : List (BitVec 4)) :
    InfActs c r (r.advance n) (fun s => .next (s.withInf fun r => { r with sub := .lengths seq })) := by
  refine ⟨{ r.advance n with sub := .lengths seq }, .stay, hn.stay rfl (.inl rfl), ?_⟩
  rintro ⟨⟩ w rfl rfl
  rfl

theorem appendRun_acts (hn : r.Reads n) (hst : r.iState = .iDynamic) (seq : List (BitVec 4)) (k : Nat)
    (v : BitVec 4) : InfActs c r (r.advance n) (fun s => .next (s.appendRun seq k v)) := by
  have hn' : ∀ (s : State) (w : InfRegs), s.inf = w.onBuffer (r.advance n) → s.inf.nSeq = r.nSeq :=
    fun s w hr => by rw [hr]; rfl
  by_cases hk : r.nSeq < seq.length + k
  · refine (raiseFormat_acts (r.advance n) (by rw [hst]; decide) .alphabetSize).congr fun s w _ hr => ?_
    rw [State.appendRun, if_pos (by rw [hn' s w hr]; exact hk)]
  · refine (lengths_acts hn (seq ++ List.replicate k v)).congr fun s w _ hr => ?_
    rw [State.appendRun, if_neg (by rw [hn' s w hr]; exact hk)]

theorem InfRegs.seq?_of_lengths {seq : List (BitVec 4)} (h : r.sub = .lengths seq) :
    r.seq? = some seq := by
  rw [InfRegs.seq?, h]

theorem clsym_acts {seq : List (BitVec 4)} (hn : r.Reads n) (hst : r.iState = .iDynamic) (hsub : r.sub = .lengths seq)
    {s x : Nat} {i : Instr} (hi : clOf s x = some i) : InfActs c r (r.advance n) (exec i) := by
  have hseq : ∀ (s : State) (w : InfRegs), s.inf = w.onBuffer (r.advance n) → s.inf.seq? = some seq := fun s w hr =>
    InfRegs.seq?_of_lengths (by rw [hr]; exact hsub)
  obtain ⟨v, rfl⟩ | ⟨y, rfl⟩ | ⟨y, rfl⟩ | ⟨y, rfl⟩ := clOf_cases hi
  · refine (lengths_acts hn (seq ++ [v])).congr fun s w _ hr => ?_
    simp only [exec, execCl, hseq s w hr]
  · cases hlast : seq.getLast? with
    | none =>
      refine (raiseFormat_acts (r.advance n) (by rw [hst]; decide) .repeatNoPrev).congr fun s w _ hr => ?_
      simp only [exec, execCl16, hseq s w hr, hlast]
    | some v =>
      refine (appendRun_acts hn hst seq (repeat16 y.toNat) v).congr fun s w _ hr => ?_
      simp only [exec, execCl16, hseq s w hr, hlast]
  · refine (appendRun_acts hn hst seq (repeat17 y.toNat) 0).congr fun s w _ hr => ?_
    simp only [exec, execCl17, hseq s w hr]
  · refine (appendRun_acts hn hst seq (repeat18 y.toNat) 0).congr fun s w _ hr => ?_
    simp only [exec, execCl18, hseq s w hr]

/-- The tables of the sequence that ends here give no lit/len tree (R337). -/
theorem finishLengths_of_noLl {s : State} {seq : List (BitVec 4)}
    (hll : buildDecodeTree (s.inf.splitLengths seq).llLens = none) :
    s.finishLengths seq = (s.withInf (InfRegs.splitLengths seq)).raiseFormat .codeOversubscribed := by
  simp only [State.finishLengths, State.withInf_inf, hll]

/-- They give a lit/len tree and no distance tree. -/
theorem finishLengths_of_noD {s : State} {seq : List (BitVec 4)} {ll : Trie}
    (hll : buildDecodeTree (s.inf.splitLengths seq).llLens = some ll)
    (hd : buildDecodeTree (s.inf.splitLengths seq).dLens = none) :
    s.finishLengths seq =
      (s.withInf fun r => { r.splitLengths seq with treeLl := ll }).raiseFormat .codeOversubscribed := by
  have hd' : buildDecodeTree (InfRegs.dLens { s.inf.splitLengths seq with treeLl := ll }) = none := hd
  simp only [State.finishLengths, State.withInf_inf, hll, hd']
  rfl

/-- They give both trees. -/
theorem finishLengths_of_trees {s : State} {seq : List (BitVec 4)} {ll d : Trie}
    (hll : buildDecodeTree (s.inf.splitLengths seq).llLens = some ll)
    (hd : buildDecodeTree (s.inf.splitLengths seq).dLens = some d) :
    s.finishLengths seq = s.withInf fun r =>
      { r.splitLengths seq with treeLl := ll, treeD := d, iPhase := true, sub := .start } := by
  have hd' : buildDecodeTree (InfRegs.dLens { s.inf.splitLengths seq with treeLl := ll }) = some d := hd
  simp only [State.finishLengths, State.withInf_inf, hll, hd']
  rfl

theorem finishLengths_acts (hst : r.iState = .iDynamic) (hph : r.iPhase = false) (seq : List (BitVec 4)) :
    InfActs c r r (fun s => .next (s.finishLengths seq)) := by
  have hend : r.iState ≠ .iEnd := by rw [hst]; decide
  let q := r.splitLengths seq
  cases hll : buildDecodeTree q.llLens with
  | none =>
    refine ⟨q, .raise .codeOversubscribed, hend, ?_⟩
    rintro ⟨⟩ w rfl rfl
    exact congrArg Host.Outcome.next (finishLengths_of_noLl hll)
  | some ll =>
    cases hd : buildDecodeTree q.dLens with
    | none =>
      refine ⟨{ q with treeLl := ll }, .raise .codeOversubscribed, hend, ?_⟩
      rintro ⟨⟩ w rfl rfl
      exact congrArg Host.Outcome.next (finishLengths_of_noD hll hd)
    | some d =>
      let q' : InfRegs := { q with treeLl := ll, treeD := d, iPhase := true, sub := .start }
      have hidle : q'.idle < r.idle := by
        have hst' : q'.iState = .iDynamic := hst
        have hph' : q'.iPhase = true := rfl
        simp only [InfRegs.idle, hst, hph, hst', hph']
        split_ifs <;> simp_all
      refine ⟨q', .stay, ⟨InfRegs.work_lt_of_idle rfl hidle, .inl rfl⟩, ?_⟩
      rintro ⟨⟩ w rfl rfl
      exact congrArg Host.Outcome.next (finishLengths_of_trees hll hd)

/-! ### the elements of a body -/

/-- A code is put in flight by an element, and drained (R338). -/
theorem InfRegs.Reads.drain (hn : r.Reads n) {q : InfRegs} (ha : q.avail = (r.advance n).avail)
    (hst : q.iState = r.iState) (hb : q.inBody) (hd : ∀ sym len, q.sub ≠ .distance sym len) :
    InfEnd.drain.Follows r q := by
  have hlt := hn.avail_lt
  rw [← ha] at hlt
  refine ⟨?_, hst, hb, hd⟩
  rw [InfRegs.work]
  omega

theorem InfRegs.inBody.ne_iEnd (hb : r.inBody) : r.iState ≠ .iEnd := by
  obtain ⟨h | h, -⟩ := hb <;> rw [h] <;> decide

theorem execLit_acts (hn : r.Reads n) (hb : r.inBody) (hd : ∀ sym len, r.sub ≠ .distance sym len) (b : Byte) :
    InfActs c r (r.advance n) (execLit b) := by
  refine ⟨{ r.advance n with pendSym := b.zeroExtend 9, pendLen := 1, pendDist := 0 }, .drain,
    hn.drain rfl rfl hb hd, ?_⟩
  rintro ⟨⟩ w rfl rfl
  rfl

theorem endBody_transition (hst : r.iState = .iNocomp ∨ r.iState = .iFixed ∨ r.iState = .iDynamic) (q : InfRegs) :
    (r.iState, q.endBody.iState) ∈ infTransitions := by
  simp only [InfRegs.endBody]
  obtain h | h | h := hst <;> rw [h] <;> cases q.bfinal <;> decide

theorem execEob_acts (hn : r.Reads n) (hb : r.inBody) : InfActs c r (r.advance n) execEob := by
  refine ⟨(r.advance n).endBody, .stay, hn.stay rfl (.inr (endBody_transition (.inr hb.1) _)), ?_⟩
  rintro ⟨⟩ w rfl rfl
  rfl

theorem takeLength_acts (hn : r.Reads n) (sym x : Nat) :
    InfActs c r (r.advance n) (fun s => .next (s.takeLength sym x)) := by
  refine ⟨{ r.advance n with sub := .distance (BitVec.ofNat 9 sym) (matchLength sym x) }, .stay,
    hn.stay rfl (.inl rfl), ?_⟩
  rintro ⟨⟩ w rfl rfl
  rfl

theorem llsym_acts (hn : r.Reads n) (hb : r.inBody) (hd : ∀ sym len, r.sub ≠ .distance sym len) {s x : Nat}
    {i : Instr} (hi : llOf s x = some i) : InfActs c r (r.advance n) (exec i) := by
  obtain ⟨b, rfl⟩ | rfl | ⟨p, hp, h₁, h₂⟩ | rfl | rfl := llOf_cases hi
  · exact execLit_acts hn hb hd b
  · exact execEob_acts hn hb
  · exact (takeLength_acts hn p.1 p.2.2).congr fun s _ _ _ => exec_length hp h₁ h₂ s
  · exact raiseFormat_acts _ hb.ne_iEnd .symbolInvalid
  · exact raiseFormat_acts _ hb.ne_iEnd .symbolInvalid

theorem takeDistance_acts {sym : BitVec 9} {len : Nat} (hn : r.Reads n) (hb : r.inBody)
    (hsub : r.sub = .distance sym len) (d : Nat) : InfActs c r (r.advance n) (fun s => s.takeDistance d) := by
  have hsub' : (r.advance n).sub = .distance sym len := hsub
  by_cases htoo : r.totalOut < d
  · refine (raiseFormat_acts (r.advance n) hb.ne_iEnd .distTooFar).congr ?_
    rintro ⟨⟩ w rfl rfl
    simp only [State.takeDistance, InfRegs.onBuffer, hsub']
    exact if_pos htoo
  · refine ⟨{ r.advance n with pendSym := sym, pendLen := len, pendDist := d, sub := .start }, .drain,
      hn.drain rfl rfl hb nofun, ?_⟩
    rintro ⟨⟩ w rfl rfl
    simp only [State.takeDistance, InfRegs.onBuffer, hsub']
    exact if_neg htoo

theorem takeReservedDistance_acts {sym : BitVec 9} {len : Nat} (hb : r.inBody) (hsub : r.sub = .distance sym len) :
    InfActs c r (r.advance n) State.takeReservedDistance := by
  have hsub' : (r.advance n).sub = .distance sym len := hsub
  refine (raiseFormat_acts (r.advance n) hb.ne_iEnd .symbolInvalid).congr ?_
  rintro ⟨⟩ w rfl rfl
  simp only [State.takeReservedDistance, InfRegs.onBuffer, hsub']

theorem dsym_acts {sym : BitVec 9} {len : Nat} (hn : r.Reads n) (hb : r.inBody) (hsub : r.sub = .distance sym len)
    {s y : Nat} {i : Instr} (hi : dOf s y = some i) : InfActs c r (r.advance n) (exec i) := by
  obtain ⟨p, hp, h₁⟩ | rfl | rfl := dOf_cases hi
  · exact (takeDistance_acts hn hb hsub (matchDistance p.1 p.2.2)).congr fun s _ _ _ => exec_distance hp h₁ s
  · exact takeReservedDistance_acts hb hsub
  · exact takeReservedDistance_acts hb hsub

/-! ### every element, and the transitions that have none -/

/-- The decoder takes a bit for every element but the padding (R330). -/
theorem decodeAt_pos {p : Pos} {bs : Bits} {i : Instr} {used : Nat} (hp : ∀ w, p ≠ .pad w)
    (h : decodeAt p bs = .ok i used) : 0 < used := by
  have hsym : ∀ {t : Trie} {extra : Nat → Nat} {mk : Nat → Nat → Option Instr} {stop : Nat → Option Cause},
      decodeSym t extra mk stop bs = .ok i used → 0 < used := by
    intro t extra mk stop h
    have hw := Trie.walkFrom_used (t := t) (bs := bs) (u := 0)
    unfold decodeSym Trie.walk at h
    cases hf : t.walkFrom bs 0 with
    | exhausted v => rw [hf] at h; cases h
    | walkOff v => rw [hf] at h; cases h
    | found s v rest =>
      obtain ⟨q, hq, -, rfl, -⟩ := Trie.lookup_of_walkFrom hf
      have hpos := List.length_pos_iff.2 hq
      rw [hf] at h
      dsimp only at h
      split at h
      · cases h
      · split at h
        · cases h
        · split at h <;> cases h
          omega
  cases p with
  | pad w => exact absurd rfl (hp w)
  | raw =>
    simp only [decodeAt] at h
    split at h <;> cases h
    decide
  | clsym t first => exact hsym h
  | llsym t => exact hsym (stop := fun _ => none) h
  | dsym t => exact hsym (stop := fun _ => none) h
  | _ => exact (decodeFixed_ok h).1 ▸ by decide

/-- Every element but RAW acts whatever the buffer. -/
theorem exec_acts {p : Pos} {m : Memory} {i : Instr} (hp : r.pos = some p) (hraw : p ≠ .raw)
    (hd : decodeAt p (r.restBits m) = .ok i n) : InfActs c r (r.fetched i n) (exec i) := by
  have hle : n ≤ r.avail := by simpa using decodeAt_used.1 hd
  have hreads : (∀ w, p ≠ .pad w) → r.Reads n := fun hne => ⟨decodeAt_pos hne hd, hle⟩
  cases InfRegs.stands_of_pos hp with
  | zhdr hst =>
    obtain ⟨-, x, rfl⟩ := decodeFixed_ok hd
    exact execZhdr_acts (hreads nofun) hst ..
  | dictid hst =>
    obtain ⟨-, x, rfl⟩ := decodeFixed_ok hd
    exact execDictid_acts (hreads nofun) hst _
  | bhdr hst =>
    have hn := hreads nofun
    obtain ⟨-, x, rfl⟩ := decodeFixed_ok hd
    obtain ⟨f, h | h | h | h⟩ := mkBhdr_cases x <;> rw [h]
    · exact enterBlock_acts hn hst f 0 (by decide)
    · exact enterBlock_acts hn hst f 1 (by decide)
    · exact enterBlock_acts hn hst f 2 (by decide)
    · exact execBhdrReserved_acts hst _ f
  | pad hst hph =>
    obtain ⟨-, x, rfl⟩ := decodeFixed_ok hd
    refine execPad_acts hst fun hsub => ?_
    rw [InfRegs.pos, hst] at hp
    simp [InfRegs.storedPos, hph, hsub] at hp
  | shdr hst =>
    obtain ⟨rfl, x, rfl⟩ := decodeFixed_ok hd
    exact execShdr_acts (hreads nofun) hst ..
  | raw => exact absurd rfl hraw
  | dynhdr hst =>
    obtain ⟨-, x, rfl⟩ := decodeFixed_ok hd
    exact execDynhdr_acts (hreads nofun) hst ..
  | cllens hst hph hsub =>
    obtain ⟨-, x, rfl⟩ := decodeFixed_ok hd
    exact execCllens_acts (hreads nofun) hst hsub _
  | clsym hst hph hsub =>
    obtain ⟨-, s, x, hi⟩ := decodeSym_used.1 hd
    rw [InfRegs.fetched, clOf_movesCursor hi]
    exact clsym_acts (hreads nofun) hst hsub hi
  | llsym hb hne =>
    obtain ⟨-, s, x, hi⟩ := (decodeSym_used (mk := llOf) (stop := fun _ => none)).1 hd
    rw [InfRegs.fetched, llOf_movesCursor hi]
    exact llsym_acts (hreads nofun) hb hne hi
  | dsym hb hsub =>
    obtain ⟨-, s, y, hi⟩ := (decodeSym_used (mk := dOf) (stop := fun _ => none)).1 hd
    rw [InfRegs.fetched, dOf_movesCursor hi]
    exact dsym_acts (hreads nofun) hb hsub hi

/-- Registers that stay. -/
theorem InfActs.self {f : State → Result} (e : InfEnd) (he : e.Follows r r)
    (hf : ∀ (s : State) (w : InfRegs), s.inf = w.onBuffer r → f s = .next (e.run s)) : InfActs c r r f := by
  refine ⟨r, e, he, fun s w _ hr => (hf s w hr).trans ?_⟩
  rw [← hr]

/-- A code in flight, with no distance awaited, is drained before another element is read (R338). -/
theorem pos_of_inFlight (hb : r.inBody) (hp : r.pendLen ≠ 0) (hd : ∀ sym len, r.sub ≠ .distance sym len) :
    r.pos = none := by
  obtain ⟨hst, hph⟩ := hb
  have hpos := r.bodyPos_eq.2 hd
  rw [if_neg hp] at hpos
  obtain h | h := hst <;> rw [InfRegs.pos, h, hph] <;> exact hpos

theorem inFlight_of_bodyPos (h : r.bodyPos = none) : r.pendLen ≠ 0 ∧ ∀ sym len, r.sub ≠ .distance sym len := by
  have hd : ∀ sym len, r.sub ≠ .distance sym len := fun sym len hs => by
    rw [r.bodyPos_eq.1 sym len hs] at h
    cases h
  refine ⟨fun h0 => ?_, hd⟩
  rw [r.bodyPos_eq.2 hd, if_pos h0] at h
  cases h

theorem infInternal_of_inBody {s : State} (hb : s.inf.inBody) : s.infInternal = s.drainCode := by
  obtain ⟨h | h, hph⟩ := hb <;> simp only [State.infInternal, h, hph, if_true]

theorem drainInternal_acts (hb : r.inBody) (hp : r.bodyPos = none) : InfActs c r r (fun s => .next s.infInternal) := by
  obtain ⟨hpend, hd⟩ := inFlight_of_bodyPos hp
  have hidle : r.idle = 1 := by
    obtain ⟨hst | hst, hph⟩ := hb <;> simp [InfRegs.idle, hst, hph, hpend]
  refine .self .drain ⟨?_, rfl, hb, hd⟩ fun s w hr => ?_
  · rw [InfRegs.work, hidle]
    exact Nat.lt_succ_self _
  · have hb' : s.inf.inBody := by rw [hr]; exact hb
    exact congrArg Host.Outcome.next (infInternal_of_inBody hb')

theorem answerInternal_acts {st : Status} (hst : r.iState = .iEnd ∧ st = .ended ∨ r.iState = .iError ∧ st = .errorFormat) :
    InfActs c r r (fun s => .next s.infInternal) := by
  refine .self (.answer st) ⟨rfl, hst⟩ ?_
  rintro ⟨⟩ w rfl
  obtain ⟨h, rfl⟩ | ⟨h, rfl⟩ := hst
  · simp only [State.infInternal, InfRegs.onBuffer, h]
    rfl
  · simp only [State.infInternal, InfRegs.onBuffer, h]
    rfl

theorem infInternal_acts (hpos : r.pos = none) : InfActs c r r (fun s => .next s.infInternal) := by
  cases hst : r.iState with
  | iInit => rw [InfRegs.pos_of_iInit hst] at hpos; cases hpos
  | iBlock => rw [InfRegs.pos, hst] at hpos; cases hpos
  | iNocomp =>
    have hidle : r.endBody.idle < r.idle := by
      have hr : 0 < r.idle := by
        simp only [InfRegs.idle, hst, if_true]
        split_ifs <;> decide
      refine Eq.trans_lt ?_ hr
      simp only [InfRegs.idle, InfRegs.endBody]
      cases r.bfinal <;> rfl
    refine ⟨r.endBody, .stay, ⟨InfRegs.work_lt_of_idle rfl hidle, .inr (endBody_transition (.inl hst) r)⟩, ?_⟩
    rintro ⟨⟩ w rfl rfl
    simp only [State.infInternal, InfRegs.onBuffer, hst]
    rfl
  | iFixed =>
    cases hph : r.iPhase with
    | true =>
      rw [InfRegs.pos, hst] at hpos
      exact drainInternal_acts ⟨.inl hst, hph⟩ (by simpa [hph] using hpos)
    | false =>
      have hidle : InfRegs.idle { r with iPhase := true } < r.idle := by
        simp only [InfRegs.idle, hst, hph]
        split_ifs <;> simp_all
      refine ⟨{ r with iPhase := true }, .stay, ⟨InfRegs.work_lt_of_idle rfl hidle, .inl rfl⟩, ?_⟩
      rintro ⟨⟩ w rfl rfl
      simp only [State.infInternal, InfRegs.onBuffer, hst, hph]
      rfl
  | iDynamic =>
    rw [InfRegs.pos, hst] at hpos
    cases hph : r.iPhase with
    | true => exact drainInternal_acts ⟨.inr hst, hph⟩ (by simpa [hph] using hpos)
    | false =>
      have hpro : r.prologuePos = none := by simpa [hph] using hpos
      have hseq : ∃ seq, r.sub = .lengths seq := by
        unfold InfRegs.prologuePos at hpro
        split at hpro
        · cases hpro
        · exact ⟨_, ‹_›⟩
        · cases hpro
      obtain ⟨seq, hsub⟩ := hseq
      refine (finishLengths_acts hst hph seq).congr ?_
      rintro ⟨⟩ w rfl rfl
      simp only [State.infInternal, InfRegs.onBuffer, hst, hph, InfRegs.seq?, hsub]
      rfl
  | iEnd => exact answerInternal_acts (.inl ⟨hst, rfl⟩)
  | iError => exact answerInternal_acts (.inr ⟨hst, rfl⟩)

/-! ### the step -/

/-- The registers RAW writes where the output has room (R332). -/
def InfRegs.afterRaw (r : InfRegs) : InfRegs := { r with brByte := r.brByte + 1, storedRem := r.storedRem - 1 }

theorem decodeRaw_ok {bs : Bits} {i : Instr} (h : decodeAt .raw bs = .ok i n) : 8 ≤ bs.length ∧ ∃ b, i = .raw b := by
  simp only [decodeAt] at h
  split at h <;> cases h
  exact ⟨le_length_of_takeBits ‹_›, _, rfl⟩

/-- RAW tests the input before the output (R332). -/
theorem execRaw_eq {s : State} (ha : 8 ≤ s.inf.avail) (b : Byte) :
    execRaw b s = .next (if s.inf.thisOut = s.inf.outLim then s.suspendInf
      else State.emitByte b { s with inf := s.inf.afterRaw }) := by
  unfold execRaw InfRegs.outFull
  rw [if_neg (Nat.not_lt.2 ha)]
  by_cases hf : s.inf.thisOut = s.inf.outLim
  · rw [if_pos hf, if_pos (decide_eq_true hf)]
  · rw [if_neg hf, if_neg (by rw [decide_eq_false hf]; decide)]
    rfl

/-- A step of the INFLATE engine, for all the states that differ from `s` in the buffer only: a stored byte goes out
where there is room, and every other step writes the same registers and goes on in the same way. -/
theorem step_inf_acts (s : State) :
    (∃ b, 8 ≤ s.inf.avail ∧ ∀ v : State, v.turn = .inf → v.bufferless = s.bufferless →
      step v = .next (if v.inf.thisOut = v.inf.outLim then v.suspendInf
        else State.emitByte b { v with inf := v.inf.onBuffer s.inf.afterRaw })) ∨
    ∃ (q : InfRegs) (e : InfEnd), e.Follows s.inf q ∧ ∀ v : State, v.turn = .inf → v.bufferless = s.bufferless →
      step v = .next (e.run { v with inf := v.inf.onBuffer q }) := by
  have hcfg : ∀ v : State, v.bufferless = s.bufferless → v.cfg = s.cfg := fun v h => (congrArg State.cfg h :)
  have hin : ∀ v : State, v.bufferless = s.bufferless → v.infIn = s.infIn := fun v h => (congrArg State.infIn h :)
  have hrest : ∀ v : State, v.bufferless = s.bufferless → v.inf.restBits v.infIn = s.inf.restBits s.infIn :=
    fun v h => by rw [State.inf_of_bufferless_eq h, hin v h]; rfl
  have hposv : ∀ v : State, v.bufferless = s.bufferless → v.inf.pos = s.inf.pos :=
    fun v h => by rw [State.inf_of_bufferless_eq h]; rfl
  cases hp : s.inf.pos with
  | none =>
    obtain ⟨q, e, hq, hrun⟩ := infInternal_acts (c := s.cfg) hp
    refine .inr ⟨q, e, hq, fun v ht h => ?_⟩
    rw [step_inf_of_none ht ((hposv v h).trans hp)]
    exact hrun v v.inf (hcfg v h) (State.inf_of_bufferless_eq h)
  | some p =>
    cases hd : decodeAt p (s.inf.restBits s.infIn) with
    | reject cause n =>
      have hend : s.inf.iState ≠ .iEnd := fun h => by rw [InfRegs.pos, h] at hp; cases hp
      obtain ⟨q, e, hq, hrun⟩ := raiseFormat_acts (c := s.cfg) (s.inf.advance n) hend cause
      refine .inr ⟨q, e, hq, fun v ht h => ?_⟩
      rw [step_inf_of_reject ht ((hposv v h).trans hp) ((hrest v h).symm ▸ hd)]
      exact hrun (v.withInf _) v.inf (hcfg v h) (congrArg (InfRegs.advance · n) (State.inf_of_bufferless_eq h))
    | ok i n =>
      by_cases hraw : p = .raw
      · subst hraw
        obtain ⟨hlen, b, rfl⟩ := decodeRaw_ok hd
        rw [InfRegs.length_restBits] at hlen
        refine .inl ⟨b, hlen, fun v ht h => ?_⟩
        have hv := State.inf_of_bufferless_eq h
        have ha : 8 ≤ v.inf.avail := by rw [hv]; exact hlen
        have hafter : v.inf.afterRaw = v.inf.onBuffer s.inf.afterRaw := by rw [hv]; rfl
        rw [step_inf_of_ok ht ((hposv v h).trans hp) ((hrest v h).symm ▸ hd), ← hafter]
        exact execRaw_eq ha b
      · obtain ⟨q, e, hq, hrun⟩ := exec_acts (c := s.cfg) hp hraw hd
        refine .inr ⟨q, e, hq, fun v ht h => ?_⟩
        rw [step_inf_of_ok ht ((hposv v h).trans hp) ((hrest v h).symm ▸ hd)]
        refine hrun (v.withInf _) v.inf (hcfg v h) ?_
        rw [State.withInf_inf, State.inf_of_bufferless_eq h]
        unfold InfRegs.fetched
        split <;> rfl

end Sys2Proof.Machine
end

section
/-! PROOFS. Draining the in-flight code (R342): how many bytes go out and which, where each of them goes, and what the
engine has written to its STEP's buffer. -/

namespace Sys2Proof.Machine

/-! ### the bytes of a STEP -/

/-- The bytes the INFLATE engine's STEP has produced so far (R72). -/
def State.produced (s : State) : List Byte := s.infOut.bytes 0 s.inf.thisOut

theorem emitByte_produced {s : State} (hm : s.infOut.wf = true) (b : Byte) :
    (s.emitByte b).produced = s.produced ++ [b] := Memory.bytes_write_end hm _ b

/-! ### the passes of R342's loop -/

/-- One pass of R342's loop, by PEND_LEN. -/
def State.emitNext (s : State) : State := s.emitPend (s.inf.pendLen - 1)

/-- `k` passes of R342's loop. -/
def State.emitCode (k : Nat) (s : State) : State := State.emitNext^[k] s

@[simp] theorem emitCode_zero (s : State) : s.emitCode 0 = s := rfl

theorem emitCode_succ (k : Nat) (s : State) : s.emitCode (k + 1) = (s.emitCode k).emitNext :=
  Function.iterate_succ_apply' ..

theorem emitCode_add (j k : Nat) (s : State) : s.emitCode (k + j) = (s.emitCode k).emitCode j := by
  rw [Nat.add_comm]
  exact Function.iterate_add_apply ..

/-- What the passes leave, and what they count. -/
theorem emitCode_frame (k : Nat) (s : State) :
    { s.emitCode k with inf := s.inf, infOut := s.infOut, win := s.win } = s ∧
    (s.emitCode k).inf = { s.inf with
      pendLen := s.inf.pendLen - k, winPos := (s.emitCode k).inf.winPos,
      thisOut := s.inf.thisOut + k, totalOut := s.inf.totalOut + k } := by
  induction k with
  | zero => exact ⟨rfl, rfl⟩
  | succ k ih =>
    obtain ⟨hs, hr⟩ := ih
    rw [emitCode_succ]
    refine ⟨hs, ?_⟩
    have hnext := congrArg (fun r : InfRegs => { r with
      pendLen := r.pendLen - 1, winPos := (s.emitCode k).emitNext.inf.winPos,
      thisOut := r.thisOut + 1, totalOut := r.totalOut + 1 }) hr
    exact hnext

@[simp] theorem emitCode_cfg (k : Nat) (s : State) : (s.emitCode k).cfg = s.cfg :=
  (congrArg State.cfg (emitCode_frame k s).1 :)

@[simp] theorem emitCode_turn (k : Nat) (s : State) : (s.emitCode k).turn = s.turn :=
  (congrArg State.turn (emitCode_frame k s).1 :)

@[simp] theorem emitCode_resp (k : Nat) (s : State) : (s.emitCode k).resp = s.resp :=
  (congrArg State.resp (emitCode_frame k s).1 :)

@[simp] theorem emitCode_thisOut (k : Nat) (s : State) : (s.emitCode k).inf.thisOut = s.inf.thisOut + k :=
  (congrArg InfRegs.thisOut (emitCode_frame k s).2 :)

@[simp] theorem emitCode_totalOut (k : Nat) (s : State) : (s.emitCode k).inf.totalOut = s.inf.totalOut + k :=
  (congrArg InfRegs.totalOut (emitCode_frame k s).2 :)

@[simp] theorem emitCode_pendLen (k : Nat) (s : State) : (s.emitCode k).inf.pendLen = s.inf.pendLen - k :=
  (congrArg InfRegs.pendLen (emitCode_frame k s).2 :)

@[simp] theorem emitCode_outLim (k : Nat) (s : State) : (s.emitCode k).inf.outLim = s.inf.outLim :=
  (congrArg InfRegs.outLim (emitCode_frame k s).2 :)

@[simp] theorem emitCode_lastStatus (k : Nat) (s : State) : (s.emitCode k).inf.lastStatus = s.inf.lastStatus :=
  (congrArg InfRegs.lastStatus (emitCode_frame k s).2 :)

theorem emitCode_wf {s : State} (ho : s.infOut.wf = true) (hw : s.win.wf = true) (k : Nat) :
    (s.emitCode k).infOut.wf = true ∧ (s.emitCode k).win.wf = true := by
  induction k with
  | zero => exact ⟨ho, hw⟩
  | succ k ih =>
    rw [emitCode_succ]
    exact ⟨Memory.wf_write ih.1 _ _, Memory.wf_write ih.2 _ _⟩

/-- `drainCode()` makes as many passes as the code has bytes and the buffer has room for, and suspends if bytes of the
code remain (R342). -/
theorem drainCode_eq {s : State} (hr : s.inf.thisOut ≤ s.inf.outLim) {k : Nat}
    (hk : k = min s.inf.pendLen (s.inf.outLim - s.inf.thisOut)) :
    s.drainCode = if k = s.inf.pendLen then s.emitCode k else (s.emitCode k).suspendInf := by
  suffices h : ∀ n (t : State), t.inf.pendLen = n → t.inf.thisOut ≤ t.inf.outLim →
      ∀ j, j = min n (t.inf.outLim - t.inf.thisOut) →
        drainLoop n t = if j = n then t.emitCode j else (t.emitCode j).suspendInf from h _ s rfl hr k hk
  intro n
  induction n with
  | zero =>
    intro t _ _ j hj
    rw [Nat.zero_min] at hj
    rw [hj, if_pos rfl]
    rfl
  | succ n ih =>
    intro t hn ht j hj
    rw [drainLoop]
    by_cases hf : t.inf.thisOut = t.inf.outLim
    · have hj0 : j = 0 := by rw [hj, hf, Nat.sub_self, Nat.min_zero]
      rw [if_pos hf, hj0, if_neg (Nat.succ_ne_zero n).symm]
      rfl
    · obtain ⟨i, rfl⟩ : ∃ i, j = i + 1 := ⟨j - 1, by omega⟩
      have hnext : t.emitPend n = t.emitNext := by rw [State.emitNext, hn, Nat.add_sub_cancel]
      have hroom : (t.emitPend n).inf.thisOut ≤ (t.emitPend n).inf.outLim :=
        Nat.succ_le_of_lt (Nat.lt_of_le_of_ne ht hf)
      have hi : i = min n ((t.emitPend n).inf.outLim - (t.emitPend n).inf.thisOut) := by
        simp only [State.emitPend_inf]
        omega
      have hpass : t.emitCode (i + 1) = (t.emitPend n).emitCode i := by
        rw [hnext]
        exact Function.iterate_succ_apply ..
      simp only [if_neg hf, ih _ rfl hroom i hi, hpass, Nat.add_right_cancel_iff]

/-! ### which bytes -/

/-- The bytes of the first `k` passes. -/
def State.codeBytes (k : Nat) (s : State) : List Byte := (List.range k).map fun j => (s.emitCode j).pendByte

theorem codeBytes_add (j k : Nat) (s : State) :
    s.codeBytes (k + j) = s.codeBytes k ++ (s.emitCode k).codeBytes j := by
  simp only [State.codeBytes, List.range_add, List.map_append, List.map_map, ← emitCode_add]
  rfl

theorem emitCode_produced {s : State} (hm : s.infOut.wf = true) (k : Nat) :
    (s.emitCode k).produced = s.produced ++ s.codeBytes k ∧ (s.emitCode k).infOut.wf = true := by
  induction k with
  | zero => exact ⟨(List.append_nil _).symm, hm⟩
  | succ k ih =>
    obtain ⟨hp, hw⟩ := ih
    have hone := emitByte_produced hw (s.emitCode k).pendByte
    rw [hp, List.append_assoc] at hone
    rw [emitCode_succ, codeBytes_add]
    exact ⟨hone, Memory.wf_write hw _ _⟩

/-- The `j`-th byte of the code in flight, by the window before it is emitted (R342): a copy repeats its bytes (R81). -/
def State.codeByte (s : State) (j : Nat) : Byte :=
  if s.inf.pendDist = 0 then BitVec.ofNat 8 s.inf.pendSym.toNat
  else s.win.read ((s.inf.winPos + s.cfg.winCap - s.inf.pendDist + j % s.inf.pendDist) % s.cfg.winCap)

/-- What `k` passes have written: each byte of the code to OUTPUT and to the window, and no other. -/
structure CodeWritten (s : State) (k : Nat) (t : State) : Prop where
  winPos : t.inf.winPos = (s.inf.winPos + k) % s.cfg.winCap
  out : ∀ j, j < k → t.infOut.read (s.inf.thisOut + j) = s.codeByte j
  outRest : ∀ a, a < s.inf.thisOut ∨ s.inf.thisOut + k ≤ a → t.infOut.read a = s.infOut.read a
  win : ∀ j, j < k → t.win.read ((s.inf.winPos + j) % s.cfg.winCap) = s.codeByte j
  winRest : ∀ a, (∀ j, j < k → a ≠ (s.inf.winPos + j) % s.cfg.winCap) → t.win.read a = s.win.read a

section
variable {s : State} (ho : s.infOut.wf = true) (hw : s.win.wf = true) (hcap : 33026 ≤ s.cfg.winCap)
  (hdist : s.inf.pendDist ≤ 32768)

/-- Two places of the window less than its size apart are different. -/
theorem add_mod_ne {a j k c : Nat} (hjk : j < k) (hc : k - j < c) : (a + j) % c ≠ (a + k) % c := by
  have h := sub_mod_ne (a := a + k) (Nat.sub_pos_of_lt hjk) hc (by omega)
  rwa [show a + k - (k - j) = a + j by omega] at h

include hcap hdist

/-- The byte of the next pass: one the window held before, or one that an earlier pass has written (R81). -/
theorem CodeWritten.pendByte {k : Nat} (h : CodeWritten s k (s.emitCode k)) (hk : k < s.cfg.winCap) :
    (s.emitCode k).pendByte = s.codeByte k := by
  have hd : (s.emitCode k).inf.pendDist = s.inf.pendDist := (congrArg InfRegs.pendDist (emitCode_frame k s).2 :)
  have hsym : (s.emitCode k).inf.pendSym = s.inf.pendSym := (congrArg InfRegs.pendSym (emitCode_frame k s).2 :)
  have hsrc : ((s.inf.winPos + k) % s.cfg.winCap + s.cfg.winCap - s.inf.pendDist) % s.cfg.winCap =
      (s.inf.winPos + s.cfg.winCap - s.inf.pendDist + k) % s.cfg.winCap := by
    rw [Nat.add_sub_assoc (by omega), Nat.mod_add_mod]
    congr 1
    omega
  rw [State.pendByte, State.winIndex, h.winPos, emitCode_cfg, hd, hsym, hsrc, State.codeByte]
  by_cases h0 : s.inf.pendDist = 0
  · rw [if_pos h0, if_pos h0, BitVec.ofNat_toNat]
  rw [if_neg h0, if_neg h0]
  obtain hlt | hge := Nat.lt_or_ge k s.inf.pendDist
  · rw [Nat.mod_eq_of_lt hlt]
    refine h.winRest _ fun j hj => ?_
    have hne := add_mod_ne (a := s.inf.winPos) (j := j) (k := s.cfg.winCap - s.inf.pendDist + k) (c := s.cfg.winCap)
      (by omega) (by omega)
    rw [← Nat.add_assoc, ← Nat.add_sub_assoc (by omega)] at hne
    exact hne.symm
  · have hprev := h.win (k - s.inf.pendDist) (by omega)
    rw [State.codeByte, if_neg h0, ← Nat.mod_eq_sub_mod hge] at hprev
    rw [← hprev, show s.inf.winPos + s.cfg.winCap - s.inf.pendDist + k =
      s.inf.winPos + (k - s.inf.pendDist) + s.cfg.winCap by omega, Nat.add_mod_right]

include ho hw

theorem codeWritten_emitCode (hpos : s.inf.winPos < s.cfg.winCap) {k : Nat} (hk : k ≤ s.cfg.winCap) :
    CodeWritten s k (s.emitCode k) := by
  induction k with
  | zero => exact ⟨(Nat.mod_eq_of_lt hpos).symm, nofun, fun _ _ => rfl, nofun, fun _ _ => rfl⟩
  | succ k ih =>
    have h := ih (Nat.le_of_succ_le hk)
    have hbyte := h.pendByte hcap hdist hk
    obtain ⟨hwo, hww⟩ := emitCode_wf ho hw k
    have hout : ∀ a, (s.emitCode (k + 1)).infOut.read a =
        if a = s.inf.thisOut + k then s.codeByte k else (s.emitCode k).infOut.read a := fun a => by
      rw [emitCode_succ, ← hbyte, ← emitCode_thisOut]
      exact Memory.read_write hwo ..
    have hwin : ∀ a, (s.emitCode (k + 1)).win.read a =
        if a = (s.inf.winPos + k) % s.cfg.winCap then s.codeByte k else (s.emitCode k).win.read a := fun a => by
      rw [emitCode_succ, ← hbyte, ← h.winPos]
      exact Memory.read_write hww ..
    refine ⟨?_, fun j hj => ?_, fun a ha => ?_, fun j hj => ?_, fun a ha => ?_⟩
    · have hnext : (s.emitCode (k + 1)).inf.winPos = ((s.emitCode k).inf.winPos + 1) % (s.emitCode k).cfg.winCap := by
        rw [emitCode_succ]
        rfl
      rw [hnext, h.winPos, emitCode_cfg, Nat.mod_add_mod, Nat.add_assoc]
    · obtain hlt | rfl := Nat.lt_succ_iff_lt_or_eq.1 hj
      · rw [hout, if_neg (by omega), h.out j hlt]
      · rw [hout, if_pos rfl]
    · rw [hout, if_neg (by omega), h.outRest a (by omega)]
    · obtain hlt | rfl := Nat.lt_succ_iff_lt_or_eq.1 hj
      · rw [hwin, if_neg (add_mod_ne hlt (by omega)), h.win j hlt]
      · rw [hwin, if_pos rfl]
    · rw [hwin, if_neg (ha k (Nat.lt_succ_self k)), h.winRest a fun j hj => ha j (Nat.lt_succ_of_lt hj)]

end

end Sys2Proof.Machine

open Sys2Proof Sys2Proof.Machine

/-- Settles O21: `drainCode()` makes the passes that fit, a pass writes one byte, and the byte it reads is one of the
window's before the code or an earlier byte of the code. -/
theorem drainCodeEmitsAsFits : Obligations.DrainCodeEmitsAsFits := by
  refine ⟨fun s hr => ?_, fun s ho hw hcap hpos hr hlen hdist => ?_, fun s ht hb hp hd => ?_⟩
  · intro k t
    have ht : t = _ := drainCode_eq hr rfl
    have hk : k ≤ s.inf.pendLen := Nat.min_le_left _ _
    obtain ⟨hs, hregs⟩ := emitCode_frame k s
    have hkept := congrArg (fun r : InfRegs => { r with
      pendLen := s.inf.pendLen, winPos := s.inf.winPos, thisOut := s.inf.thisOut, totalOut := s.inf.totalOut,
      lastStatus := s.inf.lastStatus }) hregs
    by_cases hall : k = s.inf.pendLen
    · rw [ht, if_pos hall]
      exact ⟨emitCode_thisOut .., emitCode_totalOut .., hkept, emitCode_pendLen ..,
        fun _ => ⟨emitCode_turn .., emitCode_resp .., emitCode_lastStatus ..⟩, fun h => absurd hall h.ne,
        congrArg (fun u : State => { u with turn := s.turn, resp := s.resp }) hs⟩
    · have hfull : s.inf.thisOut + k = s.inf.outLim := by omega
      have hresp : (s.emitCode k).suspendInf.resp =
          some (.step .pending s.inf.outLim ((s.inf.totalOut + k) % 2 ^ s.cfg.cntW)) := by
        rw [State.suspendInf_resp, emitCode_thisOut, emitCode_totalOut, emitCode_cfg, hfull]
        rfl
      rw [ht, if_neg hall]
      exact ⟨emitCode_thisOut .., emitCode_totalOut .., hkept, emitCode_pendLen .., fun h => absurd h hall,
        fun _ => ⟨rfl, rfl, hresp⟩, congrArg (fun u : State => { u with turn := s.turn, resp := s.resp }) hs⟩
  · intro k t byte
    have hk : k ≤ s.cfg.winCap := by omega
    have h := codeWritten_emitCode ho hw hcap hdist hpos hk
    have ht : t = _ := drainCode_eq hr rfl
    by_cases hall : k = s.inf.pendLen
    · rw [ht, if_pos hall]
      exact ⟨h.winPos, h.out, h.outRest, h.win, h.winRest⟩
    · rw [ht, if_neg hall]
      exact ⟨h.winPos, h.out, h.outRest, h.win, h.winRest⟩
  · exact (step_of_outcome (nextAction_of_noPos ht (pos_of_inFlight hb hp hd))).trans
      (congrArg Host.Outcome.next (infInternal_of_inBody hb))

end

section
/-! PROOFS. Every INF.STEP terminates (R442), by the work left; the transitions of the engines' states (R355); and a
STEP that answers PENDING has filled its buffer (R437). -/

namespace Sys2Proof.Machine

/-! ### the end of a command -/

theorem ends_of_host {s : State} (h : s.turn = .host) : Ends s s := ⟨0, if_pos h⟩

theorem ends_of_step {s t u : State} (hs : s.turn ≠ .host) (h : step s = .next t) (ht : Ends t u) : Ends s u := by
  obtain ⟨k, hk⟩ := ht
  refine ⟨k + 1, ?_⟩
  rw [runCommand, if_neg hs, h]
  exact hk

/-! ### the work left -/

theorem InfRegs.avail_afterRaw {r : InfRegs} (h : 8 ≤ r.avail) : r.afterRaw.avail < r.avail := by
  simp only [InfRegs.avail, InfRegs.afterRaw] at h ⊢
  omega

/-- A drained code is out, or the STEP has ended; the cursor and the place in the stream are as they were. -/
theorem drainCode_out (s : State) :
    s.drainCode.turn = .host ∨
    s.drainCode.turn = s.turn ∧ s.drainCode.inf.pendLen = 0 ∧ s.drainCode.inf.avail = s.inf.avail ∧
      s.drainCode.inf.iState = s.inf.iState ∧ s.drainCode.inf.iPhase = s.inf.iPhase := by
  obtain ⟨hturn, hpend⟩ | ⟨n, t, -, -, h⟩ := drainLoop_induct (P := fun n t => t.turn = s.turn ∧ t.inf.pendLen = n)
    (fun _ _ _ h => ⟨h.1, rfl⟩) (n := s.inf.pendLen) (s := s) ⟨rfl, rfl⟩
  · have hregs := (drainLoop_frame s.inf.pendLen s).2
    exact .inr ⟨hturn, hpend, (congrArg InfRegs.avail hregs :), (congrArg InfRegs.iState hregs :),
      (congrArg InfRegs.iPhase hregs :)⟩
  · exact .inl (congrArg State.turn h)

/-- A step of the INFLATE engine ends the STEP or leaves less work. -/
theorem step_inf_work {s : State} (ht : s.turn = .inf) :
    ∃ t, step s = .next t ∧ (t.turn = .host ∨ t.turn = .inf ∧ t.inf.work < s.inf.work) := by
  obtain ⟨b, ha, hrun⟩ | ⟨q, e, hq, hrun⟩ := step_inf_acts s
  · refine ⟨_, hrun s ht rfl, ?_⟩
    split
    · exact .inl rfl
    · exact .inr ⟨ht, InfRegs.work_lt_of_avail (InfRegs.avail_afterRaw ha)⟩
  · refine ⟨_, hrun s ht rfl, ?_⟩
    cases e with
    | stay => exact .inr ⟨ht, hq.1⟩
    | raise cause => exact .inl rfl
    | answer st => exact .inl rfl
    | store b => exact hq.elim
    | drain =>
      obtain ⟨hlt, -, ⟨hst, hph⟩, -⟩ := hq
      obtain h | ⟨hturn, hpend, havail, hst', hph'⟩ := drainCode_out { s with inf := s.inf.onBuffer q }
      · exact .inl h
      · refine .inr ⟨hturn.trans ht, ?_⟩
        have hidle : InfRegs.idle (State.drainCode { s with inf := s.inf.onBuffer q }).inf = 0 := by
          have hst'' := hst'.trans (show (s.inf.onBuffer q).iState = q.iState from rfl)
          have hph'' := hph'.trans hph
          obtain h | h := hst <;> rw [h] at hst'' <;> simp [InfRegs.idle, hst'', hph'', hpend]
        rw [InfEnd.run, InfRegs.work, hidle, havail]
        exact hlt

end Sys2Proof.Machine

open Sys2Proof Sys2Proof.Machine

/-- Settles O57, by induction on the work left. -/
theorem inflateStepTerminates : Obligations.InflateStepTerminates := by
  intro s ht
  induction hw : s.inf.work using Nat.strong_induction_on generalizing s with
  | _ n ih =>
    obtain ⟨t, hstep, hhost | ⟨hinf, hlt⟩⟩ := step_inf_work ht
    · exact ⟨t, ends_of_step (by rw [ht]; decide) hstep (ends_of_host hhost), hhost⟩
    · obtain ⟨u, hu, hturn⟩ := ih _ (hw ▸ hlt) t hinf rfl
      exact ⟨u, ends_of_step (by rw [ht]; decide) hstep hu, hturn⟩

namespace Sys2Proof.Machine

/-! ### the transitions of the states -/

theorem step_inf_transition {s t : State} (ht : s.turn = .inf) (h : step s = .next t) :
    t.inf.iState = s.inf.iState ∨ (t.inf.iState = .iError ∧ s.inf.iState ≠ .iEnd) ∨
      (s.inf.iState, t.inf.iState) ∈ infTransitions := by
  obtain ⟨b, -, hrun⟩ | ⟨q, e, hq, hrun⟩ := step_inf_acts s <;>
    obtain rfl := Host.Outcome.next.inj (h.symm.trans (hrun s ht rfl))
  · left
    split <;> rfl
  · cases e with
    | stay =>
      obtain ⟨-, hst | hst⟩ := hq
      · exact .inl hst
      · exact .inr (.inr hst)
    | raise cause => exact .inr (.inl ⟨rfl, hq⟩)
    | answer st => exact .inl (congrArg InfRegs.iState hq.1 :)
    | store b => exact hq.elim
    | drain =>
      have hst : (InfEnd.drain.run { s with inf := s.inf.onBuffer q }).inf.iState = q.iState :=
        (congrArg InfRegs.iState (drainLoop_frame q.pendLen { s with inf := s.inf.onBuffer q }).2 :)
      exact .inl (hst.trans hq.2.1)

/-- An emission ends its list or leaves D_STATE. -/
theorem emitList_dState (s : State) (l : List Item) (fin : DefRegs → DefRegs) :
    (s.emitList l fin).dfl.dState = s.dfl.dState ∨
    ∃ r, r.blkFinal = s.dfl.blkFinal ∧ (s.emitList l fin).dfl.dState = (fin r).dState := by
  obtain ⟨t, hs, h⟩ | ⟨i, l', t, hs, -, -, h⟩ := emitItems_induct (fin := fin)
    (P := fun _ t => s.dfl.SameButWriter t.dfl) (fun _ t h => h.trans t.drain_sameButWriter)
    (fun i _ t _ h => h.trans (t.performItem_sameButWriter i)) (l := l.drop s.dfl.emitIdx) (s := s) (.refl _)
  · exact .inr ⟨{ t.dfl with emitIdx := 0 }, hs.blkFinal, (congrArg (fun u : State => u.dfl.dState) h :)⟩
  · exact .inl ((congrArg (fun u : State => u.dfl.dState) h).trans hs.dState)

/-- The transitions of D_STATE (R355). -/
def dflTransitions : List (DState × DState) :=
  [(.dInit, .dBlock), (.dBlock, .dNocomp), (.dBlock, .dLzss), (.dLzss, .dFixed), (.dLzss, .dDynamic),
    (.dNocomp, .dBlock), (.dFixed, .dBlock), (.dDynamic, .dBlock), (.dNocomp, .dEnd), (.dFixed, .dEnd),
    (.dDynamic, .dEnd), (.dEnd, .dDone)]

theorem mem_dflTransitions {s t : State} {a b : DState} (hs : s.dfl.dState = a) (ht : t.dfl.dState = b)
    (h : (a, b) ∈ dflTransitions) : (s.dfl.dState, t.dfl.dState) ∈ dflTransitions := hs ▸ ht ▸ h

/-- The end of a block goes to D_END or to D_BLOCK (R397). -/
theorem emitBlock_transition (s : State) (l : List Item)
    (hd : s.dfl.dState = .dNocomp ∨ s.dfl.dState = .dFixed ∨ s.dfl.dState = .dDynamic) :
    (s.emitList l DefRegs.endBlock).dfl.dState = s.dfl.dState ∨
      (s.dfl.dState, (s.emitList l DefRegs.endBlock).dfl.dState) ∈ dflTransitions := by
  obtain h | ⟨r, -, h⟩ := emitList_dState s l DefRegs.endBlock
  · exact .inl h
  · right
    have hend : r.endBlock.dState = .dEnd ∨ r.endBlock.dState = .dBlock := by
      rw [DefRegs.endBlock]
      cases r.blkFinal
      · exact .inr rfl
      · exact .inl rfl
    obtain he | he := hend <;> obtain hd | hd | hd := hd <;> exact mem_dflTransitions hd (h.trans he) (by decide)

theorem step_dfl_transition {s t : State} (ht : s.turn = .dfl) (h : step s = .next t) :
    t.dfl.dState = s.dfl.dState ∨ (s.dfl.dState, t.dfl.dState) ∈ dflTransitions := by
  obtain ⟨hst, rfl⟩ | ⟨hst, rfl⟩ | ⟨hst, -, rfl⟩ | ⟨hst, rfl⟩ | ⟨hst, rfl⟩ | ⟨hst, rfl⟩ | ⟨hst, rfl⟩ | ⟨hst, rfl⟩ :=
    step_dfl_cases ht h
  · obtain h | ⟨r, -, h⟩ := emitList_dState s (headerItems s.dfl.level) fun r => { r with dState := .dBlock }
    · exact .inl h
    · exact .inr (mem_dflTransitions (t := s.passInit) (b := .dBlock) hst h (by decide))
  · right
    by_cases hl : s.dfl.level = .noCompression
    · exact mem_dflTransitions (b := .dNocomp) hst (congrArg (fun u : State => u.dfl.dState) (passBlock_of_stored hl))
        (by decide)
    · exact mem_dflTransitions (b := .dLzss) hst (congrArg (fun u : State => u.dfl.dState) (passBlock_of_coded hl))
        (by decide)
  · exact emitBlock_transition s _ (.inl hst)
  · right
    have hd : s.passLzss.dfl.dState = .dDynamic ∨ s.passLzss.dfl.dState = .dFixed := by
      rw [State.passLzss, DefRegs.afterPass]
      dsimp only
      split
      · exact .inl rfl
      · exact .inr rfl
      · exact .inr rfl
    obtain hd | hd := hd <;> exact mem_dflTransitions hst hd (by decide)
  · exact emitBlock_transition s _ (.inr (.inl hst))
  · exact emitBlock_transition s _ (.inr (.inr hst))
  · obtain h | ⟨r, -, h⟩ := emitList_dState s (trailerItems s.dfl.adler) fun r => { r with dState := .dDone }
    · exact .inl h
    · exact .inr (mem_dflTransitions (b := .dDone) hst h (by decide))
  · exact .inl rfl

end Sys2Proof.Machine

/-- Settles O31, engine by engine: an INFLATE step follows the way it goes on, a DEFLATE step ends its list or not. -/
theorem stateTransitionsAreListed : Obligations.StateTransitionsAreListed :=
  ⟨fun _ _ ht h => step_inf_transition ht h, fun _ _ ht h => step_dfl_transition ht h⟩

namespace Sys2Proof.Machine

/-! ### suspensions -/

/-- How a step of the INFLATE engine ends a STEP: its buffer is full, or the engine is in a terminal state. -/
theorem step_inf_answer {s t : State} (ht : s.turn = .inf) (h : step s = .next t) (hhost : t.turn = .host) :
    t.inf.lastStatus = .pending ∧ t.inf.thisOut = t.inf.outLim ∨
    t.inf.iState = .iEnd ∧ t.inf.lastStatus = .ended ∨ t.inf.iState = .iError ∧ t.inf.lastStatus = .errorFormat := by
  obtain ⟨b, -, hrun⟩ | ⟨q, e, hq, hrun⟩ := step_inf_acts s <;>
    obtain rfl := Host.Outcome.next.inj (h.symm.trans (hrun s ht rfl))
  · by_cases hf : s.inf.thisOut = s.inf.outLim
    · rw [if_pos hf]
      exact .inl ⟨rfl, hf⟩
    · rw [if_neg hf] at hhost
      exact absurd (ht.symm.trans hhost) (by decide)
  · cases e with
    | stay => exact absurd (ht.symm.trans hhost) (by decide)
    | raise cause => exact .inr (.inr ⟨rfl, rfl⟩)
    | answer st =>
      obtain ⟨rfl, ⟨hst, rfl⟩ | ⟨hst, rfl⟩⟩ := hq
      · exact .inr (.inl ⟨hst, rfl⟩)
      · exact .inr (.inr ⟨hst, rfl⟩)
    | store b => exact hq.elim
    | drain =>
      obtain hturn | ⟨n, u, -, hfull, hu⟩ := drainLoop_induct (P := fun _ u => u.turn = .inf) (fun _ _ _ h => h)
        (n := q.pendLen) (s := { s with inf := s.inf.onBuffer q }) ht
      · exact absurd (hturn.symm.trans hhost) (by decide)
      · rw [InfEnd.run, State.drainCode, show State.inf { s with inf := s.inf.onBuffer q } = s.inf.onBuffer q from rfl,
          show (s.inf.onBuffer q).pendLen = q.pendLen from rfl, hu]
        exact .inl ⟨rfl, hfull⟩

/-- An emission that hands over the move has suspended (R390, R437). -/
theorem emitList_suspends {s : State} {l : List Item} {fin : DefRegs → DefRegs} (ht : s.turn = .dfl)
    (hhost : (s.emitList l fin).turn = .host) : Suspends s (s.emitList l fin) := by
  obtain ⟨t, ⟨hframe, -⟩, h⟩ | ⟨i, l', t, ⟨hframe, hs⟩, -, -, h⟩ := emitItems_induct (fin := fin)
    (P := fun _ t => { t with dflOut := s.dflOut, dfl := s.dfl } = s ∧ s.dfl.SameButWriter t.dfl)
    (fun _ t h => ⟨(congrArg (fun u : State => { u with dflOut := s.dflOut, dfl := s.dfl }) t.drain_frame.1).trans h.1,
      h.2.trans t.drain_sameButWriter⟩)
    (fun i _ t _ h => ⟨h.1, h.2.trans (t.performItem_sameButWriter i)⟩)
    (l := l.drop s.dfl.emitIdx) (s := s) ⟨rfl, .refl _⟩
  · have hturn : t.turn = s.turn := (congrArg State.turn hframe :)
    rw [State.emitList, h] at hhost
    exact absurd (hhost.symm.trans (hturn.trans ht)) (by decide)
  · rw [State.emitList, h]
    exact suspends_suspendDfl hs hframe

/-- There the buffer is full: `drain()` left a byte in the queue (R150). -/
theorem emitItems_full {fin : DefRegs → DefRegs} {l : List Item} {s : State} (ht : s.turn = .dfl)
    (hr : s.dfl.thisOut ≤ s.dfl.outLim) (hhost : (emitItems fin l s).turn = .host) :
    (emitItems fin l s).dfl.thisOut = (emitItems fin l s).dfl.outLim := by
  induction l generalizing s with
  | nil => exact absurd (ht.symm.trans hhost) (by decide)
  | cons i l ih =>
    have hroom : s.drain.dfl.thisOut ≤ s.drain.dfl.outLim :=
      ((drain_fills s).stored_le_lim hr).trans_eq (drain_fills s).lim_eq.symm
    have hitem : (s.drain.performItem i).dflOutput = s.drain.dflOutput := performItem_dflOutput i _
    simp only [emitItems] at hhost ⊢
    by_cases hw : s.drain.dfl.writerReady = true
    · rw [if_pos hw] at hhost ⊢
      refine ih ((drain_turn s).trans ht) ?_ hhost
      exact (congrArg (fun o : Output => o.stored ≤ o.lim) hitem).mpr hroom
    · have hstop := s.drain_stops
      rw [if_neg hw]
      rw [DefRegs.writerReady, decide_eq_true_iff] at hw
      show s.drain.dfl.thisOut = s.drain.dfl.outLim
      omega

/-- A DEFLATE step that answers PENDING is an emission that has suspended. -/
theorem step_dfl_pending {s t : State} (ht : s.turn = .dfl) (h : step s = .next t) (hhost : t.turn = .host)
    (hp : t.dfl.lastStatus = .pending) : ∃ l fin, t = s.emitList l fin := by
  obtain ⟨-, rfl⟩ | ⟨-, rfl⟩ | ⟨-, -, rfl⟩ | ⟨-, rfl⟩ | ⟨-, rfl⟩ | ⟨-, rfl⟩ | ⟨-, rfl⟩ | ⟨-, rfl⟩ := step_dfl_cases ht h
  · exact ⟨_, _, rfl⟩
  · have hturn : s.passBlock.turn = s.turn := by
      unfold State.passBlock
      split <;> rfl
    exact absurd (ht.symm.trans (hturn.symm.trans hhost)) (by decide)
  · exact ⟨_, _, rfl⟩
  · exact absurd (ht.symm.trans hhost) (by decide)
  · exact ⟨_, _, rfl⟩
  · exact ⟨_, _, rfl⟩
  · exact ⟨_, _, rfl⟩
  · cases hp

end Sys2Proof.Machine

/-- Settles O28: a code is suspended where the buffer is full, an emission where the queue cannot be drained. -/
theorem pendingMeansFullBuffer : Obligations.PendingMeansFullBuffer := by
  refine ⟨fun s t ht h hhost hp => ?_, fun s t hs ht h hhost hp => ?_, fun s t ht h hhost hp => ?_⟩
  · obtain ⟨-, hf⟩ | ⟨-, he⟩ | ⟨-, he⟩ := step_inf_answer ht h hhost
    · exact hf
    · exact absurd (hp.symm.trans he) (by decide)
    · exact absurd (hp.symm.trans he) (by decide)
  · obtain ⟨l, fin, rfl⟩ := step_dfl_pending ht h hhost hp
    exact emitItems_full ht (hs.2 (hs.1 ht)).1.room hhost
  · obtain ⟨l, fin, rfl⟩ := step_dfl_pending ht h hhost hp
    exact emitList_suspends ht hhost

end

section
/-! PROOFS. Chunking invariance of the decoder (R351). Two steps from one context with different buffers lead to the same
context, or one of them is on the way of the other; so the sessions that start from one context meet, with the same bytes,
and those that have ended are where they meet. -/

namespace Sys2Proof.Machine

/-! ### a context moved on by a step with some buffer -/

/-- From `x` a step of the INFLATE engine, with some buffer, leads to `y`: the bytes delivered so far, and the context
apart from the buffer. -/
def Decodes (x y : List Byte × State) : Prop :=
  ∃ (v w : State) (bs : List Byte), v.turn = .inf ∧ v.infOut.wf = true ∧ v.inf.thisOut ≤ v.inf.outLim ∧
    v.bufferless = x.2 ∧ step v = .next w ∧ w.bufferless = y.2 ∧ w.produced = v.produced ++ bs ∧ y.1 = x.1 ++ bs

/-- The context `L` with `k` bytes of its code emitted, after the bytes `o`. -/
def emitted (o : List Byte) (k : Nat) (L : State) : List Byte × State :=
  (o ++ L.codeBytes k, (L.emitCode k).bufferless)

/-- The context with a fresh buffer of `n` bytes. -/
def State.withRoom (n : Nat) (s : State) : State :=
  { s.bufferless with inf := { s.bufferless.inf with outLim := n } }

/-- A context in a body with a code to drain (R338). -/
def State.Draining (L : State) : Prop := L.inf.inBody ∧ ∀ sym len, L.inf.sub ≠ .distance sym len

/-- The passes of R342's loop do not depend on the buffer. -/
theorem emitCode_congr {u v : State} (h : u.bufferless = v.bufferless) (k : Nat) :
    (u.emitCode k).bufferless = (v.emitCode k).bufferless := by
  induction k with
  | zero => exact h
  | succ k ih =>
    rw [emitCode_succ, emitCode_succ]
    show (u.emitCode k).bufferless.emitNext.bufferless = (v.emitCode k).bufferless.emitNext.bufferless
    rw [ih]

theorem codeBytes_congr {u v : State} (h : u.bufferless = v.bufferless) (k : Nat) : u.codeBytes k = v.codeBytes k := by
  refine List.map_congr_left fun j _ => ?_
  show (u.emitCode j).bufferless.pendByte = (v.emitCode j).bufferless.pendByte
  rw [emitCode_congr h]

/-- `drainCode()` in some buffer emits some of the code's bytes. -/
theorem drainCode_decodes {v : State} (hm : v.infOut.wf = true) (hr : v.inf.thisOut ≤ v.inf.outLim) :
    ∃ k, k = min v.inf.pendLen (v.inf.outLim - v.inf.thisOut) ∧
      v.drainCode.bufferless = (v.emitCode k).bufferless ∧ v.drainCode.produced = v.produced ++ v.codeBytes k ∧
      v.drainCode.infOut.wf = true ∧ v.drainCode.inf.thisOut ≤ v.drainCode.inf.outLim := by
  refine ⟨_, rfl, ?_⟩
  obtain ⟨hp, hw⟩ := emitCode_produced hm (min v.inf.pendLen (v.inf.outLim - v.inf.thisOut))
  have hroom : (v.emitCode (min v.inf.pendLen (v.inf.outLim - v.inf.thisOut))).inf.thisOut ≤
      (v.emitCode (min v.inf.pendLen (v.inf.outLim - v.inf.thisOut))).inf.outLim := by
    rw [emitCode_thisOut, emitCode_outLim]
    omega
  rw [drainCode_eq hr rfl]
  split
  · exact ⟨rfl, hp, hw, hroom⟩
  · exact ⟨rfl, hp, hw, hroom⟩

/-- More of a code's bytes come out of a context in which fewer are out. -/
theorem emitted_decodes {L : State} (hL : L.Draining) (o : List Byte) {j k : Nat} (hj : j < k) (hk : k ≤ L.inf.pendLen) :
    Decodes (emitted o j L) (emitted o k L) := by
  obtain ⟨hb, hd⟩ := hL
  let v := (L.emitCode j).withRoom (k - j)
  have hv : v.bufferless = (L.emitCode j).bufferless := rfl
  have hregs := (emitCode_frame j L).2
  have hpend : v.inf.pendLen = L.inf.pendLen - j := emitCode_pendLen j L
  have hbody : v.inf.inBody := by
    have hst : v.inf.iState = L.inf.iState := (congrArg InfRegs.iState hregs :)
    have hph : v.inf.iPhase = L.inf.iPhase := (congrArg InfRegs.iPhase hregs :)
    rw [InfRegs.inBody, hst, hph]
    exact hb
  have hsub : v.inf.sub = L.inf.sub := (congrArg InfRegs.sub hregs :)
  have hstep : step v = .next v.drainCode :=
    (step_of_outcome (nextAction_of_noPos rfl (pos_of_inFlight hbody (by omega) (hsub ▸ hd)))).trans
      (congrArg Host.Outcome.next (infInternal_of_inBody hbody))
  obtain ⟨i, hi, hcore, hprod, -, -⟩ := drainCode_decodes (v := v) rfl (Nat.zero_le _)
  have hk' : k = j + i := by
    have hlim : v.inf.outLim - v.inf.thisOut = k - j := rfl
    omega
  refine ⟨v, v.drainCode, v.codeBytes i, rfl, rfl, Nat.zero_le _, hv, hstep, ?_, hprod, ?_⟩
  · rw [hcore, emitCode_congr hv, hk', emitted, emitCode_add]
  · rw [codeBytes_congr hv, hk', emitted, emitted, codeBytes_add, List.append_assoc]

/-! ### the steps from one context -/

/-- Where the steps from one context lead: a step that emits no code leaves the context or moves it on in one way
(R332), and one that does emits a part of the same code (R342). -/
theorem decodes_forms (x : List Byte × State) :
    (∃ z, ∀ y, Decodes x y → y = x ∨ y = z) ∨
    ∃ L : State, L.Draining ∧ ∀ y, Decodes x y → ∃ k, k ≤ L.inf.pendLen ∧ y = emitted x.1 k L := by
  obtain ⟨b, -, hrun⟩ | ⟨q, e, hq, hrun⟩ := step_inf_acts x.2
  · left
    refine ⟨(x.1 ++ [b], (State.emitByte b { x.2 with inf := x.2.inf.afterRaw }).bufferless), ?_⟩
    rintro ⟨o, c⟩ ⟨v, w, bs, ht, hm, -, hv, hw, rfl, hbs, rfl⟩
    obtain rfl := Host.Outcome.next.inj (hw.symm.trans (hrun v ht (by rw [← hv]; rfl)))
    by_cases hf : v.inf.thisOut = v.inf.outLim
    · rw [if_pos hf] at hbs ⊢
      obtain rfl := List.append_right_eq_self.1 hbs.symm
      exact .inl (Prod.ext (List.append_nil _) hv)
    · rw [if_neg hf] at hbs ⊢
      have hone := emitByte_produced (s := { v with inf := v.inf.onBuffer x.2.inf.afterRaw }) hm b
      obtain rfl := List.append_cancel_left (hbs.symm.trans hone)
      refine .inr (Prod.ext rfl ?_)
      rw [← hv]
      rfl
  · have hquiet : e ≠ .drain → (∃ z, ∀ y, Decodes x y → y = x ∨ y = z) := by
      intro hne
      refine ⟨(x.1, (e.run { x.2 with inf := q }).bufferless), ?_⟩
      rintro ⟨o, c⟩ ⟨v, w, bs, ht, hm, -, hv, hw, rfl, hbs, rfl⟩
      obtain rfl := Host.Outcome.next.inj (hw.symm.trans (hrun v ht (by rw [← hv]; rfl)))
      have hnil : bs = [] := by
        refine List.append_right_eq_self.1 (hbs.symm.trans ?_)
        cases e with
        | drain => exact absurd rfl hne
        | store b => exact hq.elim
        | _ => rfl
      refine .inr (Prod.ext (hnil ▸ List.append_nil _) ?_)
      rw [← hv]
      cases e with
      | drain => exact absurd rfl hne
      | store b => exact hq.elim
      | _ => rfl
    cases e with
    | drain =>
      obtain ⟨-, -, hbody, hsub⟩ := hq
      refine .inr ⟨{ x.2 with inf := q }, ⟨hbody, hsub⟩, ?_⟩
      rintro ⟨o, c⟩ ⟨v, w, bs, ht, hm, hr, hv, hw, rfl, hbs, rfl⟩
      obtain rfl := Host.Outcome.next.inj (hw.symm.trans (hrun v ht (by rw [← hv]; rfl)))
      have hL : State.bufferless { v with inf := v.inf.onBuffer q } = State.bufferless { x.2 with inf := q } := by
        rw [← hv]
        rfl
      obtain ⟨k, hk, hcore, hprod, -, -⟩ := drainCode_decodes (v := { v with inf := v.inf.onBuffer q }) hm hr
      obtain rfl := List.append_cancel_left (hbs.symm.trans hprod)
      exact ⟨k, hk ▸ Nat.min_le_left _ _,
        Prod.ext (congrArg (x.1 ++ ·) (codeBytes_congr hL k)) (hcore.trans (emitCode_congr hL k))⟩
    | _ => exact .inl (hquiet nofun)

/-- Two steps from one context lead to the same place, or one of them is on the way of the other. -/
theorem Decodes.comparable {x y z : List Byte × State} (hy : Decodes x y) (hz : Decodes x z) :
    y = z ∨ Decodes y z ∨ Decodes z y := by
  obtain ⟨u, h⟩ | ⟨L, hL, h⟩ := decodes_forms x
  · obtain rfl | rfl := h y hy
    · exact .inr (.inl hz)
    · obtain rfl | rfl := h z hz
      · exact .inr (.inr hy)
      · exact .inl rfl
  · obtain ⟨j, hj, rfl⟩ := h y hy
    obtain ⟨k, hk, rfl⟩ := h z hz
    obtain hlt | rfl | hgt := Nat.lt_trichotomy j k
    · exact .inr (.inl (emitted_decodes hL x.1 hlt hk))
    · exact .inl rfl
    · exact .inr (.inr (emitted_decodes hL x.1 hgt hj))

open Relation in
/-- The runs from one context meet. -/
theorem decodes_meet {x y z : List Byte × State} (hy : ReflTransGen Decodes x y) (hz : ReflTransGen Decodes x z) :
    Join (ReflTransGen Decodes) y z := by
  refine church_rosser (fun a b c hb hc => ?_) hy hz
  obtain rfl | h | h := hb.comparable hc
  · exact ⟨b, .refl, .refl⟩
  · exact ⟨c, .single h, .refl⟩
  · exact ⟨b, .refl, .single h⟩

/-! ### terminal states -/

/-- A context in a terminal state (R345, R346). -/
def State.Terminal (s : State) : Prop := s.inf.iState = .iEnd ∨ s.inf.iState = .iError

theorem step_inf_of_terminal {s : State} (ht : s.turn = .inf) (h : s.Terminal) :
    step s = .next (s.answerInf (if s.inf.iState = .iEnd then .ended else .errorFormat)) := by
  have hpos : s.inf.pos = none := (positionFollowsTheGrammar s.inf).2.2.2.2.2.2 h
  rw [step_inf_of_none ht hpos, State.infInternal]
  obtain h | h := h <;> rw [h] <;> rfl

theorem eq_of_decodes_terminal {x y : List Byte × State} (hx : x.2.Terminal)
    (h : Relation.ReflTransGen Decodes x y) : y = x := by
  induction h with
  | refl => rfl
  | tail _ hstep ih =>
    rw [ih] at hstep
    obtain ⟨v, w, bs, ht, -, -, hv, hw, hcore, hbs, hy⟩ := hstep
    have hterm : v.Terminal := by
      have hst : v.inf.iState = x.2.inf.iState := (congrArg (fun u : State => u.inf.iState) hv :)
      rw [State.Terminal, hst]
      exact hx
    obtain rfl := Host.Outcome.next.inj (hw.symm.trans (step_inf_of_terminal ht hterm))
    obtain rfl := List.append_right_eq_self.1 hbs.symm
    exact Prod.ext (hy.trans (List.append_nil _)) (hcore.symm.trans hv)

/-! ### sessions -/

/-- A step of a STEP: the bytes it delivers, and what it needs of the buffer again. -/
theorem step_inf_decodes {v w : State} (ht : v.turn = .inf) (hm : v.infOut.wf = true)
    (hr : v.inf.thisOut ≤ v.inf.outLim) (h : step v = .next w) :
    w.infOut.wf = true ∧ w.inf.thisOut ≤ w.inf.outLim ∧
      ∀ o, Decodes (o ++ v.produced, v.bufferless) (o ++ w.produced, w.bufferless) := by
  have hmade : w.infOut.wf = true ∧ w.inf.thisOut ≤ w.inf.outLim ∧ ∃ bs, w.produced = v.produced ++ bs := by
    obtain ⟨b, -, hrun⟩ | ⟨q, e, hq, hrun⟩ := step_inf_acts v <;>
      obtain rfl := Host.Outcome.next.inj (h.symm.trans (hrun v ht rfl))
    · by_cases hf : v.inf.thisOut = v.inf.outLim
      · rw [if_pos hf]
        exact ⟨hm, hr, [], (List.append_nil _).symm⟩
      · rw [if_neg hf]
        exact ⟨Memory.wf_write hm _ _, Nat.succ_le_of_lt (Nat.lt_of_le_of_ne hr hf), [b],
          emitByte_produced (s := { v with inf := v.inf.onBuffer v.inf.afterRaw }) hm b⟩
    · cases e with
      | drain =>
        obtain ⟨k, -, -, hprod, hwf, hroom⟩ := drainCode_decodes (v := { v with inf := v.inf.onBuffer q }) hm hr
        exact ⟨hwf, hroom, _, hprod⟩
      | store b => exact hq.elim
      | _ => exact ⟨hm, hr, [], (List.append_nil _).symm⟩
  obtain ⟨hwf, hroom, bs, hbs⟩ := hmade
  exact ⟨hwf, hroom, fun o => ⟨v, w, bs, ht, hm, hr, rfl, h, rfl, hbs, by rw [hbs, List.append_assoc]⟩⟩

/-- The status of an answer other than PENDING (R345, R346). -/
def State.Ended (s : State) : Prop :=
  s.inf.iState = .iEnd ∧ s.inf.lastStatus = .ended ∨ s.inf.iState = .iError ∧ s.inf.lastStatus = .errorFormat

theorem State.Ended.terminal {s : State} (h : s.Ended) : s.Terminal := Or.imp And.left And.left h

/-- What holds in a STEP that began in `u`, when the session had delivered the bytes `o`. -/
structure InStep (o : List Byte) (u v : State) : Prop where
  turn : v.turn ≠ .dfl
  wf : v.infOut.wf = true
  room : v.inf.thisOut ≤ v.inf.outLim
  path : Relation.ReflTransGen Decodes (o, u.bufferless) (o ++ v.produced, v.bufferless)
  answer : v.turn = .host → v.inf.lastStatus ≠ .pending → v.Ended

theorem InStep.start {o : List Byte} {s u : State} (hturn : u.turn = .inf) (hwf : u.infOut.wf = true)
    (hat : u.inf.thisOut = 0) (hcore : u.bufferless = s.bufferless) :
    InStep o s u where
  turn := by simp [hturn]
  wf := hwf
  room := hat ▸ Nat.zero_le _
  path := by
    have hnil : u.produced = [] := by rw [State.produced, hat]; rfl
    rw [hnil, List.append_nil, hcore]
  answer := by simp [hturn]

theorem InStep.pass {o : List Byte} {u v w : State} (hhost : v.turn ≠ .host) (hw : step v = .next w)
    (h : InStep o u v) : InStep o u w := by
  have hv : v.turn = .inf := by
    have hdfl := h.turn
    cases hv : v.turn <;> simp_all
  obtain ⟨hwf, hroom, hdec⟩ := step_inf_decodes hv h.wf h.room hw
  refine ⟨(step_inf_dfl hv hw).1, hwf, hroom, h.path.tail (hdec o), fun hturn hne => ?_⟩
  obtain ⟨hp, -⟩ | hend := step_inf_answer hv hw hturn
  · exact absurd hp hne
  · exact hend

theorem Ends.turn {s t : State} (h : Ends s t) : t.turn = .host := by
  obtain ⟨k, hk⟩ := h
  induction k generalizing s with
  | zero =>
    unfold runCommand at hk
    split at hk <;> cases hk
    assumption
  | succ k ih =>
    unfold runCommand at hk
    split at hk
    · cases hk
      assumption
    · split at hk
      · exact ih hk
      all_goals cases hk

/-- A whole INF.STEP: the context it leads to, with its bytes after the session's, and how it ends. -/
theorem infStep_decodes {s u t : State} {out : Buffer} {cap : Nat} (hu : exec (.infStep out cap) s = .next u)
    (ht : Ends u t) (o : List Byte) :
    Relation.ReflTransGen Decodes (o, s.bufferless) (o ++ t.produced, t.bufferless) ∧
      (t.inf.lastStatus ≠ .pending → t.Ended) := by
  obtain ⟨-, rfl⟩ := exec_infStep_next hu
  obtain ⟨-, -, -, hpath, hanswer⟩ := ht.induct (P := InStep o s) (fun _ _ => InStep.pass)
    (.start rfl (outputOf_wf cap out.bytes) rfl rfl)
  exact ⟨hpath, hanswer ht.turn⟩

/-- A session leads from its first context to a terminal one, with its bytes. -/
theorem InfSession.decodes {s t : State} {caps : List Nat} {bs : List Byte} (h : InfSession s caps bs t)
    (o : List Byte) :
    Relation.ReflTransGen Decodes (o, s.bufferless) (o ++ bs, t.bufferless) ∧ t.Ended := by
  induction h generalizing o with
  | last hu ht hne =>
    obtain ⟨hpath, hend⟩ := infStep_decodes hu ht o
    exact ⟨hpath, hend hne⟩
  | @more _ _ t _ _ _ _ _ hu ht hp _ ih =>
    obtain ⟨hrest, hend⟩ := ih (o ++ t.produced)
    refine ⟨(infStep_decodes hu ht o).1.trans ?_, hend⟩
    rwa [List.append_assoc] at hrest

end Sys2Proof.Machine

open Sys2Proof Sys2Proof.Machine

/-- Settles O59: two sessions lead from one context to terminal ones, and so to one and the same. -/
theorem inflateChunkingInvariance : Obligations.InflateChunkingInvariance := by
  intro s t₁ t₂ c₁ c₂ o₁ o₂ h₁ h₂
  obtain ⟨hpath₁, hend₁⟩ := h₁.decodes []
  obtain ⟨hpath₂, hend₂⟩ := h₂.decodes []
  obtain ⟨z, hz₁, hz₂⟩ := decodes_meet hpath₁ hpath₂
  have hz₁' := eq_of_decodes_terminal (show State.Terminal (_, t₁.bufferless).2 from hend₁.terminal) hz₁
  have hz₂' := eq_of_decodes_terminal (show State.Terminal (_, t₂.bufferless).2 from hend₂.terminal) hz₂
  obtain ⟨hbytes, hcore⟩ := Prod.ext_iff.1 (hz₁'.symm.trans hz₂')
  have hregs : InfRegs.powerOn.onBuffer t₁.inf = InfRegs.powerOn.onBuffer t₂.inf := congrArg State.inf hcore
  have hstate : t₁.inf.iState = t₂.inf.iState := (congrArg InfRegs.iState hregs :)
  have hstatus : t₁.inf.lastStatus = t₂.inf.lastStatus := by
    obtain ⟨hs₁, hl₁⟩ | ⟨hs₁, hl₁⟩ := hend₁ <;> obtain ⟨hs₂, hl₂⟩ | ⟨hs₂, hl₂⟩ := hend₂ <;> simp_all
  exact ⟨hbytes, hstatus, (congrArg InfRegs.errCause hregs :), (congrArg InfRegs.brByte hregs :),
    (congrArg InfRegs.brBit hregs :), (congrArg InfRegs.totalOut hregs :)⟩

end

section
/-! PROOFS. The transitions of the INFLATE engine, element by element: the block headers and the ends of a block's body
(R322, R333, R339), the length sequence of a dynamic block and its end (R336, R337), the stored byte (R332), the literal and
what is wrong with a match (R338 to R341), and the terminal states (R345, R346, R399). -/

namespace Sys2Proof.Machine

/-! ### a block header (R322) -/

/-- The three bits of a block header: BFINAL, then BTYPE least significant bit first. -/
theorem mkBhdr_bits (f b₀ b₁ : Bool) :
    mkBhdr [f, b₀, b₁] =
      match b₁, b₀ with
      | false, false => .bhdrStored f
      | false, true => .bhdrFixed f
      | true, false => .bhdrDynamic f
      | true, true => .bhdrReserved f := by
  cases f <;> cases b₀ <;> cases b₁ <;> rfl

theorem pos_of_iBlock {r : InfRegs} (h : r.iState = .iBlock) : r.pos = some .bhdr :=
  (positionFollowsTheGrammar r).2.1 h

theorem step_bhdr_of_short {s : State} (ht : s.turn = .inf) (hst : s.inf.iState = .iBlock)
    (hs : (s.inf.restBits s.infIn).length < 3) :
    step s = .next ((s.withInf fun r => r.advance (s.inf.restBits s.infIn).length).raiseFormat .inputExhausted) :=
  step_inf_of_reject ht (pos_of_iBlock hst) (decodeFixed_short hs)

theorem step_bhdr {s : State} {f b₀ b₁ : Bool} {rest : Bits} (ht : s.turn = .inf) (hst : s.inf.iState = .iBlock)
    (hs : s.inf.restBits s.infIn = f :: b₀ :: b₁ :: rest) :
    step s = exec (mkBhdr [f, b₀, b₁]) (s.withInf fun r => r.advance 3) := by
  have hd : decodeAt .bhdr (s.inf.restBits s.infIn) = .ok (mkBhdr [f, b₀, b₁]) 3 := by
    rw [hs]
    rfl
  rw [step_inf_of_ok ht (pos_of_iBlock hst) hd, mkBhdr_bits]
  cases b₀ <;> cases b₁ <;> rfl

/-! ### the length sequence (R336) -/

/-- A run of lengths is appended where it does not pass the last of them. -/
theorem appendRun_eq (s : State) (seq : List (BitVec 4)) (n : Nat) (v : BitVec 4) :
    Host.Outcome.next (s.appendRun seq n v) =
      if seq.length + n ≤ (s.inf.hlit.toNat + 257) + (s.inf.hdist.toNat + 1) then
        .next (s.withInf fun r => { r with sub := .lengths (seq ++ List.replicate n v) })
      else (.next (s.raiseFormat .alphabetSize) : Result) := by
  unfold State.appendRun InfRegs.nSeq InfRegs.nLit InfRegs.nDist
  by_cases h : seq.length + n ≤ (s.inf.hlit.toNat + 257) + (s.inf.hdist.toNat + 1)
  · rw [if_pos h, if_neg (Nat.not_lt.2 h)]
  · rw [if_neg h, if_pos (Nat.lt_of_not_le h)]

/-! ### the tables at the end of the sequence (R336, R337) -/

theorem tableOf_getD {α : Type} {n k : Nat} {d : α} (l : List α) (hk : k < n) :
    (tableOf n d l).toList.getD k d = l.getD k d := by
  simp [tableOf, hk]

theorem getD_take (l : List (BitVec 4)) (n k : Nat) : (l.take n).getD k 0 = if k < n then l.getD k 0 else 0 := by
  simp only [List.getD_eq_getElem?_getD, List.getElem?_take]
  split <;> rfl

/-- Of a list of `n + m + 1` lengths the last `m + 1`, with zeros past them. -/
theorem getD_drop_of_length {l : List (BitVec 4)} {n m : Nat} (h : l.length = n + (m + 1)) (k : Nat) :
    (l.drop n).getD k 0 = if k ≤ m then l.getD (n + k) 0 else 0 := by
  rw [List.getD_eq_getElem?_getD, List.getElem?_drop, ← List.getD_eq_getElem?_getD]
  split
  · rfl
  · exact List.getD_eq_default _ _ (by omega)

/-- The entries of a table that a list fills. -/
theorem take_tableOf {α : Type} {n : Nat} {d : α} {l : List α} (h : l.length ≤ n) :
    (tableOf n d l).toList.take l.length = l := by
  refine List.ext_getElem (by simp [tableOf, h]) fun k hk hk' => ?_
  simp [tableOf, hk']

section
variable {r : InfRegs} {seq : List (BitVec 4)} (hlit : r.hlit.toNat ≤ 29)
  (hlen : seq.length = r.hlit.toNat + 257 + (r.hdist.toNat + 1))
include hlen

theorem length_llSeq : (seq.take (r.hlit.toNat + 257)).length = r.hlit.toNat + 257 := by
  simp [hlen]

theorem length_dSeq : (seq.drop (r.hlit.toNat + 257)).length = r.hdist.toNat + 1 := by
  simp [hlen]

/-- The distance lengths are the whole rest of the sequence. -/
theorem splitLengths_dLen : (r.splitLengths seq).dLen = tableOf 32 0 (seq.drop (r.hlit.toNat + 257)) := by
  have hd := length_dSeq hlen
  show tableOf 32 0 ((seq.drop (r.hlit.toNat + 257)).take (r.hdist.toNat + 1)) = _
  rw [List.take_of_length_le hd.le]

theorem splitLengths_dLens : (r.splitLengths seq).dLens = (seq.drop (r.hlit.toNat + 257)).map BitVec.toNat := by
  have hd := length_dSeq hlen
  have hfit : (seq.drop (r.hlit.toNat + 257)).length ≤ 32 := by have := r.hdist.isLt; omega
  rw [InfRegs.dLens, splitLengths_dLen hlen]
  show List.map _ (List.take (r.hdist.toNat + 1) _) = _
  rw [← hd, take_tableOf hfit]

include hlit in
theorem splitLengths_llLens : (r.splitLengths seq).llLens = (seq.take (r.hlit.toNat + 257)).map BitVec.toNat := by
  have hl := length_llSeq hlen
  have hfit : (seq.take (r.hlit.toNat + 257)).length ≤ 288 := by omega
  have htake := take_tableOf (d := (0 : BitVec 4)) hfit
  rw [hl] at htake
  exact congrArg (List.map BitVec.toNat) htake

end

/-- In the prologue, with every length read, no element is next: the sequence ends (R336). -/
theorem step_of_lengths {s : State} {seq : List (BitVec 4)} (ht : s.turn = .inf) (hst : s.inf.iState = .iDynamic)
    (hph : s.inf.iPhase = false) (hsub : s.inf.sub = .lengths seq)
    (hlen : seq.length = s.inf.hlit.toNat + 257 + (s.inf.hdist.toNat + 1)) : step s = .next (s.finishLengths seq) := by
  have hpos : s.inf.pos = none := by
    obtain ⟨-, -, -, hprologue, -⟩ := positionFollowsTheGrammar s.inf
    rw [(hprologue hst hph).2.1 seq hsub, if_neg (by omega)]
  rw [step_inf_of_none ht hpos]
  simp only [State.infInternal, hst, hph, InfRegs.seq?_of_lengths hsub]
  rfl

/-! ### a byte goes out (R343) -/

/-- What a byte that goes out changes: the counters, OUTPUT at THIS_OUT and the window at WIN_POS. -/
theorem emitByte_writes {s : State} (hout : s.infOut.wf = true) (hwin : s.win.wf = true) (b : Byte) :
    (∀ a, (s.emitByte b).infOut.read a = if a = s.inf.thisOut then b else s.infOut.read a) ∧
    ∀ a, (s.emitByte b).win.read a = if a = s.inf.winPos then b else s.win.read a :=
  ⟨Memory.read_write hout _ b, Memory.read_write hwin _ b⟩

/-- A literal is put in flight, and goes out where there is room (R338, R342). -/
theorem exec_lit (s : State) (b : Byte) :
    exec (.lit b) s =
      let t := s.withInf fun r => { r with pendSym := b.zeroExtend 9, pendLen := 1, pendDist := 0 }
      .next (if s.inf.thisOut = s.inf.outLim then t.suspendInf
        else (t.emitByte b).withInf fun r => { r with pendLen := 0 }) := by
  have hbyte : State.pendByte (s.withInf fun r => { r with pendSym := b.zeroExtend 9, pendLen := 1, pendDist := 0 }) = b :=
    show (b.zeroExtend 9).truncate 8 = b by simp
  show Host.Outcome.next (if s.inf.thisOut = s.inf.outLim then _ else State.emitPend 0 _) = _
  rw [State.emitPend, hbyte]
  rfl

/-- Where no length has been read a distance is refused. -/
theorem distance_outOfPlace {s : State} (h : ∀ sym len, s.inf.sub ≠ .distance sym len) :
    (∀ d, s.takeDistance d = .refused .outOfPlace) ∧ s.takeReservedDistance = .refused .outOfPlace := by
  unfold State.takeDistance State.takeReservedDistance
  cases hs : s.inf.sub
  case distance sym len => exact absurd hs (h sym len)
  all_goals exact ⟨fun _ => rfl, rfl⟩

/-! ### the start of a STEP (R435) and the terminal states (R345, R346, R399) -/

theorem exec_infStep_of_active {s : State} {cap : Nat} (out : Buffer) (hlife : s.infLife = .active)
    (hfit : cap < 2 ^ s.cfg.xlen) :
    exec (.infStep out cap) s = .next { s with
      turn := .inf
      resp := none
      inf := { s.inf with outBase := out.name, outLim := cap, thisOut := 0 }
      infOut := outputOf cap out.bytes } := by
  simp only [exec, execInfStep, hlife]
  exact if_pos (decide_eq_true hfit)

theorem exec_defStep_of_active {s : State} {cap : Nat} (out : Buffer) (hlife : s.dflLife = .active)
    (hfit : cap < 2 ^ s.cfg.xlen) :
    exec (.defStep out cap) s = .next { s with
      turn := .dfl
      resp := none
      dfl := { s.dfl with outBase := out.name, outLim := cap, thisOut := 0 }
      dflOut := outputOf cap out.bytes } := by
  simp only [exec, execDefStep, hlife]
  exact if_pos (decide_eq_true hfit)

theorem step_of_dDone {s : State} (ht : s.turn = .dfl) (h : s.dfl.dState = .dDone) : step s = .next s.passDone := by
  simp only [step, State.nextAction, ht, State.dflAction, h]

end Sys2Proof.Machine

open Sys2Proof Sys2Proof.Machine

/-- Settles O12, by the eight values of a header's three bits. -/
theorem blockHeaderSelectsTheState : Obligations.BlockHeaderSelectsTheState := by
  refine ⟨fun s final => ⟨rfl, rfl, rfl, rfl⟩, fun s ht hst => ⟨step_bhdr_of_short ht hst, fun f b₀ b₁ rest hs => ?_⟩⟩
  rw [step_bhdr ht hst hs, mkBhdr_bits]
  cases b₁ <;> cases b₀ <;> rfl

/-- Settles O13: a stored block with no byte left has no element at its position. -/
theorem blockBodiesEndByBfinal : Obligations.BlockBodiesEndByBfinal := by
  refine fun s => ⟨rfl, fun ht hst hph hrem => ?_⟩
  have hpos : s.inf.pos = none := by
    obtain ⟨-, -, hstored, -⟩ := positionFollowsTheGrammar s.inf
    rw [(hstored hst).2 hph, if_pos hrem]
  rw [step_inf_of_none ht hpos]
  simp only [State.infInternal, hst]
  rfl

/-- Settles O15: a run is appended by `appendRun`. -/
theorem codeLengthItemsAppend : Obligations.CodeLengthItemsAppend := by
  intro s seq hsub
  have hseq := InfRegs.seq?_of_lengths hsub
  refine ⟨fun v => ?_, fun x init v hv => ?_, fun x hnil => ?_, fun x => ?_, fun x => ?_⟩
  · simp only [exec, execCl, hseq]
    rfl
  · have hlast : seq.getLast? = some v := by rw [hv, List.getLast?_concat]
    simp only [exec, execCl16, hseq, hlast]
    exact appendRun_eq s seq (3 + x.toNat) v
  · subst hnil
    simp only [exec, execCl16, hseq, List.getLast?_nil]
  · simp only [exec, execCl17, hseq]
    exact appendRun_eq s seq (3 + x.toNat) 0
  · simp only [exec, execCl18, hseq]
    exact appendRun_eq s seq (11 + x.toNat) 0

/-- Settles O16: a literal is one byte in flight. -/
theorem literalIsEmittedOrHeld : Obligations.LiteralIsEmittedOrHeld := by
  refine fun s b hout hwin => ⟨fun hroom => ?_, fun hfull => ?_⟩
  · obtain ⟨ho, hw⟩ := emitByte_writes hout hwin b
    exact ⟨_, (exec_lit s b).trans (congrArg Host.Outcome.next (if_neg hroom)), rfl, ho, hw, rfl⟩
  · exact (exec_lit s b).trans (congrArg Host.Outcome.next (if_pos hfull))

/-- Settles O17: RAW tests the input, then the output. -/
theorem storedByteIsCopied : Obligations.StoredByteIsCopied := by
  refine fun s b hout hwin => ⟨fun hshort => if_pos hshort, fun hin hfull => ?_, fun hin hroom => ?_⟩
  · exact (execRaw_eq hin b).trans (congrArg Host.Outcome.next (if_pos hfull))
  · obtain ⟨ho, hw⟩ := emitByte_writes hout hwin b
    exact ⟨_, (execRaw_eq hin b).trans (congrArg Host.Outcome.next (if_neg hroom)), rfl, ho, hw, rfl⟩

/-- Settles O20: the distances of R340's rows, the two reserved ones, and both where no length has been read. -/
theorem badMatchSymbolsRaise : Obligations.BadMatchSymbolsRaise := by
  refine fun s => ⟨fun i d n y sym len hi hd hsub hfar => ?_, rfl, rfl, fun sym len hsub => ?_, fun hno i p hi => ?_⟩
  · rw [exec_distance hi hd]
    simp only [State.takeDistance, hsub]
    exact if_pos hfar
  · simp only [exec, execDist30, execDist31, State.takeReservedDistance, hsub, and_self]
  · obtain ⟨htake, hreserved⟩ := distance_outOfPlace hno
    by_cases hp : p.1 < 30
    · rw [exec_distance hi hp, htake]
    · cases i
      case dist30 | dist31 => exact hreserved
      all_goals cases hi <;> simp at hp

/-- Settles O24: the tables hold the two parts of the sequence, and the trees are built from them. -/
theorem dynamicTreesAreBuilt : Obligations.DynamicTreesAreBuilt := by
  intro s seq ht hst hph hsub hlit hlen
  refine ⟨(s.inf.splitLengths seq).llLen, (s.inf.splitLengths seq).dLen, fun k hk => ?_, fun k hk => ?_, ?_⟩
  · exact (tableOf_getD _ hk).trans (getD_take seq _ k)
  · rw [splitLengths_dLen hlen, tableOf_getD _ hk]
    exact getD_drop_of_length (by omega) k
  · rw [step_of_lengths ht hst hph hsub hlen, ← splitLengths_llLens hlit hlen, ← splitLengths_dLens hlen]
    cases hll : buildDecodeTree (s.inf.splitLengths seq).llLens with
    | none => exact congrArg Host.Outcome.next (finishLengths_of_noLl hll)
    | some ll =>
      cases hd : buildDecodeTree (s.inf.splitLengths seq).dLens with
      | none => exact congrArg Host.Outcome.next (finishLengths_of_noD hll hd)
      | some d => exact congrArg Host.Outcome.next (finishLengths_of_trees hll hd)

/-- Settles O26: the step a STEP begins with in a terminal state answers it. -/
theorem terminalStatesAreSticky : Obligations.TerminalStatesAreSticky := by
  refine ⟨fun s => step_inf_of_terminal, fun s => step_of_dDone, fun s out cap buf hlife hfit h => ?_,
    fun s out cap buf hlife hfit h => ?_⟩
  · exact ⟨_, exec_infStep_of_active ⟨out, buf⟩ hlife hfit, step_inf_of_terminal rfl h⟩
  · exact ⟨_, exec_defStep_of_active ⟨out, buf⟩ hlife hfit, step_of_dDone rfl h⟩

end

section
/-! PROOFS. The LZSS pass (R385, R386): a token is consumed as it says, so the tokens replay the input; each is the greedy
one over the history of every position before it; and the pass leaves every other register. -/

namespace Sys2Proof.Machine

/-! ### one token -/

/-- The token that R386's loop appends at IN_CUR. -/
def DefRegs.nextToken (c : Config) (m : Memory) (r : DefRegs) : Token :=
  if 3 ≤ (r.searchAt c m).len then
    ⟨257 + lc (r.searchAt c m).len, (r.searchAt c m).len, (r.searchAt c m).dist⟩
  else ⟨(m.read r.inCur).toNat, 1, 0⟩

/-- A token is appended and counted (R386). -/
def DefRegs.addToken (x : Token) (r : DefRegs) : DefRegs :=
  { r.pushTok x with
    freqLl := bump r.freqLl x.sym
    freqD := if x.dist = 0 then r.freqD else bump r.freqD (dc x.dist) }

section
variable {c : Config} {m : Memory} {r : DefRegs}

/-- A match that is found is behind IN_CUR, and its bytes agree (R214, R216). -/
theorem DefRegs.searchAt_found (h : (r.searchAt c m).len ≠ 0) :
    1 ≤ (r.searchAt c m).dist ∧ (r.searchAt c m).dist ≤ r.inCur ∧
      ∀ k, k < (r.searchAt c m).len → m.read (r.inCur - (r.searchAt c m).dist + k) = m.read (r.inCur + k) := by
  unfold DefRegs.searchAt at h ⊢
  split at h
  next h3 =>
    obtain ⟨-, -, hd, -, -, -, hle, -, hagree⟩ := DefRegs.findLongestMatch_bounds h
    rw [if_pos h3]
    exact ⟨hd, hle, hagree⟩
  · exact absurd rfl h

/-- One token is appended, counted and consumed. -/
theorem DefRegs.passToken_eq (c : Config) (m : Memory) (r : DefRegs) :
    r.passToken c m =
      { consume c m (r.nextToken c m).len r.inCur (r.addToken (r.nextToken c m)) with
        inCur := r.inCur + (r.nextToken c m).len } := by
  unfold DefRegs.passToken DefRegs.nextToken
  dsimp only
  split
  next h3 =>
    have hd : (r.searchAt c m).dist ≠ 0 := Nat.ne_of_gt (DefRegs.searchAt_found (by omega)).1
    have hadd : r.addMatch (r.searchAt c m).len (r.searchAt c m).dist =
        r.addToken ⟨257 + lc (r.searchAt c m).len, (r.searchAt c m).len, (r.searchAt c m).dist⟩ := by
      rw [DefRegs.addMatch, DefRegs.addToken, if_neg hd]
    rw [hadd]
  · rfl

/-- A token consumes input, and none past its end. -/
theorem DefRegs.nextToken_len (hcur : r.inCur < r.inEnd) :
    1 ≤ (r.nextToken c m).len ∧ r.inCur + (r.nextToken c m).len ≤ r.inEnd := by
  obtain ⟨hlen, -, -⟩ := r.searchAt_bounds c m
  unfold DefRegs.nextToken
  split <;> dsimp only <;> omega

/-! ### what a token denotes (R38, R81) -/

/-- A copy from where the bytes agree gives the bytes there. -/
theorem copyBack_bytes {n d cur : Nat} (h1 : 1 ≤ d) (hd : d ≤ cur)
    (h : ∀ k, k < n → m.read (cur - d + k) = m.read (cur + k)) :
    copyBack n d (m.bytes 0 cur) = m.bytes 0 (cur + n) := by
  induction n generalizing cur with
  | zero => rfl
  | succ n ih =>
    have hbyte : (m.bytes 0 cur).getD ((m.bytes 0 cur).length - d) 0 = m.read cur := by
      rw [Memory.length_bytes, Memory.getD_bytes _ _ _ _ (by omega), Nat.zero_add]
      exact h 0 n.succ_pos
    have hnext : m.bytes 0 cur ++ [m.read cur] = m.bytes 0 (cur + 1) := by
      rw [Memory.bytes_append, Nat.zero_add]
      rfl
    have hshift : ∀ k, k < n → m.read (cur + 1 - d + k) = m.read (cur + 1 + k) := fun k hk => by
      rw [show cur + 1 - d + k = cur - d + (k + 1) by omega, show cur + 1 + k = cur + (k + 1) by omega]
      exact h (k + 1) (Nat.succ_lt_succ hk)
    rw [copyBack, hbyte, hnext, ih (by omega) hshift, show cur + 1 + n = cur + (n + 1) by omega]

/-- A token replayed over the input before it gives the input up to its end. -/
theorem DefRegs.applyToken_nextToken (c : Config) (m : Memory) (r : DefRegs) :
    applyToken (m.bytes 0 r.inCur) (r.nextToken c m) = m.bytes 0 (r.inCur + (r.nextToken c m).len) := by
  unfold DefRegs.nextToken
  split
  next h3 =>
    obtain ⟨h1, hd, hagree⟩ := DefRegs.searchAt_found (r := r) (c := c) (m := m) (by omega)
    rw [applyToken, if_neg (by dsimp only; omega)]
    exact copyBack_bytes h1 hd hagree
  · rw [applyToken, if_pos rfl, BitVec.ofNat_toNat, BitVec.setWidth_eq, Memory.bytes_append, Nat.zero_add]
    rfl

/-! ### the frequency tables (R386) -/

theorem bump_getD {n i k : Nat} (t : Vector Nat n) (hk : k < n) :
    (bump t i).toList.getD k 0 = t.toList.getD k 0 + if i = k then 1 else 0 := by
  simp only [bump, Vector.toList_setIfInBounds, List.getD_eq_getElem?_getD, List.getElem?_set]
  by_cases hik : i = k
  · subst hik
    simp [hk]
  · simp [hik]

theorem replicate_getD (n k : Nat) : (Vector.replicate n 0).toList.getD k 0 = 0 := by
  rw [Vector.toList_replicate, List.getD_eq_getElem?_getD, List.getElem?_replicate]
  split <;> rfl

/-- The tables count the tokens (R39, R386). -/
structure DefRegs.Counted (r : DefRegs) : Prop where
  ll : ∀ k, k < 286 → r.freqLl.toList.getD k 0 = r.tok.countP fun x => x.sym == k
  d : ∀ k, k < 30 → r.freqD.toList.getD k 0 = r.tok.countP fun x => decide (x.dist ≠ 0) && dc x.dist == k

theorem DefRegs.counted_startPass (r : DefRegs) : r.startPass.Counted where
  ll k _ := replicate_getD 286 k
  d k _ := replicate_getD 30 k

theorem DefRegs.Counted.addToken (h : r.Counted) (x : Token) : (r.addToken x).Counted where
  ll k hk := by
    simp only [DefRegs.addToken, DefRegs.pushTok, bump_getD _ hk, h.ll k hk, List.countP_append, List.countP_singleton,
      beq_iff_eq]
  d k hk := by
    simp only [DefRegs.addToken, DefRegs.pushTok, List.countP_append, List.countP_singleton]
    rw [← h.d k hk]
    by_cases h0 : x.dist = 0
    · rw [if_pos h0, if_neg (by simp [h0]), Nat.add_zero]
    · rw [if_neg h0, bump_getD _ hk]
      simp only [h0, ne_eq, not_false_eq_true, decide_true, Bool.true_and, beq_iff_eq]

theorem DefRegs.Counted.passToken (h : r.Counted) : (r.passToken c m).Counted := by
  rw [DefRegs.passToken_eq]
  have h' := h.addToken (r.nextToken c m)
  exact ⟨by simpa using h'.ll, by simpa using h'.d⟩

/-! ### what the pass leaves (R385, R386) -/

/-- Nothing but the registers of the pass differs. -/
def DefRegs.SameButPass (r q : DefRegs) : Prop :=
  { q with
    inCur := r.inCur, adlerS1 := r.adlerS1, adlerS2 := r.adlerS2, tok := r.tok, tokRest := r.tokRest,
    freqLl := r.freqLl, freqD := r.freqD, blkFinal := r.blkFinal, hist := r.hist, freed := r.freed, fresh := r.fresh,
    evictCur := r.evictCur } = r

theorem DefRegs.SameButPass.trans {r q p : DefRegs} (h₁ : r.SameButPass q) (h₂ : q.SameButPass p) : r.SameButPass p := by
  unfold DefRegs.SameButPass at *
  rw [← h₂] at h₁
  exact h₁

theorem DefRegs.sameButPass_passToken (c : Config) (m : Memory) (r : DefRegs) : r.SameButPass (r.passToken c m) := by
  have hconsume (n p : Nat) (q : DefRegs) : q.SameButPass (consume c m n p q) := by
    exact congrArg (fun x : DefRegs =>
      { x with inCur := q.inCur, tok := q.tok, tokRest := q.tokRest, freqLl := q.freqLl, freqD := q.freqD,
               blkFinal := q.blkFinal }) (consume_frame c m n p q)
  have hadd : r.SameButPass (r.addToken (r.nextToken c m)) := rfl
  rw [DefRegs.passToken_eq]
  exact hadd.trans (hconsume ..)

theorem DefRegs.sameButPass_runPass (c : Config) (m : Memory) (r : DefRegs) : r.SameButPass (r.runPass c m) := by
  have h0 : r.SameButPass r.startPass := rfl
  obtain ⟨-, h, -⟩ := passLoop_induct (c := c) (m := m) (P := fun _ q => r.SameButPass q)
    (fun _ q _ h => h.trans (q.sameButPass_passToken c m)) (k := c.tokenCap) h0
  exact h

/-! ### the replay -/

/-- Where a pass that began at `r` is, with room for `k` more tokens: its tokens replay the input (R386). -/
structure Replayed (c : Config) (m : Memory) (r : DefRegs) (k : Nat) (q : DefRegs) : Prop where
  replay : q.tok.foldl applyToken (m.bytes 0 r.inCur) = m.bytes 0 q.inCur
  cursor : q.inCur ≤ q.inEnd
  room : q.tokCnt + k = c.tokenCap

theorem Replayed.passToken {q : DefRegs} {k : Nat} (hcur : q.inCur < q.inEnd) (h : Replayed c m r (k + 1) q) :
    Replayed c m r k (q.passToken c m) := by
  have hroom := h.room
  have htok : (q.passToken c m).tok = q.tok ++ [q.nextToken c m] := q.passToken_tok c m
  refine ⟨?_, ?_, ?_⟩
  · rw [htok, List.foldl_append, h.replay, DefRegs.passToken_eq]
    exact q.applyToken_nextToken c m
  · rw [q.passToken_inEnd, DefRegs.passToken_eq]
    exact (DefRegs.nextToken_len hcur).2
  · rw [DefRegs.tokCnt, htok, List.length_append, List.length_singleton]
    rw [DefRegs.tokCnt] at hroom
    omega

end

end Sys2Proof.Machine

open Sys2Proof Sys2Proof.Machine

/-- Settles O41: a token denotes the input it consumes, and is counted as it is appended. -/
theorem passTokensReproduceTheInput : Obligations.PassTokensReproduceTheInput := by
  constructor
  · intro c m r hcur t
    have h0 : Replayed c m r c.tokenCap r.startPass := ⟨rfl, hcur, Nat.zero_add _⟩
    obtain ⟨k, h, hend⟩ := passLoop_induct (P := Replayed c m r) (fun _ _ => Replayed.passToken) h0
    have hroom := h.room
    have hle := h.cursor
    refine ⟨h.replay, hle, hroom ▸ Nat.le_add_right .., fun hfew => ?_, decide_eq_true_iff⟩
    have hfew' : (passLoop c m c.tokenCap r.startPass).tokCnt < c.tokenCap := hfew
    exact Nat.le_antisymm hle (Nat.not_lt.1 (hend.resolve_left (by omega)))
  · intro c m r t
    obtain ⟨-, h, -⟩ := passLoop_induct (c := c) (m := m) (P := fun _ q => q.Counted) (fun _ _ _ h => h.passToken)
      (k := c.tokenCap) r.counted_startPass
    refine ⟨fun k hk => ?_, h.d⟩
    have hset : t.freqLl.toList = (passLoop c m c.tokenCap r.startPass).freqLl.toList.set 256 1 :=
      Vector.toList_setIfInBounds ..
    rw [hset, List.getD_eq_getElem?_getD, List.getElem?_set]
    by_cases h256 : 256 = k
    · subst h256
      simp
    · rw [if_neg h256, if_neg (Ne.symm h256), ← List.getD_eq_getElem?_getD]
      exact h.ll k hk

end

section
/-! PROOFS. The run-length coding of the code lengths (R393): each maximal run is coded by itself, and the decoder's rules
(R336) give it back. -/

namespace Sys2Proof.Machine

/-! ### the runs of a sequence -/

theorem runsOf_cons (v : Nat) (vs : List Nat) : ∃ n rest, runsOf (v :: vs) = (v, n + 1) :: rest := by
  unfold runsOf
  split
  · exact ⟨0, [], rfl⟩
  · split
    next heq => exact ⟨_, _, by rw [heq]⟩
    · exact ⟨0, _, rfl⟩

theorem runsOf_replicate_append {v : Nat} {rest : List Nat} (h : rest.head? ≠ some v) (n : Nat) :
    runsOf (List.replicate (n + 1) v ++ rest) = (v, n + 1) :: runsOf rest := by
  induction n with
  | zero =>
    cases rest with
    | nil => rfl
    | cons w ws =>
      obtain ⟨k, rest, hruns⟩ := runsOf_cons w ws
      have hne : v ≠ w := fun hvw => h (by rw [hvw]; rfl)
      rw [List.replicate_one, List.singleton_append, runsOf, hruns]
      exact if_neg hne
  | succ n ih =>
    rw [List.replicate_succ, List.cons_append, runsOf, ih]
    exact if_pos rfl

/-- The runs make up the sequence. -/
theorem flatMap_runsOf (seq : List Nat) : ((runsOf seq).flatMap fun p => List.replicate p.2 p.1) = seq := by
  induction seq with
  | nil => rfl
  | cons v vs ih =>
    unfold runsOf
    cases hr : runsOf vs with
    | nil =>
      rw [hr] at ih
      rw [← ih]
      rfl
    | cons p rest =>
      obtain ⟨w, n⟩ := p
      rw [hr] at ih
      dsimp only
      split
      next heq =>
        rw [← ih, heq]
        rfl
      · rw [← ih]
        rfl

theorem rleOf_run {v : Nat} {rest : List Nat} (h : rest.head? ≠ some v) (n : Nat) :
    rleOf (List.replicate (n + 1) v ++ rest) = codeRun (v, n + 1) ++ rleOf rest := by
  rw [rleOf, runsOf_replicate_append h, List.flatMap_cons, ← rleOf]

theorem rleOf_replicate (v n : Nat) : rleOf (List.replicate (n + 1) v) = codeRun (v, n + 1) := by
  have h := rleOf_run (v := v) (rest := []) (fun h => nomatch h) n
  rwa [List.append_nil, show rleOf [] = [] from rfl, List.append_nil] at h

/-! ### the loop bounds -/

theorem zeroRun_congr {k j r : Nat} (hk : r < k) (hj : r < j) : zeroRun k r = zeroRun j r := by
  induction k generalizing j r with
  | zero => omega
  | succ k ih =>
    cases j with
    | zero => omega
    | succ j =>
      simp only [zeroRun]
      by_cases h11 : 11 ≤ r
      · rw [if_pos h11, if_pos h11, ih (j := j) (by omega) (by omega)]
      · rw [if_neg h11, if_neg h11]

theorem repeatRun_congr {v k j r : Nat} (hk : r < k) (hj : r < j) : repeatRun v k r = repeatRun v j r := by
  induction k generalizing j r with
  | zero => omega
  | succ k ih =>
    cases j with
    | zero => omega
    | succ j =>
      simp only [repeatRun]
      by_cases h3 : 3 ≤ r
      · rw [if_pos h3, if_pos h3, ih (j := j) (by omega) (by omega)]
      · rw [if_neg h3, if_neg h3]

theorem rleOf_zeros (n : Nat) : rleOf (List.replicate n 0) = zeroRun (n + 1) n := by
  cases n with
  | zero => rfl
  | succ n => exact rleOf_replicate 0 n

theorem rleOf_repeats {v : Nat} (hv : v ≠ 0) (n : Nat) :
    rleOf (List.replicate (n + 1) v) = ⟨v, 0⟩ :: repeatRun v (n + 1) n := by
  rw [rleOf_replicate, codeRun, if_neg hv]
  exact congrArg _ (repeatRun_congr (by dsimp only; omega) (by dsimp only; omega))

/-! ### the items of a run -/

/-- An item of the code-length alphabet, its extra value within its width (R116, R393). -/
def RleItem.Valid (e : RleItem) : Prop := e.sym ≤ 18 ∧ e.xv < 2 ^ clExtra e.sym

theorem valid_single {v : Nat} (hv : v ≤ 15) : RleItem.Valid ⟨v, 0⟩ := ⟨by dsimp only; omega, Nat.two_pow_pos _⟩

theorem valid_of_mem_zeroRun {k r : Nat} {e : RleItem} (he : e ∈ zeroRun k r) : e.Valid := by
  induction k generalizing r with
  | zero => cases he
  | succ k ih =>
    unfold zeroRun at he
    split at he
    · obtain rfl | he := List.mem_cons.1 he
      · exact ⟨(by decide : 18 ≤ 18), show min r 138 - 11 < 128 by omega⟩
      · exact ih he
    · split at he
      · obtain rfl := List.mem_singleton.1 he
        exact ⟨(by decide : 17 ≤ 18), show r - 3 < 8 by omega⟩
      · obtain rfl := List.eq_of_mem_replicate he
        exact valid_single (by decide)

theorem valid_of_mem_repeatRun {v k r : Nat} {e : RleItem} (hv : v ≤ 15) (he : e ∈ repeatRun v k r) : e.Valid := by
  induction k generalizing r with
  | zero => cases he
  | succ k ih =>
    unfold repeatRun at he
    split at he
    · obtain rfl | he := List.mem_cons.1 he
      · exact ⟨(by decide : 16 ≤ 18), show min r 6 - 3 < 4 by omega⟩
      · exact ih he
    · obtain rfl := List.eq_of_mem_replicate he
      exact valid_single hv

theorem valid_of_mem_rleOf {seq : List Nat} {e : RleItem} (h : ∀ v ∈ seq, v ≤ 15) (he : e ∈ rleOf seq) : e.Valid := by
  obtain ⟨p, hp, hep⟩ := List.mem_flatMap.1 he
  have hv : p.1 ≤ 15 := h _ ((runsOf_spec seq).2 p hp).1
  unfold codeRun at hep
  split at hep
  · exact valid_of_mem_zeroRun hep
  · obtain rfl | hep := List.mem_cons.1 hep
    · exact valid_single hv
    · exact valid_of_mem_repeatRun hv hep

/-! ### decoding (R336) -/

/-- The lengths that items give, from those before them (R336). -/
def decodeRle (seq : List Nat) (l : List RleItem) : Option (List Nat) :=
  l.foldl (fun acc e => acc.bind fun l => applyRle l e) (some seq)

theorem decodeRle_cons {seq seq' : List Nat} {e : RleItem} (h : applyRle seq e = some seq') (l : List RleItem) :
    decodeRle seq (e :: l) = decodeRle seq' l := by
  rw [decodeRle, List.foldl_cons, Option.bind_some, h, decodeRle]

theorem decodeRle_append {seq seq' : List Nat} {a : List RleItem} (h : decodeRle seq a = some seq')
    (b : List RleItem) : decodeRle seq (a ++ b) = decodeRle seq' b := by
  rw [decodeRle, List.foldl_append, ← decodeRle, h, decodeRle]

theorem applyRle_single {v : Nat} (hv : v ≤ 15) (seq : List Nat) : applyRle seq ⟨v, 0⟩ = some (seq ++ [v]) := by
  rw [applyRle, if_neg (by dsimp only; omega), if_neg (by dsimp only; omega), if_neg (by dsimp only; omega)]

theorem decodeRle_singles {v : Nat} (hv : v ≤ 15) (r : Nat) (seq : List Nat) :
    decodeRle seq (List.replicate r ⟨v, 0⟩) = some (seq ++ List.replicate r v) := by
  induction r generalizing seq with
  | zero => exact congrArg some (List.append_nil seq).symm
  | succ r ih =>
    rw [List.replicate_succ, decodeRle_cons (applyRle_single hv seq), ih, List.append_assoc]
    rfl

theorem decodeRle_zeroRun {k r : Nat} (h : r < k) (seq : List Nat) :
    decodeRle seq (zeroRun k r) = some (seq ++ List.replicate r 0) := by
  induction k generalizing r seq with
  | zero => omega
  | succ k ih =>
    unfold zeroRun
    split
    next h11 =>
      have hfirst : applyRle seq ⟨18, min r 138 - 11⟩ = some (seq ++ List.replicate (11 + (min r 138 - 11)) 0) := rfl
      rw [decodeRle_cons hfirst, ih (by omega), List.append_assoc, List.replicate_append_replicate,
        show 11 + (min r 138 - 11) + (r - min r 138) = r by omega]
    · split
      next h3 =>
        have hfirst : applyRle seq ⟨17, r - 3⟩ = some (seq ++ List.replicate (3 + (r - 3)) 0) := rfl
        rw [decodeRle_cons hfirst, show 3 + (r - 3) = r by omega]
        rfl
      · exact decodeRle_singles (by decide) r seq

theorem decodeRle_repeatRun {v k r : Nat} (hv : v ≤ 15) (h : r < k) {seq : List Nat} (hlast : seq.getLast? = some v) :
    decodeRle seq (repeatRun v k r) = some (seq ++ List.replicate r v) := by
  induction k generalizing r seq with
  | zero => omega
  | succ k ih =>
    unfold repeatRun
    split
    next h3 =>
      have hfirst : applyRle seq ⟨16, min r 6 - 3⟩ = some (seq ++ List.replicate (3 + (min r 6 - 3)) v) := by
        rw [applyRle, if_pos rfl, hlast]
        rfl
      have hlast' : (seq ++ List.replicate (3 + (min r 6 - 3)) v).getLast? = some v := by
        rw [List.getLast?_append, List.getLast?_replicate, if_neg (by omega)]
        rfl
      rw [decodeRle_cons hfirst, ih (by omega) hlast', List.append_assoc, List.replicate_append_replicate,
        show 3 + (min r 6 - 3) + (r - min r 6) = r by omega]
    · exact decodeRle_singles hv r seq

theorem decodeRle_codeRun {p : Nat × Nat} (hv : p.1 ≤ 15) (hn : 1 ≤ p.2) (seq : List Nat) :
    decodeRle seq (codeRun p) = some (seq ++ List.replicate p.2 p.1) := by
  unfold codeRun
  split
  next h0 =>
    rw [h0]
    exact decodeRle_zeroRun (Nat.lt_succ_self _) seq
  · have hlast : (seq ++ [p.1]).getLast? = some p.1 := List.getLast?_concat
    rw [decodeRle_cons (applyRle_single hv seq), decodeRle_repeatRun hv (by omega) hlast, List.append_assoc,
      List.singleton_append, ← List.replicate_succ, Nat.sub_add_cancel hn]

theorem decodeRle_runs {runs : List (Nat × Nat)} (h : ∀ p ∈ runs, p.1 ≤ 15 ∧ 1 ≤ p.2) (seq : List Nat) :
    decodeRle seq (runs.flatMap codeRun) = some (seq ++ runs.flatMap fun p => List.replicate p.2 p.1) := by
  induction runs generalizing seq with
  | nil => exact congrArg some (List.append_nil seq).symm
  | cons p runs ih =>
    obtain ⟨hv, hn⟩ := h p List.mem_cons_self
    rw [List.flatMap_cons, decodeRle_append (decodeRle_codeRun hv hn seq),
      ih fun q hq => h q (List.mem_cons_of_mem p hq), List.flatMap_cons, List.append_assoc]

theorem decodeRle_rleOf {seq : List Nat} (h : ∀ v ∈ seq, v ≤ 15) : decodeRle [] (rleOf seq) = some seq := by
  have hruns : ∀ p ∈ runsOf seq, p.1 ≤ 15 ∧ 1 ≤ p.2 := fun p hp =>
    ⟨h _ ((runsOf_spec seq).2 p hp).1, ((runsOf_spec seq).2 p hp).2⟩
  rw [rleOf, decodeRle_runs hruns, flatMap_runsOf, List.nil_append]

end Sys2Proof.Machine

open Sys2Proof Sys2Proof.Machine

/-- Settles O48: the runs are coded one by one, and each is decoded to itself. -/
theorem runLengthsDecodeBack : Obligations.RunLengthsDecodeBack := by
  refine ⟨fun seq h => ⟨decodeRle_rleOf h, fun e he => valid_of_mem_rleOf h he⟩, fun v n rest hn hrest => ?_,
    fun n => ⟨fun h11 => ?_, fun h3 h11 => ?_, fun h3 => ?_⟩, fun v n hv => ⟨fun h3 => ?_, fun h3 => ?_⟩⟩
  · obtain ⟨n, rfl⟩ := Nat.exists_eq_succ_of_ne_zero hn.ne'
    rw [rleOf_run hrest, rleOf_replicate]
  · rw [rleOf_zeros, rleOf_zeros, zeroRun, if_pos h11, zeroRun_congr (by omega) (Nat.lt_succ_self _)]
  · rw [rleOf_zeros, zeroRun, if_neg (by omega), if_pos h3]
  · rw [rleOf_zeros, zeroRun, if_neg (by omega), if_neg (by omega)]
  · rw [rleOf_repeats hv, rleOf_repeats hv, repeatRun, if_pos h3, List.tail_cons,
      repeatRun_congr (by omega) (Nat.lt_succ_self _)]
  · rw [rleOf_repeats hv, repeatRun, if_neg (by omega), List.replicate_succ]

end

section
/-! PROOFS. The tables of a Dynamic block (R391 to R395): what the table building leaves in its registers, each of them
named after the rule that fills it. -/

namespace Sys2Proof.Machine

/-! ### the frame (R391) -/

/-- Nothing but the tables' registers differs. -/
def DefRegs.SameButTables (r q : DefRegs) : Prop :=
  { q with
    llcLen := r.llcLen, llcCode := r.llcCode, dcLen := r.dcLen, dcCode := r.dcCode, clcLen := r.clcLen,
    clcCode := r.clcCode, nlit := r.nlit, ndist := r.ndist, ncl := r.ncl, rle := r.rle,
    rleRest := r.rleRest, freqCl := r.freqCl } = r

theorem DefRegs.SameButTables.trans {r q p : DefRegs} (h₁ : r.SameButTables q) (h₂ : q.SameButTables p) :
    r.SameButTables p := by
  unfold DefRegs.SameButTables at *
  rw [← h₂] at h₁
  exact h₁

theorem DefRegs.sameButTables_buildTables (r : DefRegs) : r.SameButTables r.buildTables := by
  have hcodes (q : DefRegs) : q.SameButTables q.buildCodes := rfl
  have hcounts (q : DefRegs) : q.SameButTables q.setCounts := rfl
  have hrle (q : DefRegs) : q.SameButTables q.setRle := rfl
  have hcl (q : DefRegs) : q.SameButTables q.setClc := rfl
  exact (((hcodes r).trans (hcounts _)).trans (hrle _)).trans (hcl _)

/-! ### a table, its used symbols and its count -/

theorem toList_tableOf {α : Type} {n : Nat} {d : α} {l : List α} (h : l.length = n) : (tableOf n d l).toList = l := by
  refine List.ext_getElem (by simp [h]) fun i h₁ h₂ => ?_
  simp [tableOf, h₂]

/-- A loop that keeps the last used index from `lo + 1` up (R392, R394). -/
theorem foldl_lastUsed_spec (lo n : Nat) (l : List Nat) :
    let b := (List.range n).foldl (fun best k => if lo < k ∧ l.getD k 0 ≠ 0 then k else best) lo
    lo ≤ b ∧ (b = lo ∨ l.getD b 0 ≠ 0) ∧ ∀ k, b < k → k < n → l.getD k 0 = 0 := by
  induction n with
  | zero => exact ⟨Nat.le_refl _, .inl rfl, fun k _ hk => absurd hk (Nat.not_lt_zero k)⟩
  | succ n ih =>
    obtain ⟨hlo, hused, hlast⟩ := ih
    rw [List.range_succ, List.foldl_append, List.foldl_cons, List.foldl_nil]
    split
    next hn => exact ⟨hn.1.le, .inr hn.2, fun k hk hkn => absurd hkn (by omega)⟩
    next hn =>
      refine ⟨hlo, hused, fun k hk hkn => ?_⟩
      obtain hlt | rfl := Nat.lt_succ_iff_lt_or_eq.1 hkn
      · exact hlast k hk hlt
      · exact not_not.1 fun hne => hn ⟨hlo.trans_lt hk, hne⟩

/-- The count of R392 and R394 is the least from `lo + 1` up that covers the last used symbol. -/
theorem lastUsed_spec {lo hi : Nat} (hle : lo ≤ hi) {l : List Nat} (hl : l.length = hi + 1) :
    lo + 1 ≤ 1 + lastUsed lo hi l ∧ 1 + lastUsed lo hi l ≤ hi + 1 ∧
      (1 + lastUsed lo hi l = lo + 1 ∨ l.getD (1 + lastUsed lo hi l - 1) 0 ≠ 0) ∧
      ∀ k, 1 + lastUsed lo hi l ≤ k → l.getD k 0 = 0 := by
  obtain ⟨hlo, hused, hlast⟩ := foldl_lastUsed_spec lo (hi + 1) l
  have hhi := lastUsed_le hle l
  rw [← lastUsed] at hlo hused hlast
  rw [Nat.add_sub_cancel_left]
  refine ⟨by omega, by omega, hused.imp (by omega) id, fun k hk => ?_⟩
  obtain hlt | hge := Nat.lt_or_ge k (hi + 1)
  · exact hlast k (by omega) hlt
  · exact List.getD_eq_default _ _ (hl ▸ hge)

/-- A counted symbol has a code, where the bound can tell all symbols apart (R170, R395). -/
theorem buildLengths_counted {freq : List Nat} {maxBits s : Nat} (hb : 1 ≤ maxBits) (hlen : freq.length ≤ 2 ^ maxBits)
    (hs : freq.getD s 0 ≠ 0) : (buildLengths freq maxBits).getD s 0 ≠ 0 := by
  obtain ⟨-, -, -, hone, hmany⟩ := builtLengthsAreBounded freq maxBits hb
  have hlt : s < freq.length := Nat.lt_of_not_le fun hge => hs (List.getD_eq_default _ _ hge)
  have hused : 0 < freq.countP fun f => f ≠ 0 := by
    refine List.countP_pos_iff.2 ⟨freq[s], List.getElem_mem hlt, ?_⟩
    rw [List.getD_eq_getElem _ _ hlt] at hs
    exact decide_eq_true hs
  obtain h1 | h2 : (freq.countP fun f => f ≠ 0) = 1 ∨ 2 ≤ freq.countP fun f => f ≠ 0 := by omega
  · rw [hone h1 s hs]
    exact one_ne_zero
  · exact Nat.ne_of_gt ((hmany h2 (List.countP_le_length.trans hlen)).1 s hs)

/-- Counting the symbols of a list of items (R393). -/
theorem foldl_bump_getD {n k : Nat} (hk : k < n) (items : List RleItem) (t : Vector Nat n) :
    (items.foldl (fun t e => bump t e.sym) t).toList.getD k 0 = t.toList.getD k 0 + items.countP fun e => e.sym == k := by
  induction items generalizing t with
  | nil => rfl
  | cons e items ih =>
    rw [List.foldl_cons, ih, bump_getD t hk, List.countP_cons]
    simp only [beq_iff_eq]
    omega

/-! ### RLE and the code-length code, one rule at a time (R393, R394) -/

section
variable (q : DefRegs)

theorem setRle_lengthSeq : q.setRle.lengthSeq = q.lengthSeq := rfl
theorem setRle_rle : q.setRle.rle = rleOf q.lengthSeq := rfl
theorem setRle_freqCl :
    q.setRle.freqCl = q.setRle.rle.foldl (fun t e => bump t e.sym) (Vector.replicate 19 0) := rfl
theorem setRle_rleAt {k : Nat} (hk : q.setRle.rleCnt ≤ k) : q.setRle.rleAt k = q.rleAt k :=
  DefRegs.writeRle_rleAt (r := q) hk

theorem setClc_lengthSeq : q.setClc.lengthSeq = q.lengthSeq := rfl
theorem setClc_rle : q.setClc.rle = q.rle := rfl
theorem setClc_rleAt (k : Nat) : q.setClc.rleAt k = q.rleAt k := rfl
theorem setClc_freqCl : q.setClc.freqCl = q.freqCl := rfl
theorem setClc_clcLen : q.setClc.clcLen = tableOf 19 0 (buildLengths q.freqCl.toList 7) := rfl
theorem setClc_clcCode : q.setClc.clcCode = tableOf 19 0 (assignCodes (buildLengths q.freqCl.toList 7)) := rfl
theorem setClc_ncl :
    q.setClc.ncl = 1 + lastUsed 3 18 (hclensOrder.map fun s => (buildLengths q.freqCl.toList 7).getD s 0) := rfl

end

/-! ### the registers -/

section
variable (r : DefRegs)

/-- The length table of the lit/len alphabet (R391). -/
def DefRegs.llLengths : List Nat := buildLengths r.freqLl.toList 15

/-- The length table of the distance alphabet (R391). -/
def DefRegs.dLengths : List Nat := buildLengths r.freqD.toList 15

theorem length_llLengths : r.llLengths.length = 286 := by simp [DefRegs.llLengths, length_buildLengths]
theorem length_dLengths : r.dLengths.length = 30 := by simp [DefRegs.dLengths, length_buildLengths]

theorem buildTables_llcLen : r.buildTables.llcLen.toList = r.llLengths := toList_tableOf (length_llLengths r)
theorem buildTables_dcLen : r.buildTables.dcLen.toList = r.dLengths := toList_tableOf (length_dLengths r)

theorem buildTables_llcCode : r.buildTables.llcCode.toList = assignCodes r.llLengths :=
  toList_tableOf ((length_assignCodes _).trans (length_llLengths r))
theorem buildTables_dcCode : r.buildTables.dcCode.toList = assignCodes r.dLengths :=
  toList_tableOf ((length_assignCodes _).trans (length_dLengths r))

theorem buildTables_nlit : r.buildTables.nlit = 1 + lastUsed 256 285 r.llLengths := by
  rw [← buildTables_llcLen]
  rfl

theorem buildTables_ndist : r.buildTables.ndist = 1 + lastUsed 0 29 r.dLengths := by
  rw [← buildTables_dcLen]
  rfl

/-- The lengths that are run-length coded (R393). -/
def DefRegs.codedLengths : List Nat := r.llLengths.take r.buildTables.nlit ++ r.dLengths.take r.buildTables.ndist

theorem codedLengths_le : ∀ v ∈ r.codedLengths, v ≤ 15 := fun v hv => by
  obtain hv | hv := List.mem_append.1 hv
  · exact buildLengths_le (by decide) v (List.mem_of_mem_take hv)
  · exact buildLengths_le (by decide) v (List.mem_of_mem_take hv)

theorem buildTables_rle : r.buildTables.rle = rleOf r.codedLengths := by
  rw [DefRegs.codedLengths, ← buildTables_llcLen, ← buildTables_dcLen, ← DefRegs.lengthSeq, DefRegs.buildTables,
    setClc_lengthSeq, setRle_lengthSeq, setClc_rle, setRle_rle]

theorem length_buildTables_rle : r.buildTables.rle.length ≤ 316 := by
  have hitems := (rleOf_items (seq := r.codedLengths) fun v hv => (codedLengths_le r v hv).trans_lt (by decide)).1
  have hll := length_llLengths r
  have hd := length_dLengths r
  rw [buildTables_rle]
  simp only [DefRegs.codedLengths, List.length_append, List.length_take, hll, hd] at hitems ⊢
  omega

theorem buildTables_rleAt {k : Nat} (hk : r.buildTables.rleCnt ≤ k) : r.buildTables.rleAt k = r.rleAt k := by
  rw [DefRegs.buildTables, setClc_rleAt, setRle_rleAt]
  · rfl
  · rwa [DefRegs.rleCnt, DefRegs.buildTables, setClc_rle] at hk

theorem buildTables_freqCl {k : Nat} (hk : k < 19) :
    r.buildTables.freqCl.toList.getD k 0 = r.buildTables.rle.countP fun e => e.sym == k := by
  rw [DefRegs.buildTables, setClc_freqCl, setClc_rle, setRle_freqCl, foldl_bump_getD hk, replicate_getD, Nat.zero_add]

/-- The length table of the code-length alphabet (R394). -/
def DefRegs.clLengths : List Nat := buildLengths r.buildTables.freqCl.toList 7

theorem length_clLengths : r.clLengths.length = 19 := by simp [DefRegs.clLengths, length_buildLengths]

theorem buildTables_clcLen : r.buildTables.clcLen.toList = r.clLengths := by
  rw [← toList_tableOf (d := 0) (length_clLengths r), DefRegs.clLengths, DefRegs.buildTables, setClc_clcLen, setClc_freqCl]

theorem buildTables_clcCode : r.buildTables.clcCode.toList = assignCodes r.clLengths := by
  rw [← toList_tableOf (d := 0) ((length_assignCodes _).trans (length_clLengths r)), DefRegs.clLengths,
    DefRegs.buildTables, setClc_clcCode, setClc_freqCl]

/-- The code lengths of the code-length alphabet in the order they are written in (R114). -/
def DefRegs.orderedLengths : List Nat := hclensOrder.map fun s => r.clLengths.getD s 0

theorem buildTables_ncl : r.buildTables.ncl = 1 + lastUsed 3 18 r.orderedLengths := by
  rw [DefRegs.orderedLengths, DefRegs.clLengths, DefRegs.buildTables, setClc_ncl, setClc_freqCl]

theorem orderedLengths_getD {k : Nat} (hk : k < 19) :
    r.orderedLengths.getD k 0 = r.clLengths.getD (hclensOrder.getD k 0) 0 := by
  have hlen : k < hclensOrder.length := hk
  rw [DefRegs.orderedLengths, List.getD_eq_getElem _ _ (by rwa [List.length_map]), List.getElem_map,
    List.getD_eq_getElem _ _ hlen]

/-- Every item has a code (R395). -/
theorem clLengths_of_mem_rle {e : RleItem} (he : e ∈ r.buildTables.rle) : r.clLengths.getD e.sym 0 ≠ 0 := by
  have hvalid : e.Valid := valid_of_mem_rleOf (codedLengths_le r) (buildTables_rle r ▸ he)
  refine buildLengths_counted (by decide) (by simp) ?_
  rw [buildTables_freqCl r (Nat.lt_succ_of_le hvalid.1)]
  exact Nat.ne_of_gt (List.countP_pos_iff.2 ⟨e, he, beq_self_eq_true _⟩)

end

end Sys2Proof.Machine

open Sys2Proof Sys2Proof.Machine

/-- Settles O43: each register of the tables holds what its rule says. -/
theorem dynamicTablesAreBuilt : Obligations.DynamicTablesAreBuilt := by
  intro r t ll d cl seq order
  obtain ⟨hll1, hll2, hll3, hll4⟩ := lastUsed_spec (lo := 256) (by decide) (length_llLengths r)
  obtain ⟨hd1, hd2, hd3, hd4⟩ := lastUsed_spec (lo := 0) (by decide) (length_dLengths r)
  obtain ⟨hcl1, hcl2, hcl3, hcl4⟩ := lastUsed_spec (lo := 3) (hi := 18) (l := r.orderedLengths) (by decide) rfl
  rw [← buildTables_nlit] at hll1 hll2 hll3 hll4
  rw [← buildTables_ndist] at hd1 hd2 hd3 hd4
  rw [← buildTables_ncl] at hcl1 hcl2 hcl3 hcl4
  have hdecode : decodeRle [] t.rle = some seq := by
    rw [show t.rle = _ from buildTables_rle r]
    exact decodeRle_rleOf (codedLengths_le r)
  have hncl : t.ncl = 4 ∨ cl.getD (order.getD (t.ncl - 1) 0) 0 ≠ 0 := by
    rw [orderedLengths_getD r (by omega)] at hcl3
    exact hcl3
  have hrest : ∀ k, t.ncl ≤ k → k < 19 → cl.getD (order.getD k 0) 0 = 0 := fun k hk hk19 => by
    have h0 := hcl4 k hk
    rw [orderedLengths_getD r hk19] at h0
    exact h0
  exact ⟨buildTables_llcLen r, buildTables_llcCode r, buildTables_dcLen r, buildTables_dcCode r, hll1, hll2, hll3, hll4,
    hd1, hd2, hd3, hd4, buildTables_rle r, length_buildTables_rle r, fun _ => buildTables_rleAt r, hdecode,
    fun _ => buildTables_freqCl r, buildTables_clcLen r, buildTables_clcCode r, hcl1, hcl2, hncl, hrest,
    fun _ => buildLengths_counted (by decide) (by simp), fun _ => buildLengths_counted (by decide) (by simp),
    fun _ => clLengths_of_mem_rle r, r.sameButTables_buildTables⟩

end

section
/-! PROOFS. What an emission does whatever the room (R390, R437): it performs the items in order, and stops in front of an
item only where the buffer is full. -/

namespace Sys2Proof.Machine

/-- The induction of R390's loop, pass by pass: a property of the items left and the state that a pass keeps holds where
the list ends, or in front of the item at which the emission suspends. -/
theorem emitItems_passes {P : List Item → State → Prop} {fin : DefRegs → DefRegs}
    (pass : ∀ i l s, s.drain.dfl.writerReady = true → P (i :: l) s → P l (s.drain.performItem i)) :
    ∀ {l : List Item} {s : State}, P l s →
      (∃ t, P [] t ∧ emitItems fin l s = { t with dfl := fin { t.dfl with emitIdx := 0 } }) ∨
      ∃ i l' t, P (i :: l') t ∧ t.drain.dfl.writerReady = false ∧ emitItems fin l s = t.drain.suspendDfl := by
  intro l
  induction l with
  | nil => exact fun {s} h => .inl ⟨s, h, rfl⟩
  | cons i l ih =>
    intro s h
    simp only [emitItems]
    cases hw : s.drain.dfl.writerReady with
    | true => exact ih (pass i l s hw h)
    | false => exact .inr ⟨i, l, s, h, hw, rfl⟩

/-- A state in which an emission has suspended: a byte is queued and the buffer is full (R150, R390). -/
def State.Blocked (t : State) : Prop := 8 ≤ t.dfl.bitqCnt ∧ t.dfl.outLim ≤ t.dfl.thisOut

theorem blocked_drain {t : State} (h : t.drain.dfl.writerReady = false) : t.drain.Blocked := by
  have hq : 8 ≤ t.drain.dfl.bitqCnt := Nat.not_lt.1 (of_decide_eq_false h)
  exact ⟨hq, Nat.not_lt.1 fun hlt => t.drain_stops ⟨hq, hlt⟩⟩

theorem drain_emitIdx (s : State) : s.drain.dfl.emitIdx = s.dfl.emitIdx :=
  (congrArg DefRegs.emitIdx s.drain_frame.2 :)

/-- An emission reaches the end of its list, or suspends in front of an item it leaves, which EMIT_IDX names (R390). -/
theorem emitList_emission {s : State} {l : List Item} {fin : DefRegs → DefRegs} (hm : s.dflOut.wf = true)
    (hq : s.dfl.QueueOk) (hl : ∀ i ∈ l, i.width ≤ 16) :
    ∃ l' t, Emission s (l.drop s.dfl.emitIdx) l' t ∧
      t.dfl.emitIdx + l'.length = s.dfl.emitIdx + (l.drop s.dfl.emitIdx).length ∧
      (l' = [] ∧ s.emitList l fin = { t with dfl := fin { t.dfl with emitIdx := 0 } } ∨
        l' ≠ [] ∧ t.Blocked ∧ s.emitList l fin = t.suspendDfl) := by
  have h0 : Emission s (l.drop s.dfl.emitIdx) (l.drop s.dfl.emitIdx) s :=
    { queue := hq
      same := .refl _
      items := fun i hi => hl i (List.mem_of_mem_drop hi)
      done := ⟨[], rfl, rfl⟩
      fills := .refl
      rest := rfl }
  obtain ⟨t, ⟨ht, hidx⟩, he⟩ | ⟨i, l', t, ⟨ht, hidx⟩, hb, he⟩ := emitItems_passes (fin := fin)
    (P := fun l' t => Emission s (l.drop s.dfl.emitIdx) l' t ∧
      t.dfl.emitIdx + l'.length = s.dfl.emitIdx + (l.drop s.dfl.emitIdx).length)
    (fun i l' t hw h => ⟨(h.1.drain hm).performItem hw, by
      have hcount := h.2
      have hnext : (t.drain.performItem i).dfl.emitIdx = t.drain.dfl.emitIdx + 1 := rfl
      rw [hnext, drain_emitIdx, ← hcount, List.length_cons]
      omega⟩) ⟨h0, rfl⟩
  · exact ⟨[], t, ht, hidx, .inl ⟨rfl, he⟩⟩
  · exact ⟨i :: l', t.drain, ht.drain hm, by rw [drain_emitIdx]; exact hidx,
      .inr ⟨List.cons_ne_nil _ _, blocked_drain hb, he⟩⟩

end Sys2Proof.Machine

open Sys2Proof Sys2Proof.Machine

/-- Settles O10: an emission performs what is left of its list, or the items up to the one at which it finds the buffer
full. -/
theorem emissionWritesItsItems : Obligations.EmissionWritesItsItems := by
  intro s l fin hm hw hl hfin t
  obtain ⟨l', u, hu, hidx, hend⟩ := emitList_emission (fin := fin) hm hw.queueOk hl
  obtain ⟨p, hp, hwritten⟩ := hu.done
  have hlen : (l.drop s.dfl.emitIdx).length = p.length + l'.length := by rw [hp, List.length_append]
  have htake : (l.drop s.dfl.emitIdx).take p.length = p := by rw [hp, List.take_left]
  have hroom : u.dfl.thisOut ≤ s.dfl.outLim := hu.fills.stored_le_lim hw.room
  obtain ⟨hq, hcnt, hout, htotal, hmem⟩ : t.dfl.bitq = u.dfl.bitq ∧ t.dfl.bitqCnt = u.dfl.bitqCnt ∧
      t.dfl.thisOut = u.dfl.thisOut ∧ t.dfl.totalOut = u.dfl.totalOut ∧ t.dflOut = u.dflOut := by
    obtain ⟨-, he⟩ | ⟨-, -, he⟩ := hend <;> rw [show t = _ from he]
    · obtain ⟨hq, hcnt, hout, htotal⟩ := hfin { u.dfl with emitIdx := 0 }
      exact ⟨hq, hcnt, hout, htotal, rfl⟩
    · exact ⟨rfl, rfl, rfl, rfl, rfl⟩
  have hbits : t.written = p.foldl appendItem s.written := by
    rw [← hwritten, State.written, State.written, hq, hcnt, hout, hmem]
  rw [hout, htotal, hmem]
  refine ⟨hu.fills.stored_le, hroom, hu.fills.counted, fun a ha => hu.fills.read_outside hm ha, p.length,
    by omega, htake.symm ▸ hbits, ?_⟩
  obtain ⟨rfl, he⟩ | ⟨hne, ⟨h8, hfull⟩, he⟩ := hend <;> rw [show t = _ from he]
  · exact .inl ⟨by simpa using hlen.symm, ⟨{ u.dfl with emitIdx := 0 }, rfl, hu.same, rfl⟩, hu.rest⟩
  · have hpos := List.length_pos_iff.2 hne
    have hat : u.dfl.emitIdx = s.dfl.emitIdx + p.length := by omega
    exact .inr ⟨by omega, hat, Nat.le_antisymm hroom (hu.outLim_eq ▸ hfull), h8, suspends_suspendDfl hu.same hu.rest⟩

end

section
/-! PROOFS. The blocks of the DEFLATE engine (R382 to R389, R396, R397): forming one, and the bits its emission writes. -/

namespace Sys2Proof.Machine

/-! ### forming a block (R382, R383, R387) -/

/-- The Adler-32 sums after more bytes (R308). -/
def adlerFrom (sums : Nat × Nat) (bs : List Byte) : Nat × Nat :=
  bs.foldl (fun p b => ((p.1 + b.toNat) % 65521, (p.2 + (p.1 + b.toNat) % 65521) % 65521)) sums

/-- The checksum over a range of INPUT writes the two sums (R308, R383). -/
theorem adlerRange_eq (m : Memory) (n p : Nat) (r : DefRegs) :
    adlerRange m n p r = { r with
      adlerS1 := (adlerFrom (r.adlerS1, r.adlerS2) (m.bytes p n)).1
      adlerS2 := (adlerFrom (r.adlerS1, r.adlerS2) (m.bytes p n)).2 } := by
  induction n generalizing p r with
  | zero => rfl
  | succ n ih => exact ih (p + 1) (r.adlerUpdate (m.read p))

theorem DefRegs.formStored_eq (m : Memory) (r : DefRegs) :
    r.formStored m = { r with
      blkStart := r.inCur
      blkLen := min 65535 (r.inEnd - r.inCur)
      adlerS1 := (adlerFrom (r.adlerS1, r.adlerS2) (m.bytes r.inCur (min 65535 (r.inEnd - r.inCur)))).1
      adlerS2 := (adlerFrom (r.adlerS1, r.adlerS2) (m.bytes r.inCur (min 65535 (r.inEnd - r.inCur)))).2
      inCur := r.inCur + min 65535 (r.inEnd - r.inCur)
      blkFinal := decide (r.inCur + min 65535 (r.inEnd - r.inCur) = r.inEnd)
      emitIdx := 0 } := by
  simp only [DefRegs.formStored, adlerRange_eq]
  rfl

theorem step_of_dBlock {s : State} (ht : s.turn = .dfl) (h : s.dfl.dState = .dBlock) :
    step s = .next s.passBlock := by
  simp only [step, State.nextAction, ht, State.dflAction, h]

theorem step_of_dLzss {s : State} (ht : s.turn = .dfl) (h : s.dfl.dState = .dLzss) : step s = .next s.passLzss := by
  simp only [step, State.nextAction, ht, State.dflAction, h]

theorem step_of_dNocomp {s : State} (ht : s.turn = .dfl) (h : s.dfl.dState = .dNocomp)
    (hin : s.dfl.blkStart + s.dfl.blkLen ≤ s.dfl.inEnd) :
    step s = .next (s.emitList (storedItems s.dflIn s.dfl) DefRegs.endBlock) := by
  simp only [step, State.nextAction, ht, State.dflAction, h]
  exact if_neg (Nat.not_lt.2 hin)

theorem step_of_dFixed {s : State} (ht : s.turn = .dfl) (h : s.dfl.dState = .dFixed) :
    step s = .next (s.emitList (fixedItems s.dfl) DefRegs.endBlock) := by
  simp only [step, State.nextAction, ht, State.dflAction, h, State.passFixed]

theorem step_of_dDynamic {s : State} (ht : s.turn = .dfl) (h : s.dfl.dState = .dDynamic) :
    step s = .next (s.emitList (dynamicItems s.dfl) DefRegs.endBlock) := by
  simp only [step, State.nextAction, ht, State.dflAction, h, State.passDynamic]

/-- The pass leaves LEVEL, which says what follows it (R387). -/
theorem runPass_level (c : Config) (m : Memory) (r : DefRegs) : (r.runPass c m).level = r.level :=
  (congrArg DefRegs.level (r.sameButPass_runPass c m) :)

theorem afterPass_of_fixed {r : DefRegs} (h : r.level = .fixed) :
    r.afterPass = { r with emitIdx := 0, dState := .dFixed } := by
  unfold DefRegs.afterPass
  split
  next hl => exact absurd (h.symm.trans hl) (by decide)
  · rfl
  · rfl

theorem afterPass_of_dynamic {r : DefRegs} (h : r.level = .dynamic) :
    r.afterPass = { r.buildTables with emitIdx := 0, dState := .dDynamic } := by
  unfold DefRegs.afterPass
  split
  · rfl
  next hl => exact absurd (h.symm.trans hl) (by decide)
  next hl => exact absurd (h.symm.trans hl) (by decide)

/-! ### the bits of a list of items (R155) -/

/-- The items add the bits, whatever has been written before. -/
def Adds (l : List Item) (bits : Bits) : Prop := ∀ w, l.foldl appendItem w = w ++ bits

section
variable {l₁ l₂ : List Item} {b₁ b₂ : Bits}

theorem Adds.append (h₁ : Adds l₁ b₁) (h₂ : Adds l₂ b₂) : Adds (l₁ ++ l₂) (b₁ ++ b₂) := fun w => by
  rw [List.foldl_append, h₁, h₂, List.append_assoc]

theorem Adds.cons_le (n v : Nat) (h : Adds l₁ b₁) : Adds (.le n v :: l₁) (bitsLE n v ++ b₁) := fun w =>
  (h (w ++ bitsLE n v)).trans (List.append_assoc ..)

theorem Adds.cons_be (n v : Nat) (h : Adds l₁ b₁) : Adds (.be n v :: l₁) (bitsBE n v ++ b₁) := fun w =>
  (h (w ++ bitsBE n v)).trans (List.append_assoc ..)

theorem adds_nil : Adds [] [] := fun w => (List.append_nil w).symm

theorem adds_le (n v : Nat) : Adds [.le n v] (bitsLE n v) := fun _ => rfl

theorem adds_be (n v : Nat) : Adds [.be n v] (bitsBE n v) := fun _ => rfl

theorem adds_bytes (bs : List Byte) : Adds (bs.map byteItem) (bitsOfBytes bs) := foldl_byteItem bs

theorem adds_flatMap {α : Type} {f : α → List Item} {g : α → Bits} (h : ∀ x, Adds (f x) (g x)) (xs : List α) :
    Adds (xs.flatMap f) (xs.flatMap g) := by
  induction xs with
  | nil => exact adds_nil
  | cons x xs ih => exact (h x).append ih

end

/-- The three bits of a block header (R103). -/
theorem adds_blockHeader (f : Bool) {btype : Nat} {bits : Bits} (h : bitsLE 2 btype = bits) :
    Adds [.le 1 f.toNat, .le 2 btype] (f :: bits) := by
  have hf : bitsLE 1 f.toNat = [f] := by cases f <;> rfl
  intro w
  simp [appendItem, hf, h]

/-! ### the emission of a block (R390, R397) -/

theorem length_foldl_dropLast_le (l : List Item) (w : Bits) :
    (l.dropLast.foldl appendItem w).length ≤ (l.foldl appendItem w).length := by
  obtain rfl | ⟨l, i, rfl⟩ := l.eq_nil_or_concat
  · exact Nat.le_refl _
  · rw [List.concat_eq_append, List.dropLast_concat, List.foldl_append]
    exact length_appendItem_ge _ i

/-- An emission list that adds `bits` from EMIT_IDX 0 writes a block. -/
theorem writesBlock_of_emission {s : State} {l : List Item} {bits : Bits}
    (hstep : step s = .next (s.emitList l DefRegs.endBlock)) (hidx : s.dfl.emitIdx = 0) (hm : s.dflOut.wf = true)
    (hw : s.dfl.WriterOk) (hl : ∀ i ∈ l, i.width ≤ 16) (hbits : l.foldl appendItem s.written = s.written ++ bits) :
    WritesBlock s bits := by
  intro hroom
  have hdrop : l.drop s.dfl.emitIdx = l := by rw [hidx, List.drop_zero]
  have hfits : ((l.drop s.dfl.emitIdx).dropLast.foldl appendItem s.written).length < 8 * s.dfl.outLim + 8 := by
    have hle := length_foldl_dropLast_le l s.written
    rw [hbits, List.length_append] at hle
    rw [hdrop]
    omega
  obtain ⟨t, ht, -, he⟩ := emitList_fits (fin := DefRegs.endBlock) (P := fun _ _ => True) (fun _ _ _ => trivial)
    (fun _ _ _ _ _ => trivial) hm hw.queueOk hl trivial hfits
  have hwritten := ht.written_eq
  rw [hdrop, hbits] at hwritten
  have hstate : ({ t.dfl with emitIdx := 0 } : DefRegs).endBlock.dState = if s.dfl.blkFinal then .dEnd else .dBlock := by
    rw [← ht.same.blkFinal]
    rfl
  refine ⟨_, hstep.trans (congrArg Host.Outcome.next he), hwritten, hstate, ht.fills.counted,
    fun a ha => ht.fills.read_outside hm ha, ?_⟩
  have hregs := ht.same
  rw [DefRegs.SameButWriter, hidx] at hregs
  calc _ = { t with dflOut := s.dflOut, dfl := { t.dfl with
        bitq := s.dfl.bitq, bitqCnt := s.dfl.bitqCnt, thisOut := s.dfl.thisOut, totalOut := s.dfl.totalOut
        emitIdx := 0 } } := by rw [← ht.same.dState]; rfl
    _ = { t with dflOut := s.dflOut, dfl := s.dfl } := by rw [hregs]
    _ = s := ht.rest

/-! ### the lists of the blocks -/

/-- The list of a stored block: header, padding, LEN and NLEN, bytes (R384). -/
theorem foldl_storedItems (m : Memory) (r : DefRegs) (w : Bits) :
    (storedItems m r).foldl appendItem w = w ++ ([r.blkFinal, false, false]
      ++ List.replicate ((8 - (w.length + 3) % 8) % 8) false
      ++ bitsLE 16 r.blkLen ++ bitsLE 16 (65535 - r.blkLen) ++ bitsOfBytes (m.bytes r.blkStart r.blkLen)) := by
  have hlist : storedItems m r = [.le 1 r.blkFinal.toNat, .le 2 0] ++ .flush ::
      ([.le 16 r.blkLen, .le 16 (65535 - r.blkLen)] ++ (m.bytes r.blkStart r.blkLen).map byteItem) := rfl
  have hrest := ((adds_le 16 r.blkLen).append (adds_le 16 (65535 - r.blkLen))).append
    (adds_bytes (m.bytes r.blkStart r.blkLen))
  rw [hlist, List.foldl_append, adds_blockHeader (bits := [false, false]) r.blkFinal rfl, List.foldl_cons]
  refine (hrest _).trans ?_
  simp [appendItem]

/-- The items of a symbol's code (R180). -/
theorem CodeTable.adds_item (t : CodeTable) (s : Nat) :
    Adds [t.item s] (bitsBE (t.len.getD s 0) (t.code.getD s 0)) := adds_be _ _

/-- The four items of a token write its bits; those after a literal are empty (R389). -/
theorem adds_tokenItem {ll d : CodeTable} {bll bd : Nat → Bits} (hll : ∀ s, Adds [ll.item s] (bll s))
    (hd : ∀ s, Adds [d.item s] (bd s)) (t : Token) : Adds (tokenItem ll d t) (tokenBits bll bd t) := by
  unfold tokenItem tokenBits
  split
  · have h := (hll t.sym).append ((((adds_nil.cons_le 0 0).cons_be 0 0).cons_le 0 0))
    rwa [show bitsLE 0 0 ++ (bitsBE 0 0 ++ (bitsLE 0 0 ++ [])) = [] from rfl, List.append_nil] at h
  · exact (((hll _).append (adds_le _ _)).append (hd _)).append (adds_le _ _)

theorem adds_tokenItems {ll d : CodeTable} {bll bd : Nat → Bits} (hll : ∀ s, Adds [ll.item s] (bll s))
    (hd : ∀ s, Adds [d.item s] (bd s)) (toks : List Token) :
    Adds (tokenItems ll d toks) (toks.flatMap (tokenBits bll bd) ++ bll 256) :=
  (adds_flatMap (adds_tokenItem hll hd) toks).append (hll 256)

/-- The end-of-block code of the fixed table (R113). -/
theorem symbolBits_fixLlLen_eob : symbolBits fixLlLen 256 = List.replicate 7 false :=
  ((symbolBits_fixLlLen_iff (by decide) _).2 (by decide)).symm

/-- The list of a Fixed block (R388). -/
theorem adds_fixedItems (r : DefRegs) :
    Adds (fixedItems r) ([r.blkFinal, true, false]
      ++ r.tok.flatMap (tokenBits (symbolBits fixLlLen) (symbolBits fixDLen)) ++ List.replicate 7 false) := by
  have htokens := adds_tokenItems fixLlTable.adds_item fixDTable.adds_item r.tok
  rw [← symbolBits_fixLlLen_eob, List.append_assoc]
  exact (adds_blockHeader r.blkFinal rfl).append htokens

/-- The list of a Dynamic block: header and counts, the code-length lengths, the items of RLE, the tokens (R396). -/
theorem adds_dynamicItems (r : DefRegs) :
    Adds (dynamicItems r) ([r.blkFinal, false, true]
      ++ bitsLE 5 (r.nlit - 257) ++ bitsLE 5 (r.ndist - 1) ++ bitsLE 4 (r.ncl - 4)
      ++ (List.range r.ncl).flatMap (fun k => bitsLE 3 (r.clcLen.toList.getD (clOrder k) 0))
      ++ r.rle.flatMap (fun e => codeBits r.clcLen r.clcCode e.sym ++ bitsLE (clExtra e.sym) e.xv)
      ++ r.tok.flatMap (tokenBits (codeBits r.llcLen r.llcCode) (codeBits r.dcLen r.dcCode))
      ++ codeBits r.llcLen r.llcCode 256) := by
  have hhead := (((adds_blockHeader r.blkFinal (btype := 2) rfl).append (adds_le 5 (r.nlit - 257))).append
    (adds_le 5 (r.ndist - 1))).append (adds_le 4 (r.ncl - 4))
  have horder := adds_flatMap (fun k => adds_le 3 (r.clTable.len.getD (clOrder k) 0)) (List.range r.ncl)
  have hrle := adds_flatMap (fun e : RleItem => (r.clTable.adds_item e.sym).append (adds_le (clExtra e.sym) e.xv)) r.rle
  have htokens := adds_tokenItems r.llTable.adds_item r.dTable.adds_item r.tok
  rw [dynamicItems, List.map_eq_flatMap, List.append_assoc _ (r.tok.flatMap _)]
  exact ((hhead.append horder).append hrle).append htokens

end Sys2Proof.Machine

open Sys2Proof Sys2Proof.Machine

/-- Settles O38: the step is one pass of R380's loop, and the checksum goes over the block's bytes. -/
theorem blocksAreFormed : Obligations.BlocksAreFormed := by
  refine ⟨fun s ht hd hl => ?_, fun s ht hd hl => ?_, fun s ht hd hl => ?_, fun s ht hd hl => ?_⟩
  · rw [step_of_dBlock ht hd, passBlock_of_stored hl, DefRegs.formStored_eq]
    rfl
  · rw [step_of_dBlock ht hd, passBlock_of_coded (by rintro h; simp [h] at hl)]
  · rw [step_of_dLzss ht hd, State.passLzss, afterPass_of_fixed ((runPass_level ..).trans hl)]
  · rw [step_of_dLzss ht hd, State.passLzss, afterPass_of_dynamic ((runPass_level ..).trans hl)]

/-- Settles O39: the flush fills up the byte that the three header bits began. -/
theorem storedBlockIsWritten : Obligations.StoredBlockIsWritten := by
  refine fun s ht hd => ⟨fun hin _ hidx hm hw => ?_, fun hout => (step_dfl_fault_iff ht).2 ⟨hd, hout⟩⟩
  exact writesBlock_of_emission (step_of_dNocomp ht hd hin) hidx hm hw (storedItems_width _ _) (foldl_storedItems ..)

/-- Settles O40: each item adds its bits, and the lists are the header's, the tables', the tokens' and EOB's items. -/
theorem huffmanBlocksAreWritten : Obligations.HuffmanBlocksAreWritten := by
  refine ⟨fun s ht hd hidx hm hw => ?_, fun s ht hd hidx hm hw => ?_⟩
  · exact writesBlock_of_emission (step_of_dFixed ht hd) hidx hm hw (fixedItems_width _) (adds_fixedItems s.dfl _)
  · exact writesBlock_of_emission (step_of_dDynamic ht hd) hidx hm hw (hw.dynamicItems_width hd)
      (adds_dynamicItems s.dfl _)

end

section
/-! PROOFS. Every DEF.STEP terminates (R442): each pass of R380's loop hands over the move, or leaves less work: input that
is not consumed, or places in the loop before it is. -/

namespace Sys2Proof.Machine

/-! ### the work left -/

/-- The passes before more input is consumed, or before the end: a block in which the input has ended is the last one
(R397). -/
def DefRegs.passesLeft (r : DefRegs) : Nat :=
  match r.dState with
  | .dInit => 5
  | .dBlock => 4
  | .dLzss => 3
  | .dNocomp => if r.inEnd ≤ r.inCur then 2 else 6
  | .dFixed => if r.inEnd ≤ r.inCur then 2 else 6
  | .dDynamic => if r.inEnd ≤ r.inCur then 2 else 6
  | .dEnd => 1
  | .dDone => 0

/-- The work left: a byte of input is worth the passes that a block has before and after it is consumed. -/
def DefRegs.work (r : DefRegs) : Nat := 4 * (r.inEnd - r.inCur) + r.passesLeft

/-- D_STATE is that of a block's emission. -/
def DefRegs.InBlock (r : DefRegs) : Prop := r.dState = .dNocomp ∨ r.dState = .dFixed ∨ r.dState = .dDynamic

theorem DefRegs.InBlock.passesLeft_eq {r : DefRegs} (h : r.InBlock) :
    r.passesLeft = if r.inEnd ≤ r.inCur then 2 else 6 := by
  obtain h | h | h := h <;> simp only [DefRegs.passesLeft, h]

/-- Forming a block leaves less work, where it consumes input or there is none left. -/
theorem DefRegs.InBlock.work_lt {r q : DefRegs} (hq : q.InBlock) (hr : 3 ≤ r.passesLeft) (hend : q.inEnd = r.inEnd)
    (hcur : r.inCur ≤ q.inCur) (hmore : r.inCur < r.inEnd → r.inCur < q.inCur) : q.work < r.work := by
  rw [DefRegs.work, DefRegs.work, hq.passesLeft_eq, hend]
  split <;> omega

/-- The end of a block leaves less work: the engine goes on to the next block, with input left, or to the trailer
(R397). -/
theorem DefRegs.InBlock.work_endBlock_lt {r : DefRegs} (h : r.InBlock) (hf : r.blkFinal = true ↔ r.inEnd ≤ r.inCur) :
    r.endBlock.work < r.work := by
  have hcur : r.endBlock.inCur = r.inCur := rfl
  have hend : r.endBlock.inEnd = r.inEnd := rfl
  have hstate : r.endBlock.dState = if r.blkFinal then .dEnd else .dBlock := rfl
  rw [DefRegs.work, DefRegs.work, h.passesLeft_eq, hcur, hend, DefRegs.passesLeft, hstate]
  cases hb : r.blkFinal with
  | true => simp [hf.1 hb]
  | false =>
    have hmore : ¬ r.inEnd ≤ r.inCur := fun he => Bool.false_ne_true (hb.symm.trans (hf.2 he))
    simp [hmore]

/-! ### the passes -/

/-- An emission hands over the move, or ends its list. -/
theorem emitList_ends_or (s : State) (l : List Item) (fin : DefRegs → DefRegs) :
    (s.emitList l fin).turn = .host ∨ ∃ r, s.dfl.SameButWriter r ∧ (s.emitList l fin).dfl = fin r := by
  obtain ⟨t, ht, h⟩ | ⟨i, l', t, -, -, h⟩ := emitItems_passes (fin := fin)
    (P := fun _ t => s.dfl.SameButWriter t.dfl)
    (fun i _ t _ h => (h.trans t.drain_sameButWriter).trans (t.drain.performItem_sameButWriter i))
    (l := l.drop s.dfl.emitIdx) (s := s) (.refl _)
  · exact .inr ⟨{ t.dfl with emitIdx := 0 }, ht, (congrArg State.dfl h :)⟩
  · exact .inl (congrArg State.turn h)

theorem DefRegs.SameButWriter.work_eq {r q : DefRegs} (h : r.SameButWriter q) : q.work = r.work := by
  have h' := congrArg DefRegs.work h
  exact h'

/-- A token consumes input (R386). -/
theorem passToken_inCur_lt (c : Config) (m : Memory) (r : DefRegs) : r.inCur < (r.passToken c m).inCur := by
  rw [DefRegs.passToken_inCur]
  split <;> omega

/-- A pass consumes input where there is some (R385, R386). -/
theorem runPass_progress {c : Config} (hc : 1 ≤ c.tokenCap) (m : Memory) (r : DefRegs) :
    (r.runPass c m).inEnd = r.inEnd ∧ r.inCur ≤ (r.runPass c m).inCur ∧
      (r.inCur < r.inEnd → r.inCur < (r.runPass c m).inCur) := by
  obtain ⟨n, hn⟩ : ∃ n, c.tokenCap = n + 1 := ⟨c.tokenCap - 1, by omega⟩
  have hinduct (b : Nat) {q : DefRegs} (hend : q.inEnd = r.inEnd) (hcur : b ≤ q.inCur) (k : Nat) :
      (passLoop c m k q).inEnd = r.inEnd ∧ b ≤ (passLoop c m k q).inCur := by
    obtain ⟨k', h, -⟩ := passLoop_induct (c := c) (m := m) (P := fun _ q => q.inEnd = r.inEnd ∧ b ≤ q.inCur)
      (fun _ q _ h => ⟨(q.passToken_inEnd c m).trans h.1, h.2.trans (passToken_inCur_lt c m q).le⟩)
      (k := k) (r := q) ⟨hend, hcur⟩
    exact h
  obtain ⟨hend, hcur⟩ := hinduct r.inCur (q := r.startPass) rfl (Nat.le_refl _) c.tokenCap
  refine ⟨hend, hcur, fun hlt => ?_⟩
  have hfirst : passLoop c m c.tokenCap r.startPass = passLoop c m n (r.startPass.passToken c m) := by
    rw [hn, passLoop]
    exact if_pos hlt
  show r.inCur < (passLoop c m c.tokenCap r.startPass).inCur
  rw [hfirst]
  exact (hinduct (r.inCur + 1) (r.startPass.passToken_inEnd c m) (passToken_inCur_lt c m r.startPass) n).2

/-- What follows the pass leaves the cursor, and starts a block (R387). -/
theorem afterPass_inBlock (r : DefRegs) :
    r.afterPass.InBlock ∧ r.afterPass.inCur = r.inCur ∧ r.afterPass.inEnd = r.inEnd := by
  unfold DefRegs.afterPass
  split
  · have h := r.sameButTables_buildTables
    exact ⟨.inr (.inr rfl), (congrArg DefRegs.inCur h :), (congrArg DefRegs.inEnd h :)⟩
  · exact ⟨.inr (.inl rfl), rfl, rfl⟩
  · exact ⟨.inr (.inl rfl), rfl, rfl⟩

theorem legal_tokenCap {c : Config} (h : c.legal = true) : 1 ≤ c.tokenCap := by
  simp only [Config.legal, Bool.and_eq_true, decide_eq_true_iff] at h
  exact h.1.1.2

/-! ### the step -/

/-- The end of a block's emission leaves less work. -/
theorem emitBlock_work {s : State} {l : List Item} (h : s.dfl.InOrder s.cfg s.dflIn) (hd : s.dfl.InBlock) :
    (s.emitList l DefRegs.endBlock).turn = .host ∨ (s.emitList l DefRegs.endBlock).dfl.work < s.dfl.work := by
  obtain hhost | ⟨r, hr, he⟩ := emitList_ends_or s l DefRegs.endBlock
  · exact .inl hhost
  · have hr' : r.InBlock := by rw [DefRegs.InBlock, hr.dState]; exact hd
    have hf : r.blkFinal = true ↔ r.inEnd ≤ r.inCur := by
      rw [hr.blkFinal, hr.inCur, hr.inEnd, h.2.final hd]
      exact ⟨fun he => he.ge, fun he => Nat.le_antisymm h.2.cursor he⟩
    rw [he, ← hr.work_eq]
    exact .inr (hr'.work_endBlock_lt hf)

/-- A step of the DEFLATE engine hands over the move or leaves less work. -/
theorem step_dfl_work {s t : State} (hc : s.cfg.legal = true) (hs : s.dfl.InOrder s.cfg s.dflIn) (ht : s.turn = .dfl)
    (h : step s = .next t) : t.turn = .host ∨ t.dfl.work < s.dfl.work := by
  have hpass : s.dfl.dState = .dBlock ∨ s.dfl.dState = .dLzss → 3 ≤ s.dfl.passesLeft := by
    rintro (hd | hd) <;> simp [DefRegs.passesLeft, hd]
  obtain ⟨hd, rfl⟩ | ⟨hd, rfl⟩ | ⟨hd, -, rfl⟩ | ⟨hd, rfl⟩ | ⟨hd, rfl⟩ | ⟨hd, rfl⟩ | ⟨hd, rfl⟩ | ⟨hd, rfl⟩ :=
    step_dfl_cases ht h
  · obtain hhost | ⟨r, hr, he⟩ := emitList_ends_or s (headerItems s.dfl.level) fun r => { r with dState := .dBlock }
    · exact .inl hhost
    · right
      rw [State.passInit, he, ← hr.work_eq, DefRegs.work, DefRegs.work, DefRegs.passesLeft, DefRegs.passesLeft,
        hr.dState, hd]
      exact Nat.lt_succ_self _
  · right
    by_cases hl : s.dfl.level = .noCompression
    · rw [passBlock_of_stored hl, DefRegs.formStored_eq]
      refine DefRegs.InBlock.work_lt (.inl rfl) (hpass (.inl hd)) rfl (Nat.le_add_right ..) fun hlt => ?_
      dsimp only
      omega
    · rw [passBlock_of_coded hl, DefRegs.work, DefRegs.work, DefRegs.passesLeft, DefRegs.passesLeft, hd]
      exact Nat.lt_succ_self _
  · exact emitBlock_work hs (.inl hd)
  · right
    obtain ⟨hend, hle, hlt⟩ := runPass_progress (legal_tokenCap hc) s.dflIn s.dfl
    obtain ⟨hblock, hcur', hend'⟩ := afterPass_inBlock (s.dfl.runPass s.cfg s.dflIn)
    rw [← hcur'] at hle hlt
    exact hblock.work_lt (hpass (.inr hd)) (hend'.trans hend) hle hlt
  · exact emitBlock_work hs (.inr (.inl hd))
  · exact emitBlock_work hs (.inr (.inr hd))
  · obtain hhost | ⟨r, hr, he⟩ := emitList_ends_or s (trailerItems s.dfl.adler) fun r => { r with dState := .dDone }
    · exact .inl hhost
    · right
      rw [he, ← hr.work_eq, DefRegs.work, DefRegs.work, DefRegs.passesLeft, DefRegs.passesLeft, hr.dState, hd]
      exact Nat.lt_succ_self _
  · exact .inl rfl

/-- The engine makes a step, where a stored block lies inside INPUT (R384). -/
theorem exists_step_dfl {s : State} (ht : s.turn = .dfl)
    (h : s.dfl.dState = .dNocomp → s.dfl.blkStart + s.dfl.blkLen ≤ s.dfl.inEnd) : ∃ t, step s = .next t := by
  by_cases hd : s.dfl.dState = .dNocomp
  · exact ⟨_, step_of_dNocomp ht hd (h hd)⟩
  · simp only [step, State.nextAction, ht, State.dflAction]
    cases hs : s.dfl.dState
    case dNocomp => exact absurd hs hd
    all_goals exact ⟨_, rfl⟩

end Sys2Proof.Machine

open Sys2Proof Sys2Proof.Machine

/-- Settles O58, by induction on the work left. -/
theorem deflateStepTerminates : Obligations.DeflateStepTerminates := by
  intro s hc hs ht
  induction hw : s.dfl.work using Nat.strong_induction_on generalizing s with
  | _ n ih =>
    have horder : s.dfl.InOrder s.cfg s.dflIn := hs.2 (hs.1 ht)
    have hturn : s.turn ≠ .host := by rw [ht]; decide
    obtain ⟨t, hstep⟩ := exists_step_dfl ht fun hd => (horder.2.stored hd).1
    by_cases hhost : t.turn = .host
    · exact ⟨t, ends_of_step hturn hstep (ends_of_host hhost), hhost⟩
    · have hlt := (step_dfl_work hc horder ht hstep).resolve_left hhost
      have hcfg : t.cfg = s.cfg := by rw [← step_dfl_frame ht hstep]; rfl
      obtain ⟨u, hu, hend⟩ := ih _ (hw ▸ hlt) t (hcfg ▸ hc) (step_dfl_dflOk ht hs hstep)
        ((step_dfl_turn ht hstep).resolve_right hhost) rfl
      exact ⟨u, ends_of_step hturn hstep hu, hend⟩

end

section
/-! PROOFS. Chunking invariance of the encoder (R400). Apart from the buffer the engine moves in one way only: an item of the
emission list is written, a list ends, a block is formed. A STEP makes as many of these moves as its buffer lets it, so two
sessions from one context make the same ones, and they have ended where there is none. -/

namespace Sys2Proof.Machine

/-! ### the registers apart from the buffer -/

/-- The registers without the writer's, and without what a STEP sets (R36, R50, R435). -/
def DefRegs.core (r : DefRegs) : DefRegs :=
  { r with bitq := 0, bitqCnt := 0, thisOut := 0, totalOut := 0, outBase := 0, outLim := 0, lastStatus := .ok }

section
variable (c : Config) (m : Memory) (r : DefRegs)

theorem scanFrom_core (k cur : Nat) : r.core.scanFrom c k cur = r.scanFrom c k cur := by
  induction k generalizing cur with
  | zero => rfl
  | succ k ih =>
    simp only [DefRegs.scanFrom, ih]
    rfl

theorem evict_core : r.core.evict c = (r.evict c).core := by
  rw [DefRegs.evict, scanFrom_core]
  rfl

theorem takeSlot_core : r.core.takeSlot = (r.takeSlot.1, r.takeSlot.2.core) := by
  have hfreed : r.core.freed = r.freed := rfl
  unfold DefRegs.takeSlot
  rw [hfreed]
  cases r.freed <;> rfl

theorem insert_core (p : Nat) : r.core.insert c m p = (r.insert c m p).core := by
  have hcnt : r.core.histCnt = r.histCnt := rfl
  simp only [DefRegs.insert, hcnt]
  by_cases hfull : r.histCnt = c.histCap
  · simp only [if_pos hfull, evict_core, takeSlot_core]
    rfl
  · simp only [if_neg hfull, takeSlot_core]
    rfl

theorem consume_core (k p : Nat) : consume c m k p r.core = (consume c m k p r).core := by
  induction k generalizing p r with
  | zero => rfl
  | succ k ih =>
    have hend : r.core.inEnd = r.inEnd := rfl
    simp only [consume, hend, insert_core]
    by_cases h3 : 3 ≤ r.inEnd - p
    · simp only [if_pos h3]
      exact ih ((r.insert c m p).adlerUpdate (m.read p)) (p + 1)
    · simp only [if_neg h3]
      exact ih (r.adlerUpdate (m.read p)) (p + 1)

theorem passToken_core : r.core.passToken c m = (r.passToken c m).core := by
  have hsearch : r.core.searchAt c m = r.searchAt c m := rfl
  simp only [DefRegs.passToken, hsearch]
  by_cases h3 : 3 ≤ (r.searchAt c m).len
  · simp only [if_pos h3]
    have h := consume_core c m (r.addMatch (r.searchAt c m).len (r.searchAt c m).dist) (r.searchAt c m).len r.inCur
    exact congrArg (fun q : DefRegs => { q with inCur := r.inCur + (r.searchAt c m).len }) h
  · simp only [if_neg h3]
    have h := consume_core c m (r.addLiteral (m.read r.inCur)) 1 r.inCur
    exact congrArg (fun q : DefRegs => { q with inCur := r.inCur + 1 }) h

theorem passLoop_core (k : Nat) : passLoop c m k r.core = (passLoop c m k r).core := by
  induction k generalizing r with
  | zero => rfl
  | succ k ih =>
    have hcur : r.core.inCur = r.inCur := rfl
    have hend : r.core.inEnd = r.inEnd := rfl
    simp only [passLoop, hcur, hend, passToken_core]
    by_cases hlt : r.inCur < r.inEnd
    · simp only [if_pos hlt, ih]
    · simp only [if_neg hlt]

theorem runPass_core : r.core.runPass c m = (r.runPass c m).core := by
  have hstart : r.core.startPass = r.startPass.core := rfl
  rw [DefRegs.runPass, hstart, passLoop_core]
  rfl

theorem buildTables_core : r.core.buildTables = r.buildTables.core := by
  have hcl (q : DefRegs) : q.core.setClc = q.setClc.core := rfl
  have hrle (q : DefRegs) : q.core.setRle = q.setRle.core := rfl
  have hcounts (q : DefRegs) : q.core.setCounts = q.setCounts.core := rfl
  have hcodes (q : DefRegs) : q.core.buildCodes = q.buildCodes.core := rfl
  rw [DefRegs.buildTables, hcodes, hcounts, hrle, hcl, DefRegs.buildTables]

theorem afterPass_core : r.core.afterPass = r.afterPass.core := by
  have hlevel : r.core.level = r.level := rfl
  unfold DefRegs.afterPass
  rw [hlevel, buildTables_core]
  cases r.level <;> rfl

end

/-! ### the moves of the encoder -/

/-- The list that a state emits, and what follows it (R380). -/
def DefRegs.emission (m : Memory) (r : DefRegs) : Option (List Item × (DefRegs → DefRegs)) :=
  match r.dState with
  | .dInit => some (headerItems r.level, fun q => { q with dState := .dBlock })
  | .dNocomp => some (storedItems m r, DefRegs.endBlock)
  | .dFixed => some (fixedItems r, DefRegs.endBlock)
  | .dDynamic => some (dynamicItems r, DefRegs.endBlock)
  | .dEnd => some (trailerItems r.adler, fun q => { q with dState := .dDone })
  | _ => none

/-- The registers after a pass that emits nothing (R382, R385). -/
def DefRegs.formed (c : Config) (m : Memory) (r : DefRegs) : Option DefRegs :=
  match r.dState with
  | .dBlock =>
    some (if r.level = .noCompression then { r.formStored m with dState := .dNocomp } else { r with dState := .dLzss })
  | .dLzss => some (r.runPass c m).afterPass
  | _ => none

/-- The next move from the bits written and the registers apart from the buffer: an item, the end of a list, or a block is
formed. -/
def encodeNext (c : Config) (m : Memory) (x : Bits × DefRegs) : Option (Bits × DefRegs) :=
  match x.2.emission m with
  | some (l, fin) =>
    match l.drop x.2.emitIdx with
    | [] => some (x.1, fin { x.2 with emitIdx := 0 })
    | i :: _ => some (appendItem x.1 i, { x.2 with emitIdx := x.2.emitIdx + 1 })
  | none => (x.2.formed c m).map fun r => (x.1, r)

/-- One move of the encoder. -/
def Encodes (c : Config) (m : Memory) (x y : Bits × DefRegs) : Prop := encodeNext c m x = some y

theorem encodes_rightUnique (c : Config) (m : Memory) : Relator.RightUnique (Encodes c m) :=
  fun _ _ _ hy hz => Option.some.inj (hy.symm.trans hz)

section
variable {c : Config} {m : Memory} {r : DefRegs} {l : List Item} {fin : DefRegs → DefRegs}

theorem emission_core (m : Memory) (r : DefRegs) : r.core.emission m = r.emission m := rfl

theorem emission_fin_core (h : r.emission m = some (l, fin)) (q : DefRegs) : fin q.core = (fin q).core := by
  unfold DefRegs.emission at h
  split at h <;> cases h <;> rfl

theorem formed_core (c : Config) (m : Memory) (r : DefRegs) : r.core.formed c m = (r.formed c m).map DefRegs.core := by
  have hstate : r.core.dState = r.dState := rfl
  have hlevel : r.core.level = r.level := rfl
  unfold DefRegs.formed
  rw [hstate, hlevel, runPass_core, afterPass_core]
  cases r.dState
  case dBlock =>
    by_cases hl : r.level = .noCompression
    · simp only [if_pos hl, DefRegs.formStored_eq]
      rfl
    · simp only [if_neg hl]
      rfl
  all_goals rfl

theorem encodes_item {W : Bits} {i : Item} {rest : List Item} (h : r.emission m = some (l, fin))
    (hi : l.drop r.emitIdx = i :: rest) :
    Encodes c m (W, r) (appendItem W i, { r with emitIdx := r.emitIdx + 1 }) := by
  simp only [Encodes, encodeNext, h, hi]

theorem encodes_end {W : Bits} (h : r.emission m = some (l, fin)) (hl : l.drop r.emitIdx = []) :
    Encodes c m (W, r) (W, fin { r with emitIdx := 0 }) := by
  simp only [Encodes, encodeNext, h, hl]

theorem encodes_formed {W : Bits} {q : DefRegs} (h : r.emission m = none) (hq : r.formed c m = some q) :
    Encodes c m (W, r) (W, q) := by
  simp only [Encodes, encodeNext, h, hq, Option.map_some]

open Relation in
/-- The items of a list, one after another. -/
theorem encodes_items {W : Bits} {p l' : List Item} (h : r.emission m = some (l, fin))
    (hp : l.drop r.emitIdx = p ++ l') :
    ReflTransGen (Encodes c m) (W, r) (p.foldl appendItem W, { r with emitIdx := r.emitIdx + p.length }) := by
  induction p generalizing W r with
  | nil => exact .refl
  | cons i p ih =>
    have hrest : l.drop (r.emitIdx + 1) = p ++ l' := by
      rw [← List.tail_drop, hp, List.cons_append, List.tail_cons]
    have htail := ih (W := appendItem W i) (r := { r with emitIdx := r.emitIdx + 1 }) h hrest
    rw [show r.emitIdx + 1 + p.length = r.emitIdx + (i :: p).length by rw [List.length_cons]; omega] at htail
    exact .head (encodes_item h hp) htail

end

/-! ### the steps of a STEP -/

/-- The bytes the DEFLATE engine has stored in this STEP. -/
def State.encoded (s : State) : List Byte := s.dflOut.bytes 0 s.dfl.thisOut

/-- Where a session is, `o` being the bytes it has delivered: the bits written, and the registers. -/
def State.place (o : List Byte) (s : State) : Bits × DefRegs :=
  (bitsOfBytes o ++ bitsLE s.dfl.bitqCnt s.dfl.bitq.toNat, s.dfl.core)

theorem place_encoded (o : List Byte) (s : State) :
    s.place (o ++ s.encoded) = (bitsOfBytes o ++ s.written, s.dfl.core) := by
  rw [State.place, State.written, State.encoded, bitsOfBytes_append, List.append_assoc]

/-- Whole bytes in front do not change what items add (R154). -/
theorem foldl_appendItem_bytes (o : List Byte) (l : List Item) (w : Bits) :
    l.foldl appendItem (bitsOfBytes o ++ w) = bitsOfBytes o ++ l.foldl appendItem w := by
  induction l generalizing w with
  | nil => rfl
  | cons i l ih =>
    have hitem : appendItem (bitsOfBytes o ++ w) i = bitsOfBytes o ++ appendItem w i := by
      cases i with
      | le n v => exact List.append_assoc ..
      | be n v => exact List.append_assoc ..
      | flush => simp [appendItem, Nat.add_mod]
    rw [List.foldl_cons, hitem, ih]
    rfl

open Relation in
/-- The items performed are moves of the encoder. -/
theorem Emission.path {s t : State} {l l' : List Item} {fin : DefRegs → DefRegs} (c : Config)
    (h : Emission s (l.drop s.dfl.emitIdx) l' t)
    (hidx : t.dfl.emitIdx + l'.length = s.dfl.emitIdx + (l.drop s.dfl.emitIdx).length)
    (he : s.dfl.emission s.dflIn = some (l, fin)) (o : List Byte) :
    ReflTransGen (Encodes c s.dflIn) (s.place (o ++ s.encoded)) (t.place (o ++ t.encoded)) := by
  obtain ⟨p, hp, hwritten⟩ := h.done
  have hcount : t.dfl.emitIdx = s.dfl.emitIdx + p.length := by
    rw [hp, List.length_append] at hidx
    omega
  have hregs : t.dfl.core = { s.dfl.core with emitIdx := s.dfl.core.emitIdx + p.length } := by
    have hsame := congrArg (fun q : DefRegs => { q.core with emitIdx := t.dfl.emitIdx }) h.same
    rw [hcount] at hsame
    refine Eq.trans ?_ hsame
    rw [← hcount]
    rfl
  rw [place_encoded, place_encoded, hwritten, hregs, ← foldl_appendItem_bytes]
  exact encodes_items (r := s.dfl.core) he hp

/-- A step of the DEFLATE engine emits its state's list, forms a block, or answers END (R380). -/
theorem step_dfl_moves {s t : State} (ht : s.turn = .dfl) (h : step s = .next t) :
    (∃ l fin, s.dfl.emission s.dflIn = some (l, fin) ∧ t = s.emitList l fin) ∨
    (s.dfl.emission s.dflIn = none ∧ ∃ q, s.dfl.formed s.cfg s.dflIn = some q ∧ t = { s with dfl := q }) ∨
    (s.dfl.dState = .dDone ∧ t = s.passDone) := by
  obtain ⟨hd, rfl⟩ | ⟨hd, rfl⟩ | ⟨hd, -, rfl⟩ | ⟨hd, rfl⟩ | ⟨hd, rfl⟩ | ⟨hd, rfl⟩ | ⟨hd, rfl⟩ | ⟨hd, rfl⟩ :=
    step_dfl_cases ht h <;> simp only [DefRegs.emission, DefRegs.formed, hd]
  · exact .inl ⟨_, _, rfl, rfl⟩
  · refine .inr (.inl ⟨trivial, _, rfl, ?_⟩)
    by_cases hl : s.dfl.level = .noCompression
    · rw [passBlock_of_stored hl, if_pos hl]
    · rw [passBlock_of_coded hl, if_neg hl]
  · exact .inl ⟨_, _, rfl, rfl⟩
  · exact .inr (.inl ⟨trivial, _, rfl, rfl⟩)
  · exact .inl ⟨_, _, rfl, rfl⟩
  · exact .inl ⟨_, _, rfl, rfl⟩
  · exact .inl ⟨_, _, rfl, rfl⟩
  · exact .inr (.inr ⟨trivial, trivial⟩)

/-- The items of a list are at most 16 bits wide (R78, R390). -/
theorem emission_width {m : Memory} {r : DefRegs} {l : List Item} {fin : DefRegs → DefRegs} (hw : r.WriterOk)
    (h : r.emission m = some (l, fin)) : ∀ i ∈ l, i.width ≤ 16 := by
  unfold DefRegs.emission at h
  split at h
  case h_4 hd => cases h; exact hw.dynamicItems_width hd
  all_goals cases h
  · exact headerItems_width _
  · exact storedItems_width _ _
  · exact fixedItems_width _
  · exact trailerItems_width _

/-- The end of a list changes the place in R380's loop only. -/
theorem emission_fin {m : Memory} {r : DefRegs} {l : List Item} {fin : DefRegs → DefRegs}
    (h : r.emission m = some (l, fin)) (q : DefRegs) : ∃ d, fin q = { q with dState := d } := by
  unfold DefRegs.emission at h
  split at h <;> cases h <;> exact ⟨_, rfl⟩

/-- Forming a block leaves the writer. -/
theorem formed_writer {c : Config} {m : Memory} {r q : DefRegs} (h : r.formed c m = some q) :
    q.bitq = r.bitq ∧ q.bitqCnt = r.bitqCnt ∧ q.thisOut = r.thisOut := by
  unfold DefRegs.formed at h
  split at h
  · by_cases hl : r.level = .noCompression
    · rw [if_pos hl, DefRegs.formStored_eq] at h
      cases h
      exact ⟨rfl, rfl, rfl⟩
    · rw [if_neg hl] at h
      cases h
      exact ⟨rfl, rfl, rfl⟩
  · cases h
    have hpass := r.sameButPass_runPass c m
    have hbuild := (r.runPass c m).sameButTables_buildTables
    have hwriter (q : DefRegs) (hq : q.bitq = (r.runPass c m).bitq ∧ q.bitqCnt = (r.runPass c m).bitqCnt ∧
        q.thisOut = (r.runPass c m).thisOut) : q.bitq = r.bitq ∧ q.bitqCnt = r.bitqCnt ∧ q.thisOut = r.thisOut := by
      obtain ⟨hq, hcnt, hout⟩ := hq
      exact ⟨hq.trans (congrArg DefRegs.bitq hpass :), hcnt.trans (congrArg DefRegs.bitqCnt hpass :),
        hout.trans (congrArg DefRegs.thisOut hpass :)⟩
    apply hwriter
    unfold DefRegs.afterPass
    split
    · exact ⟨(congrArg DefRegs.bitq hbuild :), (congrArg DefRegs.bitqCnt hbuild :), (congrArg DefRegs.thisOut hbuild :)⟩
    · exact ⟨rfl, rfl, rfl⟩
    · exact ⟨rfl, rfl, rfl⟩
  · cases h

theorem place_formed {s : State} {q : DefRegs} (o : List Byte) (h : s.dfl.formed s.cfg s.dflIn = some q) :
    State.place (o ++ State.encoded { s with dfl := q }) { s with dfl := q } = ((s.place (o ++ s.encoded)).1, q.core) := by
  obtain ⟨hq, hcnt, hout⟩ := formed_writer h
  simp only [State.place, State.encoded, hq, hcnt, hout]

open Relation in
/-- A step makes moves of the encoder. -/
theorem step_dfl_path {s t : State} (ht : s.turn = .dfl) (hm : s.dflOut.wf = true) (hw : s.dfl.WriterOk)
    (h : step s = .next t) (o : List Byte) :
    ReflTransGen (Encodes s.cfg s.dflIn) (s.place (o ++ s.encoded)) (t.place (o ++ t.encoded)) := by
  obtain ⟨l, fin, he, rfl⟩ | ⟨he, q, hq, rfl⟩ | ⟨-, rfl⟩ := step_dfl_moves ht h
  · obtain ⟨l', u, hu, hidx, ⟨rfl, hend⟩ | ⟨-, -, hend⟩⟩ := emitList_emission (fin := fin) hm hw.queueOk
      (emission_width hw he)
    · have hlast : l.drop u.dfl.core.emitIdx = [] := by
        have hcount : u.dfl.emitIdx = s.dfl.emitIdx + (l.length - s.dfl.emitIdx) := by
          rw [List.length_nil, List.length_drop] at hidx
          exact hidx
        rw [List.drop_eq_nil_iff, show u.dfl.core.emitIdx = u.dfl.emitIdx from rfl]
        omega
      have hlist : u.dfl.core.emission s.dflIn = some (l, fin) := by
        rw [emission_core, ← he]
        exact (congrArg (DefRegs.emission s.dflIn) hu.same :)
      have hplace : State.place (o ++ (s.emitList l fin).encoded) (s.emitList l fin) =
          ((u.place (o ++ u.encoded)).1, fin { u.dfl.core with emitIdx := 0 }) := by
        obtain ⟨d, hd⟩ := emission_fin he { u.dfl with emitIdx := 0 }
        have hcore : fin { u.dfl.core with emitIdx := 0 } = (fin { u.dfl with emitIdx := 0 }).core :=
          emission_fin_core he { u.dfl with emitIdx := 0 }
        rw [hend, hcore, hd]
        rfl
      rw [hplace]
      exact (hu.path s.cfg hidx he o).tail (encodes_end hlist hlast)
    · rw [hend]
      exact hu.path s.cfg hidx he o
  · have hcore : s.dfl.core.formed s.cfg s.dflIn = some q.core := by rw [formed_core, hq, Option.map_some]
    rw [place_formed o hq]
    exact .single (encodes_formed he hcore)
  · exact .refl

/-- A step answers PENDING, or END at the end of the stream (R399, R437). -/
theorem step_dfl_answer {s t : State} (ht : s.turn = .dfl) (hm : s.dflOut.wf = true) (hw : s.dfl.WriterOk)
    (h : step s = .next t) (hturn : t.turn = .host) (hne : t.dfl.lastStatus ≠ .pending) : t.dfl.dState = .dDone := by
  obtain ⟨l, fin, he, rfl⟩ | ⟨-, q, -, rfl⟩ | ⟨hd, rfl⟩ := step_dfl_moves ht h
  · obtain ⟨l', u, hu, -, ⟨-, hend⟩ | ⟨-, -, hend⟩⟩ := emitList_emission (fin := fin) hm hw.queueOk
      (emission_width hw he)
    · have hkept : u.turn = s.turn := (congrArg State.turn hu.rest :)
      rw [hend, show State.turn { u with dfl := _ } = u.turn from rfl, hkept, ht] at hturn
      cases hturn
    · rw [hend] at hne
      exact absurd rfl hne
  · rw [show State.turn { s with dfl := q } = s.turn from rfl, ht] at hturn
    cases hturn
  · exact hd

/-! ### sessions -/

/-- What holds in a STEP that began in `u`, when the session had delivered the bytes `o`. -/
structure InDefStep (o : List Byte) (u v : State) : Prop where
  turn : v.turn ≠ .inf
  wf : v.dflOut.wf = true
  order : v.dfl.InOrder u.cfg u.dflIn
  cfg : v.cfg = u.cfg
  input : v.dflIn = u.dflIn
  path : Relation.ReflTransGen (Encodes u.cfg u.dflIn) (u.place o) (v.place (o ++ v.encoded))
  answer : v.turn = .host → v.dfl.lastStatus ≠ .pending → v.dfl.dState = .dDone

theorem InDefStep.pass {o : List Byte} {u v w : State} (hhost : v.turn ≠ .host) (hw : step v = .next w)
    (h : InDefStep o u v) : InDefStep o u w := by
  have hv : v.turn = .dfl := by
    have hinf := h.turn
    cases hv : v.turn <;> simp_all
  have hframe := step_dfl_frame hv hw
  have hcfg : w.cfg = v.cfg := by rw [← hframe]; rfl
  have hin : w.dflIn = v.dflIn := by rw [← hframe]; rfl
  have horder : v.dfl.InOrder v.cfg v.dflIn := by rw [h.cfg, h.input]; exact h.order
  have hnext := step_dfl_inOrder hv horder hw
  have hpath := step_dfl_path hv h.wf horder.1 hw o
  rw [h.cfg, h.input] at hnext hpath
  exact ⟨(step_dfl_inf hv hw).1, (step_dfl_fills hv hw).wf h.wf, hnext, hcfg.trans h.cfg, hin.trans h.input,
    h.path.trans hpath, step_dfl_answer hv h.wf horder.1 hw⟩

/-- A whole DEF.STEP: the moves it makes, what it adds to TOTAL_OUT, and how it ends. -/
structure DefStepped (s t : State) : Prop where
  order : t.dfl.InOrder t.cfg t.dflIn
  cfg : t.cfg = s.cfg
  input : t.dflIn = s.dflIn
  path : ∀ o, Relation.ReflTransGen (Encodes s.cfg s.dflIn) (s.place o) (t.place (o ++ t.encoded))
  total : t.dfl.totalOut = s.dfl.totalOut + t.dfl.thisOut
  answer : t.dfl.lastStatus ≠ .pending → t.dfl.dState = .dDone

theorem defStep_encodes {s u t : State} {out : Buffer} {cap : Nat} (hs : s.dfl.InOrder s.cfg s.dflIn)
    (hu : exec (.defStep out cap) s = .next u) (ht : Ends u t) : DefStepped s t := by
  obtain ⟨-, rfl⟩ := exec_defStep_next hu
  have hin (o : List Byte) := ht.induct (P := InDefStep o s) (fun _ _ => InDefStep.pass)
    { turn := nofun
      wf := outputOf_wf cap out.bytes
      order := hs.startStep out.name cap
      cfg := rfl
      input := rfl
      path := by
        rw [show State.encoded _ = [] from rfl, List.append_nil]
        exact .refl
      answer := nofun }
  have h := hin []
  refine ⟨?_, h.cfg, h.input, fun o => (hin o).path, ?_, h.answer ht.turn⟩
  · rw [h.cfg, h.input]
    exact h.order
  · exact (ht.dfl_fills rfl).counted

/-- A session leads from its first context to one in D_DONE, with its bytes. -/
theorem DflSession.encodes {s t : State} {caps : List Nat} {bs : List Byte} (h : DflSession s caps bs t)
    (hs : s.dfl.InOrder s.cfg s.dflIn) (o : List Byte) :
    Relation.ReflTransGen (Encodes s.cfg s.dflIn) (s.place o) (t.place (o ++ bs)) ∧
      t.dfl.dState = .dDone ∧ t.dfl.bitqCnt = 0 ∧ t.dfl.totalOut = s.dfl.totalOut + bs.length := by
  induction h generalizing o with
  | last hu ht hne =>
    have hstep := defStep_encodes hs hu ht
    have hdone := hstep.answer hne
    exact ⟨hstep.path o, hdone, hstep.order.1.done hdone, by rw [Memory.length_bytes]; exact hstep.total⟩
  | @more s u t v _ _ _ _ hu ht _ _ ih =>
    have hstep := defStep_encodes hs hu ht
    obtain ⟨hrest, hdone, hempty, htotal⟩ := ih hstep.order (o ++ t.encoded)
    rw [hstep.cfg, hstep.input, List.append_assoc] at hrest
    refine ⟨(hstep.path o).trans hrest, hdone, hempty, ?_⟩
    rw [htotal, hstep.total, List.length_append, Memory.length_bytes, Nat.add_assoc]

theorem eq_of_encodes_done {c : Config} {m : Memory} {x y : Bits × DefRegs} (hx : x.2.dState = .dDone)
    (h : Relation.ReflTransGen (Encodes c m) x y) : y = x := by
  obtain rfl | ⟨z, hz, -⟩ := h.cases_head
  · rfl
  · simp [Encodes, encodeNext, DefRegs.emission, DefRegs.formed, hx] at hz

theorem bitsOfBytes_injective {a b : List Byte} (h : bitsOfBytes a = bitsOfBytes b) : a = b := by
  induction a generalizing b with
  | nil =>
    have hlen := congrArg List.length h
    rw [length_bitsOfBytes, length_bitsOfBytes] at hlen
    exact (List.length_eq_zero_iff.1 (by simpa using hlen.symm)).symm
  | cons x a ih =>
    cases b with
    | nil =>
      have hlen := congrArg List.length h
      simp at hlen
    | cons y b =>
      obtain ⟨hxy, hab⟩ := List.append_inj h (by simp)
      have hval := congrArg ofBitsLE hxy
      rw [ofBitsLE_bitsLE, ofBitsLE_bitsLE, Nat.mod_eq_of_lt x.isLt, Nat.mod_eq_of_lt y.isLt] at hval
      rw [BitVec.eq_of_toNat_eq hval, ih hab]

end Sys2Proof.Machine

open Sys2Proof Sys2Proof.Machine

/-- Settles O60: two sessions from one context make the same moves, up to the one place where there is none. -/
theorem deflateChunkingInvariance : Obligations.DeflateChunkingInvariance := by
  intro s t₁ t₂ c₁ c₂ o₁ o₂ _ hs h₁ h₂
  have hlife : s.dflLife = .active := by
    cases h₁ with
    | last hu _ _ => exact (exec_defStep_next hu).1
    | more hu _ _ _ => exact (exec_defStep_next hu).1
  obtain ⟨hpath₁, hdone₁, hempty₁, htotal₁⟩ := h₁.encodes (hs.2 hlife) []
  obtain ⟨hpath₂, hdone₂, hempty₂, htotal₂⟩ := h₂.encodes (hs.2 hlife) []
  have hplace : t₁.place o₁ = t₂.place o₂ := by
    obtain h | h := Relation.ReflTransGen.total_of_right_unique (encodes_rightUnique s.cfg s.dflIn) hpath₁ hpath₂
    · exact (eq_of_encodes_done hdone₁ h).symm
    · exact eq_of_encodes_done hdone₂ h
  have hbits : bitsOfBytes o₁ = bitsOfBytes o₂ := by
    have h := congrArg Prod.fst hplace
    simpa only [State.place, hempty₁, hempty₂, bitsLE, List.append_nil] using h
  obtain rfl := bitsOfBytes_injective hbits
  exact ⟨rfl, htotal₁.trans htotal₂.symm⟩

end

section
/-! PROOFS. The LZSS pass is greedy (R386): consuming bytes inserts each position with three bytes left, so that the search
at IN_CUR is the reference search over the history with every earlier position inserted. -/

namespace Sys2Proof.Machine

/-! ### the history and the checksum over consumed bytes (R212, R213, R308) -/

/-- The history is in the order the search and the eviction need (R211, R213). -/
structure DefRegs.SearchOk (c : Config) (m : Memory) (r : DefRegs) : Prop where
  slots : r.slotsOk c
  hashes : ∀ e ∈ r.hist, e.hash = hash3 m e.pos

section
variable {c : Config} {m : Memory} {r : DefRegs}

theorem DefRegs.SearchOk.insert (h : r.SearchOk c m) (p : Nat) : (r.insert c m p).SearchOk c m := by
  obtain ⟨old, slot, hold, hins⟩ := DefRegs.insert_hist h.slots m p
  refine ⟨DefRegs.insert_slotsOk h.slots m p, fun e he => ?_⟩
  rw [hins] at he
  obtain he | he := List.mem_append.1 he
  · exact h.hashes e (hold.subset he)
  · rw [List.mem_singleton.1 he]

/-- A position is inserted where three bytes are left (R212). -/
def DefRegs.insertAt (c : Config) (m : Memory) (p : Nat) (r : DefRegs) : DefRegs :=
  if 3 ≤ r.inEnd - p then r.insert c m p else r

theorem consume_succ (k p : Nat) :
    consume c m (k + 1) p r = consume c m k (p + 1) ((r.insertAt c m p).adlerUpdate (m.read p)) := rfl

theorem DefRegs.SearchOk.insertAt (h : r.SearchOk c m) (p : Nat) : (r.insertAt c m p).SearchOk c m := by
  unfold DefRegs.insertAt
  split
  · exact h.insert p
  · exact h

theorem DefRegs.insertAt_live (h : r.SearchOk c m) (p : Nat) :
    (r.insertAt c m p).live = liveAfter c.histCap r.inEnd 1 p r.live := by
  simp only [DefRegs.insertAt, liveAfter]
  by_cases h3 : p + 3 ≤ r.inEnd
  · rw [if_pos h3, if_pos (by omega)]
    exact DefRegs.live_insert h.slots m p
  · rw [if_neg h3, if_neg (by omega)]

theorem DefRegs.insertAt_kept (c : Config) (m : Memory) (p : Nat) (r : DefRegs) :
    (r.insertAt c m p).inEnd = r.inEnd ∧ (r.insertAt c m p).adlerS1 = r.adlerS1 ∧
      (r.insertAt c m p).adlerS2 = r.adlerS2 := by
  have h := r.insert_frame c m p
  unfold DefRegs.insertAt
  split
  · exact ⟨(congrArg DefRegs.inEnd h :), (congrArg DefRegs.adlerS1 h :), (congrArg DefRegs.adlerS2 h :)⟩
  · exact ⟨rfl, rfl, rfl⟩

theorem DefRegs.SearchOk.adlerUpdate (h : r.SearchOk c m) (b : Byte) : (r.adlerUpdate b).SearchOk c m :=
  ⟨h.slots, h.hashes⟩

theorem searchOk_consume (h : r.SearchOk c m) (k p : Nat) : (consume c m k p r).SearchOk c m := by
  induction k generalizing p r with
  | zero => exact h
  | succ k ih => exact ih ((h.insertAt p).adlerUpdate _) (p + 1)

theorem consume_live (h : r.SearchOk c m) (k p : Nat) :
    (consume c m k p r).live = liveAfter c.histCap r.inEnd k p r.live := by
  induction k generalizing p r with
  | zero => rfl
  | succ k ih =>
    rw [consume_succ, ih ((h.insertAt p).adlerUpdate _),
      show ((r.insertAt c m p).adlerUpdate (m.read p)).live = (r.insertAt c m p).live from rfl,
      show ((r.insertAt c m p).adlerUpdate (m.read p)).inEnd = (r.insertAt c m p).inEnd from rfl,
      (r.insertAt_kept c m p).1, DefRegs.insertAt_live h p]
    rfl

theorem consume_adler (c : Config) (m : Memory) (k p : Nat) (r : DefRegs) :
    ((consume c m k p r).adlerS1, (consume c m k p r).adlerS2) = adlerFrom (r.adlerS1, r.adlerS2) (m.bytes p k) := by
  induction k generalizing p r with
  | zero => rfl
  | succ k ih =>
    obtain ⟨-, hs1, hs2⟩ := r.insertAt_kept c m p
    rw [consume_succ, ih]
    simp only [DefRegs.adlerUpdate, hs1, hs2]
    rfl

theorem adlerFrom_append (sums : Nat × Nat) (a b : List Byte) :
    adlerFrom sums (a ++ b) = adlerFrom (adlerFrom sums a) b := List.foldl_append

theorem liveAfter_add (cap fin a b p : Nat) (live : List Nat) :
    liveAfter cap fin (a + b) p live = liveAfter cap fin b (p + a) (liveAfter cap fin a p live) := by
  induction a generalizing p live with
  | zero => rw [Nat.zero_add]; rfl
  | succ a ih =>
    rw [Nat.succ_add, liveAfter, ih, liveAfter, Nat.add_assoc, Nat.add_comm 1 a]

/-! ### the greedy token (R214, R386) -/

/-- The token at `q` that the rule asks for: the longest match over the history with every position from IN_CUR up to `q`
inserted, or the literal. -/
def DefRegs.greedyToken (c : Config) (m : Memory) (r : DefRegs) (q : Nat) : Token :=
  let f := if 3 ≤ r.inEnd - q then
      bestMatch m r.inEnd q (walked c.walkOrder (liveAfter c.histCap r.inEnd (q - r.inCur) r.inCur r.live))
    else ⟨0, 0⟩
  if 3 ≤ f.len then ⟨257 + lc f.len, f.len, f.dist⟩ else ⟨(m.read q).toNat, 1, 0⟩

/-- Where a pass that began at `r` is: every token so far is the greedy one, and stands where those before it end. -/
structure Greedy (c : Config) (m : Memory) (r q : DefRegs) : Prop where
  search : q.SearchOk c m
  inEnd : q.inEnd = r.inEnd
  cursor : q.inCur = r.inCur + (q.tok.map Token.len).sum
  live : q.live = liveAfter c.histCap r.inEnd (q.inCur - r.inCur) r.inCur r.live
  adler : (q.adlerS1, q.adlerS2) = adlerFrom (r.adlerS1, r.adlerS2) (m.bytes r.inCur (q.inCur - r.inCur))
  tokens : ∀ k, k < q.tokCnt → q.tok[k]? = some (r.greedyToken c m (r.inCur + ((q.tok.take k).map Token.len).sum))
  above : ∀ k, q.tokCnt ≤ k → q.tokAt k = r.tokAt k

theorem Greedy.start (h : r.SearchOk c m) : Greedy c m r r.startPass where
  search := ⟨h.slots, h.hashes⟩
  inEnd := rfl
  cursor := rfl
  live := by rw [show r.startPass.inCur = r.inCur from rfl, Nat.sub_self]; rfl
  adler := by rw [show r.startPass.inCur = r.inCur from rfl, Nat.sub_self]; rfl
  tokens _ hk := absurd hk (Nat.not_lt_zero _)
  above k _ := r.clearTok_tokAt k

variable {q : DefRegs}

theorem Greedy.nextToken (h : Greedy c m r q) : q.nextToken c m = r.greedyToken c m q.inCur := by
  simp only [DefRegs.nextToken, DefRegs.greedyToken, DefRegs.searchAt,
    DefRegs.findLongestMatch_eq_live q.inCur h.search.hashes, h.inEnd, h.live]

theorem DefRegs.passToken_tokAt (c : Config) (m : Memory) (q : DefRegs) (k : Nat) :
    (q.passToken c m).tokAt k = if k = q.tokCnt then q.nextToken c m else q.tokAt k := by
  rw [← DefRegs.pushTok_tokAt, DefRegs.passToken_eq]
  simp only [DefRegs.tokAt, consume_tok, consume_tokRest]
  rfl

theorem Greedy.passToken (h : Greedy c m r q) : Greedy c m r (q.passToken c m) := by
  have hcursor := h.cursor
  have hadd : (q.addToken (q.nextToken c m)).SearchOk c m := ⟨h.search.slots, h.search.hashes⟩
  have hpass := DefRegs.passToken_eq c m q
  have hcur : (q.passToken c m).inCur = q.inCur + (q.nextToken c m).len := by rw [hpass]
  have hdone : (q.passToken c m).inCur - r.inCur = (q.inCur - r.inCur) + (q.nextToken c m).len := by omega
  have hplace : r.inCur + (q.inCur - r.inCur) = q.inCur := by omega
  have htok : (q.passToken c m).tok = q.tok ++ [q.nextToken c m] := q.passToken_tok c m
  have hcnt : (q.passToken c m).tokCnt = q.tokCnt + 1 := by
    rw [DefRegs.tokCnt, htok, List.length_append]
    rfl
  refine ⟨?_, (q.passToken_inEnd c m).trans h.inEnd, ?_, ?_, ?_, fun k hk => ?_, fun k hk => ?_⟩
  · have hcons := searchOk_consume hadd (q.nextToken c m).len q.inCur
    rw [hpass]
    exact ⟨hcons.slots, hcons.hashes⟩
  · rw [hcur, htok, hcursor, List.map_append, List.sum_append, Nat.add_assoc]
    simp
  · have hlive := consume_live hadd (q.nextToken c m).len q.inCur
    rw [hdone, liveAfter_add, hplace, ← h.live, hpass, ← h.inEnd]
    exact hlive
  · rw [hdone, Memory.bytes_append, hplace, adlerFrom_append, ← h.adler, hpass]
    exact consume_adler ..
  · rw [htok]
    rw [hcnt] at hk
    obtain hlt | rfl := Nat.lt_succ_iff_lt_or_eq.1 hk
    · rw [List.getElem?_append_left hlt, List.take_append_of_le_length (Nat.le_of_lt hlt)]
      exact h.tokens k hlt
    · rw [DefRegs.tokCnt, List.getElem?_concat_length, List.take_left, ← hcursor, h.nextToken]
  · rw [DefRegs.passToken_tokAt, if_neg (by omega)]
    exact h.above k (by omega)

end

end Sys2Proof.Machine

open Sys2Proof Sys2Proof.Machine

/-- Settles O42: each token of the pass is the greedy one, and consumes its bytes into the history and the checksum. -/
theorem passIsGreedy : Obligations.PassIsGreedy := by
  intro c m r _ _ hslots hhash
  obtain ⟨-, h, -⟩ := passLoop_induct (c := c) (m := m) (P := fun _ q => Greedy c m r q)
    (fun _ _ _ h => h.passToken) (k := c.tokenCap) (Greedy.start ⟨hslots, hhash⟩)
  have htake : (r.runPass c m).tok.take (r.runPass c m).tokCnt = (r.runPass c m).tok := List.take_length
  refine ⟨h.tokens, h.above, ?_, h.live, h.adler, r.sameButPass_runPass c m⟩
  dsimp only
  rw [htake]
  exact h.cursor

end

section
/-! PROOFS. The host commands (R430 to R438): what each command does in each LIFE, and the triple with which an
engine's step ends a STEP (R435, R439). -/

namespace Sys2Proof.Machine

/-! ### the answers of STEP (R435, R439) -/

/-- A way to go on that hands over the move has answered. -/
theorem InfEnd.run_answers {s : State} (e : InfEnd) (ht : s.turn = .inf) (hhost : (e.run s).turn = .host) :
    ∃ u st, e.run s = State.answerInf st u := by
  cases e with
  | stay => exact absurd (ht.symm.trans hhost) (by decide)
  | raise c => exact ⟨_, _, rfl⟩
  | answer st => exact ⟨_, _, rfl⟩
  | store b => exact absurd (ht.symm.trans hhost) (by decide)
  | drain =>
    obtain hturn | ⟨n, u, -, -, hu⟩ := drainLoop_induct (P := fun _ u => u.turn = .inf) (fun _ _ _ h => h)
      (n := s.inf.pendLen) ht
    · exact absurd (hturn.symm.trans hhost) (by decide)
    · exact ⟨u, .pending, hu⟩

/-- A step of the INFLATE engine that hands over the move has answered (R435). -/
theorem step_inf_answerInf {s t : State} (ht : s.turn = .inf) (h : step s = .next t) (hhost : t.turn = .host) :
    ∃ u st, t = State.answerInf st u := by
  obtain ⟨q, e, -, -, hrun⟩ := step_inf_effect s
  obtain rfl := Host.Outcome.next.inj (h.symm.trans (hrun s ht rfl rfl rfl))
  exact e.run_answers ht hhost

/-- How a step of the DEFLATE engine ends a STEP: an emission suspends, or the stream has ended. -/
theorem step_dfl_answers {s t : State} (ht : s.turn = .dfl) (h : step s = .next t) (hhost : t.turn = .host) :
    Suspends s t ∨ t = s.answerDfl .ended := by
  obtain ⟨l, fin, -, rfl⟩ | ⟨-, q, -, rfl⟩ | ⟨-, rfl⟩ := step_dfl_moves ht h
  · exact .inl (emitList_suspends ht hhost)
  · exact absurd (ht.symm.trans hhost) (by decide)
  · exact .inr rfl

/-- A suspended emission has answered with the triple of its own state. -/
theorem Suspends.resp {s t : State} (h : Suspends s t) :
    t.resp = some (.step t.dfl.lastStatus t.dfl.thisOut (t.dfl.totalOut % 2 ^ t.cfg.cntW)) := by
  obtain ⟨-, hstatus, hresp, -, hframe⟩ := h
  have hcfg : t.cfg = s.cfg := (congrArg State.cfg hframe :)
  rw [hresp, hstatus, hcfg]

/-! ### the LIFEs that the table of R430 sets apart -/

theorem Life.created_or_active {l : Life} (h : l ≠ .absent) : l = .created ∨ l = .active := by
  cases l <;> simp_all

theorem Life.absent_or_created {l : Life} (h : l ≠ .active) : l = .absent ∨ l = .created := by
  cases l <;> simp_all

/-! ### the INFLATE engine's commands -/

section
variable {s : State}

theorem exec_infCreate_of_present (ok : Bool) (h : s.infLife ≠ .absent) :
    exec (.infCreate ok) s = .refused (.commandRefused s.infLife) := by
  obtain hlife | hlife := Life.created_or_active h <;> simp only [exec, execInfCreate, hlife]

/-- CREATE where the allocator agrees (R431, R54). -/
theorem exec_infCreate_of_agreed (h : s.infLife = .absent) :
    exec (.infCreate true) s = .next { s with
      resp := some (.status .ok)
      infLife := .created
      inf := { s.freeInfRegs with lastStatus := .ok }
      infIn := []
      infOut := []
      win := []
      freeCnt := s.freeCnt + 1 } := by
  simp only [exec, execInfCreate, h]
  rfl

/-- CREATE where it does not (R431, R452; log 14). -/
theorem exec_infCreate_of_denied (h : s.infLife = .absent) :
    exec (.infCreate false) s = .next { s with
      resp := some (.status .errorMemory), inf := { s.inf with lastStatus := .errorMemory } } := by
  simp only [exec, execInfCreate, h]
  rfl

theorem exec_infReset_of_absent (input : Nat) (data : List Byte) (h : s.infLife = .absent) :
    exec (.infReset input data) s = .refused (.commandRefused .absent) := by
  simp only [exec, execInfReset, h]

theorem exec_infReset_of_present {data : List Byte} (input : Nat) (h : s.infLife ≠ .absent)
    (hfit : data.length < 2 ^ s.cfg.xlen) : exec (.infReset input data) s = .next (s.resetInf input data) := by
  obtain hlife | hlife := Life.created_or_active h <;> simp [exec, execInfReset, hlife, capFits, hfit]

theorem exec_infStep_of_inactive (out : Buffer) (cap : Nat) (h : s.infLife ≠ .active) :
    exec (.infStep out cap) s = .refused (.commandRefused s.infLife) := by
  obtain hlife | hlife := Life.absent_or_created h <;> simp only [exec, execInfStep, hlife]

theorem exec_infDestroy_of_absent (h : s.infLife = .absent) :
    exec .infDestroy s = .refused (.commandRefused .absent) := by
  simp only [exec, execInfDestroy, h]

theorem exec_infDestroy_of_present (h : s.infLife ≠ .absent) : exec .infDestroy s = .next s.destroyInf := by
  obtain hlife | hlife := Life.created_or_active h <;> simp only [exec, execInfDestroy, hlife]

/-! ### the DEFLATE engine's commands -/

theorem exec_defCreate_of_present (ok : Bool) (h : s.dflLife ≠ .absent) :
    exec (.defCreate ok) s = .refused (.commandRefused s.dflLife) := by
  obtain hlife | hlife := Life.created_or_active h <;> simp only [exec, execDefCreate, hlife]

/-- CREATE where the allocator agrees (R431, R54). -/
theorem exec_defCreate_of_agreed (h : s.dflLife = .absent) :
    exec (.defCreate true) s = .next { s with
      resp := some (.status .ok)
      dflLife := .created
      dfl := { s.freeDflRegs with lastStatus := .ok }
      dflIn := []
      dflOut := []
      freeCnt := s.freeCnt + 1 } := by
  simp only [exec, execDefCreate, h]
  rfl

/-- CREATE where it does not (R431, R452; log 14). -/
theorem exec_defCreate_of_denied (h : s.dflLife = .absent) :
    exec (.defCreate false) s = .next { s with
      resp := some (.status .errorMemory), dfl := { s.dfl with lastStatus := .errorMemory } } := by
  simp only [exec, execDefCreate, h]
  rfl

theorem exec_defReset_of_absent (input : Nat) (data : List Byte) (level : BitVec 2) (h : s.dflLife = .absent) :
    exec (.defReset input data level) s = .refused (.commandRefused .absent) := by
  simp only [exec, execDefReset, h]

theorem exec_defReset_of_present (input : Nat) (data : List Byte) (level : BitVec 2) (h : s.dflLife ≠ .absent) :
    exec (.defReset input data level) s = s.resetDflWith input data level := by
  obtain hlife | hlife := Life.created_or_active h <;> simp only [exec, execDefReset, hlife]

theorem exec_defStep_of_inactive (out : Buffer) (cap : Nat) (h : s.dflLife ≠ .active) :
    exec (.defStep out cap) s = .refused (.commandRefused s.dflLife) := by
  obtain hlife | hlife := Life.absent_or_created h <;> simp only [exec, execDefStep, hlife]

theorem exec_defDestroy_of_absent (h : s.dflLife = .absent) :
    exec .defDestroy s = .refused (.commandRefused .absent) := by
  simp only [exec, execDefDestroy, h]

theorem exec_defDestroy_of_present (h : s.dflLife ≠ .absent) : exec .defDestroy s = .next s.destroyDfl := by
  obtain hlife | hlife := Life.created_or_active h <;> simp only [exec, execDefDestroy, hlife]

/-! ### the level of DEF.RESET (R34, R434) -/

theorem levelOf_of_ne_three : ∀ {v : BitVec 2}, v ≠ 3 →
    levelOf v = some (if v = 0 then .noCompression else if v = 1 then .fixed else .dynamic) := by decide

theorem exec_defReset_of_level {data : List Byte} {level : BitVec 2} (input : Nat) (h : s.dflLife ≠ .absent)
    (hfit : data.length < 2 ^ s.cfg.xlen) (hlevel : level ≠ 3) :
    exec (.defReset input data level) s = .next (s.resetDfl input data
      (if level = 0 then .noCompression else if level = 1 then .fixed else .dynamic)) := by
  rw [exec_defReset_of_present input data level h, State.resetDflWith, levelOf_of_ne_three hlevel]
  exact if_pos (decide_eq_true hfit)

end

/-! ### the registers after RESET (R55, R56) -/

/-- INPUT after RESET holds the operand's bytes (R433, R434). -/
theorem read_input (data : List Byte) (a : Nat) : (Memory.ofBytes data).read a = data.getD a 0 :=
  Memory.read_ofBytes data a

/-- With no live entry every bucket is empty (R43). -/
theorem DefRegs.headOf_of_no_entries {r : DefRegs} (h : r.hist = []) (c : Config) (b : Nat) : r.headOf c b = none := by
  rw [DefRegs.headOf, DefRegs.bucketEntries, h]
  rfl

/-- Where no slot was freed and one is fresh, the next is the first fresh one (R43). -/
theorem DefRegs.freeHead_of_fresh {c : Config} {r : DefRegs} (hfreed : r.freed = []) (hfresh : r.fresh < c.histCap) :
    r.freeHead c = some r.fresh := by
  rw [DefRegs.freeHead, hfreed]
  exact if_pos hfresh

end Sys2Proof.Machine

open Sys2Proof Sys2Proof.Machine

/-- Settles O27: an engine that hands over the move has answered, and its response is written with LAST_STATUS. -/
theorem stepAnswersAreClosed : Obligations.StepAnswersAreClosed := by
  refine ⟨fun s t ht h hhost => ⟨?_, ?_⟩, fun s t ht h hhost => ?_⟩
  · obtain ⟨u, st, rfl⟩ := step_inf_answerInf ht h hhost
    rfl
  · obtain ⟨hpending, -⟩ | ⟨-, hended⟩ | ⟨-, herror⟩ := step_inf_answer ht h hhost
    · exact .inr (.inl hpending)
    · exact .inl hended
    · exact .inr (.inr herror)
  · obtain hsuspends | rfl := step_dfl_answers ht h hhost
    · have ⟨_, hstatus, _⟩ := hsuspends
      exact ⟨hsuspends.resp, .inr hstatus⟩
    · exact ⟨rfl, .inl rfl⟩

/-- Settles O34, command by command. -/
theorem commandLegality : Obligations.CommandLegality := by
  intro s sp cap data buf level ok hdata hcap hlevel
  constructor
  · rintro life rfl
    refine ⟨exec_infCreate_of_present ok, fun h => ?_, exec_infStep_of_inactive _ cap, fun h => ?_,
      fun h => ⟨⟨_, exec_infReset_of_present sp h hdata⟩, _, exec_infDestroy_of_present h⟩,
      fun h => ⟨_, exec_infStep_of_active _ h hcap⟩⟩
    · rw [h]
      exact ⟨exec_infReset_of_absent sp data h, exec_infDestroy_of_absent h⟩
    · cases ok
      · exact ⟨_, exec_infCreate_of_denied h⟩
      · exact ⟨_, exec_infCreate_of_agreed h⟩
  · rintro life rfl
    have hne : level ≠ 3 := by
      rintro rfl
      exact absurd hlevel (by decide)
    refine ⟨exec_defCreate_of_present ok, fun h => ?_, exec_defStep_of_inactive _ cap, fun h => ?_,
      fun h => ⟨⟨_, exec_defReset_of_level sp h hdata hne⟩, _, exec_defDestroy_of_present h⟩,
      fun h => ⟨_, exec_defStep_of_active _ h hcap⟩⟩
    · rw [h]
      exact ⟨exec_defReset_of_absent sp data level h, exec_defDestroy_of_absent h⟩
    · cases ok
      · exact ⟨_, exec_defCreate_of_denied h⟩
      · exact ⟨_, exec_defCreate_of_agreed h⟩

/-- Settles O35, command by command; the buffer's bytes are OUTPUT's. -/
theorem createStepAndDestroyCommands : Obligations.CreateStepAndDestroyCommands := by
  refine ⟨fun s => ⟨fun h => ⟨⟨_, exec_infCreate_of_agreed h, ?_⟩, exec_infCreate_of_denied h⟩,
    fun h => ⟨⟨_, exec_defCreate_of_agreed h, ?_⟩, exec_defCreate_of_denied h⟩⟩, fun s out cap buf hcap =>
    ⟨fun h => exec_infStep_of_active ⟨out, buf⟩ h hcap, fun h => exec_defStep_of_active ⟨out, buf⟩ h hcap,
      fun a ha => outputOf_read ha buf, fun h => ⟨_, exec_infDestroy_of_present h, ?_⟩,
      fun h => ⟨_, exec_defDestroy_of_present h, ?_⟩⟩⟩
  all_goals simp

/-- Settles O36, by the registers that RESET writes. -/
theorem resetValues : Obligations.ResetValues := by
  refine ⟨fun s input data h hfit => ⟨_, exec_infReset_of_present input h hfit, ?_⟩,
    fun s input data level h hfit => ⟨?_, fun hne => ⟨_, exec_defReset_of_level input h hfit hne, ?_⟩⟩⟩
  · simp [InfRegs.afterReset, read_input]
  · rintro rfl
    exact exec_defReset_of_present input data 3 h
  · simp +contextual [DefRegs.afterReset, DefRegs.clearTok, DefRegs.tokCnt, DefRegs.histCnt, DefRegs.live,
      DefRegs.headOf_of_no_entries, DefRegs.freeHead_of_fresh, read_input]

end

section
/-! PROOFS. The length and distance rows (47_symbols.md): what reading one leaves, and the copy that a distance
starts. -/

namespace Sys2Proof.Machine

/-- A length row reads its base plus its extra bits. -/
theorem readsLength_of_row {i : Instr} {sym n x len : Nat} (hp : llParts i = some (sym, n, x)) (h₁ : 257 ≤ sym)
    (h₂ : sym ≤ 285) (hlen : lenBase (sym - 257) + x = len) : ReadsLength i (BitVec.ofNat 9 sym) len := fun s => by
  rw [exec_length hp h₁ h₂, ← hlen]
  rfl

/-- The match put in flight: `len` bytes from `d` back (R338). -/
def State.withMatch (sym : BitVec 9) (len d : Nat) (s : State) : State :=
  { s with inf := { s.inf with pendSym := sym, pendLen := len, pendDist := d, sub := .start } }

theorem takeDistance_of_le {s : State} {sym : BitVec 9} {len d : Nat} (hsub : s.inf.sub = .distance sym len)
    (hd : d ≤ s.inf.totalOut) : s.takeDistance d = .next (s.withMatch sym len d).drainCode := by
  simp only [State.takeDistance, hsub]
  exact if_neg (Nat.not_lt.2 hd)

/-- With room for all of the code in flight, `drainCode()` makes one pass for each of its bytes. -/
theorem drainCode_of_fits {s : State} (h : s.inf.thisOut + s.inf.pendLen ≤ s.inf.outLim) :
    s.drainCode = s.emitCode s.inf.pendLen := by
  rw [drainCode_eq (k := s.inf.pendLen) (by omega) (by omega), if_pos rfl]

/-- An element that reads a distance of R116 copies from there. -/
theorem copiesFrom_of_takeDistance {i : Instr} {d : Nat} (hexec : ∀ s, exec i s = s.takeDistance d) (hpos : 1 ≤ d)
    (hmax : d ≤ 32768) : CopiesFrom i d := by
  refine ⟨fun s sym len hsub hd => (hexec s).trans (takeDistance_of_le hsub hd), ?_⟩
  intro s sym len ho hw hcap hwin hsub hlen hroom hd src
  let u := s.withMatch sym len d
  have hdrain : exec i s = .next (u.emitCode len) := by
    rw [hexec, takeDistance_of_le hsub hd]
    exact congrArg Host.Outcome.next (drainCode_of_fits (s := u) hroom)
  have hwritten : CodeWritten u len (u.emitCode len) :=
    codeWritten_emitCode (s := u) ho hw hcap hmax hwin (show len ≤ s.cfg.winCap by omega)
  have hsrc : ∀ k, u.codeByte k = src k := fun k => if_neg (show ¬ d = 0 by omega)
  obtain ⟨hframe, hregs⟩ := emitCode_frame len u
  rw [hwritten.winPos, show u.inf.pendLen - len = 0 from Nat.sub_self len] at hregs
  exact ⟨u.emitCode len, hdrain, hregs, fun k hk => (hwritten.out k hk).trans (hsrc k), hwritten.outRest,
    fun k hk => (hwritten.win k hk).trans (hsrc k), hwritten.winRest,
    congrArg (fun t : State => { t with inf := s.inf }) hframe⟩

/-- A distance row copies from its base plus its extra bits. -/
theorem copiesFrom_of_row {i : Instr} {j n y d : Nat} (hp : dParts i = some (j, n, y)) (hj : j < 30)
    (hd : distBase j + y = d) : CopiesFrom i d := by
  obtain ⟨hn, hy⟩ := dParts_extra hp
  rw [hn, show dExtra j = distExtra j from if_pos hj] at hy
  obtain ⟨hpos, hmax⟩ := distRow_bounds (Nat.le_of_lt_succ hj) hy
  exact hd ▸ copiesFrom_of_takeDistance (exec_distance hp hj) hpos hmax

end Sys2Proof.Machine

open Sys2Proof.Machine

/-- Settles O18, row by row of R115's table. -/
theorem lengthSymbolsGiveTheirLength : Obligations.LengthSymbolsGiveTheirLength := by
  and_intros <;> intros <;> exact readsLength_of_row rfl (by decide) (by decide) rfl

/-- Settles O19, row by row of R116's table: a distance in flight is drained, and a drain copies it. -/
theorem distanceSymbolsCopyBack : Obligations.DistanceSymbolsCopyBack := by
  refine ⟨?_, ?_, ?_, ?_, ?_, ?_, ?_, ?_, ?_, ?_, ?_, ?_, ?_, ?_, ?_, ?_, ?_, ?_, ?_, ?_, ?_, ?_, ?_, ?_, ?_, ?_, ?_,
    ?_, ?_, ?_⟩ <;> intros <;> exact copiesFrom_of_row rfl (by decide) rfl

end

section
/-! PROOFS. The exceptions of the INFLATE engine (60_exceptions.md): the one way into I_ERROR is to raise a cause, with
the counts as they stood. -/

namespace Sys2Proof.Machine

/-- From `s` the engine comes into I_ERROR in `t` only by raising a cause (R455), before anything of the element goes
out: OUTPUT, the window and the counts are those of `s`. -/
def RaisesPrecisely (s t : State) : Prop :=
  t.inf.iState = .iError → s.inf.iState = .iError ∨
    ∃ (q : InfRegs) (c : Cause), s.inf.Forward q ∧ c ≠ .none ∧ t = State.raiseFormat c { s with inf := q }

theorem InfRegs.Forward.trans {r q p : InfRegs} (h₁ : r.Forward q) (h₂ : q.Forward p) : r.Forward p where
  bitpos := h₁.bitpos.trans h₂.bitpos
  brLen := h₂.brLen.trans h₁.brLen
  outLim := h₂.outLim.trans h₁.outLim
  thisOut := h₂.thisOut.trans h₁.thisOut
  totalOut := h₂.totalOut.trans h₁.totalOut
  winPos := h₂.winPos.trans h₁.winPos

section
variable {s t : State}

theorem raisesPrecisely_of_ne (h : t.inf.iState ≠ .iError) : RaisesPrecisely s t := fun he => absurd he h

theorem raisesPrecisely_of_eq (h : t.inf.iState = s.inf.iState) : RaisesPrecisely s t :=
  fun he => .inl (h.symm.trans he)

theorem raiseFormat_raises {c : Cause} (hc : c ≠ .none) : RaisesPrecisely s (s.raiseFormat c) :=
  fun _ => .inr ⟨s.inf, c, .refl _, hc, rfl⟩

/-- Registers written first, which leave I_STATE and the counts and do not move the cursor back. -/
theorem RaisesPrecisely.of_withInf {f : InfRegs → InfRegs} (h : RaisesPrecisely (s.withInf f) t)
    (hf : s.inf.Forward (f s.inf)) (hst : (f s.inf).iState = s.inf.iState) : RaisesPrecisely s t := by
  intro he
  obtain h | ⟨q, c, hq, hc, rfl⟩ := h he
  · exact .inl (hst.symm.trans h)
  · exact .inr ⟨q, c, hf.trans hq, hc, rfl⟩

end

/-! ### the shared operations -/

section
variable {s t : State}

theorem drainCode_iState (s : State) : s.drainCode.inf.iState = s.inf.iState :=
  (congrArg InfRegs.iState (drainLoop_frame s.inf.pendLen s).2 :)

theorem takeDistance_raises {d : Nat} (h : s.takeDistance d = .next t) : RaisesPrecisely s t := by
  obtain ⟨sym, len, -, ⟨-, rfl⟩ | ⟨-, rfl⟩⟩ := takeDistance_cases h
  · exact raiseFormat_raises (by decide)
  · exact raisesPrecisely_of_eq (drainCode_iState _)

theorem takeReservedDistance_raises (h : s.takeReservedDistance = .next t) : RaisesPrecisely s t := by
  unfold State.takeReservedDistance at h
  split at h <;> cases h
  exact raiseFormat_raises (by decide)

theorem appendRun_raises (seq : List (BitVec 4)) (n : Nat) (v : BitVec 4) :
    RaisesPrecisely s (s.appendRun seq n v) := by
  obtain ⟨-, ht⟩ | ⟨-, ht⟩ := appendRun_cases seq n v s <;> rw [ht]
  · exact raiseFormat_raises (by decide)
  · exact raisesPrecisely_of_eq rfl

theorem buildCl_raises (s : State) : RaisesPrecisely s s.buildCl := by
  unfold State.buildCl
  split
  · exact raiseFormat_raises (by decide)
  · exact raisesPrecisely_of_eq rfl

theorem finishLengths_raises (seq : List (BitVec 4)) (s : State) : RaisesPrecisely s (s.finishLengths seq) := by
  unfold State.finishLengths
  dsimp only
  split
  · exact (raiseFormat_raises (by decide)).of_withInf { InfRegs.Forward.refl _ with } rfl
  · split
    · exact ((raiseFormat_raises (by decide)).of_withInf { InfRegs.Forward.refl _ with } rfl).of_withInf
        { InfRegs.Forward.refl _ with } rfl
    · exact raisesPrecisely_of_eq rfl

/-! ### the elements -/

theorem execZhdr_raises {cm cinfo : BitVec 4} {fcheck : BitVec 5} {fdict : Bool} {flevel : BitVec 2}
    (h : execZhdr cm cinfo fcheck fdict flevel s = .next t) : RaisesPrecisely s t := by
  unfold execZhdr at h
  dsimp only at h
  split at h
  · rename_i c hc
    cases h
    exact (raiseFormat_raises (headerCause_ne_none hc)).of_withInf { InfRegs.Forward.refl _ with } rfl
  · split at h <;> cases h
    · exact raisesPrecisely_of_eq rfl
    · exact raisesPrecisely_of_ne nofun

theorem execShdr_raises {len nlen : BitVec 16} (h : execShdr len nlen s = .next t) : RaisesPrecisely s t := by
  unfold execShdr at h
  split at h <;> cases h
  · exact raisesPrecisely_of_eq rfl
  · exact raiseFormat_raises (by decide)

theorem execRaw_raises {b : Byte} (h : execRaw b s = .next t) : RaisesPrecisely s t := by
  unfold execRaw at h
  split at h
  · cases h
    exact raiseFormat_raises (by decide)
  · split at h <;> cases h <;> exact raisesPrecisely_of_eq rfl

theorem execDynhdr_raises {hlit hdist : BitVec 5} {hclen : BitVec 4} (h : execDynhdr hlit hdist hclen s = .next t) :
    RaisesPrecisely s t := by
  unfold execDynhdr at h
  dsimp only at h
  split at h <;> cases h
  · exact (raiseFormat_raises (by decide)).of_withInf { InfRegs.Forward.refl _ with } rfl
  · exact raisesPrecisely_of_eq rfl

theorem execCllens_raises {len : BitVec 3} (h : execCllens len s = .next t) : RaisesPrecisely s t := by
  unfold execCllens at h
  split at h
  · dsimp only at h
    split at h <;> cases h
    · exact raisesPrecisely_of_eq rfl
    · exact (buildCl_raises _).of_withInf { InfRegs.Forward.refl _ with } rfl
  · cases h

theorem execCl16_raises {x : BitVec 2} (h : execCl16 x s = .next t) : RaisesPrecisely s t := by
  unfold execCl16 at h
  split at h
  · split at h <;> cases h
    · exact raiseFormat_raises (by decide)
    · exact appendRun_raises _ _ _
  · cases h

theorem endBody_ne_iError (r : InfRegs) : r.endBody.iState ≠ .iError := by
  unfold InfRegs.endBody
  cases r.bfinal <;> nofun

/-- Every element of the compressed stream raises precisely. -/
theorem exec_wire_raises {i : Instr} (hi : i.isWire = true) (h : exec i s = .next t) : RaisesPrecisely s t := by
  cases i
  case zhdr => exact execZhdr_raises h
  case dictid | bhdrStored | bhdrFixed | bhdrDynamic => cases h; exact raisesPrecisely_of_ne nofun
  case bhdrReserved =>
    cases h
    exact (raiseFormat_raises (by decide)).of_withInf { InfRegs.Forward.refl _ with } rfl
  case pad =>
    cases h
    exact raisesPrecisely_of_eq (by simp [InfRegs.alignToByte_eq_byte])
  case shdr => exact execShdr_raises h
  case raw => exact execRaw_raises h
  case dynhdr => exact execDynhdr_raises h
  case cllens => exact execCllens_raises h
  case lit => cases h; exact raisesPrecisely_of_eq (drainCode_iState _)
  case eob => cases h; exact raisesPrecisely_of_ne (endBody_ne_iError _)
  case ll286 | ll287 => cases h; exact raiseFormat_raises (by decide)
  case dist30 | dist31 => exact takeReservedDistance_raises h
  case cl =>
    simp only [exec, execCl] at h
    split at h <;> cases h
    exact raisesPrecisely_of_eq rfl
  case cl16 => exact execCl16_raises h
  case cl17 | cl18 =>
    simp only [exec, execCl17, execCl18] at h
    split at h <;> cases h
    exact appendRun_raises _ _ _
  case trailer | infCreate | infReset | infStep | infDestroy | defCreate | defReset | defStep | defDestroy =>
    exact absurd hi Bool.false_ne_true
  case dist0 | dist1 | dist2 | dist3 | dist4 | dist5 | dist6 | dist7 | dist8 | dist9 | dist10 | dist11 | dist12
      | dist13 | dist14 | dist15 | dist16 | dist17 | dist18 | dist19 | dist20 | dist21 | dist22 | dist23 | dist24
      | dist25 | dist26 | dist27 | dist28 | dist29 => exact takeDistance_raises h
  all_goals cases h; exact raisesPrecisely_of_eq rfl

/-! ### the step -/

/-- The transitions that have no element. -/
theorem infInternal_raises (s : State) : RaisesPrecisely s s.infInternal := by
  unfold State.infInternal
  split
  · exact raisesPrecisely_of_ne (endBody_ne_iError _)
  · split
    · exact raisesPrecisely_of_eq (drainCode_iState s)
    · exact raisesPrecisely_of_eq rfl
  · split
    · exact raisesPrecisely_of_eq (drainCode_iState s)
    · split
      · exact finishLengths_raises _ s
      · exact raisesPrecisely_of_eq rfl
  all_goals exact raisesPrecisely_of_eq rfl

theorem step_inf_raises (ht : s.turn = .inf) (h : step s = .next t) : RaisesPrecisely s t := by
  obtain ⟨p, i, used, hp, hd, he⟩ | ⟨p, c, used, -, hd, rfl⟩ | ⟨-, rfl⟩ := step_inf_cases ht h
  · have hi := decodeAt_isWire hd (pos_inStream hp).1 (pos_inStream hp).2
    split at he
    · exact exec_wire_raises hi he
    · exact (exec_wire_raises hi he).of_withInf (s.inf.forward_advance used) rfl
  · exact (raiseFormat_raises (decodeAt_cause hd)).of_withInf (s.inf.forward_advance used) rfl
  · exact infInternal_raises s

end

end Sys2Proof.Machine

open Sys2Proof.Machine

/-- Settles O25: the one way into I_ERROR is a cause raised with the counts as they stood. -/
theorem errorIsPrecise : Obligations.ErrorIsPrecise := by
  intro s t ht hst h he
  obtain herr | ⟨q, c, hq, hc, rfl⟩ := step_inf_raises ht h he
  · exact absurd herr hst
  · have hresp : (State.raiseFormat c { s with inf := q }).resp =
        some (.step .errorFormat q.thisOut (q.totalOut % 2 ^ s.cfg.cntW)) := rfl
    rw [hq.thisOut, hq.totalOut] at hresp
    exact ⟨hc, rfl, rfl, hresp, rfl, rfl, hq.thisOut, hq.totalOut, hq.winPos⟩

end

section
/-! PROOFS. The power-on state (70_reset_and_hazards.md): its registers fit their widths, its memories list nothing, and
no session is under way. -/

namespace Sys2Proof.Machine

theorem InfRegs.fit_powerOn : InfRegs.powerOn.fit Config.default = .powerOn := by
  simp [InfRegs.fit, InfRegs.powerOn, fitBits, Trie.fit]

theorem DefRegs.fit_powerOn : DefRegs.powerOn.fit Config.default = .powerOn := by
  simp [DefRegs.fit, DefRegs.powerOn, fitBits, fitHist, trimEnd]

/-- Every value at power-on is one that fitting leaves as it is. -/
theorem reset_widthsOk : State.reset.WidthsOk := by
  have hinf := InfRegs.fit_widthsOk Config.default .powerOn
  have hdfl := DefRegs.fit_widthsOk Config.default .powerOn
  have hcodes := DefRegs.fit_codesOk Config.default .powerOn
  rw [InfRegs.fit_powerOn] at hinf
  rw [DefRegs.fit_powerOn] at hdfl hcodes
  exact ⟨hinf, hdfl, hcodes⟩

theorem reset_ok : State.reset.Ok where
  cfg := by decide
  widths := reset_widthsOk
  mem := ⟨rfl, rfl, rfl, rfl, rfl⟩
  inf := ⟨nofun, nofun⟩
  win := nofun
  dfl := ⟨nofun, nofun⟩

end Sys2Proof.Machine

open Sys2Proof.Machine

/-- Settles O50: no engine has a session, and the registers and memories are in order. -/
theorem powerOnIsOk : Obligations.PowerOnIsOk := ⟨reset_ok, rfl, rfl⟩

end
